-- ==== Sys2Proof/Word.lean ====
section
/-! DEFINITION. The word types of the PJC codec block (00_scope R10). -/

namespace Sys2Proof

/-- A 32-bit register, command word or host address (00_scope R7, R10). -/
abbrev Word := BitVec 32

/-- A `u8` or `s8` element of a memory. -/
abbrev Byte := BitVec 8

/-- A `u16` or `s16` element. -/
abbrev Half := BitVec 16

/-- A binary32 value, as the bit pattern the host sees in DCTBUF (00_scope R10, 20_memory R80). -/
abbrev F32 := BitVec 32

end Sys2Proof
end

