-- ==== Sys2Proof/Syntax.lean ====
section
/-! DEFINITION. The commands of the block: one constructor per row of the opcode table, its arguments the
operand fields of 30_encoding R102 at their widths, in the operand order of 30_encoding R104. -/

namespace Sys2Proof

/-- A command (30_encoding R101). A field may hold a value outside its legal range; such a command is ill-formed
and raises IllegalCommand (30_encoding R105). -/
inductive Instr where
  /-- Read `n` bits LSB-first (40 R130). -/
  | rdbits (n : BitVec 5)
  /-- Align the bit cursor to a byte (40 R131). -/
  | align
  /-- Build decode table `t` from LENS[0..n) (40 R132). -/
  | hbuild (t : BitVec 2) (n : BitVec 9)
  /-- Decode one symbol with table `t` (40 R133). -/
  | hdecode (t : BitVec 2)
  /-- Inflate one DEFLATE block (41 R168). -/
  | infblk
  /-- Inflate a DEFLATE stream (41 R170). -/
  | inflate
  /-- Strip the zlib wrapper and inflate (41 R171). -/
  | zinflate
  /-- Build both quantization tables for quality `q` (42 R191). -/
  | qbuild (q : BitVec 8)
  /-- Read entry `i` of table `t`, `z = 1` for a zig-zag index (42 R192). -/
  | qlookup (t : BitVec 1) (i : BitVec 6) (z : BitVec 1)
  /-- Forward 8x8 DCT of BLK into DCTBUF (44 R234). -/
  | fdct
  /-- Quantize DCTBUF into COEF with table `t` (44 R236). -/
  | quant (t : BitVec 1)
  /-- Build encoder Huffman table `t` (43 R211). -/
  | ehbuild (t : BitVec 2)
  /-- Entropy-code COEF for component `c` (45 R265). -/
  | encblk (c : BitVec 2)
  /-- Pad with 1-bits and emit the last byte (45 R266). -/
  | eflush
  /-- Reset the predictors and the entropy output (45 R267). -/
  | ereset
  deriving DecidableEq, Repr

end Sys2Proof
end

