-- ==== Sys2Proof/WellFormed.lean ====
section
/-! DEFINITION. Which commands have every field in the "values legal" column of 30_encoding R102. -/

namespace Sys2Proof

/-- The capacity of decode table number `t` (00_scope R7: LITLEN 288, DIST 32, CLEN 19; there is no table 3). -/
def decodeCapacity (t : BitVec 2) : Nat :=
  if t = 0 then 288 else if t = 1 then 32 else if t = 2 then 19 else 0

/-- Check (3) of 30_encoding R105: RDBITS N in 1..16; HBUILD and HDECODE T in 0..2; HBUILD N at most the table's
capacity; ENCBLK C in 0..2. Every other field has every value legal. -/
def Instr.wellFormed : Instr → Bool
  | .rdbits n => decide (1 ≤ n.toNat ∧ n.toNat ≤ 16)
  | .hbuild t n => decide (t ≠ 3 ∧ n.toNat ≤ decodeCapacity t)
  | .hdecode t => decide (t ≠ 3)
  | .encblk c => decide (c ≠ 3)
  | .align => true
  | .infblk => true
  | .inflate => true
  | .zinflate => true
  | .qbuild _ => true
  | .qlookup _ _ _ => true
  | .fdct => true
  | .quant _ => true
  | .ehbuild _ => true
  | .eflush => true
  | .ereset => true

end Sys2Proof
end

