-- ==== Sys2Proof/Decode.lean ====
section
/-! DEFINITION. From a command word to a command, and back (30_encoding R100 to R105). -/

namespace Sys2Proof

/-- Why a word is no command: check (1) or check (2) of 30_encoding R105. -/
inductive DecodeError where
  /-- OPC is not in the map of R101. -/
  | unknownOpcode (opc : BitVec 8)
  /-- A bit of [31:8] that is no field of the command is 1. -/
  | reservedBits (mnemonic : String)
  deriving DecidableEq, Repr

/-- A row of the opcode table: its opcode, the bits of [31:8] that hold its operand fields, and the command those
fields spell. -/
structure OpcodeRow where
  mnemonic : String
  opc : BitVec 8
  fieldBits : Word
  build : Word → Instr

/-- The decode-side rows of 30_encoding R101, with the fields of R102. -/
def decodeSideRows : List OpcodeRow :=
  [ ⟨"RDBITS", 0x01#8, 0x00001F00#32, fun w => .rdbits (w.extractLsb' 8 5)⟩,
    ⟨"ALIGN", 0x02#8, 0#32, fun _ => .align⟩,
    ⟨"HBUILD", 0x03#8, 0x01FF0300#32, fun w => .hbuild (w.extractLsb' 8 2) (w.extractLsb' 16 9)⟩,
    ⟨"HDECODE", 0x04#8, 0x00000300#32, fun w => .hdecode (w.extractLsb' 8 2)⟩,
    ⟨"INFBLK", 0x08#8, 0#32, fun _ => .infblk⟩,
    ⟨"INFLATE", 0x09#8, 0#32, fun _ => .inflate⟩,
    ⟨"ZINFLATE", 0x0A#8, 0#32, fun _ => .zinflate⟩ ]

/-- The encode-side rows of 30_encoding R101, with the fields of R102. -/
def encodeSideRows : List OpcodeRow :=
  [ ⟨"QBUILD", 0x10#8, 0x0000FF00#32, fun w => .qbuild (w.extractLsb' 8 8)⟩,
    ⟨"QLOOKUP", 0x11#8, 0x003F0300#32,
      fun w => .qlookup (w.extractLsb' 8 1) (w.extractLsb' 16 6) (w.extractLsb' 9 1)⟩,
    ⟨"FDCT", 0x12#8, 0#32, fun _ => .fdct⟩,
    ⟨"QUANT", 0x13#8, 0x00000100#32, fun w => .quant (w.extractLsb' 8 1)⟩,
    ⟨"EHBUILD", 0x18#8, 0x00000300#32, fun w => .ehbuild (w.extractLsb' 8 2)⟩,
    ⟨"ENCBLK", 0x19#8, 0x00000300#32, fun w => .encblk (w.extractLsb' 8 2)⟩,
    ⟨"EFLUSH", 0x1A#8, 0#32, fun _ => .eflush⟩,
    ⟨"ERESET", 0x1B#8, 0#32, fun _ => .ereset⟩ ]

/-- The opcode map (30_encoding R101). -/
def opcodeRows : List OpcodeRow := decodeSideRows ++ encodeSideRows

/-- The opcode field OPC, bits [7:0] (30_encoding R100). -/
def opcodeOf (w : Word) : BitVec 8 := w.extractLsb' 0 8

/-- The bits of [31:8] that are reserved in a row (30_encoding R100). -/
def OpcodeRow.reserved (r : OpcodeRow) : Word := ~~~(r.fieldBits ||| 0xFF#32)

/-- Decode a command word: checks (1) and (2) of 30_encoding R105, then the fields. A command whose field is out of
range is ill-formed (`Instr.wellFormed`, check (3)). -/
def decode (w : Word) : Except DecodeError Instr :=
  match opcodeRows.find? (fun r => r.opc == opcodeOf w) with
  | none => .error (.unknownOpcode (opcodeOf w))
  | some r => if w &&& r.reserved = 0 then .ok (r.build w) else .error (.reservedBits r.mnemonic)

/-- A legal command word: none of the three conditions of 30_encoding R105 holds. -/
def legalWord (w : Word) : Bool :=
  match decode w with
  | .ok i => i.wellFormed
  | .error _ => false

/-- The opcode of a command (30_encoding R101). -/
def Instr.opcode : Instr → BitVec 8
  | .rdbits _ => 0x01
  | .align => 0x02
  | .hbuild _ _ => 0x03
  | .hdecode _ => 0x04
  | .infblk => 0x08
  | .inflate => 0x09
  | .zinflate => 0x0A
  | .qbuild _ => 0x10
  | .qlookup _ _ _ => 0x11
  | .fdct => 0x12
  | .quant _ => 0x13
  | .ehbuild _ => 0x18
  | .encblk _ => 0x19
  | .eflush => 0x1A
  | .ereset => 0x1B

/-- A field placed with its bit 0 at bit `lo` of the command word (30_encoding R103). -/
def placeField {k : Nat} (f : BitVec k) (lo : Nat) : Word := f.setWidth 32 <<< lo

/-- The word of a command, `OPC | Σ (F << lo)` (30_encoding R103, R104). -/
def encode : Instr → Word
  | .rdbits n => 0x00000001#32 ||| placeField n 8
  | .align => 0x00000002#32
  | .hbuild t n => 0x00000003#32 ||| placeField t 8 ||| placeField n 16
  | .hdecode t => 0x00000004#32 ||| placeField t 8
  | .infblk => 0x00000008#32
  | .inflate => 0x00000009#32
  | .zinflate => 0x0000000A#32
  | .qbuild q => 0x00000010#32 ||| placeField q 8
  | .qlookup t i z => 0x00000011#32 ||| placeField t 8 ||| placeField z 9 ||| placeField i 16
  | .fdct => 0x00000012#32
  | .quant t => 0x00000013#32 ||| placeField t 8
  | .ehbuild t => 0x00000018#32 ||| placeField t 8
  | .encblk c => 0x00000019#32 ||| placeField c 8
  | .eflush => 0x0000001A#32
  | .ereset => 0x0000001B#32

/-- The command the decoder reads from the low `nbits` bits of `w`, every bit above them 0. A command is one word
(30_encoding R100), so the numbering of the opcode table is the word's own. -/
def decodeTableWord (nbits w : Nat) : Option Instr :=
  match decode (BitVec.ofNat 32 (w % 2 ^ nbits)) with
  | .ok i => some i
  | .error _ => none

end Sys2Proof
end

