-- ==== Sys2Proof/Machine/Bits.lean ====
section
/-! DEFINITION. Bit-field and byte-order helpers, on mathematical integers where the spec says so (00_scope R9, R10,
R13, R14; 20_memory R75, R80). -/

namespace Sys2Proof.Machine

/-- The least `s` with `m < 2^s` (00_scope R14). -/
def bitlen (m : Nat) : Nat := if m = 0 then 0 else m.log2 + 1

/-- Byte `i` of a little-endian value (20_memory R80): bits [8i+7:8i]. -/
def byteAt {k : Nat} (v : BitVec k) (i : Nat) : Byte := v.extractLsb' (8 * i) 8

/-- The `u16` `v` with its little-endian byte `i` (0 or 1) replaced by `b` (20_memory R75, R80). -/
def setHalfByte (v : Half) (i : Nat) (b : Byte) : Half :=
  if i = 0 then byteAt v 1 ++ b else b ++ byteAt v 0

/-- The value of bytes in address order, lowest address least significant (20_memory R75 MemRead). -/
def assembleBytes : List Byte → Nat
  | [] => 0
  | b :: bs => b.toNat + 256 * assembleBytes bs

/-- The value of bits written first bit most significant (45_entropy R260: P read as a number). -/
def bitsValue (bits : List Bool) : Nat :=
  bits.foldl (fun acc b => 2 * acc + b.toNat) 0

/-- The value of bits read first bit least significant (40_bitreader R121). -/
def bitsValueLsb : List Bool → Nat
  | [] => 0
  | b :: bs => b.toNat + 2 * bitsValueLsb bs

/-- The `n` low bits of `v`, most significant first (45_entropy R260: `for i in n−1 down to 0: v[i]`). -/
def fieldBits (v : Nat) : Nat → List Bool
  | 0 => []
  | n + 1 => v.testBit n :: fieldBits v n

/-- `clamp(x, lo, hi) = min(max(x, lo), hi)` (42_quant R190). -/
def clampNat (x lo hi : Nat) : Nat := min (max x lo) hi

/-- A one-bit flag as the number 0 or 1. -/
def flagNat (b : Bool) : Nat := b.toNat

end Sys2Proof.Machine
end

