-- ==== Sys2Proof/Config.lean ====
section
/-! DEFINITION. What an implementation fixes (00_scope R7) and the free values the spec leaves open. -/

namespace Sys2Proof

/-- The OPEN parameters of 00_scope R7, as the size registers show them (10_state R34). -/
structure Params where
  inSize : Word
  outSize : Word
  ecsSize : Word
  deriving DecidableEq, Repr

/-- The ranges of 00_scope R7: 6 <= IN_SIZE, 1 <= OUT_SIZE, 2 <= ECS_SIZE, each at most 2^24. -/
def Params.inRange (p : Params) : Bool :=
  decide (6 ≤ p.inSize.toNat ∧ p.inSize.toNat ≤ 2 ^ 24 ∧ 1 ≤ p.outSize.toNat ∧ p.outSize.toNat ≤ 2 ^ 24 ∧
    2 ≤ p.ecsSize.toNat ∧ p.ecsSize.toNat ≤ 2 ^ 24)

/-- DESIGN CHOICE (log 4, unsafe only for a claim about the sizes after `State.reset`): the parameters of the
machine that `State.reset` builds, each at the top of its range. `State.resetAt` builds it for any others. -/
def Config.params : Params := ⟨0x01000000#32, 0x01000000#32, 0x01000000#32⟩

/-- Free value (log 3): the byte at host address `a` after power-on, for the memories that 70_reset R340 calls
unspecified (IN, OUT, ECS, LENS, BLK, COEF, DCTBUF), "the same for every later read until something writes it". -/
opaque Config.powerOnByte : Nat → Byte

end Sys2Proof
end

