-- ==== Sys2Proof/Machine/Rom.lean ====
section
/-! DEFINITION. The fixed tables of the block (10_state R45 to R47). PRESUMED by the spec itself, which marks them "from
general knowledge, not in source" (log 5). They stand here and not in Config so that a repair can mend them. -/

namespace Sys2Proof.Machine

/-- A Huffman specification HSPEC t (10_state R43): BITS[L] for L = 1..16 at index L-1, and VALS[0..255]. -/
structure HSpec where
  bits : Vector Byte 16
  vals : Vector Byte 256
  deriving DecidableEq, Repr

/-- ZZ[k], the natural index of scan position k (10_state R45). -/
def zzRom : List Nat :=
  [0, 1, 8, 16, 9, 2, 3, 10] ++
  [17, 24, 32, 25, 18, 11, 4, 5] ++
  [12, 19, 26, 33, 40, 48, 41, 34] ++
  [27, 20, 13, 6, 7, 14, 21, 28] ++
  [35, 42, 49, 56, 57, 50, 43, 36] ++
  [29, 22, 15, 23, 30, 37, 44, 51] ++
  [58, 59, 52, 45, 38, 31, 39, 46] ++
  [53, 60, 61, 54, 47, 55, 62, 63]

/-- QSTD_Y, natural order (10_state R46). -/
def qstdYRom : List Nat :=
  [16, 11, 10, 16, 24, 40, 51, 61] ++
  [12, 12, 14, 19, 26, 58, 60, 55] ++
  [14, 13, 16, 24, 40, 57, 69, 56] ++
  [14, 17, 22, 29, 51, 87, 80, 62] ++
  [18, 22, 37, 56, 68, 109, 103, 77] ++
  [24, 35, 55, 64, 81, 104, 113, 92] ++
  [49, 64, 78, 87, 103, 121, 120, 101] ++
  [72, 92, 95, 98, 112, 100, 103, 99]

/-- QSTD_C, natural order (10_state R46). -/
def qstdCRom : List Nat :=
  [17, 18, 24, 47, 99, 99, 99, 99] ++
  [18, 21, 26, 66, 99, 99, 99, 99] ++
  [24, 26, 56, 99, 99, 99, 99, 99] ++
  [47, 66, 99, 99, 99, 99, 99, 99] ++
  [99, 99, 99, 99, 99, 99, 99, 99] ++
  [99, 99, 99, 99, 99, 99, 99, 99] ++
  [99, 99, 99, 99, 99, 99, 99, 99] ++
  [99, 99, 99, 99, 99, 99, 99, 99]

/-- BITS[1..16] of HSPEC_ROM t, t = DC-Y, DC-C, AC-Y, AC-C (10_state R47). -/
def hspecRomBits : List (List Nat) :=
  [[0, 1, 5, 1, 1, 1, 1, 1, 1, 0, 0, 0, 0, 0, 0, 0],
   [0, 3, 1, 1, 1, 1, 1, 1, 1, 1, 1, 0, 0, 0, 0, 0],
   [0, 2, 1, 3, 3, 2, 4, 3, 5, 5, 4, 4, 0, 0, 1, 125],
   [0, 2, 1, 2, 4, 4, 3, 4, 7, 5, 4, 4, 0, 1, 2, 119]]

/-- VALS of HSPEC_ROM 0 and 1 (10_state R47). -/
def dcRomVals : List Nat :=
  [0, 1, 2, 3, 4, 5, 6, 7, 8, 9, 10, 11]

/-- VALS of HSPEC_ROM 2 (10_state R47). -/
def acYRomVals : List Nat :=
  [0x01, 0x02, 0x03, 0x00, 0x04, 0x11, 0x05, 0x12, 0x21, 0x31, 0x41, 0x06, 0x13, 0x51, 0x61, 0x07] ++
  [0x22, 0x71, 0x14, 0x32, 0x81, 0x91, 0xA1, 0x08, 0x23, 0x42, 0xB1, 0xC1, 0x15, 0x52, 0xD1, 0xF0] ++
  [0x24, 0x33, 0x62, 0x72, 0x82, 0x09, 0x0A, 0x16, 0x17, 0x18, 0x19, 0x1A, 0x25, 0x26, 0x27, 0x28] ++
  [0x29, 0x2A, 0x34, 0x35, 0x36, 0x37, 0x38, 0x39, 0x3A, 0x43, 0x44, 0x45, 0x46, 0x47, 0x48, 0x49] ++
  [0x4A, 0x53, 0x54, 0x55, 0x56, 0x57, 0x58, 0x59, 0x5A, 0x63, 0x64, 0x65, 0x66, 0x67, 0x68, 0x69] ++
  [0x6A, 0x73, 0x74, 0x75, 0x76, 0x77, 0x78, 0x79, 0x7A, 0x83, 0x84, 0x85, 0x86, 0x87, 0x88, 0x89] ++
  [0x8A, 0x92, 0x93, 0x94, 0x95, 0x96, 0x97, 0x98, 0x99, 0x9A, 0xA2, 0xA3, 0xA4, 0xA5, 0xA6, 0xA7] ++
  [0xA8, 0xA9, 0xAA, 0xB2, 0xB3, 0xB4, 0xB5, 0xB6, 0xB7, 0xB8, 0xB9, 0xBA, 0xC2, 0xC3, 0xC4, 0xC5] ++
  [0xC6, 0xC7, 0xC8, 0xC9, 0xCA, 0xD2, 0xD3, 0xD4, 0xD5, 0xD6, 0xD7, 0xD8, 0xD9, 0xDA, 0xE1, 0xE2] ++
  [0xE3, 0xE4, 0xE5, 0xE6, 0xE7, 0xE8, 0xE9, 0xEA, 0xF1, 0xF2, 0xF3, 0xF4, 0xF5, 0xF6, 0xF7, 0xF8] ++
  [0xF9, 0xFA]

/-- VALS of HSPEC_ROM 3 (10_state R47). -/
def acCRomVals : List Nat :=
  [0x00, 0x01, 0x02, 0x03, 0x11, 0x04, 0x05, 0x21, 0x31, 0x06, 0x12, 0x41, 0x51, 0x07, 0x61, 0x71] ++
  [0x13, 0x22, 0x32, 0x81, 0x08, 0x14, 0x42, 0x91, 0xA1, 0xB1, 0xC1, 0x09, 0x23, 0x33, 0x52, 0xF0] ++
  [0x15, 0x62, 0x72, 0xD1, 0x0A, 0x16, 0x24, 0x34, 0xE1, 0x25, 0xF1, 0x17, 0x18, 0x19, 0x1A, 0x26] ++
  [0x27, 0x28, 0x29, 0x2A, 0x35, 0x36, 0x37, 0x38, 0x39, 0x3A, 0x43, 0x44, 0x45, 0x46, 0x47, 0x48] ++
  [0x49, 0x4A, 0x53, 0x54, 0x55, 0x56, 0x57, 0x58, 0x59, 0x5A, 0x63, 0x64, 0x65, 0x66, 0x67, 0x68] ++
  [0x69, 0x6A, 0x73, 0x74, 0x75, 0x76, 0x77, 0x78, 0x79, 0x7A, 0x82, 0x83, 0x84, 0x85, 0x86, 0x87] ++
  [0x88, 0x89, 0x8A, 0x92, 0x93, 0x94, 0x95, 0x96, 0x97, 0x98, 0x99, 0x9A, 0xA2, 0xA3, 0xA4, 0xA5] ++
  [0xA6, 0xA7, 0xA8, 0xA9, 0xAA, 0xB2, 0xB3, 0xB4, 0xB5, 0xB6, 0xB7, 0xB8, 0xB9, 0xBA, 0xC2, 0xC3] ++
  [0xC4, 0xC5, 0xC6, 0xC7, 0xC8, 0xC9, 0xCA, 0xD2, 0xD3, 0xD4, 0xD5, 0xD6, 0xD7, 0xD8, 0xD9, 0xDA] ++
  [0xE2, 0xE3, 0xE4, 0xE5, 0xE6, 0xE7, 0xE8, 0xE9, 0xEA, 0xF2, 0xF3, 0xF4, 0xF5, 0xF6, 0xF7, 0xF8] ++
  [0xF9, 0xFA]

/-- VALS of HSPEC_ROM t (10_state R47). -/
def hspecRomVals (t : Nat) : List Nat :=
  if t ≤ 1 then dcRomVals else if t = 2 then acYRomVals else acCRomVals

/-- HSPEC_ROM t; "VALS bytes past the sum of BITS are 0" (10_state R47). -/
def hspecRom (t : Fin 4) : HSpec where
  bits := Vector.ofFn fun l => BitVec.ofNat 8 ((hspecRomBits.getD t []).getD l 0)
  vals := Vector.ofFn fun j => BitVec.ofNat 8 ((hspecRomVals t).getD j 0)

/-- ZZ[k] (10_state R45). -/
def zz (k : Nat) : Nat := zzRom.getD k 0

/-- QSTD_Y[i] (10_state R46). -/
def qstdY (i : Nat) : Nat := qstdYRom.getD i 0

/-- QSTD_C[i] (10_state R46). -/
def qstdC (i : Nat) : Nat := qstdCRom.getD i 0

/-- The code-length permutation PERM[0..18] (41_inflate R155). -/
def permRom : List Nat := [16, 17, 18, 0, 8, 7, 9, 6, 10, 5, 11, 4, 12, 3, 13, 2, 14, 1, 15]

/-- LBASE[c], c = symbol - 257 (41_inflate R161). -/
def lbase : List Nat :=
  [3, 4, 5, 6, 7, 8, 9, 10, 11, 13] ++ [15, 17, 19, 23, 27, 31, 35, 43, 51, 59] ++
  [67, 83, 99, 115, 131, 163, 195, 227, 258]

/-- LEXTRA[c] (41_inflate R161). -/
def lextra : List Nat :=
  [0, 0, 0, 0, 0, 0, 0, 0, 1, 1] ++ [1, 1, 2, 2, 2, 2, 3, 3, 3, 3] ++ [4, 4, 4, 4, 5, 5, 5, 5, 0]

/-- DBASE[d] (41_inflate R161). -/
def dbase : List Nat :=
  [1, 2, 3, 4, 5, 7, 9, 13, 17, 25] ++ [33, 49, 65, 97, 129, 193, 257, 385, 513, 769] ++
  [1025, 1537, 2049, 3073, 4097, 6145, 8193, 12289, 16385, 24577]

/-- DEXTRA[d] (41_inflate R161). -/
def dextra : List Nat :=
  [0, 0, 0, 0, 1, 1, 2, 2, 3, 3] ++ [4, 4, 5, 5, 6, 6, 7, 7, 8, 8] ++ [9, 9, 10, 10, 11, 11, 12, 12, 13, 13]

/-- FIXED_LIT, the literal/length code lengths of a fixed block (41_inflate R153). -/
def fixedLit : List Nat :=
  List.replicate 144 8 ++ List.replicate 112 9 ++ List.replicate 24 7 ++ List.replicate 8 8

/-- FIXED_DIST, the distance code lengths of a fixed block (41_inflate R153). -/
def fixedDist : List Nat := List.replicate 32 5

/-- The constant the ID register reads, "PJC1" (10_state R22). -/
def idConstant : Word := 0x504A4331#32

/-- First host address of the window of IN (20_memory R72). -/
def inBase : Nat := 0x01000000

/-- First host address of the window of OUT (20_memory R72). -/
def outBase : Nat := 0x02000000

/-- First host address of the window of ECS (20_memory R72). -/
def ecsBase : Nat := 0x03000000

/-- First host address of LENS (20_memory R72). -/
def lensBase : Nat := 0x1000

/-- First host address of BLK (20_memory R72). -/
def blkBase : Nat := 0x3000

/-- First host address of COEF (20_memory R72). -/
def coefBase : Nat := 0x3100

/-- First host address of DCTBUF (20_memory R72). -/
def dctbufBase : Nat := 0x3200

end Sys2Proof.Machine
end

