-- ==== Sys2Proof/Machine/HuffBuild.lean ====
section
/-! DEFINITION. From a JPEG Huffman specification to its code table (43_huffman_tables R210). -/

namespace Sys2Proof.Machine

/-- An entry of EHUF: the code and its length, length 0 for a symbol without a code (10_state R44). -/
structure EHufEntry where
  code : Half
  size : BitVec 5
  deriving DecidableEq, Repr

/-- An encoder Huffman table (10_state R44). -/
abbrev EHufTable := Vector EHufEntry 256

/-- The entry of a symbol without a code. -/
def EHufEntry.absent : EHufEntry := ⟨0, 0⟩

/-- BITS[1..16] as numbers. -/
def HSpec.counts (h : HSpec) : List Nat := h.bits.toList.map BitVec.toNat

/-- The count N of codes (43 R210). -/
def HSpec.total (h : HSpec) : Nat := h.counts.sum

/-- VALS[0..N), the symbols in canonical order (43 R210); bytes at j >= N are not read. -/
def HSpec.symbols (h : HSpec) : List Byte := h.vals.toList.take h.total

/-- The lengths of the N codes in the order they are emitted: BITS[L] codes of each length L = 1..16. -/
def codeLengths : List Nat → Nat → List Nat
  | [], _ => []
  | n :: counts, len => List.replicate n len ++ codeLengths counts (len + 1)

/-- The N codes in the order they are emitted: within a length consecutive, shifted left by one at each length
boundary. `cur` is the length reached and `code` the next code at that length. `none` when a code does not fit
its length. -/
def emitCodes : List Nat → Nat → Nat → Option (List Nat)
  | [], _, _ => some []
  | len :: lens, cur, code =>
    let c := code * 2 ^ (len - cur)
    if 2 ^ len ≤ c then none else (emitCodes lens len (c + 1)).map (c :: ·)

/-- Entry `s` of the table that gives each symbol of `rows` its code. -/
def entryOf (rows : List (Byte × Nat × Nat)) (s : Byte) : EHufEntry :=
  match rows.find? (fun r => r.1 == s) with
  | some (_, len, code) => ⟨BitVec.ofNat 16 code, BitVec.ofNat 5 len⟩
  | none => .absent

/-- A list without repeats (the duplicate check of 43 R210). -/
def noRepeats : List Byte → Bool
  | [] => true
  | b :: bs => !bs.elem b && noRepeats bs

/-- HuffBuild(t), `none` for HuffSpec (43 R210): the count sum, the DC values, duplicates, then code overflow. -/
def huffBuild (t : Fin 4) (h : HSpec) : Option EHufTable :=
  if 256 < h.total then none
  else if t.val ≤ 1 ∧ h.symbols.any (fun s => decide (11 < s.toNat)) then none
  else if noRepeats h.symbols = false then none
  else
    let lens := codeLengths h.counts 1
    match emitCodes lens 1 0 with
    | none => none
    | some codes =>
      let rows := h.symbols.zip (lens.zip codes)
      some (Vector.ofFn fun s => entryOf rows (BitVec.ofNat 8 s))

/-- EHUF t after reset, "built from HSPEC_ROM" (10_state R44, 43 R214, which says the build never raises there). -/
def ehufRom (t : Fin 4) : EHufTable :=
  (huffBuild t (hspecRom t)).getD (Vector.ofFn fun _ => .absent)

end Sys2Proof.Machine
end

