-- ==== Sys2Proof/Machine/QuantTable.lean ====
section
/-! DEFINITION. The quality scaling of the quantization tables (42_quant R190, R191). -/

namespace Sys2Proof.Machine

/-- A quantization table: 64 integers in [1, 255] in natural order (10_state R40). -/
abbrev QTable := Vector Byte 64

/-- QScale(q), for 1 <= q <= 100 (42_quant R190). -/
def qScale (q : Nat) : Nat := if q < 50 then 5000 / q else 200 - 2 * q

/-- QEntry(s, scale) (42_quant R190). -/
def qEntry (s scale : Nat) : Nat := clampNat ((s * scale + 50) / 100) 1 255

/-- The clip of a quality to [1, 100] (42_quant R191). -/
def clipQuality (q : Nat) : Nat := min (max q 1) 100

/-- QT0 as QBUILD q leaves it (42_quant R191). -/
def qTableY (q : Nat) : QTable :=
  Vector.ofFn fun i => BitVec.ofNat 8 (qEntry (qstdY i) (qScale (clipQuality q)))

/-- QT1 as QBUILD q leaves it (42_quant R191). -/
def qTableC (q : Nat) : QTable :=
  Vector.ofFn fun i => BitVec.ofNat 8 (qEntry (qstdC i) (qScale (clipQuality q)))

end Sys2Proof.Machine
end

