-- ==== Sys2Proof/Machine/State.lean ====
section
/-! DEFINITION. The state of the block: everything 10_state gives it, as plain data, and its value after reset
(70_reset R340). -/

namespace Sys2Proof.Machine

/-- STATUS (10_state R25). Its bits [31:12] are reserved and read 0, so they are no state. -/
structure Status where
  busy : Bool
  done : Bool
  err : Bool
  rej : Bool
  hviol : Bool
  last : Bool
  btype : BitVec 2
  errCode : BitVec 4
  deriving DecidableEq, Repr

/-- The width n of a host access, n in {1, 2, 4} (20_memory R74). -/
inductive AccessWidth where
  | byte
  | half
  | word
  deriving DecidableEq, Repr

/-- What happens next on the host's side (the model's own input, log 1): one host access (20_memory R74), or the
point of the host's sequence at which the engine takes its step (70_reset R360 leaves it open). -/
inductive BusEvent where
  /-- The engine's step falls here; nothing happens when no command is pending. -/
  | engine
  /-- MemRead(addr, width) (20_memory R75). -/
  | read (addr : Word) (width : AccessWidth)
  /-- MemWrite(addr, width, value) (20_memory R75). -/
  | write (addr : Word) (width : AccessWidth) (value : Word)
  deriving DecidableEq, Repr

/-- The bytes written to IN, OUT and ECS since power-on, at their host addresses (20_memory R72), addresses strictly
rising. A byte not listed has not been written (log 3). -/
abbrev Memory := List Host.Cell

/-- The state of the block. Field by field as INVENTORY.md lists it. -/
structure State where
  /-- CTRL.IRQEN (10_state R23). -/
  irqEn : Bool
  /-- STATUS (10_state R25). -/
  status : Status
  /-- The hidden register PENDING (10_state R41). -/
  pending : Word
  /-- RESULT (10_state R26). -/
  result : Word
  /-- IN_LEN (10_state R28). -/
  inLen : Word
  /-- BR_POS (10_state R21, R27). -/
  brPos : Word
  /-- OUT_LEN (10_state R29). -/
  outLen : Word
  /-- ECS_LEN (10_state R30). -/
  ecsLen : Word
  /-- The pending bits P, earliest first; EBITS shows them (10_state R31, 45_entropy R260). -/
  pbits : List Bool
  /-- PRED0..2 (10_state R32). -/
  pred : Vector Half 3
  /-- ERRCMD (10_state R33). -/
  errCmd : Word
  /-- ERRPOS (10_state R33). -/
  errPos : Word
  /-- IN_SIZE, a parameter no step changes (10_state R34). -/
  inSize : Word
  /-- OUT_SIZE, a parameter no step changes (10_state R34). -/
  outSize : Word
  /-- ECS_SIZE, a parameter no step changes (10_state R34). -/
  ecsSize : Word
  /-- LENS (20_memory R72). -/
  lens : Vector Byte 320
  /-- HLEN0, the lengths of the literal/length table (10_state R39). -/
  hlen0 : Vector (BitVec 4) 288
  /-- HLEN1, the lengths of the distance table (10_state R39). -/
  hlen1 : Vector (BitVec 4) 32
  /-- HLEN2, the lengths of the code-length table (10_state R39). -/
  hlen2 : Vector (BitVec 4) 19
  /-- QT0, luminance (10_state R40). -/
  qt0 : QTable
  /-- QT1, chrominance (10_state R40). -/
  qt1 : QTable
  /-- BLK, 64 `s8` samples in natural order (10_state R42). -/
  blk : Vector Byte 64
  /-- DCTBUF, 64 binary32 values in natural order (10_state R42). -/
  dctbuf : Vector F32 64
  /-- COEF, 64 `s16` coefficients in zig-zag order (10_state R42). -/
  coef : Vector Half 64
  /-- HSPEC0..3 (10_state R43). -/
  hspec : Vector HSpec 4
  /-- EHUF0..3 (10_state R44). -/
  ehuf : Vector EHufTable 4
  /-- The bytes of IN, OUT and ECS (10_state R37, R38, R30). -/
  mem : Memory
  /-- The model's own: the host's accesses still to come, oldest first (log 1). -/
  bus : List BusEvent
  /-- The model's own: the values the bus returned to the host's reads, newest first (log 2). -/
  reads : List Word
  deriving DecidableEq, Repr

/-- Why the machine stops. No rule of the spec stops it: a command that fails completes with an error code, and a
host access that fails is dropped with a flag (60_exceptions R300, R309), both next states. So there is no fault. -/
inductive Fault where
  deriving DecidableEq, Repr

/-- Why an instruction has no meaning. -/
inductive Refusal where
  /-- Raised by exec's arm of an instruction the model has not reached; safe. No arm raises it. -/
  | notModelled (mnemonic : String)
  deriving DecidableEq, Repr

/-! The updates of single fields; Laws/State.lean says of each what it leaves alone. -/

def State.setIrqEn (s : State) (v : Bool) : State := { s with irqEn := v }
def State.setStatus (s : State) (v : Status) : State := { s with status := v }
def State.setPending (s : State) (v : Word) : State := { s with pending := v }
def State.setResult (s : State) (v : Word) : State := { s with result := v }
def State.setInLen (s : State) (v : Word) : State := { s with inLen := v }
def State.setBrPos (s : State) (v : Word) : State := { s with brPos := v }
def State.setOutLen (s : State) (v : Word) : State := { s with outLen := v }
def State.setEcsLen (s : State) (v : Word) : State := { s with ecsLen := v }
def State.setPbits (s : State) (v : List Bool) : State := { s with pbits := v }
def State.setPred (s : State) (v : Vector Half 3) : State := { s with pred := v }
def State.setErrCmd (s : State) (v : Word) : State := { s with errCmd := v }
def State.setErrPos (s : State) (v : Word) : State := { s with errPos := v }
def State.setLens (s : State) (v : Vector Byte 320) : State := { s with lens := v }
def State.setHlen0 (s : State) (v : Vector (BitVec 4) 288) : State := { s with hlen0 := v }
def State.setHlen1 (s : State) (v : Vector (BitVec 4) 32) : State := { s with hlen1 := v }
def State.setHlen2 (s : State) (v : Vector (BitVec 4) 19) : State := { s with hlen2 := v }
def State.setQt0 (s : State) (v : QTable) : State := { s with qt0 := v }
def State.setQt1 (s : State) (v : QTable) : State := { s with qt1 := v }
def State.setBlk (s : State) (v : Vector Byte 64) : State := { s with blk := v }
def State.setDctbuf (s : State) (v : Vector F32 64) : State := { s with dctbuf := v }
def State.setCoef (s : State) (v : Vector Half 64) : State := { s with coef := v }
def State.setHspec (s : State) (v : Vector HSpec 4) : State := { s with hspec := v }
def State.setEhuf (s : State) (v : Vector EHufTable 4) : State := { s with ehuf := v }
def State.setMem (s : State) (v : Memory) : State := { s with mem := v }
def State.setBus (s : State) (v : List BusEvent) : State := { s with bus := v }
def State.setReads (s : State) (v : List Word) : State := { s with reads := v }

/-- STATUS after reset: 0 (70_reset R340). -/
def Status.reset : Status := ⟨false, false, false, false, false, false, 0, 0⟩

/-- The machine with parameters `p` right after power-on reset (70_reset R340). The memories R340 calls unspecified
hold the free values of `Config.powerOnByte` (log 3); PENDING is 0 (DESIGN CHOICE, log 8). -/
def State.resetAt (p : Params) : State where
  irqEn := false
  status := .reset
  pending := 0
  result := 0
  inLen := 0
  brPos := 0
  outLen := 0
  ecsLen := 0
  pbits := []
  pred := Vector.ofFn fun _ => 0
  errCmd := 0
  errPos := 0
  inSize := p.inSize
  outSize := p.outSize
  ecsSize := p.ecsSize
  lens := Vector.ofFn fun i => Config.powerOnByte (lensBase + i)
  hlen0 := Vector.ofFn fun _ => 0
  hlen1 := Vector.ofFn fun _ => 0
  hlen2 := Vector.ofFn fun _ => 0
  qt0 := qTableY 50
  qt1 := qTableC 50
  blk := Vector.ofFn fun i => Config.powerOnByte (blkBase + i)
  dctbuf := Vector.ofFn fun i =>
    Config.powerOnByte (dctbufBase + 4 * i + 3) ++ Config.powerOnByte (dctbufBase + 4 * i + 2) ++
      Config.powerOnByte (dctbufBase + 4 * i + 1) ++ Config.powerOnByte (dctbufBase + 4 * i)
  coef := Vector.ofFn fun i =>
    Config.powerOnByte (coefBase + 2 * i + 1) ++ Config.powerOnByte (coefBase + 2 * i)
  hspec := Vector.ofFn hspecRom
  ehuf := Vector.ofFn ehufRom
  mem := []
  bus := []
  reads := []

/-- The machine right after power-on reset (70_reset R340), with the parameters of `Config.params` (log 4). -/
def State.reset : State := State.resetAt Config.params

end Sys2Proof.Machine
end

