-- ==== Sys2Proof/Machine/Ops.lean ====
section
/-! DEFINITION. The named operations over the state: memory, the command protocol, raising an error and acknowledging
it, reset, and the shape every command has (60_exceptions, 70_reset, 20_memory, 00_scope R11). -/

namespace Sys2Proof.Machine

/-! ## Memory -/

/-- The byte written at `a` since power-on, if any. -/
def memFind : Memory → Nat → Option Byte
  | [], _ => none
  | (b, v) :: m, a => if a = b then some v else memFind m a

/-- Write byte `v` at `a`, keeping the addresses strictly rising. -/
def memStore : Memory → Nat → Byte → Memory
  | [], a, v => [(a, v)]
  | (b, w) :: m, a, v =>
    if a < b then (a, v) :: (b, w) :: m
    else if a = b then (a, v) :: m
    else (b, w) :: memStore m a v

/-- Every address of `m` is above `a` and the addresses rise strictly. -/
def memAbove : Nat → Memory → Bool
  | _, [] => true
  | a, (b, _) :: m => decide (a < b) && memAbove b m

/-- The canonical form: addresses strictly rising. What an unlisted address reads as is no listed byte but the
power-on draw, which nothing can evaluate, so no listed entry can be shown equal to it (log 3). -/
def Memory.wf : Memory → Bool
  | [] => true
  | (a, _) :: m => memAbove a m

/-- The byte of IN, OUT or ECS at host address `a`: what was last written there, else the power-on draw
(70_reset R340). -/
def State.readByte (s : State) (a : Nat) : Byte := (memFind s.mem a).getD (Config.powerOnByte a)

/-- Store a byte of IN, OUT or ECS at host address `a`. -/
def State.writeByte (s : State) (a : Nat) (v : Byte) : State := s.setMem (memStore s.mem a v)

/-- IN[i] (10_state R37). -/
def State.inByte (s : State) (i : Nat) : Byte := s.readByte (inBase + i)

/-- OUT[i] (10_state R38). -/
def State.outByte (s : State) (i : Nat) : Byte := s.readByte (outBase + i)

/-- ECS[i] (10_state section 4). -/
def State.ecsByte (s : State) (i : Nat) : Byte := s.readByte (ecsBase + i)

/-! ## Errors, completion, acknowledgement -/

/-- The errors of 60_exceptions R301. -/
inductive ErrorKind where
  | truncatedInput
  | invalidBlockType
  | invalidCode
  | invalidSymbol
  | malformedIDAT
  | illegalCommand
  | outputOverflow
  | distanceTooFar
  | encodeRange
  | encodeOverflow
  | huffSpec
  deriving DecidableEq, Repr

/-- The code STATUS.ERRCODE shows (60_exceptions R301). -/
def ErrorKind.code : ErrorKind → BitVec 4
  | .truncatedInput => 1
  | .invalidBlockType => 2
  | .invalidCode => 3
  | .invalidSymbol => 4
  | .malformedIDAT => 5
  | .illegalCommand => 6
  | .outputOverflow => 7
  | .distanceTooFar => 8
  | .encodeRange => 9
  | .encodeOverflow => 10
  | .huffSpec => 11

/-- Completion: BUSY <- 0, DONE <- 1 (60_exceptions R304). -/
def Status.complete (st : Status) : Status := { st with busy := false, done := true }

/-- The part of the error record STATUS holds (60_exceptions R305). -/
def Status.recordError (st : Status) (e : ErrorKind) : Status := { st with err := true, errCode := e.code }

/-- Normal completion of the pending command (60_exceptions R304). -/
def State.completeCommand (s : State) : State := s.setStatus s.status.complete

/-- The one error entry of the block: the record of 60_exceptions R305 (ERR, ERRCODE, ERRCMD the command word,
ERRPOS the cursor at the raise), then completion (R304). Nothing else changes (R307). -/
def State.raiseError (s : State) (e : ErrorKind) : State :=
  ((s.setStatus (s.status.recordError e).complete).setErrCmd s.pending).setErrPos s.brPos

/-- The acknowledgement of an error, the return of this block: ERR and ERRCODE clear (60_exceptions R308). -/
def Status.acknowledge (st : Status) : Status := { st with err := false, errCode := 0 }

/-- An accepted CMD write: the word is latched, BUSY <- 1, DONE <- 0 (10_state R24). -/
def State.acceptCommand (s : State) (w : Word) : State :=
  (s.setPending w).setStatus { s.status with busy := true, done := false }

/-- Soft reset (70_reset R342): everything takes its reset value but IN, OUT, ECS, LENS, BLK, COEF and DCTBUF (and the
model's own two fields). A pending command is abandoned: one of the two outcomes of R343 (log 9). -/
def State.softReset (s : State) : State :=
  { State.resetAt ⟨s.inSize, s.outSize, s.ecsSize⟩ with
    mem := s.mem, lens := s.lens, blk := s.blk, coef := s.coef, dctbuf := s.dctbuf, bus := s.bus, reads := s.reads }

/-! ## The shape of a command -/

/-- A part of a command: it answers a value and the state, or raises an error with the state written so far
(00_scope R11 `raise`, R12; 60_exceptions R300: "there is no rollback"). -/
abbrev Cmd (α : Type) := EStateM ErrorKind State α

/-- `raise E` (00_scope R11). -/
def raise {α : Type} (e : ErrorKind) : Cmd α := fun s => .error e s

/-- An update of the state that cannot raise. -/
def update (f : State → State) : Cmd Unit := fun s => .ok () (f s)

/-- A value read from the state. -/
def observe {α : Type} (f : State → α) : Cmd α := fun s => .ok (f s) s

/-- Raise `e` when `c` holds. -/
def raiseIf (c : Bool) (e : ErrorKind) : Cmd Unit := if c then raise e else pure ()

/-- The state a command leaves: completed, or completed with the error it raised (60_exceptions R304). -/
def finishCommand : EStateM.Result ErrorKind State Unit → State
  | .ok _ s => s.completeCommand
  | .error e s => s.raiseError e

/-- A command as the engine executes it; it always ends in a next state (60_exceptions R300). -/
def runCommand (c : Cmd Unit) (s : State) : Host.Outcome State Fault Refusal := .next (finishCommand (c s))

end Sys2Proof.Machine
end

