-- ==== Sys2Proof/Machine/Operands.lean ====
section
/-! DEFINITION. What the operand fields of 30_encoding R102 name, the tables and components they select, and the
check that a field is legal (R105). -/

namespace Sys2Proof.Machine

/-- A decode table (30_encoding R102: 0 LITLEN, 1 DIST, 2 CLEN). -/
inductive DecodeTable where
  | litlen
  | dist
  | clen
  deriving DecidableEq, Repr

/-- A component (30_encoding R102: 0 Y, 1 Cb, 2 Cr). -/
inductive Component where
  | y
  | cb
  | cr
  deriving DecidableEq, Repr

/-- Field T of HBUILD and HDECODE; 3 is illegal (30_encoding R105). -/
def decodeTableOf (t : BitVec 2) : Option DecodeTable :=
  if t = 0 then some .litlen else if t = 1 then some .dist else if t = 2 then some .clen else none

/-- Field C of ENCBLK; 3 is illegal (30_encoding R105). -/
def componentOf (c : BitVec 2) : Option Component :=
  if c = 0 then some .y else if c = 1 then some .cb else if c = 2 then some .cr else none

/-- Field N of RDBITS; 1 to 16 (30_encoding R105). -/
def bitCountOf (n : BitVec 5) : Option Nat :=
  if 1 ≤ n.toNat ∧ n.toNat ≤ 16 then some n.toNat else none

/-- cap(T): 288, 32, 19 (30_encoding R102, 10_state R39). -/
def DecodeTable.capacity : DecodeTable → Nat
  | .litlen => 288
  | .dist => 32
  | .clen => 19

/-- A legal field, or IllegalCommand before anything else (30_encoding R106). -/
def legalOperand {α : Type} : Option α → Cmd α
  | some a => pure a
  | none => raise .illegalCommand

/-- The lengths HLEN_t as numbers (10_state R39). -/
def State.hlen (s : State) : DecodeTable → List Nat
  | .litlen => s.hlen0.toList.map BitVec.toNat
  | .dist => s.hlen1.toList.map BitVec.toNat
  | .clen => s.hlen2.toList.map BitVec.toNat

/-- HLEN_t <- A[0..n), the rest 0 (40_bitreader R125). -/
def State.setHlen (s : State) (t : DecodeTable) (lengths : List Nat) : State :=
  match t with
  | .litlen => s.setHlen0 (Vector.ofFn fun i => BitVec.ofNat 4 (lengths.getD i 0))
  | .dist => s.setHlen1 (Vector.ofFn fun i => BitVec.ofNat 4 (lengths.getD i 0))
  | .clen => s.setHlen2 (Vector.ofFn fun i => BitVec.ofNat 4 (lengths.getD i 0))

/-- QT_t (30_encoding R102: 0 QT0, 1 QT1). -/
def State.qt (s : State) (t : BitVec 1) : QTable := if t = 0 then s.qt0 else s.qt1

/-- Entry `n` of QT_t. -/
def State.qtEntry (s : State) (t : BitVec 1) (n : Nat) : Byte := (s.qt t).getD n 0

/-- The natural index QLOOKUP reads (42_quant R192). -/
def lookupIndex (i : BitVec 6) (z : BitVec 1) : Nat := if z = 1 then zz i.toNat else i.toNat

/-- HSPEC t or EHUF t as an index (10_state R43, R44). -/
def encTableIndex (t : BitVec 2) : Fin 4 := t.toFin

/-- The predictor of a component (10_state R32). -/
def Component.index : Component → Fin 3
  | .y => 0
  | .cb => 1
  | .cr => 2

/-- The DC table of a component: EHUF0 for Y, EHUF1 otherwise (45_entropy R263). -/
def Component.dcTable : Component → Fin 4
  | .y => 0
  | .cb => 1
  | .cr => 1

/-- The AC table of a component: EHUF2 for Y, EHUF3 otherwise (45_entropy R263). -/
def Component.acTable : Component → Fin 4
  | .y => 2
  | .cb => 3
  | .cr => 3

/-- PRED[c] as an integer (10_state R32). -/
def State.predOf (s : State) (c : Component) : Int := s.pred[c.index].toInt

/-- COEF[0..63] as integers (10_state R42). -/
def State.coefs (s : State) : List Int := s.coef.toList.map BitVec.toInt

end Sys2Proof.Machine
end

