-- ==== Sys2Proof/Machine/BitReader.lean ====
section
/-! DEFINITION. The bit reader and its two commands, RDBITS and ALIGN (40_bitreader R120 to R122, R130, R131). -/

namespace Sys2Proof.Machine

/-- The bit of IN at cursor position `p`: bit p mod 8 of IN[p / 8] (20_memory R81, 40_bitreader R120). -/
def State.streamBit (s : State) (p : Nat) : Bool := (s.inByte (p / 8)).getLsbD (p % 8)

/-- The `n` bits of IN from position `p` on, in stream order. -/
def State.streamBits (s : State) (p : Nat) : Nat → List Bool
  | 0 => []
  | n + 1 => s.streamBit p :: s.streamBits (p + 1) n

/-- The limit of every decode-side command but ZINFLATE: 8·IN_LEN (40_bitreader R120). -/
def State.bitLimit (s : State) : Nat := 8 * s.inLen.toNat

/-- ReadBits(n): all `n` bits, least significant first, or TruncatedInput with the cursor unchanged; n = 0 reads
nothing and never fails (40_bitreader R121). -/
def readBits (lim n : Nat) : Cmd Nat := fun s =>
  if n = 0 then .ok 0 s
  else if lim < s.brPos.toNat + n then .error .truncatedInput s
  else
    .ok (bitsValueLsb (s.streamBits s.brPos.toNat n)) (s.setBrPos (BitVec.ofNat 32 (s.brPos.toNat + n)))

/-- `(p + 7) & ~7`, computed exactly and stored in 32 bits (40_bitreader R122). -/
def alignedPos (p : Word) : Word := BitVec.ofNat 32 ((p.toNat + 7) / 8 * 8)

/-- AlignToByte() (40_bitreader R122). -/
def alignToByte : Cmd Unit := update fun s => s.setBrPos (alignedPos s.brPos)

/-- RESULT <- zext_32(v) (10_state R26). -/
def writeResult (v : Nat) : Cmd Unit := update fun s => s.setResult (BitVec.ofNat 32 v)

/-- The body of RDBITS (40_bitreader R130). -/
def rdbitsBody (n : BitVec 5) : Cmd Unit := do
  let count ← legalOperand (bitCountOf n)
  let lim ← observe State.bitLimit
  let v ← readBits lim count
  writeResult v

/-- RDBITS n (40_bitreader R130). -/
def execRdbits (n : BitVec 5) (s : State) : Host.Outcome State Fault Refusal := runCommand (rdbitsBody n) s

/-- ALIGN (40_bitreader R131). -/
def execAlign (s : State) : Host.Outcome State Fault Refusal := runCommand alignToByte s

end Sys2Proof.Machine
end

