-- ==== Sys2Proof/Machine/Binary32.lean ====
section
/-! DEFINITION. IEEE 754 binary32 arithmetic with round-to-nearest-ties-to-even, one rounding per operation, no fused
multiply-add (00_scope R10, 44_fdct R230). Every finite value is an exact integer multiple of 2^-149; an operation
computes exactly on those integers and rounds once. -/

namespace Sys2Proof.Machine

/-- The sign bit. -/
def f32Sign (x : F32) : Bool := x.getLsbD 31

/-- The 31 bits below the sign. -/
def f32Magnitude (x : F32) : Nat := (x.extractLsb' 0 31).toNat

/-- The pattern of positive infinity, without its sign. -/
def f32InfMagnitude : Nat := 0x7F800000

def f32IsNaN (x : F32) : Bool := decide (f32InfMagnitude < f32Magnitude x)

def f32IsInf (x : F32) : Bool := decide (f32Magnitude x = f32InfMagnitude)

/-- A sign and a 31-bit magnitude as a pattern. -/
def f32Pack (neg : Bool) (mag : Nat) : F32 := BitVec.ofNat 32 ((if neg then 2 ^ 31 else 0) + mag)

/-- The NaN an invalid operation gives. No rule lets a NaN's payload reach a register or a memory (log 7). -/
def f32NaN : F32 := 0x7FC00000#32

/-- The magnitude of a finite value, in units of 2^-149: the fraction alone for a subnormal, else the fraction with
its hidden bit, scaled by the exponent. -/
def f32Units (x : F32) : Nat :=
  let e := f32Magnitude x / 2 ^ 23
  let f := f32Magnitude x % 2 ^ 23
  if e = 0 then f else (2 ^ 23 + f) * 2 ^ (e - 1)

/-- A finite value in units of 2^-149. -/
def f32Scaled (x : F32) : Int := if f32Sign x then -(f32Units x : Int) else f32Units x

/-- `num / den` to the nearest integer, ties to even. -/
def roundHalfEven (num den : Nat) : Nat :=
  let q := num / den
  let r := num % den
  if den < 2 * r then q + 1 else if 2 * r = den ∧ q % 2 = 1 then q + 1 else q

/-- The binary32 magnitude pattern nearest to `num / den` units of 2^-149 (00_scope R10 `f32(x)`): `k` is the
exponent of the last place in units, and a rounding that reaches 2^24 carries into the exponent by addition. -/
def roundMagnitude (num den : Nat) : Nat :=
  let k := bitlen (num / den) - 24
  min (k * 2 ^ 23 + roundHalfEven num (den * 2 ^ k)) f32InfMagnitude

/-- The sum `x +f y`. An exact zero sum is +0 unless both operands are -0. -/
def f32Add (x y : F32) : F32 :=
  if f32IsNaN x || f32IsNaN y then f32NaN
  else if f32IsInf x then (if f32IsInf y && (f32Sign x != f32Sign y) then f32NaN else x)
  else if f32IsInf y then y
  else
    let sum := f32Scaled x + f32Scaled y
    if sum = 0 then f32Pack (f32Sign x && f32Sign y) 0
    else f32Pack (decide (sum < 0)) (roundMagnitude sum.natAbs 1)

/-- The value with its sign flipped. -/
def f32Neg (x : F32) : F32 := x ^^^ 0x80000000#32

/-- The difference `x -f y`. -/
def f32Sub (x y : F32) : F32 := f32Add x (f32Neg y)

/-- The product `x *f y`. -/
def f32Mul (x y : F32) : F32 :=
  let neg := f32Sign x != f32Sign y
  if f32IsNaN x || f32IsNaN y then f32NaN
  else if f32IsInf x then (if f32Units y = 0 then f32NaN else f32Pack neg f32InfMagnitude)
  else if f32IsInf y then (if f32Units x = 0 then f32NaN else f32Pack neg f32InfMagnitude)
  else f32Pack neg (roundMagnitude (f32Units x * f32Units y) (2 ^ 149))

/-- The quotient `x /f y`. -/
def f32Div (x y : F32) : F32 :=
  let neg := f32Sign x != f32Sign y
  if f32IsNaN x || f32IsNaN y then f32NaN
  else if f32IsInf x then (if f32IsInf y then f32NaN else f32Pack neg f32InfMagnitude)
  else if f32IsInf y then f32Pack neg 0
  else if f32Units y = 0 then (if f32Units x = 0 then f32NaN else f32Pack neg f32InfMagnitude)
  else f32Pack neg (roundMagnitude (f32Units x * 2 ^ 149) (f32Units y))

/-- `f32(x)` of an integer (00_scope R10); exact below 2^24 in magnitude (44_fdct R230). -/
def f32OfInt (v : Int) : F32 := f32Pack (decide (v < 0)) (roundMagnitude (v.natAbs * 2 ^ 149) 1)

/-- The integer nearest to `n / 2^149`, ties up; on a magnitude this is "ties away from zero". -/
def roundHalfUpUnits (n : Nat) : Nat := (2 * n + 2 ^ 149) / 2 ^ 150

/-- RoundSat16 (44_fdct R236): NaN gives 0, otherwise the nearest integer, ties away from zero, saturated to `s16`. -/
def roundSat16 (x : F32) : Half :=
  if f32IsNaN x then 0
  else
    let m := if f32IsInf x then 32768 else min (roundHalfUpUnits (f32Units x)) 32768
    if f32Sign x then BitVec.ofInt 16 (-(m : Int)) else BitVec.ofNat 16 (min m 32767)

end Sys2Proof.Machine
end

