-- ==== Sys2Proof/Machine/Dct.lean ====
section
/-! DEFINITION. The forward DCT and the quantization, FDCT and QUANT (44_fdct). -/

namespace Sys2Proof.Machine

/-- C4 = cos(4π/16) (44_fdct R231). -/
def dctC4 : F32 := 0x3F3504F3#32

/-- C6 = cos(6π/16) (44_fdct R231). -/
def dctC6 : F32 := 0x3EC3EF15#32

/-- C2MC6 = c2 − c6 (44_fdct R231). -/
def dctC2MC6 : F32 := 0x3F0A8BD4#32

/-- C2PC6 = c2 + c6 (44_fdct R231). -/
def dctC2PC6 : F32 := 0x3FA73D75#32

/-- The even part of DCT8: outputs 0, 2, 4, 6 (44_fdct R232). -/
def dctEven (tmp0 tmp1 tmp2 tmp3 : F32) : F32 × F32 × F32 × F32 :=
  let t10 := f32Add tmp0 tmp3
  let t13 := f32Sub tmp0 tmp3
  let t11 := f32Add tmp1 tmp2
  let t12 := f32Sub tmp1 tmp2
  let z1 := f32Mul (f32Add t12 t13) dctC4
  (f32Add t10 t11, f32Add t13 z1, f32Sub t10 t11, f32Sub t13 z1)

/-- The odd part of DCT8: outputs 1, 3, 5, 7 (44_fdct R232). -/
def dctOdd (tmp4 tmp5 tmp6 tmp7 : F32) : F32 × F32 × F32 × F32 :=
  let t10 := f32Add tmp4 tmp5
  let t11 := f32Add tmp5 tmp6
  let t12 := f32Add tmp6 tmp7
  let z5 := f32Mul (f32Sub t10 t12) dctC6
  let z2 := f32Add (f32Mul dctC2MC6 t10) z5
  let z4 := f32Add (f32Mul dctC2PC6 t12) z5
  let z3 := f32Mul t11 dctC4
  let z11 := f32Add tmp7 z3
  let z13 := f32Sub tmp7 z3
  (f32Add z11 z4, f32Sub z13 z2, f32Add z13 z2, f32Sub z11 z4)

/-- DCT8(d0..d7), the scaled 8-point AAN transform (44_fdct R232). -/
def dct8 (d : Vector F32 8) : Vector F32 8 :=
  let even := dctEven (f32Add d[0] d[7]) (f32Add d[1] d[6]) (f32Add d[2] d[5]) (f32Add d[3] d[4])
  let odd := dctOdd (f32Sub d[3] d[4]) (f32Sub d[2] d[5]) (f32Sub d[1] d[6]) (f32Sub d[0] d[7])
  #v[even.1, odd.1, even.2.1, odd.2.1, even.2.2.1, odd.2.2.1, even.2.2.2, odd.2.2.2]

/-- Element (row, column) of a block in natural order (44_fdct R230). -/
def blockAt (w : Vector F32 64) (row col : Fin 8) : F32 := w[8 * row.val + col.val]

/-- The row pass: row `y` becomes its DCT8 (44_fdct R233). -/
def rowPass (w : Vector F32 64) : Vector F32 64 :=
  let rows : Vector (Vector F32 8) 8 := Vector.ofFn fun y => dct8 (Vector.ofFn fun x => blockAt w y x)
  Vector.ofFn fun n => (rows[n.val / 8])[n.val % 8]

/-- The column pass: column `x` becomes its DCT8 (44_fdct R233). -/
def columnPass (w : Vector F32 64) : Vector F32 64 :=
  let cols : Vector (Vector F32 8) 8 := Vector.ofFn fun x => dct8 (Vector.ofFn fun y => blockAt w y x)
  Vector.ofFn fun n => (cols[n.val % 8])[n.val / 8]

/-- The samples as binary32, exact (44_fdct R230). -/
def samplesF32 (blk : Vector Byte 64) : Vector F32 64 := Vector.ofFn fun n => f32OfInt blk[n].toInt

/-- FDCT2D: rows, then columns (44_fdct R233). -/
def fdct2d (blk : Vector Byte 64) : Vector F32 64 := columnPass (rowPass (samplesF32 blk))

/-- The body of FDCT (44_fdct R234). -/
def fdctBody : Cmd Unit := update fun s => s.setDctbuf (fdct2d s.blk)

/-- FDCT (44_fdct R234). -/
def execFdct (s : State) : Host.Outcome State Fault Refusal := runCommand fdctBody s

/-- COEF[k] as QUANT computes it: one binary32 division by 8·QT[n], n = ZZ[k], and one rounding (44_fdct R236). -/
def quantized (dctbuf : Vector F32 64) (table : QTable) (k : Nat) : Half :=
  roundSat16 (f32Div (dctbuf.getD (zz k) 0) (f32OfInt (8 * (table.getD (zz k) 0).toNat)))

/-- The body of QUANT (44_fdct R236). -/
def quantBody (t : BitVec 1) : Cmd Unit :=
  update fun s => s.setCoef (Vector.ofFn fun k => quantized s.dctbuf (s.qt t) k)

/-- QUANT t (44_fdct R236). -/
def execQuant (t : BitVec 1) (s : State) : Host.Outcome State Fault Refusal := runCommand (quantBody t) s

end Sys2Proof.Machine
end

