-- ==== Sys2Proof/Machine/EncTables.lean ====
section
/-! DEFINITION. The encoder table command EHBUILD (43_huffman_tables R211). -/

namespace Sys2Proof.Machine

/-- The body of EHBUILD: EHUF t from HSPEC t, or HuffSpec with EHUF t unchanged (43_huffman_tables R211). -/
def ehbuildBody (t : BitVec 2) : Cmd Unit := do
  let built ← observe fun s => huffBuild (encTableIndex t) s.hspec[encTableIndex t]
  match built with
  | some table => update fun s => s.setEhuf (s.ehuf.set (encTableIndex t) table)
  | none => raise .huffSpec

/-- EHBUILD t (43_huffman_tables R211). -/
def execEhbuild (t : BitVec 2) (s : State) : Host.Outcome State Fault Refusal := runCommand (ehbuildBody t) s

end Sys2Proof.Machine
end

