-- ==== Sys2Proof/Machine/Entropy.lean ====
section
/-! DEFINITION. The entropy encoder and its commands, ENCBLK, EFLUSH and ERESET (45_entropy). -/

namespace Sys2Proof.Machine

/-! ## Bit packing -/

/-- ECS[ECS_LEN] <- b; ECS_LEN <- ECS_LEN + 1. -/
def State.appendEcs (s : State) (b : Byte) : State :=
  (s.writeByte (ecsBase + s.ecsLen.toNat) b).setEcsLen (BitVec.ofNat 32 (s.ecsLen.toNat + 1))

/-- EmitByte(b): the byte, and a stuff byte after 0xFF (45_entropy R261). -/
def State.emitByte (s : State) (b : Byte) : State :=
  if b = 0xFF then (s.appendEcs b).appendEcs 0x00 else s.appendEcs b

/-- How many bytes EmitByte writes for a byte of value `v` (45_entropy R261). -/
def emittedBytes (v : Nat) : Nat := if v = 255 then 2 else 1

/-- One pass of the loop of PutBits: append a bit, emit a byte when 8 are pending (45_entropy R260). -/
def State.putBit (s : State) (b : Bool) : State :=
  if (s.pbits ++ [b]).length = 8 then
    (s.emitByte (BitVec.ofNat 8 (bitsValue (s.pbits ++ [b])))).setPbits []
  else s.setPbits (s.pbits ++ [b])

/-- PutBits of every bit of a list, in order (45_entropy R260). -/
def State.putBits (s : State) (bits : List Bool) : State := bits.foldl State.putBit s

/-- A field (value, length) to be appended (45_entropy R263). -/
abbrev Field := Nat × Nat

/-- The bits of a list of fields, each most significant bit first (45_entropy R260). -/
def bitsOfFields (fields : List Field) : List Bool := fields.flatMap fun f => fieldBits f.1 f.2

/-- OutBytes: how many bytes, stuff bytes included, appending `bits` to the pending bits `p` emits (45_entropy
R264). -/
def outBytes : List Bool → List Bool → Nat
  | _, [] => 0
  | p, b :: bits =>
    if (p ++ [b]).length = 8 then emittedBytes (bitsValue (p ++ [b])) + outBytes [] bits
    else outBytes (p ++ [b]) bits

/-! ## The fields of a block -/

/-- ValueBits(v, s) (45_entropy R262). -/
def valueBits (v : Int) (s : Nat) : Nat := if 0 ≤ v then v.toNat else ((v - 1) % (2 ^ s : Int)).toNat

/-- The code of a symbol as a field, `none` when the symbol has no code (45_entropy R263). -/
def codeField (table : EHufTable) (sym : Nat) : Option Field :=
  let e := table.getD sym .absent
  if e.size = 0 then none else some (e.code.toNat, e.size.toNat)

/-- The fields of the DC difference (45_entropy R263). -/
def dcFields (table : EHufTable) (diff : Int) : Option (List Field) :=
  let s := bitlen diff.natAbs
  if 11 < s then none
  else do
    let code ← codeField table s
    some (if 0 < s then [code, (valueBits diff s, s)] else [code])

/-- The ZRL fields before a nonzero coefficient: one for each complete span of 16 zeros (45_entropy R263). -/
def zrlFields (table : EHufTable) (run : Nat) : Option (List Field) :=
  if run < 16 then some [] else (codeField table 0xF0).map (List.replicate (run / 16))

/-- The fields of a nonzero AC coefficient after `run` zeros (45_entropy R263). -/
def acCoefFields (table : EHufTable) (run : Nat) (v : Int) : Option (List Field) := do
  let zrl ← zrlFields table run
  let z := bitlen v.natAbs
  if 10 < z then none
  else do
    let code ← codeField table (run % 16 * 16 + z)
    some (zrl ++ [code, (valueBits v z, z)])

/-- The fields of the AC coefficients, `run` zeros before the first; a trailing run is EOB alone (45_entropy
R263). -/
def acFields (table : EHufTable) : Nat → List Int → Option (List Field)
  | run, [] => if run = 0 then some [] else (codeField table 0x00).map ([·])
  | run, v :: vs =>
    if v = 0 then acFields table (run + 1) vs
    else do
      let first ← acCoefFields table run v
      let rest ← acFields table 0 vs
      some (first ++ rest)

/-- BlockBits(c), `none` for EncodeRange (45_entropy R263). -/
def blockFields (dc ac : EHufTable) (pred : Int) : List Int → Option (List Field)
  | [] => none
  | c0 :: acs => do
    let first ← dcFields dc (c0 - pred)
    let rest ← acFields ac 0 acs
    some (first ++ rest)

/-- BlockBits(c) of a state (45_entropy R263). -/
def State.blockBits (s : State) (c : Component) : Option (List Field) :=
  blockFields s.ehuf[c.dcTable] s.ehuf[c.acTable] (s.predOf c) s.coefs

/-! ## The commands -/

/-- A value, or an error before anything is written. -/
def orRaise {α : Type} (e : ErrorKind) : Option α → Cmd α
  | some a => pure a
  | none => raise e

/-- The body of ENCBLK (45_entropy R265). -/
def encblkBody (c : BitVec 2) : Cmd Unit := do
  let comp ← legalOperand (componentOf c)
  let built ← observe fun s => s.blockBits comp
  let fields ← orRaise .encodeRange built
  let overflow ← observe fun s =>
    decide (s.ecsSize.toNat < s.ecsLen.toNat + outBytes s.pbits (bitsOfFields fields))
  raiseIf overflow .encodeOverflow
  update fun s => s.putBits (bitsOfFields fields)
  update fun s => s.setPred (s.pred.set comp.index s.coef[0])

/-- ENCBLK c (45_entropy R265). -/
def execEncblk (c : BitVec 2) (s : State) : Host.Outcome State Fault Refusal := runCommand (encblkBody c) s

/-- The pending bits padded with 1-bits to a byte (45_entropy R266). -/
def flushByte (p : List Bool) : Nat := bitsValue p * 2 ^ (8 - p.length) + (2 ^ (8 - p.length) - 1)

/-- The body of EFLUSH (45_entropy R266). -/
def eflushBody : Cmd Unit := do
  let p ← observe State.pbits
  if p.length = 0 then pure ()
  else do
    let overflow ← observe fun s => decide (s.ecsSize.toNat < s.ecsLen.toNat + emittedBytes (flushByte p))
    raiseIf overflow .encodeOverflow
    update fun s => (s.emitByte (BitVec.ofNat 8 (flushByte p))).setPbits []

/-- EFLUSH (45_entropy R266). -/
def execEflush (s : State) : Host.Outcome State Fault Refusal := runCommand eflushBody s

/-- The body of ERESET (45_entropy R267). -/
def eresetBody : Cmd Unit :=
  update fun s => ((s.setPred (Vector.ofFn fun _ => 0)).setPbits []).setEcsLen 0

/-- ERESET (45_entropy R267). -/
def execEreset (s : State) : Host.Outcome State Fault Refusal := runCommand eresetBody s

end Sys2Proof.Machine
end

