-- ==== Sys2Proof/Machine/Huffman.lean ====
section
/-! DEFINITION. The canonical Huffman decoder and its two commands, HBUILD and HDECODE (40_bitreader R123 to R126, R132,
R133). -/

namespace Sys2Proof.Machine

/-- bl_count[k]: the number of symbols with length `k`, 0 for k = 0 (40_bitreader R123, 90 C2). -/
def blCount (lens : List Nat) (k : Nat) : Nat := if k = 0 then 0 else lens.count k

/-- next_code[k] before any symbol is assigned (40_bitreader R123). -/
def firstCode (lens : List Nat) : Nat → Nat
  | 0 => 0
  | k + 1 => (firstCode lens k + blCount lens k) * 2

/-- next_code[0..15] before any symbol is assigned. -/
def firstCodes (lens : List Nat) : List Nat := (List.range 16).map (firstCode lens)

/-- The assignment of 40_bitreader R123, symbol by symbol: `CODE[s] <- next_code[L[s]]; next_code[L[s]] += 1`. An
absent symbol gets the placeholder 0, which nothing reads. -/
def assignCodes : List Nat → List Nat → List Nat
  | [], _ => []
  | l :: lens, next =>
    if l = 0 then 0 :: assignCodes lens next
    else next.getD l 0 :: assignCodes lens (next.set l (next.getD l 0 + 1))

/-- CODE[s] for every symbol of a table (40_bitreader R123 `Codes(L)`). -/
def canonicalCodes (lens : List Nat) : List Nat := assignCodes lens (firstCodes lens)

/-- The (length, code) pairs of a table, symbol by symbol. -/
def codeTable (lens : List Nat) : List (Nat × Nat) := lens.zip (canonicalCodes lens)

/-- Some symbol's code properly extends the `k` bits `p` (40_bitreader R124, second test). -/
def extendsPath (tab : List (Nat × Nat)) (k p : Nat) : Bool :=
  tab.any fun e => decide (k < e.1) && decide (e.2 / 2 ^ (e.1 - k) = p)

/-- The symbol whose code is the `k` bits `p` (40_bitreader R124, first test). -/
def symbolAt? (tab : List (Nat × Nat)) (k p : Nat) : Option Nat :=
  if k = 0 then none else tab.findIdx? fun e => decide (e.1 = k) && decide (e.2 = p)

/-- The loop of Decode(t) with the `k` code bits `p` read so far (40_bitreader R124). Lengths are at most 15, so at
k = 16 no code is left and the loop raises, which the exhausted fuel 16 also does (log 14). -/
def decodeLoop (tab : List (Nat × Nat)) (lim : Nat) : Nat → Nat → Nat → Cmd Nat
  | 0, _, _ => raise .invalidCode
  | fuel + 1, k, p =>
    match symbolAt? tab k p with
    | some s => pure s
    | none =>
      if extendsPath tab k p then do
        let b ← readBits lim 1
        decodeLoop tab lim fuel (k + 1) (2 * p + b)
      else raise .invalidCode

/-- Decode(t) (40_bitreader R124). -/
def decodeSymbol (t : DecodeTable) (lim : Nat) : Cmd Nat := do
  let lens ← observe fun s => s.hlen t
  decodeLoop (codeTable lens) lim 16 0 0

/-- The Kraft sum over the present symbols, in units of 2^-15 (40_bitreader R125). -/
def kraftSum (lens : List Nat) : Nat := (lens.map fun l => if l = 0 then 0 else 2 ^ (15 - l)).sum

/-- BuildTable(t, A, n), n the number of lengths given: first all lengths at most 15, then the Kraft sum, then the
store (40_bitreader R125). -/
def buildTable (t : DecodeTable) (lens : List Nat) : Cmd Unit := do
  raiseIf (lens.any fun l => decide (15 < l)) .invalidCode
  raiseIf (decide (2 ^ 15 < kraftSum lens)) .invalidCode
  update fun s => s.setHlen t lens

/-- LENS[0..n) as numbers. -/
def State.lensTake (s : State) (n : Nat) : List Nat := (s.lens.toList.take n).map BitVec.toNat

/-- Fields T and N of HBUILD together: N at most cap(T) (30_encoding R105). -/
def hbuildOperands (t : BitVec 2) (n : BitVec 9) : Option (DecodeTable × Nat) :=
  match decodeTableOf t with
  | some tab => if n.toNat ≤ tab.capacity then some (tab, n.toNat) else none
  | none => none

/-- The body of HBUILD (40_bitreader R132). -/
def hbuildBody (t : BitVec 2) (n : BitVec 9) : Cmd Unit := do
  let (tab, count) ← legalOperand (hbuildOperands t n)
  let lens ← observe fun s => s.lensTake count
  buildTable tab lens

/-- HBUILD t, n (40_bitreader R132). -/
def execHbuild (t : BitVec 2) (n : BitVec 9) (s : State) : Host.Outcome State Fault Refusal :=
  runCommand (hbuildBody t n) s

/-- The body of HDECODE (40_bitreader R133). -/
def hdecodeBody (t : BitVec 2) : Cmd Unit := do
  let tab ← legalOperand (decodeTableOf t)
  let lim ← observe State.bitLimit
  let sym ← decodeSymbol tab lim
  writeResult sym

/-- HDECODE t (40_bitreader R133). -/
def execHdecode (t : BitVec 2) (s : State) : Host.Outcome State Fault Refusal := runCommand (hdecodeBody t) s

end Sys2Proof.Machine
end

