-- ==== Sys2Proof/Machine/Flags.lean ====
section
/-! DEFINITION. The flags: the words STATUS, CTRL and EBITS show, the W1C write of STATUS, the block-header flags, and
the interrupt output (10_state R23, R25, R31, R36; 60_exceptions R320). -/

namespace Sys2Proof.Machine

/-- The value STATUS reads: BUSY [0], DONE [1], ERR [2], REJ [3], HVIOL [4], LAST [5], BTYPE [7:6], ERRCODE [11:8],
the rest 0 (10_state R25). -/
def Status.toWord (st : Status) : Word :=
  BitVec.ofNat 32 (flagNat st.busy + 2 * flagNat st.done + 4 * flagNat st.err + 8 * flagNat st.rej +
    16 * flagNat st.hviol + 32 * flagNat st.last + 64 * st.btype.toNat + 256 * st.errCode.toNat)

/-- A write of STATUS: every W1C bit written as 1 clears its flag, ERR with ERRCODE (10_state R25). -/
def Status.writeW1C (st : Status) (v : Word) : Status :=
  let st := { st with
    done := st.done && !v.getLsbD 1, rej := st.rej && !v.getLsbD 3, hviol := st.hviol && !v.getLsbD 4 }
  if v.getLsbD 2 then st.acknowledge else st

/-- STATUS.REJ <- 1, a dropped CMD write (10_state R24). -/
def State.flagRejected (s : State) : State := s.setStatus { s.status with rej := true }

/-- STATUS.HVIOL <- 1, a dropped host access (20_memory R76, R78, R84). -/
def State.flagViolation (s : State) : State := s.setStatus { s.status with hviol := true }

/-- STATUS.LAST <- bfinal, STATUS.BTYPE <- btype (41_inflate R151). -/
def State.setBlockHeader (s : State) (bfinal btype : Nat) : State :=
  s.setStatus { s.status with last := decide (bfinal = 1), btype := BitVec.ofNat 2 btype }

/-- The value CTRL reads: IRQEN in bit 1, SRESET and the reserved bits 0 (10_state R23). -/
def State.ctrlWord (s : State) : Word := BitVec.ofNat 32 (2 * flagNat s.irqEn)

/-- The value EBITS reads: the count of pending bits in [11:8], the bits right-aligned in [7:0] (10_state R31). -/
def State.ebitsWord (s : State) : Word := BitVec.ofNat 32 (256 * s.pbits.length + bitsValue s.pbits)

/-- The interrupt output `IRQ = CTRL.IRQEN AND STATUS.DONE` (60_exceptions R320). -/
def State.irq (s : State) : Bool := s.irqEn && s.status.done

end Sys2Proof.Machine
end

