-- ==== Sys2Proof/Machine/Inflate.lean ====
section
/-! DEFINITION. The DEFLATE inflater and its three commands, INFBLK, INFLATE and ZINFLATE (41_inflate). -/

namespace Sys2Proof.Machine

/-- Emit(b) (41_inflate R150). -/
def emit (b : Byte) : Cmd Unit := do
  let full ← observe fun s => decide (s.outSize.toNat ≤ s.outLen.toNat)
  raiseIf full .outputOverflow
  update fun s =>
    (s.writeByte (outBase + s.outLen.toNat) b).setOutLen (BitVec.ofNat 32 (s.outLen.toNat + 1))

/-- The loop of Copy(L, D), byte by byte, so that a copy reads bytes it has written itself (41_inflate R160). -/
def copyBytes (d : Nat) : Nat → Cmd Unit
  | 0 => pure ()
  | l + 1 => do
    let b ← observe fun s => s.outByte (s.outLen.toNat - d)
    emit b
    copyBytes d l

/-- Copy(L, D) (41_inflate R160). -/
def copyMatch (l d : Nat) : Cmd Unit := do
  let tooFar ← observe fun s => decide (s.outLen.toNat < d)
  raiseIf tooFar .distanceTooFar
  copyBytes d l

/-- The copy loop of a stored block (41_inflate R152). -/
def storedBytes (lim : Nat) : Nat → Cmd Unit
  | 0 => pure ()
  | l + 1 => do
    let b ← readBits lim 8
    emit (BitVec.ofNat 8 b)
    storedBytes lim l

/-- StoredBlock(); NLEN is read and ignored (41_inflate R152). -/
def storedBlock (lim : Nat) : Cmd Unit := do
  alignToByte
  let len ← readBits lim 16
  let _ ← readBits lim 16
  storedBytes lim len

/-- The back-reference of length symbol `sym`, 257 to 285: length code, length extra bits, distance code, distance
extra bits, copy, in that order (41_inflate R162). -/
def backReference (lim sym : Nat) : Cmd Unit := do
  let c := sym - 257
  let lx ← readBits lim (lextra.getD c 0)
  let d ← decodeSymbol .dist lim
  raiseIf (decide (30 ≤ d)) .invalidSymbol
  let dx ← readBits lim (dextra.getD d 0)
  copyMatch (lbase.getD c 0 + lx) (dbase.getD d 0 + dx)

/-- One pass of the loop of HuffmanBody; true at the end of the block (41_inflate R162). -/
def huffmanPass (lim : Nat) : Cmd Bool := do
  let sym ← decodeSymbol .litlen lim
  if sym ≤ 255 then do
    emit (BitVec.ofNat 8 sym)
    pure false
  else if sym = 256 then pure true
  else if sym ≤ 285 then do
    backReference lim sym
    pure false
  else raise .invalidSymbol

/-- HuffmanBody() (41_inflate R162). Every pass consumes at least one bit (R164), so `lim + 1` passes always suffice
and the exhausted fuel is never reached (log 14). -/
def huffmanBody (lim : Nat) : Nat → Cmd Unit
  | 0 => raise .truncatedInput
  | fuel + 1 => do
    let atEnd ← huffmanPass lim
    if atEnd then pure () else huffmanBody lim fuel

/-- FixedBlock() (41_inflate R154). -/
def fixedBlock (lim : Nat) : Cmd Unit := do
  buildTable .litlen fixedLit
  buildTable .dist fixedDist
  huffmanBody lim (lim + 1)

/-- Reads one 3-bit length for each symbol listed, into the array CL (41_inflate R156). -/
def readCodeLengths (lim : Nat) : List Nat → List Nat → Cmd (List Nat)
  | [], cl => pure cl
  | p :: perm, cl => do
    let l ← readBits lim 3
    readCodeLengths lim perm (cl.set p l)

/-- The value and the count of a repeat symbol, 16 to 18, after the lengths `a` (41_inflate R157). -/
def repeatOf (lim sym : Nat) (a : List Nat) : Cmd (Nat × Nat) :=
  if sym = 16 then
    match a.getLast? with
    | none => raise .invalidSymbol
    | some l => do
      let r ← readBits lim 2
      pure (l, 3 + r)
  else if sym = 17 then do
    let r ← readBits lim 3
    pure (0, 3 + r)
  else do
    let r ← readBits lim 7
    pure (0, 11 + r)

/-- One pass of the loop of ReadLengths(m): the lengths `a` with what one code-length symbol adds (41_inflate R157). -/
def lengthsPass (lim m : Nat) (a : List Nat) : Cmd (List Nat) := do
  let sym ← decodeSymbol .clen lim
  if sym ≤ 15 then pure (a ++ [sym])
  else do
    let (val, r) ← repeatOf lim sym a
    raiseIf (decide (m < a.length + r)) .invalidSymbol
    pure (a ++ List.replicate r val)

/-- ReadLengths(m) from the lengths `a` read so far (41_inflate R157). Every pass adds at least one length, so `m`
passes suffice: with the fuel exhausted, m lengths are there (log 14). -/
def readLengths (lim m : Nat) : Nat → List Nat → Cmd (List Nat)
  | 0, a => pure a
  | fuel + 1, a =>
    if m ≤ a.length then pure a
    else do
      let a' ← lengthsPass lim m a
      readLengths lim m fuel a'

/-- DynamicBlock(); the order of the table builds is HLEN2, HLEN0, HLEN1 (41_inflate R156). -/
def dynamicBlock (lim : Nat) : Cmd Unit := do
  let hlit ← readBits lim 5
  let hdist ← readBits lim 5
  let hclen ← readBits lim 4
  let cl ← readCodeLengths lim (permRom.take (hclen + 4)) (List.replicate 19 0)
  buildTable .clen cl
  let a ← readLengths lim (hlit + 257 + (hdist + 1)) (hlit + 257 + (hdist + 1)) []
  buildTable .litlen (a.take (hlit + 257))
  buildTable .dist (a.drop (hlit + 257))
  huffmanBody lim (lim + 1)

/-- The body of a block of type `btype`, after its header (41_inflate R151). -/
def blockBody (lim btype : Nat) : Cmd Unit :=
  if btype = 0 then storedBlock lim
  else if btype = 1 then fixedBlock lim
  else if btype = 2 then dynamicBlock lim
  else raise .invalidBlockType

/-- InflateBlock(); the flags are written once both header fields were read (41_inflate R151). -/
def inflateBlock (lim : Nat) : Cmd Nat := do
  let bfinal ← readBits lim 1
  let btype ← readBits lim 2
  update fun s => s.setBlockHeader bfinal btype
  blockBody lim btype
  pure bfinal

/-- Blocks until one with BFINAL = 1 finishes (41_inflate R170). Every block consumes at least its 3 header bits, so
`lim + 1` blocks always suffice and the exhausted fuel is never reached (log 14). -/
def inflateBlocks (lim : Nat) : Nat → Cmd Unit
  | 0 => raise .truncatedInput
  | fuel + 1 => do
    let f ← inflateBlock lim
    if f = 1 then pure () else inflateBlocks lim fuel

/-- The body of INFBLK (41_inflate R168). -/
def infblkBody : Cmd Unit := do
  let lim ← observe State.bitLimit
  let _ ← inflateBlock lim

/-- INFBLK (41_inflate R168). -/
def execInfblk (s : State) : Host.Outcome State Fault Refusal := runCommand infblkBody s

/-- The body of INFLATE (41_inflate R170). -/
def inflateBody : Cmd Unit := do
  let lim ← observe State.bitLimit
  update fun s => s.setOutLen 0
  inflateBlocks lim (lim + 1)

/-- INFLATE (41_inflate R170). -/
def execInflate (s : State) : Host.Outcome State Fault Refusal := runCommand inflateBody s

/-- The body of ZINFLATE (41_inflate R171). -/
def zinflateBody : Cmd Unit := do
  let len ← observe fun s => s.inLen.toNat
  raiseIf (decide (len < 6)) .malformedIDAT
  update fun s => (s.setBrPos 16).setOutLen 0
  inflateBlocks (8 * (len - 4)) (8 * (len - 4) + 1)

/-- ZINFLATE (41_inflate R171). -/
def execZinflate (s : State) : Host.Outcome State Fault Refusal := runCommand zinflateBody s

end Sys2Proof.Machine
end

