-- ==== Sys2Proof/Machine/Quant.lean ====
section
/-! DEFINITION. The quantization table commands, QBUILD and QLOOKUP (42_quant R191, R192). -/

namespace Sys2Proof.Machine

/-- The body of QBUILD (42_quant R191). -/
def qbuildBody (q : BitVec 8) : Cmd Unit :=
  update fun s => (s.setQt0 (qTableY q.toNat)).setQt1 (qTableC q.toNat)

/-- QBUILD q (42_quant R191). -/
def execQbuild (q : BitVec 8) (s : State) : Host.Outcome State Fault Refusal := runCommand (qbuildBody q) s

/-- The body of QLOOKUP (42_quant R192). -/
def qlookupBody (t : BitVec 1) (i : BitVec 6) (z : BitVec 1) : Cmd Unit := do
  let v ← observe fun s => s.qtEntry t (lookupIndex i z)
  writeResult v.toNat

/-- QLOOKUP t, i, z (42_quant R192). -/
def execQlookup (t : BitVec 1) (i : BitVec 6) (z : BitVec 1) (s : State) : Host.Outcome State Fault Refusal :=
  runCommand (qlookupBody t i z) s

end Sys2Proof.Machine
end

