-- ==== Sys2Proof/Machine/Dispatch.lean ====
section
/-! DEFINITION. The meaning of each command (30_encoding R101). -/

namespace Sys2Proof.Machine

/-- The command rule a decoded command selects (60_exceptions R304). -/
def exec (i : Instr) (s : State) : Host.Outcome State Fault Refusal :=
  match i with
  | .rdbits n => Sys2Proof.Machine.execRdbits n s
  | .align => Sys2Proof.Machine.execAlign s
  | .hbuild t n => Sys2Proof.Machine.execHbuild t n s
  | .hdecode t => Sys2Proof.Machine.execHdecode t s
  | .infblk => Sys2Proof.Machine.execInfblk s
  | .inflate => Sys2Proof.Machine.execInflate s
  | .zinflate => Sys2Proof.Machine.execZinflate s
  | .qbuild q => Sys2Proof.Machine.execQbuild q s
  | .qlookup t idx z => Sys2Proof.Machine.execQlookup t idx z s
  | .fdct => Sys2Proof.Machine.execFdct s
  | .quant t => Sys2Proof.Machine.execQuant t s
  | .ehbuild t => Sys2Proof.Machine.execEhbuild t s
  | .encblk c => Sys2Proof.Machine.execEncblk c s
  | .eflush => Sys2Proof.Machine.execEflush s
  | .ereset => Sys2Proof.Machine.execEreset s

end Sys2Proof.Machine
end

