-- ==== Sys2Proof/Machine/Engine.lean ====
section
/-! DEFINITION. The engine's step: fetch the pending word, check it, execute it (60_exceptions R304). -/

namespace Sys2Proof.Machine

/-- The engine takes the pending command word `w`: IllegalCommand if no command has it, with nothing changed but the
error record (30_encoding R106, 60_exceptions R303), else the command rule. A command with a field out of range is
refused by its own rule, first thing. -/
def engineExecute (w : Word) (s : State) : Host.Outcome State Fault Refusal :=
  match decode w with
  | .ok i => exec i s
  | .error _ => .next (s.raiseError .illegalCommand)

/-- EngineStep, enabled iff STATUS.BUSY = 1 (60_exceptions R304); idling changes no state (R337). -/
def engineStep (s : State) : Host.Outcome State Fault Refusal :=
  if s.status.busy then engineExecute s.pending s else .next s

end Sys2Proof.Machine
end

