-- ==== Sys2Proof/Machine/Bus.lean ====
section
/-! DEFINITION. The host bus: the address map, the register map and the accesses of the host (10_state section 2,
20_memory R72 to R84). -/

namespace Sys2Proof.Machine

/-! ## The maps -/

/-- A register of the map of 10_state section 2. -/
inductive Register where
  | id
  | ctrl
  | status
  | cmd
  | result
  | inLen
  | brPos
  | outLen
  | ecsLen
  | ebits
  | pred (c : Component)
  | errCmd
  | errPos
  | inSize
  | outSize
  | ecsSize
  /-- Offsets 0x48 to 0xFC, RAZ/WI (10_state R35). -/
  | reserved
  deriving DecidableEq, Repr

/-- The named registers in offset order, from 0x00 in steps of 4 (10_state section 2). -/
def registerMap : List Register :=
  [.id, .ctrl, .status, .cmd, .result, .inLen, .brPos, .outLen, .ecsLen] ++
  [.ebits, .pred .y, .pred .cb, .pred .cr, .errCmd, .errPos, .inSize, .outSize, .ecsSize]

/-- The register at a byte offset below 0x100 (10_state section 2). -/
def registerAt (offset : Nat) : Register := registerMap.getD (offset / 4) .reserved

/-- A host window (20_memory R72). -/
inductive Window where
  | lens
  | hlen (t : DecodeTable)
  | qt (t : BitVec 1)
  | qstdY
  | qstdC
  | zz
  | blk
  | coef
  | dctbuf
  | hspecBits (t : Fin 4)
  | hspecVals (t : Fin 4)
  | ehuf (t : Fin 4)
  | input
  | output
  | ecs
  deriving DecidableEq, Repr

/-- A row of the address map: a window, its first address and its size in bytes (20_memory R72). -/
structure Region where
  window : Window
  first : Nat
  size : Nat
  deriving DecidableEq, Repr

/-- The regions of the decode side and of the quantization tables (20_memory R72). -/
def lowRegions : List Region :=
  [⟨.lens, 0x1000, 320⟩, ⟨.hlen .litlen, 0x1400, 288⟩, ⟨.hlen .dist, 0x1600, 32⟩, ⟨.hlen .clen, 0x1700, 19⟩] ++
  [⟨.qt 0, 0x2000, 64⟩, ⟨.qt 1, 0x2040, 64⟩, ⟨.qstdY, 0x2080, 64⟩, ⟨.qstdC, 0x20C0, 64⟩, ⟨.zz, 0x2100, 64⟩] ++
  [⟨.blk, 0x3000, 64⟩, ⟨.coef, 0x3100, 128⟩, ⟨.dctbuf, 0x3200, 256⟩]

/-- The regions of the encoder tables: HSPEC t at 0x4000 + 0x200·t, EHUF t at 0x5000 + 0x400·t (20_memory R72). -/
def tableRegions : List Region :=
  (List.finRange 4).flatMap fun t =>
    [⟨.hspecBits t, 0x4000 + 0x200 * t, 16⟩, ⟨.hspecVals t, 0x4100 + 0x200 * t, 256⟩,
      ⟨.ehuf t, 0x5000 + 0x400 * t, 1024⟩]

/-- The address map (20_memory R72). -/
def State.regions (s : State) : List Region :=
  lowRegions ++ tableRegions ++
    [⟨.input, inBase, s.inSize.toNat⟩, ⟨.output, outBase, s.outSize.toNat⟩, ⟨.ecs, ecsBase, s.ecsSize.toNat⟩]

/-- The bytes of an access (20_memory R74). -/
def AccessWidth.bytes : AccessWidth → Nat
  | .byte => 1
  | .half => 2
  | .word => 4

/-- What an access reaches: a register, or the bytes of one window from an offset on. -/
inductive Target where
  | register (r : Register)
  | window (w : Window) (offset : Nat)
  deriving DecidableEq, Repr

/-- The window an access of `n` bytes at `a` lies in whole (20_memory R76, R78). -/
def State.windowTarget (s : State) (a n : Nat) : Option Target :=
  match s.regions.find? (fun r => decide (r.first ≤ a) && decide (a < r.first + r.size)) with
  | some r => if a + n ≤ r.first + r.size then some (.window r.window (a - r.first)) else none
  | none => none

/-- What a permitted access reaches, `none` for an access that is dropped with HVIOL: misaligned, of a wrong width for a
register, straddling the end of a window (20_memory R76), or unmapped (R78). DEDUCED: a narrow or misaligned access is one
of R76 at a reserved offset 0x48 to 0xFC too, although 10_state R35 says that no access there sets HVIOL (log 23), and at
CMD (log 19). -/
def State.target? (s : State) (addr : Word) (width : AccessWidth) : Option Target :=
  let a := addr.toNat
  if a % width.bytes ≠ 0 then none
  else if a < 0x100 then (if width = .word then some (.register (registerAt a)) else none)
  else s.windowTarget a width.bytes

/-! ## Registers -/

/-- The value a register read returns (10_state section 2). -/
def State.readRegister (s : State) : Register → Word
  | .id => idConstant
  | .ctrl => s.ctrlWord
  | .status => s.status.toWord
  | .cmd => 0
  | .result => s.result
  | .inLen => s.inLen
  | .brPos => s.brPos
  | .outLen => s.outLen
  | .ecsLen => s.ecsLen
  | .ebits => s.ebitsWord
  | .pred c => s.pred[c.index].signExtend 32
  | .errCmd => s.errCmd
  | .errPos => s.errPos
  | .inSize => s.inSize
  | .outSize => s.outSize
  | .ecsSize => s.ecsSize
  | .reserved => 0

/-- min(v, size), the write-any-read-legal clamp (10_state R28 to R30). -/
def clampTo (size v : Word) : Word := if v.toNat ≤ size.toNat then v else size

/-- A write of CTRL (10_state R23): SRESET = 1 resets and discards the rest, SRESET = 0 stores IRQEN. -/
def State.writeCtrl (s : State) (v : Word) : State :=
  if v.getLsbD 0 then s.softReset else s.setIrqEn (v.getLsbD 1)

/-- A write of CMD (10_state R24). -/
def State.writeCmd (s : State) (v : Word) : State :=
  if s.status.busy || s.status.err then s.flagRejected else s.acceptCommand v

/-- A write of a register while the engine is idle (10_state section 2, 20_memory R77). DEDUCED: a read-only register
ignores it and sets no flag, as R77 says, and not HVIOL, as 93_implementation_defined I27 says (log 24). -/
def State.writeIdle (s : State) (r : Register) (v : Word) : State :=
  match r with
  | .inLen => s.setInLen (clampTo s.inSize v)
  | .brPos => s.setBrPos v
  | .outLen => s.setOutLen (clampTo s.outSize v)
  | .ecsLen => s.setEcsLen (clampTo s.ecsSize v)
  | .pred c => s.setPred (s.pred.set c.index (v.setWidth 16))
  | .ctrl => s.writeCtrl v
  | .status => s.setStatus (s.status.writeW1C v)
  | .cmd => s.writeCmd v
  | .id => s
  | .result => s
  | .ebits => s
  | .errCmd => s
  | .errPos => s
  | .inSize => s
  | .outSize => s
  | .ecsSize => s
  | .reserved => s

/-- A register write (10_state section 2; 20_memory R84): while BUSY = 1 only CTRL, STATUS and CMD take a write, every
other register drops it with HVIOL (read-only ones too, log 11), and a reserved offset ignores it (log 10). -/
def State.writeRegister (s : State) (r : Register) (v : Word) : State :=
  if s.status.busy then
    match r with
    | .ctrl => s.writeIdle .ctrl v
    | .status => s.writeIdle .status v
    | .cmd => s.writeIdle .cmd v
    | .reserved => s
    | _ => s.flagViolation
  else s.writeIdle r v

/-! ## Windows -/

/-- The word form of an EHUF entry: SIZE in [20:16], CODE in [15:0] (10_state R44). -/
def EHufEntry.toWord (e : EHufEntry) : Word := BitVec.ofNat 32 (65536 * e.size.toNat + e.code.toNat)

/-- The byte at an offset of a window, multi-byte elements little-endian (20_memory R75, R80). -/
def State.windowByte (s : State) (w : Window) (off : Nat) : Byte :=
  match w with
  | .lens => s.lens.getD off 0
  | .hlen t => BitVec.ofNat 8 ((s.hlen t).getD off 0)
  | .qt t => s.qtEntry t off
  | .qstdY => BitVec.ofNat 8 (qstdY off)
  | .qstdC => BitVec.ofNat 8 (qstdC off)
  | .zz => BitVec.ofNat 8 (Sys2Proof.Machine.zz off)
  | .blk => s.blk.getD off 0
  | .coef => byteAt (s.coef.getD (off / 2) 0) (off % 2)
  | .dctbuf => byteAt (s.dctbuf.getD (off / 4) 0) (off % 4)
  | .hspecBits t => s.hspec[t].bits.getD off 0
  | .hspecVals t => s.hspec[t].vals.getD off 0
  | .ehuf t => byteAt (s.ehuf[t].getD (off / 4) .absent).toWord (off % 4)
  | .input => s.inByte off
  | .output => s.outByte off
  | .ecs => s.ecsByte off

/-- Store a byte at an offset of a window (20_memory R75). DEDUCED: a read-only window ignores it and no flag is set, as
R77 says, and not HVIOL, as 93_implementation_defined I27 says (log 24). -/
def State.setWindowByte (s : State) (w : Window) (off : Nat) (b : Byte) : State :=
  match w with
  | .lens => s.setLens (s.lens.setIfInBounds off b)
  | .blk => s.setBlk (s.blk.setIfInBounds off b)
  | .coef =>
    s.setCoef (s.coef.setIfInBounds (off / 2) (setHalfByte (s.coef.getD (off / 2) 0) (off % 2) b))
  | .hspecBits t =>
    s.setHspec (s.hspec.set t ⟨s.hspec[t].bits.setIfInBounds off b, s.hspec[t].vals⟩)
  | .hspecVals t =>
    s.setHspec (s.hspec.set t ⟨s.hspec[t].bits, s.hspec[t].vals.setIfInBounds off b⟩)
  | .input => s.writeByte (inBase + off) b
  | .output => s.writeByte (outBase + off) b
  | .ecs => s.writeByte (ecsBase + off) b
  | .hlen _ => s
  | .qt _ => s
  | .qstdY => s
  | .qstdC => s
  | .zz => s
  | .dctbuf => s
  | .ehuf _ => s

/-- MemRead of `n` bytes of a window from an offset on (20_memory R75). -/
def State.readWindow (s : State) (w : Window) (off n : Nat) : Word :=
  BitVec.ofNat 32 (assembleBytes ((List.range n).map fun i => s.windowByte w (off + i)))

/-- MemWrite of `n` bytes of a window from an offset on (20_memory R75). -/
def State.writeWindow (s : State) (w : Window) (off n : Nat) (v : Word) : State :=
  (List.range n).foldl (fun s i => s.setWindowByte w (off + i) (byteAt v i)) s

/-! ## Host accesses -/

/-- The value `v` is returned to the host (the model's own record, log 2). -/
def State.returnRead (s : State) (v : Word) : State := s.setReads (v :: s.reads)

/-- MemRead(addr, width) by the host: served, or dropped with HVIOL and the value 0 (20_memory R75 to R78, R84). -/
def State.hostRead (s : State) (addr : Word) (width : AccessWidth) : State :=
  match s.target? addr width with
  | some (.register r) => s.returnRead (s.readRegister r)
  | some (.window w off) =>
    if s.status.busy then s.flagViolation.returnRead 0 else s.returnRead (s.readWindow w off width.bytes)
  | none => s.flagViolation.returnRead 0

/-- MemWrite(addr, width, v) by the host: performed, or dropped with HVIOL (20_memory R75 to R78, R84). -/
def State.hostWrite (s : State) (addr : Word) (width : AccessWidth) (v : Word) : State :=
  match s.target? addr width with
  | some (.register r) => s.writeRegister r v
  | some (.window w off) => if s.status.busy then s.flagViolation else s.writeWindow w off width.bytes v
  | none => s.flagViolation

/-- One event of the host's side (20_memory R86: one access or one whole command). -/
def busStep (e : BusEvent) (s : State) : Host.Outcome State Fault Refusal :=
  match e with
  | .engine => engineStep s
  | .read addr width => .next (s.hostRead addr width)
  | .write addr width v => .next (s.hostWrite addr width v)

/-- The next event of the block: the oldest of the host's side, or, when the host makes no more accesses, the engine's
step (20_memory R86, 70_reset R360; log 1). -/
def nextEvent (s : State) : Host.Outcome State Fault Refusal :=
  match s.bus with
  | [] => engineStep s
  | e :: rest => busStep e (s.setBus rest)

end Sys2Proof.Machine
end

