-- ==== Sys2Proof/Machine/Step.lean ====
section
/-! DEFINITION. One step of the machine, and how a command word is put where the next step takes it. -/

namespace Sys2Proof.Machine

/-- One step: one host access or one whole command (20_memory R86). -/
def step (s : State) : Host.Outcome State Fault Refusal := nextEvent s

/-- The state in which the very next step executes command word `w`: the word accepted as a CMD write would (10_state
R24), and no host access before it (log 16). -/
def State.withFetchWord (s : State) (nbits w : Nat) : State :=
  (s.acceptCommand (BitVec.ofNat 32 (w % 2 ^ nbits))).setBus []

end Sys2Proof.Machine
end

