-- ==== Sys2Proof/Safety.lean ====
section
/-! DEFINITION. What claims about the block are stated in: the invariant of every reachable state, the launch premises of
70_reset R345, the observation at the end of a run (R357), and the two ways a command ends. -/

namespace Sys2Proof.Machine

/-! ## How a command ends -/

/-- `s` with the pending command completed normally (60_exceptions R304). -/
def completed (s : State) : State := { s with status := { s.status with busy := false, done := true } }

/-- `s` with the pending command completed with error `e` and the error record written (60_exceptions R304, R305). -/
def failedWith (e : ErrorKind) (s : State) : State :=
  { s with
    status := { s.status with busy := false, done := true, err := true, errCode := e.code }
    errCmd := s.pending
    errPos := s.brPos }

/-- The errors a command can raise (60_exceptions R302). -/
def errorsOf : Instr → List ErrorKind
  | .rdbits _ => [.illegalCommand, .truncatedInput]
  | .align => [.illegalCommand]
  | .hbuild _ _ => [.illegalCommand, .invalidCode]
  | .hdecode _ => [.illegalCommand, .invalidCode, .truncatedInput]
  | .infblk => .illegalCommand :: inflateErrors
  | .inflate => .illegalCommand :: inflateErrors
  | .zinflate => .illegalCommand :: .malformedIDAT :: inflateErrors
  | .qbuild _ => [.illegalCommand]
  | .qlookup _ _ _ => [.illegalCommand]
  | .fdct => [.illegalCommand]
  | .quant _ => [.illegalCommand]
  | .ehbuild _ => [.illegalCommand, .huffSpec]
  | .encblk _ => [.illegalCommand, .encodeRange, .encodeOverflow]
  | .eflush => [.illegalCommand, .encodeOverflow]
  | .ereset => [.illegalCommand]
where
  /-- The errors of the inflate commands. -/
  inflateErrors : List ErrorKind :=
    [.truncatedInput, .invalidBlockType, .invalidCode, .invalidSymbol, .outputOverflow, .distanceTooFar]

/-- The inflate commands (41_inflate section 5). -/
def inflates (i : Instr) : Prop := i = .infblk ∨ i = .inflate ∨ i = .zinflate

/-! ## The invariant -/

/-- STATUS of a reachable state: a busy engine has neither DONE nor ERR set (10_state R24), ERRCODE is 0 exactly when
ERR is clear (10_state R25, 60_exceptions R301, R308), and codes 12 to 15 are never written (R301). -/
def Status.Inv (st : Status) : Prop :=
  (st.busy = true → st.done = false ∧ st.err = false) ∧ (st.err = true ↔ st.errCode ≠ 0) ∧ st.errCode.toNat ≤ 11

/-- A code length set of a decode table satisfies the Kraft inequality (10_state R39). -/
def KraftOk (lens : List Nat) : Prop := kraftSum lens ≤ 2 ^ 15

/-- An EHUF entry: SIZE at most 16 and CODE a SIZE-bit number (10_state R44, 43_huffman_tables R212). -/
def EHufEntry.ok (e : EHufEntry) : Bool := decide (e.size.toNat ≤ 16 ∧ e.code.toNat < 2 ^ e.size.toNat)

/-- An EHUF table; a DC table has SIZE 0 for entries 12 to 255 (10_state R44). -/
def ehufTableOk (t : Fin 4) (table : EHufTable) : Bool :=
  table.toList.all EHufEntry.ok &&
    (decide (2 ≤ t.val) || (table.toList.drop 12).all fun e => decide (e.size = 0))

/-- Host address `a` lies in the window of IN, OUT or ECS (20_memory R72). -/
def State.inWindows (s : State) (a : Nat) : Bool :=
  decide ((inBase ≤ a ∧ a < inBase + s.inSize.toNat) ∨ (outBase ≤ a ∧ a < outBase + s.outSize.toNat) ∨
    (ecsBase ≤ a ∧ a < ecsBase + s.ecsSize.toNat))

/-- What holds in every reachable state. -/
structure State.Inv (s : State) : Prop where
  /-- The parameters are in the ranges of 00_scope R7. -/
  sizes : Params.inRange ⟨s.inSize, s.outSize, s.ecsSize⟩ = true
  /-- STATUS is consistent. -/
  status : s.status.Inv
  /-- IN_LEN <= IN_SIZE (10_state R28). -/
  inLen : s.inLen.toNat ≤ s.inSize.toNat
  /-- OUT_LEN <= OUT_SIZE (10_state R29). -/
  outLen : s.outLen.toNat ≤ s.outSize.toNat
  /-- ECS_LEN <= ECS_SIZE (45_entropy R261). -/
  ecsLen : s.ecsLen.toNat ≤ s.ecsSize.toNat
  /-- At most 7 bits are pending (10_state R31). -/
  pbits : s.pbits.length ≤ 7
  /-- The memory is in its canonical form. -/
  memWf : s.mem.wf = true
  /-- Only bytes of IN, OUT and ECS are ever written (70_reset R356). -/
  memIn : s.mem.all (fun c => s.inWindows c.1) = true
  /-- Every decode table satisfies the Kraft inequality (10_state R39). -/
  kraft : ∀ t, KraftOk (s.hlen t)
  /-- A quantization table entry is never 0 (42_quant R193). -/
  qt0 : s.qt0.toList.all (fun q => decide (q ≠ 0)) = true
  qt1 : s.qt1.toList.all (fun q => decide (q ≠ 0)) = true
  /-- Every encoder table holds codes that fit their lengths (43_huffman_tables R212). -/
  ehuf : ∀ t : Fin 4, ehufTableOk t s.ehuf[t] = true

/-! ## Binary32 values -/

/-- The value of a finite binary32 magnitude (the 31 bits below the sign), in units of 2^-149: a subnormal is its fraction,
a normal number 2^23 and its fraction, times 2 to its exponent less 1 (IEEE 754 binary32, 00_scope R10). -/
def binary32Units (mag : Nat) : Nat := if mag < 2 ^ 23 then mag else (2 ^ 23 + mag % 2 ^ 23) * 2 ^ (mag / 2 ^ 23 - 1)

/-- `mag` is the binary32 magnitude of the exact value `num / den` units of 2^-149, rounded to nearest with ties to even
(00_scope R10 `f32(x)`): infinity from half a last place above the largest finite value on, else a finite magnitude that
none is nearer than, even if another is as near. -/
def RoundsTo (num den mag : Nat) : Prop :=
  let away : Nat → Nat := fun m => ((binary32Units m * den : Int) - num).natAbs
  if (2 ^ 25 - 1) * 2 ^ 252 * den ≤ num then mag = 0x7F800000
  else mag < 0x7F800000 ∧
    ∀ m, m < 0x7F800000 → away mag ≤ away m ∧ (m ≠ mag → away m = away mag → mag % 2 = 0)

/-! ## The entropy-coded segment -/

/-- Every 0xFF byte of ECS[0..ECS_LEN) is followed by a 0x00 byte of it (45_entropy R268). -/
def State.Stuffed (s : State) : Prop :=
  ∀ i, i < s.ecsLen.toNat → s.ecsByte i = 0xFF → i + 1 < s.ecsLen.toNat ∧ s.ecsByte (i + 1) = 0x00

/-- A segment with its stuff bytes removed (45_entropy R268). -/
def destuff : List Byte → List Byte
  | [] => []
  | [b] => [b]
  | b :: b' :: rest => if b = 0xFF ∧ b' = 0x00 then b :: destuff rest else b :: destuff (b' :: rest)

/-- ECS[0..ECS_LEN), the result of an encode (70_reset R357). -/
def State.encodeResult (s : State) : List Byte := (List.range s.ecsLen.toNat).map s.ecsByte

/-- OUT[0..OUT_LEN), the result of a decode (70_reset R357). -/
def State.decodeResult (s : State) : List Byte := (List.range s.outLen.toNat).map s.outByte

/-- ECS[n..ECS_LEN): the bytes of the segment from index n on, where a command that began at ECS_LEN = n wrote. -/
def State.ecsFrom (s : State) (n : Nat) : List Byte := (List.range (s.ecsLen.toNat - n)).map fun i => s.ecsByte (n + i)

/-- Every 0xFF of these bytes is followed by a 0x00 among them (45_entropy R261, R268). -/
def stuffedBytes (bytes : List Byte) : Prop :=
  ∀ i, i < bytes.length → bytes.getD i 0 = 0xFF → i + 1 < bytes.length ∧ bytes.getD (i + 1) 0xFF = 0x00

/-- The bits in stuffed bytes: without the stuff bytes, most significant bit first (45_entropy R268 (3)). -/
def bitsOfStuffed (bytes : List Byte) : List Bool := (destuff bytes).flatMap fun b => fieldBits b.toNat 8

/-- The bits coded so far: the segment without its stuff bytes, most significant bit first, then the pending bits
(45_entropy R268 (3)). -/
def State.codedBits (s : State) : List Bool := bitsOfStuffed s.encodeResult ++ s.pbits

/-! ## Streams a statement can be about -/

/-- At bit `p` of IN stands a stored block with BFINAL = `final`, its LEN at byte `q` with value `len` (41_inflate R151,
R152). Its data start at byte `q + 4`. -/
structure State.StoredBlockAt (s : State) (p q len : Nat) (final : Bool) : Prop where
  bfinal : s.streamBit p = final
  btype0 : s.streamBit (p + 1) = false
  btype1 : s.streamBit (p + 2) = false
  start : q = (p + 3 + 7) / 8
  length : (s.inByte q).toNat + 256 * (s.inByte (q + 1)).toNat = len

/-- The bits of a literal in a fixed block, in stream order: 8 bits from 00110000 on for 0 to 143, 9 bits from 110010000
on for 144 to 255 (41_inflate R153). -/
def fixedLiteralBits (b : Byte) : List Bool :=
  if b.toNat < 144 then fieldBits (0x30 + b.toNat) 8 else fieldBits (0x190 + (b.toNat - 144)) 9

/-- A stream of one final fixed block that holds literals only: BFINAL = 1, BTYPE = 01 (its bit 0 first), the literals,
then the code 0000000 of the end of the block (41_inflate R151, R153). -/
def fixedLiteralStream (data : List Byte) : List Bool :=
  [true, true, false] ++ data.flatMap fixedLiteralBits ++ List.replicate 7 false

/-- The bits of a symbol's code in a set of lengths, in stream order (40_bitreader R123, 20_memory R81). -/
def codeBits (lens : List Nat) (sym : Nat) : List Bool := fieldBits ((canonicalCodes lens).getD sym 0) (lens.getD sym 0)

/-- The bits `p` are the code of `sym`: the first test of Decode (40_bitreader R124). -/
def CodeIs (lens : List Nat) (p : List Bool) (sym : Nat) : Prop :=
  sym < lens.length ∧ p ≠ [] ∧ lens.getD sym 0 = p.length ∧ (canonicalCodes lens).getD sym 0 = bitsValue p

/-- Decode, having read the bits `p`, reads on: they are no symbol's code, and some code properly extends them
(40_bitreader R124). -/
def InsideCode (lens : List Nat) (p : List Bool) : Prop :=
  (∀ sym, ¬ CodeIs lens p sym) ∧
    ∃ sym, sym < lens.length ∧ p.length < lens.getD sym 0 ∧
      (canonicalCodes lens).getD sym 0 / 2 ^ (lens.getD sym 0 - p.length) = bitsValue p

/-- Decode reads the bits `p`, each of them inside a code, and ends there with the code of `sym` (40_bitreader R124). -/
def DecodesTo (lens : List Nat) (p : List Bool) (sym : Nat) : Prop :=
  CodeIs lens p sym ∧ ∀ j, j < p.length → InsideCode lens (p.take j)

/-- Decode reads the bits `p` and leaves the trie there: no code begins with them, and one began with every shorter run
(40_bitreader R124, 92 D12). -/
def LeavesCode (lens : List Nat) (p : List Bool) : Prop :=
  (∀ sym, sym < lens.length → lens.getD sym 0 ≠ 0 → p.length ≤ lens.getD sym 0 →
      (canonicalCodes lens).getD sym 0 / 2 ^ (lens.getD sym 0 - p.length) ≠ bitsValue p) ∧
    ∀ j, j < p.length → InsideCode lens (p.take j)

/-- Decode reads the bits `p` and is still inside a code: it wants another bit (40_bitreader R124). -/
def StaysInside (lens : List Nat) (p : List Bool) : Prop := ∀ j, j ≤ p.length → InsideCode lens (p.take j)

/-- `v` as an n-bit field of the stream, least significant bit first (40_bitreader R121). -/
def lowBits (v n : Nat) : List Bool := (fieldBits v n).reverse

/-- A code-length symbol with its extra bits (41_inflate R157). -/
inductive LengthOp where
  /-- Symbols 0 to 15: one length. -/
  | length (l : Nat)
  /-- Symbol 16: the length before it, 3 + r times. -/
  | again (r : Nat)
  /-- Symbol 17: 3 + r zeros. -/
  | zeros (r : Nat)
  /-- Symbol 18: 11 + r zeros. -/
  | manyZeros (r : Nat)
  deriving DecidableEq, Repr

/-- The code-length symbol. -/
def LengthOp.symbol : LengthOp → Nat
  | .length l => l
  | .again _ => 16
  | .zeros _ => 17
  | .manyZeros _ => 18

/-- The extra bits after the symbol's code: 2, 3 and 7 of them for 16, 17 and 18. -/
def LengthOp.extraBits : LengthOp → List Bool
  | .length _ => []
  | .again r => lowBits r 2
  | .zeros r => lowBits r 3
  | .manyZeros r => lowBits r 7

/-- The lengths `a` with those the symbol adds. -/
def LengthOp.extend (a : List Nat) : LengthOp → List Nat
  | .length l => a ++ [l]
  | .again r => a ++ List.replicate (3 + r) (a.getLastD 0)
  | .zeros r => a ++ List.replicate (3 + r) 0
  | .manyZeros r => a ++ List.replicate (11 + r) 0

/-- The symbol can stand after the lengths `a`, and its extra bits fit their field. -/
def LengthOp.legal (a : List Nat) : LengthOp → Bool
  | .length l => decide (l ≤ 15)
  | .again r => decide (a ≠ [] ∧ r < 4)
  | .zeros r => decide (r < 8)
  | .manyZeros r => decide (r < 128)

/-- Each symbol in turn is legal after the lengths before it and has a code in `cl`. -/
def lengthOpsLegal (cl : List Nat) : List Nat → List LengthOp → Bool
  | _, [] => true
  | a, op :: ops => op.legal a && decide (cl.getD op.symbol 0 ≠ 0) && lengthOpsLegal cl (op.extend a) ops

/-- A literal, or a back-reference by length symbol 257 + c and distance symbol d with their extra bits (41_inflate
R162). -/
inductive Token where
  | literal (b : Byte)
  | copy (c lx d dx : Nat)
  deriving DecidableEq, Repr

/-- The bits of a token: length code, length extra bits, distance code, distance extra bits, in that order. -/
def Token.bits (lit dist : List Nat) : Token → List Bool
  | .literal b => codeBits lit b.toNat
  | .copy c lx d dx =>
    codeBits lit (257 + c) ++ lowBits lx (lextra.getD c 0) ++ codeBits dist d ++ lowBits dx (dextra.getD d 0)

/-- The output with what the token adds: a copy takes its bytes one by one from `dist` bytes back (41_inflate R160). -/
def Token.extend (out : List Byte) : Token → List Byte
  | .literal b => out ++ [b]
  | .copy c lx d dx =>
    let dist := dbase.getD d 0 + dx
    (List.range (lbase.getD c 0 + lx)).foldl (fun out _ => out ++ [out.getD (out.length - dist) 0]) out

/-- The token's symbols have codes, its extra bits fit their fields and its distance lies within the output so far. -/
def Token.legal (lit dist : List Nat) (out : List Byte) : Token → Bool
  | .literal b => decide (lit.getD b.toNat 0 ≠ 0)
  | .copy c lx d dx =>
    decide (c < 29 ∧ lx < 2 ^ lextra.getD c 0 ∧ lit.getD (257 + c) 0 ≠ 0 ∧
      d < 30 ∧ dx < 2 ^ dextra.getD d 0 ∧ dist.getD d 0 ≠ 0 ∧ dbase.getD d 0 + dx ≤ out.length)

/-- Each token in turn is legal after the output of those before it. -/
def tokensLegal (lit dist : List Nat) : List Byte → List Token → Bool
  | _, [] => true
  | out, t :: ts => t.legal lit dist out && tokensLegal lit dist (t.extend out) ts

/-- The tables of a Huffman block: the fixed ones (41_inflate R153), or those a dynamic header gives by its three count
fields as they stand in the stream, the lengths CL of the code-length code and the code-length symbols (R156, R157). -/
inductive BlockTables where
  | fixed
  | dynamic (hlit hdist hclen : Nat) (cl : List Nat) (ops : List LengthOp)
  deriving DecidableEq, Repr

/-- BTYPE (41_inflate R151). -/
def BlockTables.btype : BlockTables → BitVec 2
  | .fixed => 1
  | .dynamic _ _ _ _ _ => 2

/-- The lengths of the literal/length table, HLEN0: the first HLIT + 257 lengths, then zeros (41_inflate R156). -/
def BlockTables.lit : BlockTables → List Nat
  | .fixed => fixedLit
  | .dynamic hlit _ _ _ ops =>
    (List.range 288).map fun j => if j < hlit + 257 then (ops.foldl LengthOp.extend []).getD j 0 else 0

/-- The lengths of the distance table, HLEN1: the HDIST + 1 lengths after those, then zeros (41_inflate R156). -/
def BlockTables.dist : BlockTables → List Nat
  | .fixed => fixedDist
  | .dynamic hlit hdist _ _ ops =>
    (List.range 32).map fun j => if j < hdist + 1 then (ops.foldl LengthOp.extend []).getD (hlit + 257 + j) 0 else 0

/-- The first part of a dynamic header, after BTYPE: HLIT, HDIST, HCLEN, then the HCLEN + 4 lengths of the code-length
code in the order of PERM (41_inflate R155, R156). -/
def countBits (hlit hdist hclen : Nat) (cl : List Nat) : List Bool :=
  lowBits hlit 5 ++ lowBits hdist 5 ++ lowBits hclen 4 ++
    (permRom.take (hclen + 4)).flatMap fun p => lowBits (cl.getD p 0) 3

/-- Every field of that part fits, and the lengths of the code-length code past the HCLEN + 4 given are 0. -/
def CountsLegal (hlit hdist hclen : Nat) (cl : List Nat) : Prop :=
  hlit < 32 ∧ hdist < 32 ∧ hclen < 16 ∧ cl.length = 19 ∧ (∀ l ∈ cl, l < 8) ∧
    ∀ i, hclen + 4 ≤ i → i < 19 → cl.getD (permRom.getD i 0) 0 = 0

/-- The code-length symbols, each its code and its extra bits (41_inflate R157). -/
def opsBits (cl : List Nat) (ops : List LengthOp) : List Bool :=
  ops.flatMap fun op => codeBits cl op.symbol ++ op.extraBits

/-- The header of a dynamic block after BTYPE (41_inflate R155 to R157). A fixed block has none. -/
def BlockTables.headerBits : BlockTables → List Bool
  | .fixed => []
  | .dynamic hlit hdist hclen cl ops => countBits hlit hdist hclen cl ++ opsBits cl ops

/-- The header can be written and is accepted: every field fits, no table is over-subscribed, and the code-length symbols
give HLIT + 257 + HDIST + 1 lengths (41_inflate R156, R157). -/
def BlockTables.Legal : BlockTables → Prop
  | .fixed => True
  | .dynamic hlit hdist hclen cl ops =>
    CountsLegal hlit hdist hclen cl ∧ KraftOk cl ∧ lengthOpsLegal cl [] ops = true ∧
    (ops.foldl LengthOp.extend []).length = hlit + 257 + (hdist + 1) ∧
    KraftOk (BlockTables.dynamic hlit hdist hclen cl ops).lit ∧
    KraftOk (BlockTables.dynamic hlit hdist hclen cl ops).dist

/-- HLEN2 after the block: CL after a dynamic header, as it was after a fixed block (41_inflate R168). -/
def BlockTables.clen (before : List Nat) : BlockTables → List Nat
  | .fixed => before
  | .dynamic _ _ _ cl _ => cl

/-- A Huffman block up to and with the last of these tokens: BFINAL, BTYPE, the header, the tokens (41_inflate R151, R154,
R156, R162). -/
def huffmanTokens (final : Bool) (h : BlockTables) (tokens : List Token) : List Bool :=
  final :: lowBits h.btype.toNat 2 ++ h.headerBits ++ tokens.flatMap (Token.bits h.lit h.dist)

/-- A whole Huffman block: the tokens, then the code of symbol 256 (41_inflate R162). -/
def huffmanBlock (final : Bool) (h : BlockTables) (tokens : List Token) : List Bool :=
  huffmanTokens final h tokens ++ codeBits h.lit 256

/-- How a dynamic header fails after the code-length symbols before it (41_inflate R156, R157). -/
inductive HeaderFailure where
  /-- The code-length code is over-subscribed. -/
  | codeLengths
  /-- The first code-length symbol is 16. -/
  | firstRepeat
  /-- The repeat runs past HLIT + HDIST. -/
  | overrun (op : LengthOp)
  /-- The bits `p` leave the code-length code. -/
  | noCode (p : List Bool)
  /-- The input ends after the bits `p` of a code. -/
  | cutCode (p : List Bool)
  /-- The input ends inside the extra bits of a repeat. -/
  | cutExtra (op : LengthOp)
  /-- The literal/length lengths are over-subscribed. -/
  | litTable
  /-- The distance lengths are over-subscribed. -/
  | distTable
  deriving DecidableEq, Repr

/-- The bits read after those symbols, up to the failure: a first 16 fails before its extra bits (41_inflate R157). -/
def HeaderFailure.bits (cl : List Nat) : HeaderFailure → List Bool
  | .codeLengths => []
  | .firstRepeat => codeBits cl 16
  | .overrun op => opsBits cl [op]
  | .noCode p => p
  | .cutCode p => p
  | .cutExtra op => codeBits cl op.symbol
  | .litTable => []
  | .distTable => []

/-- How many bits are wanted next where the input ends too early, 0 for the other failures (41_inflate R157). -/
def HeaderFailure.wants : HeaderFailure → Nat
  | .codeLengths => 0
  | .firstRepeat => 0
  | .overrun _ => 0
  | .noCode _ => 0
  | .cutCode _ => 1
  | .cutExtra op => op.extraBits.length
  | .litTable => 0
  | .distTable => 0

/-- The error raised (41_inflate R156, R157, R172; 40_bitreader R121, R124, R125). -/
def HeaderFailure.error : HeaderFailure → ErrorKind
  | .codeLengths => .invalidCode
  | .firstRepeat => .invalidSymbol
  | .overrun _ => .invalidSymbol
  | .noCode _ => .invalidCode
  | .cutCode _ => .truncatedInput
  | .cutExtra _ => .truncatedInput
  | .litTable => .invalidCode
  | .distTable => .invalidCode

/-- When the header fails so, after the code-length symbols `ops`, which are legal themselves. -/
def HeaderFailure.Occurs (hlit hdist hclen : Nat) (cl : List Nat) (ops : List LengthOp) : HeaderFailure → Prop
  | .codeLengths => ops = [] ∧ ¬ KraftOk cl
  | .firstRepeat => KraftOk cl ∧ ops = [] ∧ cl.getD 16 0 ≠ 0
  | .overrun op =>
    KraftOk cl ∧ lengthOpsLegal cl [] (ops ++ [op]) = true ∧
      (ops.foldl LengthOp.extend []).length < hlit + 257 + (hdist + 1) ∧
      hlit + 257 + (hdist + 1) < (op.extend (ops.foldl LengthOp.extend [])).length
  | .noCode p =>
    KraftOk cl ∧ lengthOpsLegal cl [] ops = true ∧
      (ops.foldl LengthOp.extend []).length < hlit + 257 + (hdist + 1) ∧ LeavesCode cl p
  | .cutCode p =>
    KraftOk cl ∧ lengthOpsLegal cl [] ops = true ∧
      (ops.foldl LengthOp.extend []).length < hlit + 257 + (hdist + 1) ∧ StaysInside cl p
  | .cutExtra op =>
    KraftOk cl ∧ lengthOpsLegal cl [] (ops ++ [op]) = true ∧
      (ops.foldl LengthOp.extend []).length < hlit + 257 + (hdist + 1) ∧ op.extraBits ≠ []
  | .litTable =>
    KraftOk cl ∧ lengthOpsLegal cl [] ops = true ∧
      (ops.foldl LengthOp.extend []).length = hlit + 257 + (hdist + 1) ∧
      ¬ KraftOk (BlockTables.dynamic hlit hdist hclen cl ops).lit
  | .distTable =>
    KraftOk cl ∧ lengthOpsLegal cl [] ops = true ∧
      (ops.foldl LengthOp.extend []).length = hlit + 257 + (hdist + 1) ∧
      KraftOk (BlockTables.dynamic hlit hdist hclen cl ops).lit ∧
      ¬ KraftOk (BlockTables.dynamic hlit hdist hclen cl ops).dist

/-- How the symbol loop fails after the tokens before it (41_inflate R162). -/
inductive BodyFailure where
  /-- Literal/length symbol 286 or 287. -/
  | badLength (sym : Nat)
  /-- Distance symbol 30 or 31. -/
  | badDistance (c lx d : Nat)
  /-- A distance that reaches before the output. -/
  | tooFar (c lx d dx : Nat)
  /-- A token whose bytes do not all fit OUT. -/
  | noRoom (t : Token)
  /-- The bits `p` leave the literal/length code. -/
  | noLitCode (p : List Bool)
  /-- The bits `p` leave the distance code. -/
  | noDistCode (c lx : Nat) (p : List Bool)
  /-- The input ends after the bits `p` of a literal/length code. -/
  | cutLitCode (p : List Bool)
  /-- The input ends inside the extra bits of a length. -/
  | cutLengthExtra (c : Nat)
  /-- The input ends after the bits `p` of a distance code. -/
  | cutDistCode (c lx : Nat) (p : List Bool)
  /-- The input ends inside the extra bits of a distance. -/
  | cutDistExtra (c lx d : Nat)
  deriving DecidableEq, Repr

/-- The bits read after those tokens, up to the failure (41_inflate R162, 60_exceptions R305). -/
def BodyFailure.bits (lit dist : List Nat) : BodyFailure → List Bool
  | .badLength sym => codeBits lit sym
  | .badDistance c lx d => codeBits lit (257 + c) ++ lowBits lx (lextra.getD c 0) ++ codeBits dist d
  | .tooFar c lx d dx => (Token.copy c lx d dx).bits lit dist
  | .noRoom t => t.bits lit dist
  | .noLitCode p => p
  | .noDistCode c lx p => codeBits lit (257 + c) ++ lowBits lx (lextra.getD c 0) ++ p
  | .cutLitCode p => p
  | .cutLengthExtra c => codeBits lit (257 + c)
  | .cutDistCode c lx p => codeBits lit (257 + c) ++ lowBits lx (lextra.getD c 0) ++ p
  | .cutDistExtra c lx d => codeBits lit (257 + c) ++ lowBits lx (lextra.getD c 0) ++ codeBits dist d

/-- How many bits are wanted next where the input ends too early, 0 for the other failures (41_inflate R162). -/
def BodyFailure.wants : BodyFailure → Nat
  | .badLength _ => 0
  | .badDistance _ _ _ => 0
  | .tooFar _ _ _ _ => 0
  | .noRoom _ => 0
  | .noLitCode _ => 0
  | .noDistCode _ _ _ => 0
  | .cutLitCode _ => 1
  | .cutLengthExtra c => lextra.getD c 0
  | .cutDistCode _ _ _ => 1
  | .cutDistExtra _ _ d => dextra.getD d 0

/-- The error raised (41_inflate R150, R160, R162, R172; 40_bitreader R121, R124). -/
def BodyFailure.error : BodyFailure → ErrorKind
  | .badLength _ => .invalidSymbol
  | .badDistance _ _ _ => .invalidSymbol
  | .tooFar _ _ _ _ => .distanceTooFar
  | .noRoom _ => .outputOverflow
  | .noLitCode _ => .invalidCode
  | .noDistCode _ _ _ => .invalidCode
  | .cutLitCode _ => .truncatedInput
  | .cutLengthExtra _ => .truncatedInput
  | .cutDistCode _ _ _ => .truncatedInput
  | .cutDistExtra _ _ _ => .truncatedInput

/-- Length symbol 257 + c with extra bits lx has a code and fits its field. -/
def lengthLegal (lit : List Nat) (c lx : Nat) : Prop :=
  c < 29 ∧ lx < 2 ^ lextra.getD c 0 ∧ lit.getD (257 + c) 0 ≠ 0

/-- When the loop fails so, after the output `out`, with room for `size` bytes in OUT. -/
def BodyFailure.Occurs (lit dist : List Nat) (out : List Byte) (size : Nat) : BodyFailure → Prop
  | .badLength sym => (sym = 286 ∨ sym = 287) ∧ lit.getD sym 0 ≠ 0
  | .badDistance c lx d => lengthLegal lit c lx ∧ (d = 30 ∨ d = 31) ∧ dist.getD d 0 ≠ 0
  | .tooFar c lx d dx =>
    lengthLegal lit c lx ∧ d < 30 ∧ dx < 2 ^ dextra.getD d 0 ∧ dist.getD d 0 ≠ 0 ∧ out.length < dbase.getD d 0 + dx
  | .noRoom t => t.legal lit dist out = true ∧ size < (t.extend out).length
  | .noLitCode p => LeavesCode lit p
  | .noDistCode c lx p => lengthLegal lit c lx ∧ LeavesCode dist p
  | .cutLitCode p => StaysInside lit p
  | .cutLengthExtra c => c < 29 ∧ lit.getD (257 + c) 0 ≠ 0 ∧ lextra.getD c 0 ≠ 0
  | .cutDistCode c lx p => lengthLegal lit c lx ∧ StaysInside dist p
  | .cutDistExtra c lx d => lengthLegal lit c lx ∧ d < 30 ∧ dist.getD d 0 ≠ 0 ∧ dextra.getD d 0 ≠ 0

/-- The output a failure leaves: OUT filled to its size by a token without room, else the output before it (41_inflate
R150, R160; 60_exceptions R300). -/
def BodyFailure.output (out : List Byte) (size : Nat) : BodyFailure → List Byte
  | .badLength _ => out
  | .badDistance _ _ _ => out
  | .tooFar _ _ _ _ => out
  | .noRoom t => (t.extend out).take size
  | .noLitCode _ => out
  | .noDistCode _ _ _ => out
  | .cutLitCode _ => out
  | .cutLengthExtra _ => out
  | .cutDistCode _ _ _ => out
  | .cutDistExtra _ _ _ => out

/-- What repeating INFBLK leaves, up to the first block that is last or fails; `none` if `n` blocks do not get there. -/
def blocksFrom : Nat → State → Option State
  | 0, _ => none
  | n + 1, s =>
    match exec .infblk s with
    | .next t => if t.status.err || t.status.last then some t else blocksFrom n t
    | .fault _ => none
    | .refused _ => none

/-! ## Launch premises (70_reset R345) -/

/-- `Idle`. -/
def State.Idle (s : State) : Prop := s.status.busy = false ∧ s.status.err = false

/-- `NoFlags`. -/
def State.NoFlags (s : State) : Prop :=
  s.status.done = false ∧ s.status.rej = false ∧ s.status.hviol = false

/-- IN[0..n) hold the bytes of `stream`. -/
def State.HoldsStream (s : State) (stream : List Byte) : Prop :=
  ∀ i, i < stream.length → s.inByte i = stream.getD i 0

/-- `DecodeReady(n, p)` for a stream of n bytes. -/
def State.DecodeReady (s : State) (stream : List Byte) (p : Nat) : Prop :=
  s.Idle ∧ s.HoldsStream stream ∧ s.inLen.toNat = stream.length ∧ s.brPos.toNat = p

/-- `BlockReady(o)`, for a history of o bytes in OUT. -/
def State.BlockReady (s : State) (stream : List Byte) (p : Nat) (history : List Byte) : Prop :=
  s.DecodeReady stream p ∧ s.outLen.toNat = history.length ∧
    ∀ i, i < history.length → s.outByte i = history.getD i 0

/-- `EncodeReady(q)`. -/
def State.EncodeReady (s : State) (q : Nat) : Prop :=
  s.Idle ∧ s.qt0 = qTableY q ∧ s.qt1 = qTableC q ∧
    (∀ t : Fin 4, huffBuild t s.hspec[t] = some s.ehuf[t]) ∧
    (∀ c : Component, s.predOf c = 0) ∧ s.pbits = [] ∧ s.ecsLen = 0

end Sys2Proof.Machine
end

