-- ==== Sys2Proof/Certificates/Slice0/Obligations.lean ====
section
/-! DEFINITION. The statements for the provers. Each docstring names the rules of spec/ a statement formalises. A next
state is written as `completed` or `failedWith` of the state before with the changed fields, so that everything else is
said to stay; where a command stores bytes, what every other address reads is said too. -/

section

open Sys2Proof Sys2Proof.Machine

/-! ## The command word (30_encoding) -/

/-- Words written out from the formulas of 30_encoding R104 decode to the commands they stand for; words with a reserved
bit or an unlisted opcode (R105) do not decode. -/
def Obligations.SpecWordsDecode : Prop :=
  decode 0x00001001#32 = .ok (.rdbits 16) ∧
  decode 0x00130203#32 = .ok (.hbuild 2 19) ∧
  decode 0x01200003#32 = .ok (.hbuild 0 288) ∧
  decode 0x00000009#32 = .ok .inflate ∧
  decode 0x00005510#32 = .ok (.qbuild 85) ∧
  decode 0x003F0311#32 = .ok (.qlookup 1 63 1) ∧
  decode 0x00000012#32 = .ok .fdct ∧
  decode 0x00000218#32 = .ok (.ehbuild 2) ∧
  decode 0x00000219#32 = .ok (.encblk 2) ∧
  decode 0x0000001B#32 = .ok .ereset ∧
  decode 0x00000102#32 = .error (.reservedBits "ALIGN") ∧
  decode 0x00000005#32 = .error (.unknownOpcode 5)

/-- Every command is read back from its word, with every operand at every value of its field (30_encoding R102 to
R104). -/
def Obligations.DecodeOfEncode : Prop := ∀ i : Instr, decode (encode i) = .ok i

/-- A word has one reading: the command the decoder reads from it encodes to that word (30_encoding R103). -/
def Obligations.EncodeOfDecode : Prop := ∀ (w : Word) (i : Instr), decode w = .ok i → encode i = w

/-- The formulas of 30_encoding R104, on numbers, and its examples. -/
def Obligations.EncodingFormulas : Prop :=
  (∀ n, (encode (.rdbits n)).toNat = 0x00000001 ||| (n.toNat <<< 8)) ∧
  (encode .align).toNat = 0x00000002 ∧
  (∀ t n, (encode (.hbuild t n)).toNat = 0x00000003 ||| (t.toNat <<< 8) ||| (n.toNat <<< 16)) ∧
  (∀ t, (encode (.hdecode t)).toNat = 0x00000004 ||| (t.toNat <<< 8)) ∧
  (encode .infblk).toNat = 0x00000008 ∧
  (encode .inflate).toNat = 0x00000009 ∧
  (encode .zinflate).toNat = 0x0000000A ∧
  (∀ q, (encode (.qbuild q)).toNat = 0x00000010 ||| (q.toNat <<< 8)) ∧
  (∀ t i z, (encode (.qlookup t i z)).toNat =
    0x00000011 ||| (t.toNat <<< 8) ||| (z.toNat <<< 9) ||| (i.toNat <<< 16)) ∧
  (encode .fdct).toNat = 0x00000012 ∧
  (∀ t, (encode (.quant t)).toNat = 0x00000013 ||| (t.toNat <<< 8)) ∧
  (∀ t, (encode (.ehbuild t)).toNat = 0x00000018 ||| (t.toNat <<< 8)) ∧
  (∀ c, (encode (.encblk c)).toNat = 0x00000019 ||| (c.toNat <<< 8)) ∧
  (encode .eflush).toNat = 0x0000001A ∧
  (encode .ereset).toNat = 0x0000001B ∧
  encode (.hbuild 2 19) = 0x00130203#32 ∧ encode (.rdbits 16) = 0x00001001#32 ∧
  encode (.qlookup 1 63 1) = 0x003F0311#32

/-- The legal words are exactly those with a listed opcode, no reserved bit set and every field in its legal range
(30_encoding R105), and the engine answers every other word with IllegalCommand, changing nothing but the error record
and the completion flags (R105, R106). -/
def Obligations.IllegalWordsRaise : Prop :=
  (∀ w : Word, legalWord w = true ↔
    (opcodeOf w = 0x01 ∧ w &&& 0xFFFFE000#32 = 0 ∧ 1 ≤ (w.extractLsb' 8 5).toNat ∧
      (w.extractLsb' 8 5).toNat ≤ 16) ∨
    ((opcodeOf w = 0x02 ∨ opcodeOf w = 0x08 ∨ opcodeOf w = 0x09 ∨ opcodeOf w = 0x0A ∨ opcodeOf w = 0x12 ∨
      opcodeOf w = 0x1A ∨ opcodeOf w = 0x1B) ∧ w &&& 0xFFFFFF00#32 = 0) ∨
    (opcodeOf w = 0x03 ∧ w &&& 0xFE00FC00#32 = 0 ∧
      ((w.extractLsb' 8 2 = 0 ∧ (w.extractLsb' 16 9).toNat ≤ 288) ∨
        (w.extractLsb' 8 2 = 1 ∧ (w.extractLsb' 16 9).toNat ≤ 32) ∨
        (w.extractLsb' 8 2 = 2 ∧ (w.extractLsb' 16 9).toNat ≤ 19))) ∨
    (opcodeOf w = 0x04 ∧ w &&& 0xFFFFFC00#32 = 0 ∧ w.extractLsb' 8 2 ≠ 3) ∨
    (opcodeOf w = 0x10 ∧ w &&& 0xFFFF0000#32 = 0) ∨
    (opcodeOf w = 0x11 ∧ w &&& 0xFFC0FC00#32 = 0) ∨
    (opcodeOf w = 0x13 ∧ w &&& 0xFFFFFE00#32 = 0) ∨
    (opcodeOf w = 0x18 ∧ w &&& 0xFFFFFC00#32 = 0) ∨
    (opcodeOf w = 0x19 ∧ w &&& 0xFFFFFC00#32 = 0 ∧ w.extractLsb' 8 2 ≠ 3)) ∧
  (∀ s : State, s.status.busy = true → legalWord s.pending = false →
    engineStep s = .next (failedWith .illegalCommand s))

/-! ## The engine (60_exceptions, 10_state) -/

/-- What a step does with every head of `bus` (20_memory R86; 60_exceptions R304, R337; log 1). A busy engine's step is
`exec` of the command its pending word decodes to, or IllegalCommand where no command has that word: at once when the host
makes no more accesses, and at the point the host's sequence gives the engine, which that step passes. An idle engine's
point passes with nothing else changed. A host read is `hostRead` and a host write `hostWrite`, busy or idle, of the state
with that access taken from `bus`. -/
def Obligations.StepRunsDecodedCommand : Prop :=
  (∀ (s : State) (i : Instr), s.status.busy = true → decode s.pending = .ok i →
    (s.bus = [] → step s = exec i s) ∧
    (∀ rest, s.bus = .engine :: rest → step s = exec i (s.setBus rest))) ∧
  (∀ s : State, s.status.busy = true → legalWord s.pending = false →
    (s.bus = [] → step s = .next (failedWith .illegalCommand s)) ∧
    (∀ rest, s.bus = .engine :: rest → step s = .next (failedWith .illegalCommand { s with bus := rest }))) ∧
  ∀ (s : State) (rest : List BusEvent),
    (s.bus = .engine :: rest → s.status.busy = false → step s = .next { s with bus := rest }) ∧
    (∀ a width, s.bus = .read a width :: rest → step s = .next ({ s with bus := rest }.hostRead a width)) ∧
    ∀ a width v, s.bus = .write a width v :: rest → step s = .next ({ s with bus := rest }.hostWrite a width v)

/-- Every command ends in a next state, completed, with the pending word as it was, and with no error but those
60_exceptions R302 lists for it (R300, R302, R304). -/
def Obligations.CompletesWithItsOwnErrors : Prop :=
  ∀ (i : Instr) (s : State), ∃ t, exec i s = .next t ∧ t.status.busy = false ∧ t.status.done = true ∧
    t.pending = s.pending ∧
    (s.status.err = false → t.status.err = true → ∃ e ∈ errorsOf i, t.status.errCode = e.code)

/-- The error record: ERRCMD the command word, ERRPOS the cursor where the command stopped; without an error ERRCMD,
ERRPOS and ERRCODE stay (60_exceptions R305, 10_state R33). -/
def Obligations.ErrorRecordPrecise : Prop :=
  ∀ (i : Instr) (s t : State), s.status.err = false → exec i s = .next t →
    (t.status.err = true → t.errCmd = s.pending ∧ t.errPos = t.brPos ∧ t.status.errCode ≠ 0) ∧
    (t.status.err = false →
      t.errCmd = s.errCmd ∧ t.errPos = s.errPos ∧ t.status.errCode = s.status.errCode)

/-- No command writes IN (10_state R37). -/
def Obligations.NoCommandWritesInput : Prop :=
  ∀ (i : Instr) (s t : State), exec i s = .next t → ∀ j, j < 2 ^ 24 → t.inByte j = s.inByte j

/-- Which registers and tables each command can change: every other command leaves them alone, on every path (10_state
R26 to R33, R36, R39 to R44; 70_reset R351). -/
def Obligations.StateWrittenOnlyBy : Prop :=
  ∀ (i : Instr) (s t : State), exec i s = .next t →
    (t.irqEn = s.irqEn ∧ t.status.rej = s.status.rej ∧ t.status.hviol = s.status.hviol ∧ t.inLen = s.inLen ∧
      t.inSize = s.inSize ∧ t.outSize = s.outSize ∧ t.ecsSize = s.ecsSize ∧ t.lens = s.lens ∧ t.blk = s.blk ∧
      t.hspec = s.hspec ∧ t.bus = s.bus ∧ t.reads = s.reads) ∧
    (t.result ≠ s.result → (∃ n, i = .rdbits n) ∨ (∃ t, i = .hdecode t) ∨ ∃ t j z, i = .qlookup t j z) ∧
    (t.brPos ≠ s.brPos → (∃ n, i = .rdbits n) ∨ i = .align ∨ (∃ t, i = .hdecode t) ∨ inflates i) ∧
    (t.outLen ≠ s.outLen ∨ t.status.last ≠ s.status.last ∨ t.status.btype ≠ s.status.btype → inflates i) ∧
    (t.hlen0 ≠ s.hlen0 → (∃ n, i = .hbuild 0 n) ∨ inflates i) ∧
    (t.hlen1 ≠ s.hlen1 → (∃ n, i = .hbuild 1 n) ∨ inflates i) ∧
    (t.hlen2 ≠ s.hlen2 → (∃ n, i = .hbuild 2 n) ∨ inflates i) ∧
    (t.qt0 ≠ s.qt0 ∨ t.qt1 ≠ s.qt1 → ∃ q, i = .qbuild q) ∧
    (t.dctbuf ≠ s.dctbuf → i = .fdct) ∧
    (t.coef ≠ s.coef → ∃ t, i = .quant t) ∧
    (∀ k : Fin 4, t.ehuf[k] ≠ s.ehuf[k] → i = .ehbuild (BitVec.ofFin k)) ∧
    (t.pred ≠ s.pred → (∃ c, i = .encblk c) ∨ i = .ereset) ∧
    (t.ecsLen ≠ s.ecsLen ∨ t.pbits ≠ s.pbits → (∃ c, i = .encblk c) ∨ i = .eflush ∨ i = .ereset)

/-- The only bytes a command writes: the inflate commands write OUT below the OUT_LEN they leave, ENCBLK and EFLUSH write
ECS between the old ECS_LEN and the new one (70_reset R356: nothing outside OUT[0..OUT_SIZE) and ECS[0..ECS_SIZE)). -/
def Obligations.MemoryWrittenOnlyBy : Prop :=
  ∀ (i : Instr) (s t : State) (a : Nat), s.Inv → exec i s = .next t → t.readByte a ≠ s.readByte a →
    (inflates i ∧ outBase ≤ a ∧ a < outBase + t.outLen.toNat ∧ t.outLen.toNat ≤ t.outSize.toNat) ∨
    (((∃ c, i = .encblk c) ∨ i = .eflush) ∧ ecsBase + s.ecsLen.toNat ≤ a ∧ a < ecsBase + t.ecsLen.toNat ∧
      t.ecsLen.toNat ≤ t.ecsSize.toNat)

/-- No command reads IN at or past its limit: a byte of IN there may hold anything, and the run differs in that byte
alone (70_reset R356, 40_bitreader R120). For ZINFLATE, with IN_LEN at most 2^24 (the top of IN_SIZE, 00_scope R7, so that
the 32-bit cursor does not wrap), the same holds of the two header bytes and the trailer (41_inflate R171). -/
def Obligations.BytesPastTheLimitDoNotMatter : Prop :=
  (∀ (i : Instr) (s t : State) (j : Nat) (v : Byte), s.mem.wf = true → j < 2 ^ 24 → s.inLen.toNat ≤ j →
    exec i s = .next t → exec i (s.writeByte (inBase + j) v) = .next (t.writeByte (inBase + j) v)) ∧
  (∀ (s t : State) (j : Nat) (v : Byte), s.mem.wf = true → s.inLen.toNat ≤ 2 ^ 24 → j < 2 ^ 24 →
    (j < 2 ∨ s.inLen.toNat ≤ j + 4) →
    exec .zinflate s = .next t →
    exec .zinflate (s.writeByte (inBase + j) v) = .next (t.writeByte (inBase + j) v))

/-- The engine idles when BUSY = 0: its step changes no state, and neither does the block's when the host makes no access
(60_exceptions R337). -/
def Obligations.IdlingChangesNothing : Prop :=
  ∀ s : State, s.status.busy = false → engineStep s = .next s ∧ (s.bus = [] → step s = .next s)

/-! ## Bit reader and decode tables (40_bitreader_huffman) -/

/-- RDBITS: n bits of IN from the cursor on, the first of them bit 0 of RESULT; past 8·IN_LEN TruncatedInput with the
cursor and RESULT unchanged; n = 0 or n > 16 IllegalCommand (40_bitreader R130). -/
def Obligations.RdbitsReadsField : Prop :=
  ∀ (n : BitVec 5) (s : State),
    encode (.rdbits n) = 0x00000001#32 ||| (n.setWidth 32 <<< 8) ∧
    (1 ≤ n.toNat → n.toNat ≤ 16 → s.brPos.toNat + n.toNat ≤ 8 * s.inLen.toNat →
      ∃ v : Word,
        (∀ k, v.getLsbD k = (decide (k < n.toNat) &&
          (s.inByte ((s.brPos.toNat + k) / 8)).getLsbD ((s.brPos.toNat + k) % 8))) ∧
        exec (.rdbits n) s = .next (completed { s with result := v, brPos := s.brPos + n.setWidth 32 })) ∧
    (1 ≤ n.toNat → n.toNat ≤ 16 → 8 * s.inLen.toNat < s.brPos.toNat + n.toNat →
      exec (.rdbits n) s = .next (failedWith .truncatedInput s)) ∧
    (n.toNat = 0 ∨ 16 < n.toNat → exec (.rdbits n) s = .next (failedWith .illegalCommand s))

/-- ALIGN: `BR_POS <- (BR_POS + 7) & ~7`, 0xFFFFFFF9 and above wrapping to 0, never an error; unchanged at a byte
boundary; any of bits [31:8] makes the word illegal (40_bitreader R122, R131). -/
def Obligations.AlignMovesToByte : Prop :=
  encode .align = 0x00000002#32 ∧
  (∀ w : Word, opcodeOf w = 0x02 → w.extractLsb' 8 24 ≠ 0 → legalWord w = false) ∧
  ∀ s : State,
    exec .align s = .next (completed { s with brPos := (s.brPos + 7) &&& ~~~(7#32) }) ∧
    (s.brPos.extractLsb' 0 3 = 0 → exec .align s = .next (completed s)) ∧
    (0xFFFFFFF9 ≤ s.brPos.toNat → exec .align s = .next (completed { s with brPos := 0 }))

/-- HBUILD: with every length of LENS[0..n) at most 15 and the Kraft sum at most 2^15, HLEN_t becomes those lengths and
then zeros, and nothing else changes; otherwise InvalidCode with HLEN_t unchanged; T = 3 or n above the capacity is
IllegalCommand (40_bitreader R125, R132). -/
def Obligations.HbuildStoresLengths : Prop :=
  ∀ (t : BitVec 2) (n : BitVec 9) (s : State),
    encode (.hbuild t n) = 0x00000003#32 ||| (t.setWidth 32 <<< 8) ||| (n.setWidth 32 <<< 16) ∧
    (t = 3 ∨ decodeCapacity t < n.toNat → exec (.hbuild t n) s = .next (failedWith .illegalCommand s)) ∧
    ∀ tab : DecodeTable, decodeTableOf t = some tab → n.toNat ≤ tab.capacity →
      let len : Nat → Nat := fun j => (s.lens.getD j 0).toNat
      let kraft := ((List.range n.toNat).map fun j => if len j = 0 then 0 else 2 ^ (15 - len j)).sum
      ((∀ j, j < n.toNat → len j ≤ 15) → kraft ≤ 2 ^ 15 →
        ∃ u : State, exec (.hbuild t n) s = .next (completed u) ∧
          u = { s with hlen0 := u.hlen0, hlen1 := u.hlen1, hlen2 := u.hlen2 } ∧
          (∀ j, j < tab.capacity → (u.hlen tab).getD j 0 = if j < n.toNat then len j else 0) ∧
          ∀ other, other ≠ tab → u.hlen other = s.hlen other) ∧
      ((∃ j, j < n.toNat ∧ 15 < len j) ∨ 2 ^ 15 < kraft →
        exec (.hbuild t n) s = .next (failedWith .invalidCode s))

/-- The canonical codes: the recurrence of the first code of each length, and a symbol's code as that first code plus the
number of earlier symbols of its length, with the example of R132 (40_bitreader R123, R132). -/
def Obligations.CanonicalCodesAssigned : Prop :=
  canonicalCodes [3, 3, 3, 3, 3, 2, 4, 4] = [0b010, 0b011, 0b100, 0b101, 0b110, 0b00, 0b1110, 0b1111] ∧
  ∀ lens : List Nat, (∀ l ∈ lens, l ≤ 15) →
    ∃ next : Nat → Nat, next 0 = 0 ∧
      (∀ k, k < 15 → next (k + 1) = 2 * (next k + if k = 0 then 0 else lens.count k)) ∧
      ∀ j, j < lens.length → lens.getD j 0 ≠ 0 →
        (canonicalCodes lens).getD j 0 = next (lens.getD j 0) + (lens.take j).count (lens.getD j 0)

/-- With the Kraft inequality every canonical code fits its length and none is a prefix of another (40_bitreader R124). -/
def Obligations.CanonicalCodesPrefixFree : Prop :=
  ∀ lens : List Nat, (∀ l ∈ lens, l ≤ 15) → KraftOk lens →
    (∀ j, j < lens.length → lens.getD j 0 ≠ 0 → (canonicalCodes lens).getD j 0 < 2 ^ lens.getD j 0) ∧
    ∀ i j, i < lens.length → j < lens.length → i ≠ j → lens.getD i 0 ≠ 0 → lens.getD i 0 ≤ lens.getD j 0 →
      (canonicalCodes lens).getD j 0 / 2 ^ (lens.getD j 0 - lens.getD i 0) ≠ (canonicalCodes lens).getD i 0

/-- HDECODE returns the symbol whose code, most significant bit first, stands at the cursor, and consumes exactly its bits
(40_bitreader R124, R126, R133; 20_memory R81). -/
def Obligations.HdecodeReturnsSymbol : Prop :=
  ∀ (t : BitVec 2) (tab : DecodeTable) (s : State) (sym : Nat),
    decodeTableOf t = some tab → sym < tab.capacity → KraftOk (s.hlen tab) → s.inLen.toNat ≤ 2 ^ 24 →
    let l := (s.hlen tab).getD sym 0
    l ≠ 0 → s.brPos.toNat + l ≤ 8 * s.inLen.toNat →
    (∀ k, k < l → s.streamBit (s.brPos.toNat + k) = ((canonicalCodes (s.hlen tab)).getD sym 0).testBit (l - 1 - k)) →
    exec (.hdecode t) s =
      .next (completed { s with result := BitVec.ofNat 32 sym, brPos := BitVec.ofNat 32 (s.brPos.toNat + l) })

/-- Everything HDECODE can do, and when. With the bits at the cursor read one by one, each while the bits before it are no
code and some code properly extends them: a symbol, when the bits read are its code, with its 1 to 15 bits consumed;
InvalidCode, when no code begins with the bits read, with those 0 to 15 bits consumed, and none at all for an empty table;
TruncatedInput, when the bits up to the limit still stand inside a code, with the cursor at the limit, or where it stood
beyond it. T = 3 is IllegalCommand. RESULT is written by the first alone (40_bitreader R124, R126, R133; 92 D12;
60_exceptions R305). -/
def Obligations.HdecodeOutcomes : Prop :=
  ∀ (t : BitVec 2) (s : State), s.inLen.toNat ≤ 2 ^ 24 →
    (t = 3 → exec (.hdecode t) s = .next (failedWith .illegalCommand s)) ∧
    ∀ tab : DecodeTable, decodeTableOf t = some tab →
      let lens := s.hlen tab
      let bits : Nat → List Bool := fun k => s.streamBits s.brPos.toNat k
      ((∀ j, j < tab.capacity → lens.getD j 0 = 0) →
        exec (.hdecode t) s = .next (failedWith .invalidCode s)) ∧
      ((∃ sym l, sym < tab.capacity ∧ l = lens.getD sym 0 ∧ 1 ≤ l ∧ l ≤ 15 ∧
          s.brPos.toNat + l ≤ 8 * s.inLen.toNat ∧ DecodesTo lens (bits l) sym ∧
          exec (.hdecode t) s = .next (completed
            { s with result := BitVec.ofNat 32 sym, brPos := BitVec.ofNat 32 (s.brPos.toNat + l) })) ∨
        (∃ k, k ≤ 15 ∧ (k = 0 ∨ s.brPos.toNat + k ≤ 8 * s.inLen.toNat) ∧ LeavesCode lens (bits k) ∧
          exec (.hdecode t) s =
            .next (failedWith .invalidCode { s with brPos := BitVec.ofNat 32 (s.brPos.toNat + k) })) ∨
        ((∀ k, k ≤ 8 * s.inLen.toNat - s.brPos.toNat → InsideCode lens (bits k)) ∧
          exec (.hdecode t) s = .next (failedWith .truncatedInput
            { s with brPos := BitVec.ofNat 32 (max (8 * s.inLen.toNat) s.brPos.toNat) })))

/-! ## The inflater (41_inflate) -/

/-- Copy(L, D): byte i of the copy is byte i mod D of the D bytes before it, so a copy longer than its distance repeats
what it has written; OutputOverflow when OUT is full, with the bytes that fit written; DistanceTooFar with nothing copied
(41_inflate R150, R160). -/
def Obligations.CopyRepeatsHistory : Prop :=
  ∀ (l d : Nat) (s : State), 1 ≤ d → s.outLen.toNat ≤ s.outSize.toNat →
    (s.outLen.toNat < d → copyMatch l d s = .error .distanceTooFar s) ∧
    (d ≤ s.outLen.toNat → s.outLen.toNat + l ≤ s.outSize.toNat →
      ∃ t : State, copyMatch l d s = .ok () t ∧
        t = { s with mem := t.mem, outLen := BitVec.ofNat 32 (s.outLen.toNat + l) } ∧
        (∀ i, i < l → t.outByte (s.outLen.toNat + i) = s.outByte (s.outLen.toNat - d + i % d)) ∧
        ∀ a, a < outBase + s.outLen.toNat ∨ outBase + s.outLen.toNat + l ≤ a → t.readByte a = s.readByte a) ∧
    (d ≤ s.outLen.toNat → s.outSize.toNat < s.outLen.toNat + l →
      ∃ t : State, copyMatch l d s = .error .outputOverflow t ∧
        t = { s with mem := t.mem, outLen := s.outSize } ∧
        (∀ i, i < s.outSize.toNat - s.outLen.toNat →
          t.outByte (s.outLen.toNat + i) = s.outByte (s.outLen.toNat - d + i % d)) ∧
        ∀ a, a < outBase + s.outLen.toNat ∨ outBase + s.outSize.toNat ≤ a → t.readByte a = s.readByte a)

/-- The fixed code lengths, that both sets are complete, and the four codes 41_inflate R153 writes out. -/
def Obligations.FixedTablesComplete : Prop :=
  fixedLit.length = 288 ∧ fixedDist.length = 32 ∧
  (∀ s, s < 288 → fixedLit.getD s 0 =
    if s ≤ 143 then 8 else if s ≤ 255 then 9 else if s ≤ 279 then 7 else 8) ∧
  (∀ d, d < 32 → fixedDist.getD d 0 = 5) ∧
  kraftSum fixedLit = 2 ^ 15 ∧ kraftSum fixedDist = 2 ^ 15 ∧
  (canonicalCodes fixedLit).getD 0 0 = 0b00110000 ∧ (canonicalCodes fixedLit).getD 144 0 = 0b110010000 ∧
  (canonicalCodes fixedLit).getD 256 0 = 0b0000000 ∧ (canonicalCodes fixedLit).getD 280 0 = 0b11000000

/-- The four tables in closed form: the extra bits of each symbol, the bases 3 and 1 and each next base where the range
before it ends, symbol 285 (258 with no extra bits) apart; so every length is in 3..258, every distance in 1..32768, and
symbol 284 reaches 258 too (41_inflate R161). -/
def Obligations.LengthAndDistanceRanges : Prop :=
  lbase.length = 29 ∧ lextra.length = 29 ∧ dbase.length = 30 ∧ dextra.length = 30 ∧
  lbase.getD 0 0 = 3 ∧ dbase.getD 0 0 = 1 ∧
  (∀ c, c < 29 → lextra.getD c 0 = if c < 8 ∨ c = 28 then 0 else (c - 4) / 4) ∧
  (∀ d, d < 30 → dextra.getD d 0 = if d < 4 then 0 else (d - 2) / 2) ∧
  (∀ c x, c < 29 → x < 2 ^ lextra.getD c 0 → 3 ≤ lbase.getD c 0 + x ∧ lbase.getD c 0 + x ≤ 258) ∧
  (∀ d x, d < 30 → x < 2 ^ dextra.getD d 0 → 1 ≤ dbase.getD d 0 + x ∧ dbase.getD d 0 + x ≤ 32768) ∧
  (∀ c, c < 27 → lbase.getD (c + 1) 0 = lbase.getD c 0 + 2 ^ lextra.getD c 0) ∧
  (∀ d, d < 29 → dbase.getD (d + 1) 0 = dbase.getD d 0 + 2 ^ dextra.getD d 0) ∧
  lbase.getD 27 0 + 31 = 258 ∧ lbase.getD 28 0 = 258

/-- INFBLK on a stored block: whatever NLEN holds, the LEN bytes after it are appended to OUT, the cursor ends just after
them, LAST and BTYPE show the header, and nothing else changes (41_inflate R151, R152, R168). -/
def Obligations.InfblkCopiesStoredBlock : Prop :=
  ∀ (s : State) (q len : Nat) (final : Bool), s.StoredBlockAt s.brPos.toNat q len final →
    s.inLen.toNat ≤ 2 ^ 24 → q + 4 + len ≤ s.inLen.toNat → s.outLen.toNat + len ≤ s.outSize.toNat →
    ∃ u : State, exec .infblk s = .next (completed u) ∧
      u = { s with
        mem := u.mem
        brPos := BitVec.ofNat 32 (8 * (q + 4 + len))
        outLen := BitVec.ofNat 32 (s.outLen.toNat + len)
        status := { s.status with last := final, btype := 0 } } ∧
      (∀ i, i < len → u.outByte (s.outLen.toNat + i) = s.inByte (q + 4 + i)) ∧
      ∀ a, a < outBase + s.outLen.toNat ∨ outBase + s.outLen.toNat + len ≤ a → u.readByte a = s.readByte a

/-- INFBLK where a block fails: the error, the cursor just after the bits read, and everything written before it kept (R305,
R300). In the header: TruncatedInput inside it leaves LAST and BTYPE alone, with the cursor where the failing field begins;
BTYPE = 3 sets them and raises InvalidBlockType (41_inflate R151). In a stored block: TruncatedInput at LEN, NLEN or a data
byte, OutputOverflow at the first byte without room (R150, R152). In a dynamic header: TruncatedInput in HLIT, HDIST,
HCLEN or a length of the code-length code, at the field's first bit; InvalidSymbol for a first symbol 16 and for a repeat
past HLIT + HDIST (R157); InvalidCode for bits that leave the code-length code and for each of the three sets that is
over-subscribed, with the tables built before it kept and the others as they were (R156). In the symbol loop, after any
tokens: InvalidSymbol for length symbols 286 and 287 and distance symbols 30 and 31, InvalidCode for bits that leave either
code (R162), DistanceTooFar with nothing copied, OutputOverflow with OUT filled to its size (R150, R160). In both,
TruncatedInput where the input ends inside a code, with the cursor at its end, or inside the extra bits after one, with the
cursor at their first bit (40_bitreader R121, R124; R172). -/
def Obligations.InfblkHeaderErrors : Prop :=
  (∀ s : State, s.inLen.toNat ≤ 2 ^ 24 →
    (8 * s.inLen.toNat < s.brPos.toNat + 1 → exec .infblk s = .next (failedWith .truncatedInput s)) ∧
    (s.brPos.toNat + 1 ≤ 8 * s.inLen.toNat → 8 * s.inLen.toNat < s.brPos.toNat + 3 →
      exec .infblk s = .next (failedWith .truncatedInput { s with brPos := s.brPos + 1 })) ∧
    (s.brPos.toNat + 3 ≤ 8 * s.inLen.toNat → s.streamBit (s.brPos.toNat + 1) = true →
      s.streamBit (s.brPos.toNat + 2) = true →
      exec .infblk s = .next (failedWith .invalidBlockType
        { s with
          brPos := s.brPos + 3
          status := { s.status with last := s.streamBit s.brPos.toNat, btype := 3 } }))) ∧
  (∀ (s : State) (q len : Nat) (final : Bool), s.StoredBlockAt s.brPos.toNat q len final →
    s.inLen.toNat ≤ 2 ^ 24 → s.brPos.toNat + 3 ≤ 8 * s.inLen.toNat → s.outLen.toNat ≤ s.outSize.toNat →
    let room := s.outSize.toNat - s.outLen.toNat
    let present := s.inLen.toNat - (q + 4)
    let failsAfter : ErrorKind → Nat → Nat → Prop := fun e n cursor =>
      ∃ u : State, exec .infblk s = .next (failedWith e u) ∧
        u = { s with
          mem := u.mem
          brPos := BitVec.ofNat 32 cursor
          outLen := BitVec.ofNat 32 (s.outLen.toNat + n)
          status := { s.status with last := final, btype := 0 } } ∧
        (∀ i, i < n → u.outByte (s.outLen.toNat + i) = s.inByte (q + 4 + i)) ∧
        ∀ a, a < outBase + s.outLen.toNat ∨ outBase + s.outLen.toNat + n ≤ a → u.readByte a = s.readByte a
    (s.inLen.toNat < q + 2 → failsAfter .truncatedInput 0 (8 * q)) ∧
    (q + 2 ≤ s.inLen.toNat → s.inLen.toNat < q + 4 → failsAfter .truncatedInput 0 (8 * (q + 2))) ∧
    (q + 4 ≤ s.inLen.toNat → present < len → present ≤ room →
      failsAfter .truncatedInput present (8 * s.inLen.toNat)) ∧
    (q + 4 ≤ s.inLen.toNat → room < len → room < present →
      failsAfter .outputOverflow room (8 * (q + 4 + room + 1)))) ∧
  (∀ (s : State) (final : Bool) (hlit hdist hclen : Nat) (cl : List Nat) (field : Nat),
    let stream := final :: false :: true ::
      (countBits hlit hdist hclen cl).take (if field < 3 then 5 * field else 14 + 3 * (field - 3))
    let width := if field < 2 then 5 else if field = 2 then 4 else 3
    CountsLegal hlit hdist hclen cl → field < 3 + (hclen + 4) →
    s.inLen.toNat ≤ 2 ^ 24 → s.brPos.toNat + stream.length ≤ 8 * s.inLen.toNat →
    8 * s.inLen.toNat < s.brPos.toNat + stream.length + width →
    s.streamBits s.brPos.toNat stream.length = stream →
    exec .infblk s = .next (failedWith .truncatedInput
      { s with
        brPos := BitVec.ofNat 32 (s.brPos.toNat + stream.length)
        status := { s.status with last := final, btype := 2 } })) ∧
  (∀ (s : State) (final : Bool) (hlit hdist hclen : Nat) (cl : List Nat) (ops : List LengthOp) (f : HeaderFailure),
    let h := BlockTables.dynamic hlit hdist hclen cl ops
    let stream := final :: false :: true :: countBits hlit hdist hclen cl ++ opsBits cl ops ++ f.bits cl
    CountsLegal hlit hdist hclen cl → f.Occurs hlit hdist hclen cl ops →
    s.inLen.toNat ≤ 2 ^ 24 → s.brPos.toNat + stream.length ≤ 8 * s.inLen.toNat →
    (f.wants ≠ 0 → 8 * s.inLen.toNat < s.brPos.toNat + stream.length + f.wants) →
    s.streamBits s.brPos.toNat stream.length = stream →
    ∃ u : State, exec .infblk s = .next (failedWith f.error u) ∧
      u = { s with
        hlen0 := u.hlen0
        hlen2 := u.hlen2
        brPos := BitVec.ofNat 32 (s.brPos.toNat + stream.length)
        status := { s.status with last := final, btype := 2 } } ∧
      u.hlen .clen = (match f with | .codeLengths => s.hlen .clen | _ => cl) ∧
      u.hlen .litlen = match f with | .distTable => h.lit | _ => s.hlen .litlen) ∧
  ∀ (s : State) (final : Bool) (h : BlockTables) (tokens : List Token) (f : BodyFailure),
    let stream := huffmanTokens final h tokens ++ f.bits h.lit h.dist
    let before := tokens.foldl Token.extend s.decodeResult
    let out := f.output before s.outSize.toNat
    h.Legal → tokensLegal h.lit h.dist s.decodeResult tokens = true → f.Occurs h.lit h.dist before s.outSize.toNat →
    s.inLen.toNat ≤ 2 ^ 24 → before.length ≤ s.outSize.toNat → s.brPos.toNat + stream.length ≤ 8 * s.inLen.toNat →
    (f.wants ≠ 0 → 8 * s.inLen.toNat < s.brPos.toNat + stream.length + f.wants) →
    s.streamBits s.brPos.toNat stream.length = stream →
    ∃ u : State, exec .infblk s = .next (failedWith f.error u) ∧
      u = { s with
        mem := u.mem
        hlen0 := u.hlen0
        hlen1 := u.hlen1
        hlen2 := u.hlen2
        brPos := BitVec.ofNat 32 (s.brPos.toNat + stream.length)
        outLen := BitVec.ofNat 32 out.length
        status := { s.status with last := final, btype := h.btype } } ∧
      u.hlen .litlen = h.lit ∧ u.hlen .dist = h.dist ∧ u.hlen .clen = h.clen (s.hlen .clen) ∧ u.decodeResult = out ∧
      ∀ a, a < outBase + s.outLen.toNat ∨ outBase + out.length ≤ a → u.readByte a = s.readByte a

/-- INFLATE is INFBLK repeated from OUT_LEN = 0 up to the first block that is last or fails, which one of the first
8·IN_LEN + 1 blocks is: the block loop ends (41_inflate R164, R168, R170). -/
def Obligations.InflateRepeatsInfblk : Prop :=
  ∀ s : State, s.inLen.toNat ≤ 2 ^ 24 → s.status.err = false →
    ∃ u, blocksFrom (8 * s.inLen.toNat + 1) (s.setOutLen 0) = some u ∧ exec .inflate s = .next u

/-- INFLATE undoes the fixed coding of any bytes that fit: a stream of one final fixed block of literals inflates to those
literals, the fixed tables stand in HLEN0 and HLEN1, and nothing else changes (41_inflate R151, R153, R154, R162, R170).
INFBLK undoes the coding of any block, fixed or dynamic, of literals and back-references: for every HLIT, HDIST, HCLEN, set
of code lengths in the order of PERM, code-length symbols with their repeats 16, 17 and 18, and tokens with their extra
bits, the output grows by what the tokens stand for, history and overlapping copies included; HLEN0, HLEN1 and, after a
dynamic block, HLEN2 hold the lengths; the cursor ends after the block; and nothing else changes (R151, R154 to R157, R160
to R162, R168). -/
def Obligations.InflateOfFixedLiterals : Prop :=
  (∀ (s : State) (data : List Byte), s.inLen.toNat ≤ 2 ^ 24 → data.length ≤ s.outSize.toNat →
    s.brPos.toNat + (fixedLiteralStream data).length ≤ 8 * s.inLen.toNat →
    s.streamBits s.brPos.toNat (fixedLiteralStream data).length = fixedLiteralStream data →
    ∃ u : State, exec .inflate s = .next (completed u) ∧
      u = { s with
        mem := u.mem
        hlen0 := u.hlen0
        hlen1 := u.hlen1
        brPos := BitVec.ofNat 32 (s.brPos.toNat + (fixedLiteralStream data).length)
        outLen := BitVec.ofNat 32 data.length
        status := { s.status with last := true, btype := 1 } } ∧
      u.hlen .litlen = fixedLit ∧ u.hlen .dist = fixedDist ∧ u.decodeResult = data ∧
      ∀ a, a < outBase ∨ outBase + data.length ≤ a → u.readByte a = s.readByte a) ∧
  permRom = [16, 17, 18, 0, 8, 7, 9, 6, 10, 5, 11, 4, 12, 3, 13, 2, 14, 1, 15] ∧
  ∀ (s : State) (final : Bool) (h : BlockTables) (tokens : List Token),
    let stream := huffmanBlock final h tokens
    let out := tokens.foldl Token.extend s.decodeResult
    h.Legal → h.lit.getD 256 0 ≠ 0 → tokensLegal h.lit h.dist s.decodeResult tokens = true →
    s.inLen.toNat ≤ 2 ^ 24 → out.length ≤ s.outSize.toNat → s.brPos.toNat + stream.length ≤ 8 * s.inLen.toNat →
    s.streamBits s.brPos.toNat stream.length = stream →
    ∃ u : State, exec .infblk s = .next (completed u) ∧
      u = { s with
        mem := u.mem
        hlen0 := u.hlen0
        hlen1 := u.hlen1
        hlen2 := u.hlen2
        brPos := BitVec.ofNat 32 (s.brPos.toNat + stream.length)
        outLen := BitVec.ofNat 32 out.length
        status := { s.status with last := final, btype := h.btype } } ∧
      u.hlen .litlen = h.lit ∧ u.hlen .dist = h.dist ∧ u.hlen .clen = h.clen (s.hlen .clen) ∧ u.decodeResult = out ∧
      ∀ a, a < outBase + s.outLen.toNat ∨ outBase + out.length ≤ a → u.readByte a = s.readByte a

/-- ZINFLATE refuses fewer than 6 bytes with nothing changed, and otherwise is INFLATE of IN[2 .. IN_LEN − 4): the same
run with IN_LEN four less and the cursor at 16 (41_inflate R171). -/
def Obligations.ZinflateStripsWrapper : Prop :=
  encode .zinflate = 0x0000000A#32 ∧
  (∀ w : Word, opcodeOf w = 0x0A → w.extractLsb' 8 24 ≠ 0 → legalWord w = false) ∧
  ∀ s t : State,
    (s.inLen.toNat < 6 → exec .zinflate s = .next (failedWith .malformedIDAT s)) ∧
    (6 ≤ s.inLen.toNat →
      exec .inflate ((s.setInLen (BitVec.ofNat 32 (s.inLen.toNat - 4))).setBrPos 16) = .next t →
      exec .zinflate s = .next (t.setInLen s.inLen))

/-- ZINFLATE on one final stored block, whatever the six wrapper bytes hold: OUT holds exactly its data (41_inflate R152,
R171). -/
def Obligations.ZinflateCopiesStoredBlock : Prop :=
  ∀ (s : State) (len : Nat), s.StoredBlockAt 16 3 len true → s.inLen.toNat ≤ 2 ^ 24 →
    7 + len ≤ s.inLen.toNat - 4 → len ≤ s.outSize.toNat →
    ∃ u : State, exec .zinflate s = .next (completed u) ∧
      u = { s with
        mem := u.mem
        brPos := BitVec.ofNat 32 (8 * (7 + len))
        outLen := BitVec.ofNat 32 len
        status := { s.status with last := true, btype := 0 } } ∧
      (∀ i, i < len → u.outByte i = s.inByte (7 + i)) ∧
      ∀ a, a < outBase ∨ outBase + len ≤ a → u.readByte a = s.readByte a

/-- More passes of the symbol loop and of the code-length loop than the model allows change nothing, neither the value nor
the state nor the error: the model's count of passes is no limit of its own (41_inflate R164; log 14). -/
def Obligations.LoopsNeedNoFuel : Prop :=
  ∀ (lim more m : Nat) (s : State), lim ≤ 2 ^ 27 →
    huffmanBody lim (lim + 1 + more) s = huffmanBody lim (lim + 1) s ∧
    readLengths lim m (m + more) [] s = readLengths lim m m [] s

/-! ## Quantization tables (42_quant) -/

/-- QBUILD: the quality clipped to 1..100, its scale, and every entry of both tables in natural order, written out in
numbers; any of bits [31:16] makes the word illegal (42_quant R190, R191). -/
def Obligations.QbuildScalesTables : Prop :=
  (∀ w : Word, opcodeOf w = 0x10 → w.extractLsb' 16 16 ≠ 0 → legalWord w = false) ∧
  ∀ (q : BitVec 8) (s : State),
    encode (.qbuild q) = 0x00000010#32 ||| (q.setWidth 32 <<< 8) ∧
    let quality := min (max q.toNat 1) 100
    let scale := if quality < 50 then 5000 / quality else 200 - 2 * quality
    ∃ y c : QTable, exec (.qbuild q) s = .next (completed { s with qt0 := y, qt1 := c }) ∧
      ∀ i, i < 64 →
        (y.getD i 0).toNat = min (max ((qstdY i * scale + 50) / 100) 1) 255 ∧
        (c.getD i 0).toNat = min (max ((qstdC i * scale + 50) / 100) 1) 255

/-- Quality 50 gives the base tables, 100 all ones, 1 all 255; every entry is in 1..255 at every quality and does not grow
with the quality (42_quant R193). -/
def Obligations.QuantTableConsequences : Prop :=
  (∀ i, i < 64 → ((qTableY 50).getD i 0).toNat = qstdY i ∧ ((qTableC 50).getD i 0).toNat = qstdC i) ∧
  (∀ i, i < 64 → (qTableY 100).getD i 0 = 1 ∧ (qTableC 100).getD i 0 = 1) ∧
  (∀ i, i < 64 → (qTableY 1).getD i 0 = 255 ∧ (qTableC 1).getD i 0 = 255) ∧
  (∀ q i, i < 64 → (qTableY q).getD i 0 ≠ 0 ∧ (qTableC q).getD i 0 ≠ 0) ∧
  (∀ q q' i, q ≤ q' → i < 64 →
    ((qTableY q').getD i 0).toNat ≤ ((qTableY q).getD i 0).toNat ∧
    ((qTableC q').getD i 0).toNat ≤ ((qTableC q).getD i 0).toNat)

/-- QLOOKUP: RESULT becomes entry i of QT_t, or entry ZZ[i] with z = 1, and nothing else changes; bits [31:22] and [15:10]
must be 0; indices 0 and 63 are the same in both orders; with the tables of a reachable state the result is in 1..255
(42_quant R192). -/
def Obligations.QlookupReadsEntry : Prop :=
  (∀ w : Word, opcodeOf w = 0x11 → (w.extractLsb' 22 10 ≠ 0 ∨ w.extractLsb' 10 6 ≠ 0) → legalWord w = false) ∧
  zz 0 = 0 ∧ zz 63 = 63 ∧
  ∀ (t : BitVec 1) (i : BitVec 6) (z : BitVec 1) (s : State),
    encode (.qlookup t i z) =
      0x00000011#32 ||| (t.setWidth 32 <<< 8) ||| (z.setWidth 32 <<< 9) ||| (i.setWidth 32 <<< 16) ∧
    let n := if z = 1 then zz i.toNat else i.toNat
    let entry := if t = 1 then s.qt1.getD n 0 else s.qt0.getD n 0
    n < 64 ∧ exec (.qlookup t i z) s = .next (completed { s with result := entry.setWidth 32 }) ∧
      (s.Inv → entry ≠ 0)

/-! ## Forward DCT and quantization (44_fdct) -/

/-- DCT8 is the flowgraph of 44_fdct R232, operation by operation, and FDCT applies it to every row of the samples and then
to every column, leaving the 64 values in DCTBUF and nothing else changed (R233, R234). -/
def Obligations.FdctFollowsFlowgraph : Prop :=
  (∀ d0 d1 d2 d3 d4 d5 d6 d7 : F32, dct8 #v[d0, d1, d2, d3, d4, d5, d6, d7] =
    (let tmp0 := f32Add d0 d7
     let tmp7 := f32Sub d0 d7
     let tmp1 := f32Add d1 d6
     let tmp6 := f32Sub d1 d6
     let tmp2 := f32Add d2 d5
     let tmp5 := f32Sub d2 d5
     let tmp3 := f32Add d3 d4
     let tmp4 := f32Sub d3 d4
     let e10 := f32Add tmp0 tmp3
     let e13 := f32Sub tmp0 tmp3
     let e11 := f32Add tmp1 tmp2
     let e12 := f32Sub tmp1 tmp2
     let z1 := f32Mul (f32Add e12 e13) 0x3F3504F3#32
     let t10 := f32Add tmp4 tmp5
     let t11 := f32Add tmp5 tmp6
     let t12 := f32Add tmp6 tmp7
     let z5 := f32Mul (f32Sub t10 t12) 0x3EC3EF15#32
     let z2 := f32Add (f32Mul 0x3F0A8BD4#32 t10) z5
     let z4 := f32Add (f32Mul 0x3FA73D75#32 t12) z5
     let z3 := f32Mul t11 0x3F3504F3#32
     let z11 := f32Add tmp7 z3
     let z13 := f32Sub tmp7 z3
     #v[f32Add e10 e11, f32Add z11 z4, f32Add e13 z1, f32Sub z13 z2,
        f32Sub e10 e11, f32Add z13 z2, f32Sub e13 z1, f32Sub z11 z4])) ∧
  ∀ s : State,
    let sample : Nat → F32 := fun n => f32OfInt (s.blk.getD n 0).toInt
    let row : Nat → Vector F32 8 := fun y => dct8 (Vector.ofFn fun x => sample (8 * y + x.val))
    let col : Nat → Vector F32 8 := fun x => dct8 (Vector.ofFn fun y => (row y.val).getD x 0)
    exec .fdct s =
      .next (completed { s with dctbuf := Vector.ofFn fun n => (col (n.val % 8)).getD (n.val / 8) 0 })

/-- FDCT of a constant block of samples v: DCTBUF[0] is 64·v exactly and every other element is +0.0 (44_fdct R234). -/
def Obligations.FdctOfConstantBlock : Prop :=
  ∀ (s : State) (v : Byte), (∀ n, n < 64 → s.blk.getD n 0 = v) →
    ∃ b : Vector F32 64, exec .fdct s = .next (completed { s with dctbuf := b }) ∧
      b.getD 0 0 = f32OfInt (64 * v.toInt) ∧ ∀ n, 1 ≤ n → n < 64 → b.getD n 0 = 0

/-- The operations of binary32. The magnitude chosen for `num / den` units of 2^-149 is nearest of all finite ones, and of
two equally near the even one, or infinity beyond them. f32Add, f32Sub, f32Mul, f32Div and f32OfInt of finite operands are
the exact sum, difference, product, quotient and integer, rounded once in this way, with the sign of the exact result; an
exact zero sum is +0 unless both terms are negative zeros, and the sign of a zero product or quotient is that of its
operands. A nonzero value divided by zero is an infinity, zero by zero NaN; infinities and NaN operands as IEEE 754 has
them (00_scope R10). -/
def Obligations.Binary32RoundsToNearestEven : Prop :=
  (∀ num den : Nat, 0 < den → roundMagnitude num den < f32InfMagnitude →
    let units : Nat → Int := fun m => (f32Units (BitVec.ofNat 32 m) : Int)
    let away : Nat → Nat := fun m => (units m * den - num).natAbs
    ∀ m, m < f32InfMagnitude →
      away (roundMagnitude num den) ≤ away m ∧
      (m ≠ roundMagnitude num den → away m = away (roundMagnitude num den) → roundMagnitude num den % 2 = 0)) ∧
  (∀ num den : Nat, 0 < den → RoundsTo num den (roundMagnitude num den)) ∧
  let inf : Nat := 0x7F800000
  let neg : F32 → Bool := fun x => x.getLsbD 31
  let mag : F32 → Nat := fun x => x.toNat % 2 ^ 31
  let units : F32 → Nat := fun x => binary32Units (mag x)
  let value : F32 → Int := fun x => if neg x then -(units x : Int) else units x
  let rounded : F32 → Bool → Nat → Nat → Prop := fun r sign num den => neg r = sign ∧ RoundsTo num den (mag r)
  let infinite : F32 → Bool → Prop := fun r sign => neg r = sign ∧ mag r = inf
  let nan : F32 → Prop := fun r => inf < mag r
  (∀ v : Int, rounded (f32OfInt v) (decide (v < 0)) (v.natAbs * 2 ^ 149) 1) ∧
  (∀ x y : F32, mag x < inf → mag y < inf →
    let sum := value x + value y
    let difference := value x - value y
    rounded (f32Add x y) (if sum = 0 then neg x && neg y else decide (sum < 0)) sum.natAbs 1 ∧
    rounded (f32Sub x y) (if difference = 0 then neg x && !neg y else decide (difference < 0)) difference.natAbs 1 ∧
    rounded (f32Mul x y) (neg x != neg y) (units x * units y) (2 ^ 149) ∧
    (units y ≠ 0 → rounded (f32Div x y) (neg x != neg y) (units x * 2 ^ 149) (units y)) ∧
    (units y = 0 → units x ≠ 0 → infinite (f32Div x y) (neg x != neg y)) ∧
    (units y = 0 → units x = 0 → nan (f32Div x y))) ∧
  (∀ x y : F32, mag x = inf → mag y < inf →
    f32Add x y = x ∧ f32Add y x = x ∧ f32Sub x y = x ∧ infinite (f32Sub y x) (!neg x) ∧
    (units y ≠ 0 → infinite (f32Mul x y) (neg x != neg y) ∧ infinite (f32Mul y x) (neg x != neg y)) ∧
    (units y = 0 → nan (f32Mul x y) ∧ nan (f32Mul y x)) ∧
    infinite (f32Div x y) (neg x != neg y) ∧ mag (f32Div y x) = 0 ∧ neg (f32Div y x) = (neg x != neg y)) ∧
  (∀ x y : F32, mag x = inf → mag y = inf →
    (neg x = neg y → f32Add x y = x ∧ nan (f32Sub x y)) ∧ (neg x ≠ neg y → nan (f32Add x y) ∧ f32Sub x y = x) ∧
    infinite (f32Mul x y) (neg x != neg y) ∧ nan (f32Div x y)) ∧
  ∀ x y : F32, nan x ∨ nan y → nan (f32Add x y) ∧ nan (f32Sub x y) ∧ nan (f32Mul x y) ∧ nan (f32Div x y)

/-- QUANT: every COEF[k] is RoundSat16 of one binary32 division of DCTBUF[ZZ[k]] by 8·QT_t[ZZ[k]], nothing else changes,
bits [31:9] must be 0; and RoundSat16 rounds a finite value to the nearest integer, ties away from zero, saturates to
-32768..32767, and takes NaN to 0 (44_fdct R236). -/
def Obligations.QuantRoundsQuotient : Prop :=
  (∀ w : Word, opcodeOf w = 0x13 → w.extractLsb' 9 23 ≠ 0 → legalWord w = false) ∧
  (∀ (t : BitVec 1) (s : State),
    encode (.quant t) = 0x00000013#32 ||| (t.setWidth 32 <<< 8) ∧
    let entry : Nat → Byte := fun n => if t = 1 then s.qt1.getD n 0 else s.qt0.getD n 0
    let quotient : Nat → F32 := fun n => f32Div (s.dctbuf.getD n 0) (f32OfInt (8 * (entry n).toNat))
    exec (.quant t) s =
      .next (completed { s with coef := Vector.ofFn fun k => roundSat16 (quotient (zz k.val)) })) ∧
  (∀ x : F32, f32IsNaN x = true → roundSat16 x = 0) ∧
  (∀ x : F32, f32IsInf x = true → (roundSat16 x).toInt = if f32Sign x then -32768 else 32767) ∧
  ∀ x : F32, f32IsNaN x = false → f32IsInf x = false →
    let v := f32Scaled x
    let one : Int := 2 ^ 149
    let r := (roundSat16 x).toInt
    (32767 * one < v → r = 32767) ∧
    (v < -32768 * one → r = -32768) ∧
    (-32768 * one ≤ v → v ≤ 32767 * one →
      2 * (v - r * one).natAbs ≤ one.natAbs ∧ (2 * (v - r * one).natAbs = one.natAbs → v.natAbs < (r * one).natAbs))

/-! ## Encoder Huffman tables (43_huffman_tables) -/

/-- EHBUILD: HuffSpec with nothing changed exactly when the counts sum above 256, a DC symbol is above 11, a symbol is
repeated, or some length's codes run out; otherwise EHUF t becomes the built table and nothing else changes; bits [31:10]
must be 0 (43_huffman_tables R210, R211, R212). -/
def Obligations.EhbuildBuildsOrRefuses : Prop :=
  (∀ w : Word, opcodeOf w = 0x18 → w.extractLsb' 10 22 ≠ 0 → legalWord w = false) ∧
  ∀ (t : BitVec 2) (s : State),
    encode (.ehbuild t) = 0x00000018#32 ||| (t.setWidth 32 <<< 8) ∧
    let h := s.hspec[t.toFin]
    let count : Nat → Nat := fun l => (h.bits.getD (l - 1) 0).toNat
    let total := ((List.range 16).map fun l => count (l + 1)).sum
    let refused :=
      256 < total ∨
      (t.toNat ≤ 1 ∧ ∃ j, j < total ∧ 11 < (h.vals.getD j 0).toNat) ∨
      (∃ j k, j < k ∧ k < total ∧ h.vals.getD j 0 = h.vals.getD k 0) ∨
      ∃ l, 1 ≤ l ∧ l ≤ 16 ∧ 2 ^ l < ((List.range l).map fun i => count (i + 1) * 2 ^ (l - (i + 1))).sum
    (refused → exec (.ehbuild t) s = .next (failedWith .huffSpec s)) ∧
    (¬ refused → ∃ table, huffBuild t.toFin h = some table ∧
      exec (.ehbuild t) s = .next (completed { s with ehuf := s.ehuf.set t.toFin table }))

/-- A built table: symbol j has its length, BITS[l] of each length l in rising order, and the code that counts up from 0
with a shift at every length boundary, in closed form; symbols not listed have no code; codes fit their lengths; no code is
a prefix of another (43_huffman_tables R210, R212). -/
def Obligations.BuiltCodesPrefixFree : Prop :=
  ∀ (t : Fin 4) (h : HSpec) (table : EHufTable), huffBuild t h = some table →
    let lens := (List.range 16).flatMap fun l => List.replicate (h.bits.getD l 0).toNat (l + 1)
    let entry : Nat → EHufEntry := fun sym => table.getD sym .absent
    lens.length = h.total ∧
    (∀ j, j < h.total →
      (entry (h.vals.getD j 0).toNat).size.toNat = lens.getD j 0 ∧ 1 ≤ lens.getD j 0 ∧ lens.getD j 0 ≤ 16 ∧
      (entry (h.vals.getD j 0).toNat).code.toNat =
        ((List.range j).map fun i => 2 ^ (lens.getD j 0 - lens.getD i 0)).sum) ∧
    (∀ sym, sym < 256 → (∀ j, j < h.total → (h.vals.getD j 0).toNat ≠ sym) → entry sym = .absent) ∧
    (t.val ≤ 1 → ∀ sym, 12 ≤ sym → sym < 256 → entry sym = .absent) ∧
    (∀ sym, sym < 256 → (entry sym).code.toNat < 2 ^ (entry sym).size.toNat) ∧
    ∀ a b, a < 256 → b < 256 → a ≠ b → (entry a).size ≠ 0 → (entry a).size.toNat ≤ (entry b).size.toNat →
      (entry b).code.toNat / 2 ^ ((entry b).size.toNat - (entry a).size.toNat) ≠ (entry a).code.toNat

/-- The tables after reset: the builds do not raise, the window words of 43_huffman_tables R214, and which AC symbols have
a code. -/
def Obligations.EncoderTablesAfterReset : Prop :=
  (∀ t : Fin 4, huffBuild t (hspecRom t) = some (ehufRom t)) ∧
  (let word : Fin 4 → Nat → Word := fun t sym => ((ehufRom t).getD sym .absent).toWord
   word 0 0 = 0x00020000#32 ∧ word 0 1 = 0x00030002#32 ∧ word 0 11 = 0x000901FE#32 ∧
   word 1 0 = 0x00020000#32 ∧ word 1 11 = 0x000B07FE#32 ∧
   word 2 0x00 = 0x0004000A#32 ∧ word 2 0x01 = 0x00020000#32 ∧ word 2 0x0A = 0x0010FF83#32 ∧
   word 2 0x11 = 0x0004000C#32 ∧ word 2 0xF0 = 0x000B07F9#32 ∧ word 2 0xFA = 0x0010FFFE#32 ∧
   word 3 0x00 = 0x00020000#32 ∧ word 3 0x03 = 0x0004000A#32 ∧ word 3 0x1A = 0x0010FF8B#32 ∧
   word 3 0xF0 = 0x000A03FA#32 ∧ word 3 0xF1 = 0x000F7FC3#32 ∧ word 3 0xFA = 0x0010FFFE#32) ∧
  ∀ sym, sym < 256 → ∀ t : Fin 4, 2 ≤ t.val →
    (((ehufRom t).getD sym .absent).size ≠ 0 ↔
      (1 ≤ sym % 16 ∧ sym % 16 ≤ 10) ∨ sym = 0x00 ∨ sym = 0xF0)

/-! ## The entropy encoder (45_entropy) -/

/-- PutBits: ECS_LEN grows by OutBytes of the bits appended; the bytes from the old ECS_LEN on are stuffed and, without
their stuff bytes and followed by the bits now pending, are exactly the bits that were pending and the bits appended,
whatever the host placed before them; so a stuffed segment stays stuffed and its bits grow by exactly those appended; at
most 7 bits stay pending; nothing outside the bytes emitted changes (45_entropy R260, R261, R264, R268 (3)). -/
def Obligations.PutBitsAppendsBits : Prop :=
  ∀ (s : State) (bits : List Bool), s.pbits.length ≤ 7 →
    s.ecsLen.toNat + outBytes s.pbits bits < 2 ^ 32 →
    let u := s.putBits bits
    u = { s with mem := u.mem, ecsLen := BitVec.ofNat 32 (s.ecsLen.toNat + outBytes s.pbits bits), pbits := u.pbits } ∧
    u.pbits.length ≤ 7 ∧
    stuffedBytes (u.ecsFrom s.ecsLen.toNat) ∧
    bitsOfStuffed (u.ecsFrom s.ecsLen.toNat) ++ u.pbits = s.pbits ++ bits ∧
    (s.Stuffed → u.Stuffed ∧ u.codedBits = s.codedBits ++ bits) ∧
    ∀ a, a < ecsBase + s.ecsLen.toNat ∨ ecsBase + s.ecsLen.toNat + outBytes s.pbits bits ≤ a →
      u.readByte a = s.readByte a

/-- The s value bits of a nonzero v of size category s: v itself with its top bit 1 when positive, the complement of its
magnitude with its top bit 0 when negative; and the examples (45_entropy R262). -/
def Obligations.ValueBitsOfSizeCategory : Prop :=
  (∀ v : Int, v ≠ 0 →
    let size := bitlen v.natAbs
    1 ≤ size ∧ valueBits v size < 2 ^ size ∧
    (0 < v → (valueBits v size : Int) = v ∧ 2 ^ (size - 1) ≤ valueBits v size) ∧
    (v < 0 → (valueBits v size : Int) = 2 ^ size - 1 + v ∧ valueBits v size < 2 ^ (size - 1))) ∧
  valueBits 1 1 = 1 ∧ valueBits (-1) 1 = 0 ∧ valueBits 3 2 = 0b11 ∧ valueBits (-2) 2 = 0b01 ∧
  valueBits (-3) 2 = 0b00 ∧ valueBits (-1024) 11 = 0b01111111111

/-- The fields of a block. A block of component c is its DC fields, coded with EHUF0 for Y and EHUF1 for Cb and Cr from
the difference COEF[0] − PRED[c], then its AC fields, coded with EHUF2 for Y and EHUF3 for Cb and Cr. A symbol's field is
its CODE on SIZE bits, and none with SIZE 0. The DC part is the code of the difference's size, then, for a size above 0,
that many value bits; a size above 11 is refused. In the AC part n zeros before a nonzero v are one ZRL for each 16 of them
and the symbol of the rest with v's size, then the value bits; zeros that reach the end are EOB alone; a block that ends in
a nonzero has no EOB (45_entropy R263). -/
def Obligations.AcRunLengthFields : Prop :=
  (∀ (s : State) (c : Component), s.blockBits c = do
    let dc ← dcFields (if c = .y then s.ehuf[0] else s.ehuf[1]) ((s.coef.getD 0 0).toInt -
      (match c with | .y => s.pred[0] | .cb => s.pred[1] | .cr => s.pred[2]).toInt)
    let ac ← acFields (if c = .y then s.ehuf[2] else s.ehuf[3]) 0
      ((List.range 63).map fun k => (s.coef.getD (k + 1) 0).toInt)
    some (dc ++ ac)) ∧
  (∀ (table : EHufTable) (sym : Nat), sym < 256 →
    codeField table sym = if (table.getD sym .absent).size.toNat = 0 then none
      else some ((table.getD sym .absent).code.toNat, (table.getD sym .absent).size.toNat)) ∧
  (∀ (table : EHufTable) (diff : Int) (size : Nat), size = bitlen diff.natAbs →
    (11 < size → dcFields table diff = none) ∧
    (size ≤ 11 → codeField table size = none → dcFields table diff = none) ∧
    (∀ code : Field, size ≤ 11 → codeField table size = some code →
      dcFields table diff = some (if diff = 0 then [code] else [code, (valueBits diff size, size)]))) ∧
  (∀ (table : EHufTable) (n : Nat) (v : Int) (rest : List Int), v ≠ 0 →
    acFields table 0 (List.replicate n 0 ++ v :: rest) =
      if 10 < bitlen v.natAbs then none
      else do
        let zrl ← if n < 16 then some [] else (codeField table 0xF0).map (List.replicate (n / 16))
        let code ← codeField table (n % 16 * 16 + bitlen v.natAbs)
        let more ← acFields table 0 rest
        some (zrl ++ [code, (valueBits v (bitlen v.natAbs), bitlen v.natAbs)] ++ more)) ∧
  (∀ (table : EHufTable) (n : Nat), 0 < n →
    acFields table 0 (List.replicate n 0) = (codeField table 0x00).map fun eob => [eob]) ∧
  ∀ table : EHufTable, acFields table 0 [] = some []

/-- With the reset tables EncodeRange arises only from a DC difference of size 12 or more or an AC coefficient of size 11
or more (45_entropy R263). -/
def Obligations.EncodeRangeOnlyFromSizes : Prop :=
  ∀ (s : State) (c : Component), (∀ t : Fin 4, s.ehuf[t] = ehufRom t) →
    (s.blockBits c = none ↔
      11 < bitlen ((s.coef.getD 0 0).toInt - s.predOf c).natAbs ∨
      ∃ k, 1 ≤ k ∧ k < 64 ∧ 10 < bitlen (s.coef.getD k 0).toInt.natAbs)

/-- The coding of a block loses nothing: with built tables and equal predictors, two blocks with the same bits are the
same block (45_entropy R263, 43_huffman_tables R212). -/
def Obligations.BlockCodingIsLossless : Prop :=
  ∀ (s u : State) (c : Component) (f g : List Field),
    (∀ t : Fin 4, ∃ h, huffBuild t h = some s.ehuf[t]) → u.ehuf = s.ehuf → u.predOf c = s.predOf c →
    s.blockBits c = some f → u.blockBits c = some g → bitsOfFields f = bitsOfFields g → u.coef = s.coef

/-- ENCBLK: EncodeRange, then EncodeOverflow, each with nothing changed; else the bytes from the old ECS_LEN on are stuffed
and hold, with the bits now pending, the bits that were pending and those of the block's fields, whatever the host placed
before them (45_entropy R267), the predictor becomes COEF[0], and nothing else changes; C = 3 and bits [31:10] are illegal
(R265). -/
def Obligations.EncblkAppendsBlock : Prop :=
  (∀ w : Word, opcodeOf w = 0x19 → w.extractLsb' 10 22 ≠ 0 → legalWord w = false) ∧
  ∀ (c : BitVec 2) (s : State), s.pbits.length ≤ 7 →
    encode (.encblk c) = 0x00000019#32 ||| (c.setWidth 32 <<< 8) ∧
    (c = 3 → exec (.encblk c) s = .next (failedWith .illegalCommand s)) ∧
    ∀ comp : Component, componentOf c = some comp →
      (s.blockBits comp = none → exec (.encblk c) s = .next (failedWith .encodeRange s)) ∧
      ∀ f : List Field, s.blockBits comp = some f →
        let bytes := outBytes s.pbits (bitsOfFields f)
        (s.ecsSize.toNat < s.ecsLen.toNat + bytes → exec (.encblk c) s = .next (failedWith .encodeOverflow s)) ∧
        (s.ecsLen.toNat + bytes ≤ s.ecsSize.toNat →
          ∃ u : State, exec (.encblk c) s = .next (completed u) ∧
            u = { s with
              mem := u.mem
              ecsLen := BitVec.ofNat 32 (s.ecsLen.toNat + bytes)
              pbits := u.pbits
              pred := s.pred.set comp.index s.coef[0] } ∧
            u.pbits.length ≤ 7 ∧
            stuffedBytes (u.ecsFrom s.ecsLen.toNat) ∧
            bitsOfStuffed (u.ecsFrom s.ecsLen.toNat) ++ u.pbits = s.pbits ++ bitsOfFields f ∧
            (s.Stuffed → u.codedBits = s.codedBits ++ bitsOfFields f) ∧
            ∀ a, a < ecsBase + s.ecsLen.toNat ∨ ecsBase + s.ecsLen.toNat + bytes ≤ a →
              u.readByte a = s.readByte a)

/-- EFLUSH: nothing with no pending bits; else the pending bits padded with 1-bits become one byte of ECS, with a stuff
byte after 0xFF, and the pending bits are cleared; EncodeOverflow with nothing changed when they do not fit; bits [31:8]
are illegal (45_entropy R266). -/
def Obligations.EflushPadsWithOnes : Prop :=
  encode .eflush = 0x0000001A#32 ∧
  (∀ w : Word, opcodeOf w = 0x1A → w.extractLsb' 8 24 ≠ 0 → legalWord w = false) ∧
  ∀ s : State, s.pbits.length ≤ 7 →
    (s.pbits = [] → exec .eflush s = .next (completed s)) ∧
    (s.pbits ≠ [] →
      let n := s.pbits.length
      let b := bitsValue s.pbits * 2 ^ (8 - n) + (2 ^ (8 - n) - 1)
      let m := if b = 0xFF then 2 else 1
      fieldBits b 8 = s.pbits ++ List.replicate (8 - n) true ∧
      (s.ecsSize.toNat < s.ecsLen.toNat + m → exec .eflush s = .next (failedWith .encodeOverflow s)) ∧
      (s.ecsLen.toNat + m ≤ s.ecsSize.toNat →
        ∃ u : State, exec .eflush s = .next (completed u) ∧
          u = { s with mem := u.mem, ecsLen := BitVec.ofNat 32 (s.ecsLen.toNat + m), pbits := [] } ∧
          u.ecsByte s.ecsLen.toNat = BitVec.ofNat 8 b ∧
          (b = 0xFF → u.ecsByte (s.ecsLen.toNat + 1) = 0x00) ∧
          ∀ a, a < ecsBase + s.ecsLen.toNat ∨ ecsBase + s.ecsLen.toNat + m ≤ a →
            u.readByte a = s.readByte a))

/-- ERESET: the three predictors 0, no pending bits, ECS_LEN 0, nothing else changed, ECS included; bits [31:8] are illegal
(45_entropy R267). -/
def Obligations.EresetStartsImage : Prop :=
  encode .ereset = 0x0000001B#32 ∧
  (∀ w : Word, opcodeOf w = 0x1B → w.extractLsb' 8 24 ≠ 0 → legalWord w = false) ∧
  ∀ s : State, exec .ereset s = .next (completed { s with pred := #v[0, 0, 0], pbits := [], ecsLen := 0 })

/-- No command leaves an unstuffed 0xFF in the segment: if every 0xFF of ECS[0..ECS_LEN) is followed by 0x00 before a
command, it is after (45_entropy R268 (1)). -/
def Obligations.SegmentStaysStuffed : Prop :=
  ∀ (i : Instr) (s t : State), s.Inv → s.Stuffed → exec i s = .next t → t.Stuffed

/-! ## The host's side (10_state, 20_memory, 60_exceptions) -/

/-- A 32-bit write of CMD: accepted while idle without an error (PENDING the word, BUSY 1, DONE 0), dropped with REJ
otherwise; nothing else changes. A read of CMD returns 0 (10_state R24). -/
def Obligations.CmdWriteAcceptedOrDropped : Prop :=
  ∀ (s : State) (v : Word) (rest : List BusEvent),
    (s.bus = .write 0x0000000C#32 .word v :: rest →
      (s.status.busy = false → s.status.err = false →
        step s = .next { s with
          bus := rest, pending := v, status := { s.status with busy := true, done := false } }) ∧
      (s.status.busy = true ∨ s.status.err = true →
        step s = .next { s with bus := rest, status := { s.status with rej := true } })) ∧
    (s.bus = .read 0x0000000C#32 .word :: rest → step s = .next { s with bus := rest, reads := 0 :: s.reads })

/-- STATUS reads its fields at their bits, and a write clears exactly the W1C flags written as 1, all at once, ERRCODE with
ERR, busy or not; IRQ is IRQEN and DONE, and that write of DONE clears it (10_state R25, R36; 60_exceptions R308,
R320). -/
def Obligations.StatusReadAndCleared : Prop :=
  ∀ (s : State) (v : Word),
    let st := s.status
    let after := (s.hostWrite 0x00000008#32 .word v).status
    s.hostRead 0x00000008#32 .word = { s with reads := st.toWord :: s.reads } ∧
    (∀ k, st.toWord.getLsbD k =
      if k = 0 then st.busy else if k = 1 then st.done else if k = 2 then st.err else if k = 3 then st.rej
      else if k = 4 then st.hviol else if k = 5 then st.last else if k ≤ 7 then st.btype.getLsbD (k - 6)
      else if k ≤ 11 then st.errCode.getLsbD (k - 8) else false) ∧
    s.hostWrite 0x00000008#32 .word v = { s with status := after } ∧
    after.busy = st.busy ∧ after.last = st.last ∧ after.btype = st.btype ∧
    after.done = (st.done && !v.getLsbD 1) ∧ after.err = (st.err && !v.getLsbD 2) ∧
    after.rej = (st.rej && !v.getLsbD 3) ∧ after.hviol = (st.hviol && !v.getLsbD 4) ∧
    after.errCode = (if v.getLsbD 2 then 0 else st.errCode) ∧
    s.irq = (s.irqEn && st.done) ∧
    (v.getLsbD 1 = true → (s.hostWrite 0x00000008#32 .word v).irq = false)

/-- The registers while idle. A write of CTRL with SRESET = 0 stores IRQEN and nothing else, and CTRL reads IRQEN in bit 1
and 0 elsewhere. Writes of the working registers: IN_LEN, OUT_LEN and ECS_LEN store the value or their size, whichever is
less, BR_POS any value, PRED its low 16 bits, which read back sign-extended; read-only registers and the reserved offsets
ignore a write. EBITS reads the count of pending bits in [11:8] and the bits right-aligned in [7:0], the earliest in bit
c − 1; the other registers read what they hold, ID its constant (10_state R22, R23, R26 to R35; 20_memory R77; that an
ignored write sets no flag: log 24). -/
def Obligations.IdleRegisterWrites : Prop :=
  ∀ (s : State) (v : Word), s.status.busy = false →
    (let t := s.hostWrite 0x00000014#32 .word v
     t = { s with inLen := t.inLen } ∧ t.inLen.toNat = min v.toNat s.inSize.toNat) ∧
    s.hostWrite 0x00000018#32 .word v = { s with brPos := v } ∧
    (let t := s.hostWrite 0x0000001C#32 .word v
     t = { s with outLen := t.outLen } ∧ t.outLen.toNat = min v.toNat s.outSize.toNat) ∧
    (let t := s.hostWrite 0x00000020#32 .word v
     t = { s with ecsLen := t.ecsLen } ∧ t.ecsLen.toNat = min v.toNat s.ecsSize.toNat) ∧
    (∀ c : Fin 3,
      let a := BitVec.ofNat 32 (0x28 + 4 * c.val)
      let t := s.hostWrite a .word v
      t = { s with pred := s.pred.set c (v.setWidth 16) } ∧
      t.hostRead a .word = { t with reads := (v.setWidth 16).signExtend 32 :: s.reads }) ∧
    (∀ a : Word, a ∈ [0x00#32, 0x10#32, 0x24#32, 0x34#32, 0x38#32, 0x3C#32, 0x40#32, 0x44#32] →
      s.hostWrite a .word v = s) ∧
    (∀ a : Word, 0x48 ≤ a.toNat → a.toNat < 0x100 → a.toNat % 4 = 0 →
      s.hostWrite a .word v = s ∧ s.hostRead a .word = { s with reads := 0 :: s.reads }) ∧
    (v.getLsbD 0 = false → s.hostWrite 0x00000004#32 .word v = { s with irqEn := v.getLsbD 1 }) ∧
    (∃ w : Word, s.hostRead 0x00000004#32 .word = { s with reads := w :: s.reads } ∧
      ∀ k, w.getLsbD k = (decide (k = 1) && s.irqEn)) ∧
    (s.pbits.length ≤ 7 →
      ∃ w : Word, s.hostRead 0x00000024#32 .word = { s with reads := w :: s.reads } ∧
        (w.extractLsb' 8 4).toNat = s.pbits.length ∧ w.extractLsb' 12 20 = 0 ∧
        (∀ j, j < s.pbits.length → w.getLsbD (s.pbits.length - 1 - j) = s.pbits.getD j false) ∧
        ∀ k, s.pbits.length ≤ k → k < 8 → w.getLsbD k = false) ∧
    ∀ r ∈ [(0x00#32, 0x504A4331#32), (0x10#32, s.result), (0x14#32, s.inLen), (0x18#32, s.brPos), (0x1C#32, s.outLen),
        (0x20#32, s.ecsLen), (0x34#32, s.errCmd), (0x38#32, s.errPos), (0x3C#32, s.inSize), (0x40#32, s.outSize),
        (0x44#32, s.ecsSize)],
      s.hostRead r.1 .word = { s with reads := r.2 :: s.reads }

/-- A misaligned access, a register access narrower than a word, one that straddles the end of a window and one at an
address of no range are dropped: a write changes nothing, a read returns 0, and HVIOL is set (20_memory R72, R73, R76,
R78). Two clauses are the model's reading and no rule of the spec: that such a write of CMD while busy, or after an error,
sets HVIOL and not REJ (R76 against 10_state R24, log 19), and that such an access at a reserved offset sets HVIOL (R76
against 10_state R35, log 23). -/
def Obligations.DroppedAccessesSetHviol : Prop :=
  ∀ (s : State) (a : Word) (width : AccessWidth), s.Inv →
    (a.toNat % width.bytes ≠ 0 ∨ (a.toNat < 0x100 ∧ width ≠ .word) ∨
      (∃ r ∈ s.regions, r.first ≤ a.toNat ∧ a.toNat < r.first + r.size ∧ r.first + r.size < a.toNat + width.bytes) ∨
      (0x100 ≤ a.toNat ∧ ∀ r ∈ s.regions, a.toNat < r.first ∨ r.first + r.size ≤ a.toNat)) →
    (∀ v, s.hostWrite a width v = { s with status := { s.status with hviol := true } }) ∧
    s.hostRead a width = { s with status := { s.status with hviol := true }, reads := 0 :: s.reads }

/-- While BUSY = 1: every register reads as it stands; CTRL takes its write; CMD drops its write with REJ; the other
registers below 0x48 drop theirs with HVIOL; every window access is dropped with HVIOL, a read returning 0 (20_memory
R84; that a read-only register sets HVIOL too is the model's reading, log 11). -/
def Obligations.BusyAccessesDropped : Prop :=
  ∀ (s : State) (a v : Word) (width : AccessWidth), s.status.busy = true →
    (a.toNat < 0x100 → a.toNat % 4 = 0 →
      s.hostRead a .word = { s with reads := s.readRegister (registerAt a.toNat) :: s.reads }) ∧
    s.hostWrite 0x00000004#32 .word v = (if v.getLsbD 0 then s.softReset else { s with irqEn := v.getLsbD 1 }) ∧
    s.hostWrite 0x0000000C#32 .word v = { s with status := { s.status with rej := true } } ∧
    (a.toNat < 0x48 → a.toNat % 4 = 0 → a.toNat ≠ 0x04 → a.toNat ≠ 0x08 → a.toNat ≠ 0x0C →
      s.hostWrite a .word v = { s with status := { s.status with hviol := true } }) ∧
    (0x100 ≤ a.toNat →
      s.hostWrite a width v = { s with status := { s.status with hviol := true } } ∧
      s.hostRead a width = { s with status := { s.status with hviol := true }, reads := 0 :: s.reads })

/-- Bytes and order: an idle host's write of a read-write window reads back with the same width as the value written,
and its byte i, read alone, is bits [8i+7:8i] of it; no other byte of any window changes, nor any other memory, register or
table (20_memory R75, R79, R80). A write of a read-only window is ignored and sets no flag (R77; log 24). A read of any
window is little-endian: byte i, read alone, is bits [8i+7:8i] of the value (R80). What each window holds, at the addresses
of R72: LENS, BLK, HSPEC (BITS[L] at byte L − 1, VALS[j] at 0x100 + j), IN, OUT and ECS the bytes the commands read and
write, HLEN, QT, QSTD and ZZ one entry a byte; a half of COEF is one coefficient, its byte at 2k + 1 bits [15:8] of
COEF[k]; a word of DCTBUF is one binary32 value; a word of EHUF t is an entry with SIZE in [20:16] and CODE in [15:0]
(10_state R37 to R40, R42 to R46). -/
def Obligations.LittleEndianWindows : Prop :=
  (∀ (s : State) (a v : Word) (width : AccessWidth) (w : Window) (off : Nat), s.Inv → s.status.busy = false →
    s.target? a width = some (.window w off) →
    (w = .lens ∨ w = .blk ∨ w = .coef ∨ (∃ t, w = .hspecBits t) ∨ (∃ t, w = .hspecVals t) ∨ w = .input ∨
      w = .output ∨ w = .ecs) →
    let t := s.hostWrite a width v
    t.hostRead a width = { t with reads := BitVec.ofNat 32 (v.toNat % 2 ^ (8 * width.bytes)) :: s.reads } ∧
    (∀ i, i < width.bytes →
      t.hostRead (a + BitVec.ofNat 32 i) .byte =
        { t with reads := BitVec.ofNat 32 (v.toNat / 2 ^ (8 * i) % 256) :: s.reads }) ∧
    (∀ w' off', (w' ≠ w ∨ off' < off ∨ off + width.bytes ≤ off') → (∀ x, x ∈ s.regions → x.window = w' → off' < x.size) →
      t.windowByte w' off' = s.windowByte w' off') ∧
    t = { s with lens := t.lens, blk := t.blk, coef := t.coef, hspec := t.hspec, mem := t.mem } ∧
    (w ≠ .lens → t.lens = s.lens) ∧ (w ≠ .blk → t.blk = s.blk) ∧ (w ≠ .coef → t.coef = s.coef) ∧
    ((∀ t, w ≠ .hspecBits t ∧ w ≠ .hspecVals t) → t.hspec = s.hspec) ∧
    (w ≠ .input ∧ w ≠ .output ∧ w ≠ .ecs → t.mem = s.mem) ∧
    ∀ b, b < a.toNat ∨ a.toNat + width.bytes ≤ b → t.readByte b = s.readByte b) ∧
  (∀ (s : State) (a v : Word) (width : AccessWidth) (w : Window) (off : Nat), s.status.busy = false →
    s.target? a width = some (.window w off) →
    ((∃ t, w = .hlen t) ∨ (∃ t, w = .qt t) ∨ w = .qstdY ∨ w = .qstdC ∨ w = .zz ∨ w = .dctbuf ∨ ∃ t, w = .ehuf t) →
    s.hostWrite a width v = s) ∧
  (∀ (s : State) (a : Word) (width : AccessWidth) (w : Window) (off : Nat), s.Inv → s.status.busy = false →
    s.target? a width = some (.window w off) →
    ∃ r : Word, s.hostRead a width = { s with reads := r :: s.reads } ∧ r.toNat < 2 ^ (8 * width.bytes) ∧
      (width = .byte → r = (s.windowByte w off).setWidth 32) ∧
      ∀ i, i < width.bytes →
        s.hostRead (a + BitVec.ofNat 32 i) .byte =
          { s with reads := BitVec.ofNat 32 (r.toNat / 2 ^ (8 * i) % 256) :: s.reads }) ∧
  ∀ s : State, s.status.busy = false →
    let returns : Nat → AccessWidth → Word → Prop := fun a width r =>
      s.hostRead (BitVec.ofNat 32 a) width = { s with reads := r :: s.reads }
    (∀ n, n < 288 → returns (0x1400 + n) .byte (BitVec.ofNat 32 ((s.hlen .litlen).getD n 0))) ∧
    (∀ n, n < 32 → returns (0x1600 + n) .byte (BitVec.ofNat 32 ((s.hlen .dist).getD n 0))) ∧
    (∀ n, n < 19 → returns (0x1700 + n) .byte (BitVec.ofNat 32 ((s.hlen .clen).getD n 0))) ∧
    (∀ n, n < 64 →
      returns (0x2000 + n) .byte ((s.qt0.getD n 0).setWidth 32) ∧
      returns (0x2040 + n) .byte ((s.qt1.getD n 0).setWidth 32) ∧
      returns (0x2080 + n) .byte (BitVec.ofNat 32 (qstdY n)) ∧
      returns (0x20C0 + n) .byte (BitVec.ofNat 32 (qstdC n)) ∧
      returns (0x2100 + n) .byte (BitVec.ofNat 32 (zz n)) ∧
      returns (0x3200 + 4 * n) .word (s.dctbuf.getD n 0)) ∧
    (∀ (t : Fin 4) (sym : Nat), sym < 256 →
      let e := s.ehuf[t].getD sym .absent
      returns (0x5000 + 0x400 * t.val + 4 * sym) .word (e.size.setWidth 32 <<< 16 ||| e.code.setWidth 32)) ∧
    (∀ n, n < 320 → returns (0x1000 + n) .byte ((s.lens.getD n 0).setWidth 32)) ∧
    (∀ n, n < 64 → returns (0x3000 + n) .byte ((s.blk.getD n 0).setWidth 32)) ∧
    (∀ k, k < 64 →
      returns (0x3100 + 2 * k) .half ((s.coef.getD k 0).setWidth 32) ∧
      returns (0x3100 + 2 * k) .byte (((s.coef.getD k 0).extractLsb' 0 8).setWidth 32) ∧
      returns (0x3100 + 2 * k + 1) .byte (((s.coef.getD k 0).extractLsb' 8 8).setWidth 32)) ∧
    (∀ (t : Fin 4) (n : Nat), n < 16 →
      returns (0x4000 + 0x200 * t.val + n) .byte ((s.hspec[t].bits.getD n 0).setWidth 32)) ∧
    (∀ (t : Fin 4) (n : Nat), n < 256 →
      returns (0x4100 + 0x200 * t.val + n) .byte ((s.hspec[t].vals.getD n 0).setWidth 32)) ∧
    (s.Inv →
      (∀ n, n < s.inSize.toNat → returns (0x01000000 + n) .byte ((s.inByte n).setWidth 32)) ∧
      (∀ n, n < s.outSize.toNat → returns (0x02000000 + n) .byte ((s.outByte n).setWidth 32)) ∧
      ∀ n, n < s.ecsSize.toNat → returns (0x03000000 + n) .byte ((s.ecsByte n).setWidth 32))

/-- A read changes nothing but the value it returns and, when it is dropped, HVIOL; the same read again returns the same
value (20_memory R79). -/
def Obligations.ReadsHaveNoSideEffects : Prop :=
  ∀ (s : State) (a : Word) (width : AccessWidth),
    ∃ v, (s.hostRead a width = { s with reads := v :: s.reads } ∨
        v = 0 ∧ s.hostRead a width =
          { s with reads := v :: s.reads, status := { s.status with hviol := true } }) ∧
      ((s.hostRead a width).hostRead a width).reads = v :: v :: s.reads

/-! ## Reset (70_reset) -/

/-- Soft reset: writing 1 to CTRL.SRESET, whatever the other bits, gives every register, flag and table its power-on value
and keeps IN, OUT, ECS, LENS, BLK, COEF and DCTBUF. With a command pending both outcomes of the race are runs of the model:
the command abandoned, or executed whole before the reset; BUSY = DONE = 0 after either (70_reset R342, R343; log 9). -/
def Obligations.SoftResetAndItsRace : Prop :=
  ∀ (s t : State) (v : Word), v.getLsbD 0 = true →
    (let r := s.hostWrite 0x00000004#32 .word v
     let p := State.resetAt ⟨s.inSize, s.outSize, s.ecsSize⟩
     r = { p with
       mem := s.mem, lens := s.lens, blk := s.blk, coef := s.coef, dctbuf := s.dctbuf, bus := s.bus, reads := s.reads } ∧
     r.irqEn = false ∧ r.status = .reset) ∧
    (s.bus = [.write 0x00000004#32 .word v] → step s = .next (s.setBus []).softReset) ∧
    (s.status.busy = true → s.bus = [.engine, .write 0x00000004#32 .word v] → step s = .next t →
      step t = .next (t.setBus []).softReset ∧ engineExecute s.pending (s.setBus [.write 0x00000004#32 .word v]) = .next t ∧
      (t.setBus []).softReset.status.busy = false ∧ (t.setBus []).softReset.status.done = false)

/-- Power-on reset, for every value of the parameters: the value 70_reset R340 gives each register, flag and table, and the
launch premises R345 says hold then: Idle, NoFlags and EncodeReady(50). -/
def Obligations.PowerOnValues : Prop :=
  ∀ p : Params,
    let s := State.resetAt p
    s.irqEn = false ∧ s.status.toWord = 0 ∧ s.result = 0 ∧ s.inLen = 0 ∧ s.brPos = 0 ∧ s.outLen = 0 ∧ s.ecsLen = 0 ∧
    s.ebitsWord = 0 ∧ s.pred = #v[0, 0, 0] ∧ s.errCmd = 0 ∧ s.errPos = 0 ∧
    s.inSize = p.inSize ∧ s.outSize = p.outSize ∧ s.ecsSize = p.ecsSize ∧ s.irq = false ∧
    s.readRegister .id = 0x504A4331#32 ∧ s.readRegister .cmd = 0 ∧
    (∀ t j, (s.hlen t).getD j 0 = 0) ∧
    (∀ i, i < 64 → (s.qt0.getD i 0).toNat = qstdY i ∧ (s.qt1.getD i 0).toNat = qstdC i) ∧
    (∀ t : Fin 4, s.hspec[t] = hspecRom t ∧ huffBuild t (hspecRom t) = some s.ehuf[t]) ∧
    s.Idle ∧ s.NoFlags ∧ s.EncodeReady 50

/-! ## The invariant -/

/-- Every step, of the host or of the engine, keeps the invariant: STATUS consistent, the lengths within their sizes, at
most 7 pending bits, the memory in its canonical form and within the windows, the decode tables within the Kraft
inequality, no zero in a quantization table, every encoder code within its length (10_state R25, R28 to R31, R39, R40,
R44; 45_entropy R261; 70_reset R356). -/
def Obligations.StepKeepsTheInvariant : Prop :=
  ∀ s t : State, s.Inv → step s = .next t → t.Inv

/-- The invariant holds after power-on reset, for every value of the parameters in their ranges, and in `State.reset`. -/
def Obligations.InvariantAfterReset : Prop :=
  (∀ p : Params, p.inRange = true → (State.resetAt p).Inv) ∧ State.reset.Inv

end
end

