-- ==== Sys2Proof/Laws/State.lean ====
section
/-! SUPPORT. What each single-field update of the state leaves in each field: one lemma per field per update, all true
by rfl, so that no proof unfolds a record update. -/

namespace Sys2Proof.Machine

variable (s : State)

/-! ## setIrqEn -/

@[simp] theorem State.setIrqEn_irqEn (v : Bool) : (s.setIrqEn v).irqEn = v := rfl
@[simp] theorem State.setIrqEn_status (v : Bool) : (s.setIrqEn v).status = s.status := rfl
@[simp] theorem State.setIrqEn_pending (v : Bool) : (s.setIrqEn v).pending = s.pending := rfl
@[simp] theorem State.setIrqEn_result (v : Bool) : (s.setIrqEn v).result = s.result := rfl
@[simp] theorem State.setIrqEn_inLen (v : Bool) : (s.setIrqEn v).inLen = s.inLen := rfl
@[simp] theorem State.setIrqEn_brPos (v : Bool) : (s.setIrqEn v).brPos = s.brPos := rfl
@[simp] theorem State.setIrqEn_outLen (v : Bool) : (s.setIrqEn v).outLen = s.outLen := rfl
@[simp] theorem State.setIrqEn_ecsLen (v : Bool) : (s.setIrqEn v).ecsLen = s.ecsLen := rfl
@[simp] theorem State.setIrqEn_pbits (v : Bool) : (s.setIrqEn v).pbits = s.pbits := rfl
@[simp] theorem State.setIrqEn_pred (v : Bool) : (s.setIrqEn v).pred = s.pred := rfl
@[simp] theorem State.setIrqEn_errCmd (v : Bool) : (s.setIrqEn v).errCmd = s.errCmd := rfl
@[simp] theorem State.setIrqEn_errPos (v : Bool) : (s.setIrqEn v).errPos = s.errPos := rfl
@[simp] theorem State.setIrqEn_inSize (v : Bool) : (s.setIrqEn v).inSize = s.inSize := rfl
@[simp] theorem State.setIrqEn_outSize (v : Bool) : (s.setIrqEn v).outSize = s.outSize := rfl
@[simp] theorem State.setIrqEn_ecsSize (v : Bool) : (s.setIrqEn v).ecsSize = s.ecsSize := rfl
@[simp] theorem State.setIrqEn_lens (v : Bool) : (s.setIrqEn v).lens = s.lens := rfl
@[simp] theorem State.setIrqEn_hlen0 (v : Bool) : (s.setIrqEn v).hlen0 = s.hlen0 := rfl
@[simp] theorem State.setIrqEn_hlen1 (v : Bool) : (s.setIrqEn v).hlen1 = s.hlen1 := rfl
@[simp] theorem State.setIrqEn_hlen2 (v : Bool) : (s.setIrqEn v).hlen2 = s.hlen2 := rfl
@[simp] theorem State.setIrqEn_qt0 (v : Bool) : (s.setIrqEn v).qt0 = s.qt0 := rfl
@[simp] theorem State.setIrqEn_qt1 (v : Bool) : (s.setIrqEn v).qt1 = s.qt1 := rfl
@[simp] theorem State.setIrqEn_blk (v : Bool) : (s.setIrqEn v).blk = s.blk := rfl
@[simp] theorem State.setIrqEn_dctbuf (v : Bool) : (s.setIrqEn v).dctbuf = s.dctbuf := rfl
@[simp] theorem State.setIrqEn_coef (v : Bool) : (s.setIrqEn v).coef = s.coef := rfl
@[simp] theorem State.setIrqEn_hspec (v : Bool) : (s.setIrqEn v).hspec = s.hspec := rfl
@[simp] theorem State.setIrqEn_ehuf (v : Bool) : (s.setIrqEn v).ehuf = s.ehuf := rfl
@[simp] theorem State.setIrqEn_mem (v : Bool) : (s.setIrqEn v).mem = s.mem := rfl
@[simp] theorem State.setIrqEn_bus (v : Bool) : (s.setIrqEn v).bus = s.bus := rfl
@[simp] theorem State.setIrqEn_reads (v : Bool) : (s.setIrqEn v).reads = s.reads := rfl

/-! ## setStatus -/

@[simp] theorem State.setStatus_irqEn (v : Status) : (s.setStatus v).irqEn = s.irqEn := rfl
@[simp] theorem State.setStatus_status (v : Status) : (s.setStatus v).status = v := rfl
@[simp] theorem State.setStatus_pending (v : Status) : (s.setStatus v).pending = s.pending := rfl
@[simp] theorem State.setStatus_result (v : Status) : (s.setStatus v).result = s.result := rfl
@[simp] theorem State.setStatus_inLen (v : Status) : (s.setStatus v).inLen = s.inLen := rfl
@[simp] theorem State.setStatus_brPos (v : Status) : (s.setStatus v).brPos = s.brPos := rfl
@[simp] theorem State.setStatus_outLen (v : Status) : (s.setStatus v).outLen = s.outLen := rfl
@[simp] theorem State.setStatus_ecsLen (v : Status) : (s.setStatus v).ecsLen = s.ecsLen := rfl
@[simp] theorem State.setStatus_pbits (v : Status) : (s.setStatus v).pbits = s.pbits := rfl
@[simp] theorem State.setStatus_pred (v : Status) : (s.setStatus v).pred = s.pred := rfl
@[simp] theorem State.setStatus_errCmd (v : Status) : (s.setStatus v).errCmd = s.errCmd := rfl
@[simp] theorem State.setStatus_errPos (v : Status) : (s.setStatus v).errPos = s.errPos := rfl
@[simp] theorem State.setStatus_inSize (v : Status) : (s.setStatus v).inSize = s.inSize := rfl
@[simp] theorem State.setStatus_outSize (v : Status) : (s.setStatus v).outSize = s.outSize := rfl
@[simp] theorem State.setStatus_ecsSize (v : Status) : (s.setStatus v).ecsSize = s.ecsSize := rfl
@[simp] theorem State.setStatus_lens (v : Status) : (s.setStatus v).lens = s.lens := rfl
@[simp] theorem State.setStatus_hlen0 (v : Status) : (s.setStatus v).hlen0 = s.hlen0 := rfl
@[simp] theorem State.setStatus_hlen1 (v : Status) : (s.setStatus v).hlen1 = s.hlen1 := rfl
@[simp] theorem State.setStatus_hlen2 (v : Status) : (s.setStatus v).hlen2 = s.hlen2 := rfl
@[simp] theorem State.setStatus_qt0 (v : Status) : (s.setStatus v).qt0 = s.qt0 := rfl
@[simp] theorem State.setStatus_qt1 (v : Status) : (s.setStatus v).qt1 = s.qt1 := rfl
@[simp] theorem State.setStatus_blk (v : Status) : (s.setStatus v).blk = s.blk := rfl
@[simp] theorem State.setStatus_dctbuf (v : Status) : (s.setStatus v).dctbuf = s.dctbuf := rfl
@[simp] theorem State.setStatus_coef (v : Status) : (s.setStatus v).coef = s.coef := rfl
@[simp] theorem State.setStatus_hspec (v : Status) : (s.setStatus v).hspec = s.hspec := rfl
@[simp] theorem State.setStatus_ehuf (v : Status) : (s.setStatus v).ehuf = s.ehuf := rfl
@[simp] theorem State.setStatus_mem (v : Status) : (s.setStatus v).mem = s.mem := rfl
@[simp] theorem State.setStatus_bus (v : Status) : (s.setStatus v).bus = s.bus := rfl
@[simp] theorem State.setStatus_reads (v : Status) : (s.setStatus v).reads = s.reads := rfl

/-! ## setPending -/

@[simp] theorem State.setPending_irqEn (v : Word) : (s.setPending v).irqEn = s.irqEn := rfl
@[simp] theorem State.setPending_status (v : Word) : (s.setPending v).status = s.status := rfl
@[simp] theorem State.setPending_pending (v : Word) : (s.setPending v).pending = v := rfl
@[simp] theorem State.setPending_result (v : Word) : (s.setPending v).result = s.result := rfl
@[simp] theorem State.setPending_inLen (v : Word) : (s.setPending v).inLen = s.inLen := rfl
@[simp] theorem State.setPending_brPos (v : Word) : (s.setPending v).brPos = s.brPos := rfl
@[simp] theorem State.setPending_outLen (v : Word) : (s.setPending v).outLen = s.outLen := rfl
@[simp] theorem State.setPending_ecsLen (v : Word) : (s.setPending v).ecsLen = s.ecsLen := rfl
@[simp] theorem State.setPending_pbits (v : Word) : (s.setPending v).pbits = s.pbits := rfl
@[simp] theorem State.setPending_pred (v : Word) : (s.setPending v).pred = s.pred := rfl
@[simp] theorem State.setPending_errCmd (v : Word) : (s.setPending v).errCmd = s.errCmd := rfl
@[simp] theorem State.setPending_errPos (v : Word) : (s.setPending v).errPos = s.errPos := rfl
@[simp] theorem State.setPending_inSize (v : Word) : (s.setPending v).inSize = s.inSize := rfl
@[simp] theorem State.setPending_outSize (v : Word) : (s.setPending v).outSize = s.outSize := rfl
@[simp] theorem State.setPending_ecsSize (v : Word) : (s.setPending v).ecsSize = s.ecsSize := rfl
@[simp] theorem State.setPending_lens (v : Word) : (s.setPending v).lens = s.lens := rfl
@[simp] theorem State.setPending_hlen0 (v : Word) : (s.setPending v).hlen0 = s.hlen0 := rfl
@[simp] theorem State.setPending_hlen1 (v : Word) : (s.setPending v).hlen1 = s.hlen1 := rfl
@[simp] theorem State.setPending_hlen2 (v : Word) : (s.setPending v).hlen2 = s.hlen2 := rfl
@[simp] theorem State.setPending_qt0 (v : Word) : (s.setPending v).qt0 = s.qt0 := rfl
@[simp] theorem State.setPending_qt1 (v : Word) : (s.setPending v).qt1 = s.qt1 := rfl
@[simp] theorem State.setPending_blk (v : Word) : (s.setPending v).blk = s.blk := rfl
@[simp] theorem State.setPending_dctbuf (v : Word) : (s.setPending v).dctbuf = s.dctbuf := rfl
@[simp] theorem State.setPending_coef (v : Word) : (s.setPending v).coef = s.coef := rfl
@[simp] theorem State.setPending_hspec (v : Word) : (s.setPending v).hspec = s.hspec := rfl
@[simp] theorem State.setPending_ehuf (v : Word) : (s.setPending v).ehuf = s.ehuf := rfl
@[simp] theorem State.setPending_mem (v : Word) : (s.setPending v).mem = s.mem := rfl
@[simp] theorem State.setPending_bus (v : Word) : (s.setPending v).bus = s.bus := rfl
@[simp] theorem State.setPending_reads (v : Word) : (s.setPending v).reads = s.reads := rfl

/-! ## setResult -/

@[simp] theorem State.setResult_irqEn (v : Word) : (s.setResult v).irqEn = s.irqEn := rfl
@[simp] theorem State.setResult_status (v : Word) : (s.setResult v).status = s.status := rfl
@[simp] theorem State.setResult_pending (v : Word) : (s.setResult v).pending = s.pending := rfl
@[simp] theorem State.setResult_result (v : Word) : (s.setResult v).result = v := rfl
@[simp] theorem State.setResult_inLen (v : Word) : (s.setResult v).inLen = s.inLen := rfl
@[simp] theorem State.setResult_brPos (v : Word) : (s.setResult v).brPos = s.brPos := rfl
@[simp] theorem State.setResult_outLen (v : Word) : (s.setResult v).outLen = s.outLen := rfl
@[simp] theorem State.setResult_ecsLen (v : Word) : (s.setResult v).ecsLen = s.ecsLen := rfl
@[simp] theorem State.setResult_pbits (v : Word) : (s.setResult v).pbits = s.pbits := rfl
@[simp] theorem State.setResult_pred (v : Word) : (s.setResult v).pred = s.pred := rfl
@[simp] theorem State.setResult_errCmd (v : Word) : (s.setResult v).errCmd = s.errCmd := rfl
@[simp] theorem State.setResult_errPos (v : Word) : (s.setResult v).errPos = s.errPos := rfl
@[simp] theorem State.setResult_inSize (v : Word) : (s.setResult v).inSize = s.inSize := rfl
@[simp] theorem State.setResult_outSize (v : Word) : (s.setResult v).outSize = s.outSize := rfl
@[simp] theorem State.setResult_ecsSize (v : Word) : (s.setResult v).ecsSize = s.ecsSize := rfl
@[simp] theorem State.setResult_lens (v : Word) : (s.setResult v).lens = s.lens := rfl
@[simp] theorem State.setResult_hlen0 (v : Word) : (s.setResult v).hlen0 = s.hlen0 := rfl
@[simp] theorem State.setResult_hlen1 (v : Word) : (s.setResult v).hlen1 = s.hlen1 := rfl
@[simp] theorem State.setResult_hlen2 (v : Word) : (s.setResult v).hlen2 = s.hlen2 := rfl
@[simp] theorem State.setResult_qt0 (v : Word) : (s.setResult v).qt0 = s.qt0 := rfl
@[simp] theorem State.setResult_qt1 (v : Word) : (s.setResult v).qt1 = s.qt1 := rfl
@[simp] theorem State.setResult_blk (v : Word) : (s.setResult v).blk = s.blk := rfl
@[simp] theorem State.setResult_dctbuf (v : Word) : (s.setResult v).dctbuf = s.dctbuf := rfl
@[simp] theorem State.setResult_coef (v : Word) : (s.setResult v).coef = s.coef := rfl
@[simp] theorem State.setResult_hspec (v : Word) : (s.setResult v).hspec = s.hspec := rfl
@[simp] theorem State.setResult_ehuf (v : Word) : (s.setResult v).ehuf = s.ehuf := rfl
@[simp] theorem State.setResult_mem (v : Word) : (s.setResult v).mem = s.mem := rfl
@[simp] theorem State.setResult_bus (v : Word) : (s.setResult v).bus = s.bus := rfl
@[simp] theorem State.setResult_reads (v : Word) : (s.setResult v).reads = s.reads := rfl

/-! ## setInLen -/

@[simp] theorem State.setInLen_irqEn (v : Word) : (s.setInLen v).irqEn = s.irqEn := rfl
@[simp] theorem State.setInLen_status (v : Word) : (s.setInLen v).status = s.status := rfl
@[simp] theorem State.setInLen_pending (v : Word) : (s.setInLen v).pending = s.pending := rfl
@[simp] theorem State.setInLen_result (v : Word) : (s.setInLen v).result = s.result := rfl
@[simp] theorem State.setInLen_inLen (v : Word) : (s.setInLen v).inLen = v := rfl
@[simp] theorem State.setInLen_brPos (v : Word) : (s.setInLen v).brPos = s.brPos := rfl
@[simp] theorem State.setInLen_outLen (v : Word) : (s.setInLen v).outLen = s.outLen := rfl
@[simp] theorem State.setInLen_ecsLen (v : Word) : (s.setInLen v).ecsLen = s.ecsLen := rfl
@[simp] theorem State.setInLen_pbits (v : Word) : (s.setInLen v).pbits = s.pbits := rfl
@[simp] theorem State.setInLen_pred (v : Word) : (s.setInLen v).pred = s.pred := rfl
@[simp] theorem State.setInLen_errCmd (v : Word) : (s.setInLen v).errCmd = s.errCmd := rfl
@[simp] theorem State.setInLen_errPos (v : Word) : (s.setInLen v).errPos = s.errPos := rfl
@[simp] theorem State.setInLen_inSize (v : Word) : (s.setInLen v).inSize = s.inSize := rfl
@[simp] theorem State.setInLen_outSize (v : Word) : (s.setInLen v).outSize = s.outSize := rfl
@[simp] theorem State.setInLen_ecsSize (v : Word) : (s.setInLen v).ecsSize = s.ecsSize := rfl
@[simp] theorem State.setInLen_lens (v : Word) : (s.setInLen v).lens = s.lens := rfl
@[simp] theorem State.setInLen_hlen0 (v : Word) : (s.setInLen v).hlen0 = s.hlen0 := rfl
@[simp] theorem State.setInLen_hlen1 (v : Word) : (s.setInLen v).hlen1 = s.hlen1 := rfl
@[simp] theorem State.setInLen_hlen2 (v : Word) : (s.setInLen v).hlen2 = s.hlen2 := rfl
@[simp] theorem State.setInLen_qt0 (v : Word) : (s.setInLen v).qt0 = s.qt0 := rfl
@[simp] theorem State.setInLen_qt1 (v : Word) : (s.setInLen v).qt1 = s.qt1 := rfl
@[simp] theorem State.setInLen_blk (v : Word) : (s.setInLen v).blk = s.blk := rfl
@[simp] theorem State.setInLen_dctbuf (v : Word) : (s.setInLen v).dctbuf = s.dctbuf := rfl
@[simp] theorem State.setInLen_coef (v : Word) : (s.setInLen v).coef = s.coef := rfl
@[simp] theorem State.setInLen_hspec (v : Word) : (s.setInLen v).hspec = s.hspec := rfl
@[simp] theorem State.setInLen_ehuf (v : Word) : (s.setInLen v).ehuf = s.ehuf := rfl
@[simp] theorem State.setInLen_mem (v : Word) : (s.setInLen v).mem = s.mem := rfl
@[simp] theorem State.setInLen_bus (v : Word) : (s.setInLen v).bus = s.bus := rfl
@[simp] theorem State.setInLen_reads (v : Word) : (s.setInLen v).reads = s.reads := rfl

/-! ## setBrPos -/

@[simp] theorem State.setBrPos_irqEn (v : Word) : (s.setBrPos v).irqEn = s.irqEn := rfl
@[simp] theorem State.setBrPos_status (v : Word) : (s.setBrPos v).status = s.status := rfl
@[simp] theorem State.setBrPos_pending (v : Word) : (s.setBrPos v).pending = s.pending := rfl
@[simp] theorem State.setBrPos_result (v : Word) : (s.setBrPos v).result = s.result := rfl
@[simp] theorem State.setBrPos_inLen (v : Word) : (s.setBrPos v).inLen = s.inLen := rfl
@[simp] theorem State.setBrPos_brPos (v : Word) : (s.setBrPos v).brPos = v := rfl
@[simp] theorem State.setBrPos_outLen (v : Word) : (s.setBrPos v).outLen = s.outLen := rfl
@[simp] theorem State.setBrPos_ecsLen (v : Word) : (s.setBrPos v).ecsLen = s.ecsLen := rfl
@[simp] theorem State.setBrPos_pbits (v : Word) : (s.setBrPos v).pbits = s.pbits := rfl
@[simp] theorem State.setBrPos_pred (v : Word) : (s.setBrPos v).pred = s.pred := rfl
@[simp] theorem State.setBrPos_errCmd (v : Word) : (s.setBrPos v).errCmd = s.errCmd := rfl
@[simp] theorem State.setBrPos_errPos (v : Word) : (s.setBrPos v).errPos = s.errPos := rfl
@[simp] theorem State.setBrPos_inSize (v : Word) : (s.setBrPos v).inSize = s.inSize := rfl
@[simp] theorem State.setBrPos_outSize (v : Word) : (s.setBrPos v).outSize = s.outSize := rfl
@[simp] theorem State.setBrPos_ecsSize (v : Word) : (s.setBrPos v).ecsSize = s.ecsSize := rfl
@[simp] theorem State.setBrPos_lens (v : Word) : (s.setBrPos v).lens = s.lens := rfl
@[simp] theorem State.setBrPos_hlen0 (v : Word) : (s.setBrPos v).hlen0 = s.hlen0 := rfl
@[simp] theorem State.setBrPos_hlen1 (v : Word) : (s.setBrPos v).hlen1 = s.hlen1 := rfl
@[simp] theorem State.setBrPos_hlen2 (v : Word) : (s.setBrPos v).hlen2 = s.hlen2 := rfl
@[simp] theorem State.setBrPos_qt0 (v : Word) : (s.setBrPos v).qt0 = s.qt0 := rfl
@[simp] theorem State.setBrPos_qt1 (v : Word) : (s.setBrPos v).qt1 = s.qt1 := rfl
@[simp] theorem State.setBrPos_blk (v : Word) : (s.setBrPos v).blk = s.blk := rfl
@[simp] theorem State.setBrPos_dctbuf (v : Word) : (s.setBrPos v).dctbuf = s.dctbuf := rfl
@[simp] theorem State.setBrPos_coef (v : Word) : (s.setBrPos v).coef = s.coef := rfl
@[simp] theorem State.setBrPos_hspec (v : Word) : (s.setBrPos v).hspec = s.hspec := rfl
@[simp] theorem State.setBrPos_ehuf (v : Word) : (s.setBrPos v).ehuf = s.ehuf := rfl
@[simp] theorem State.setBrPos_mem (v : Word) : (s.setBrPos v).mem = s.mem := rfl
@[simp] theorem State.setBrPos_bus (v : Word) : (s.setBrPos v).bus = s.bus := rfl
@[simp] theorem State.setBrPos_reads (v : Word) : (s.setBrPos v).reads = s.reads := rfl

/-! ## setOutLen -/

@[simp] theorem State.setOutLen_irqEn (v : Word) : (s.setOutLen v).irqEn = s.irqEn := rfl
@[simp] theorem State.setOutLen_status (v : Word) : (s.setOutLen v).status = s.status := rfl
@[simp] theorem State.setOutLen_pending (v : Word) : (s.setOutLen v).pending = s.pending := rfl
@[simp] theorem State.setOutLen_result (v : Word) : (s.setOutLen v).result = s.result := rfl
@[simp] theorem State.setOutLen_inLen (v : Word) : (s.setOutLen v).inLen = s.inLen := rfl
@[simp] theorem State.setOutLen_brPos (v : Word) : (s.setOutLen v).brPos = s.brPos := rfl
@[simp] theorem State.setOutLen_outLen (v : Word) : (s.setOutLen v).outLen = v := rfl
@[simp] theorem State.setOutLen_ecsLen (v : Word) : (s.setOutLen v).ecsLen = s.ecsLen := rfl
@[simp] theorem State.setOutLen_pbits (v : Word) : (s.setOutLen v).pbits = s.pbits := rfl
@[simp] theorem State.setOutLen_pred (v : Word) : (s.setOutLen v).pred = s.pred := rfl
@[simp] theorem State.setOutLen_errCmd (v : Word) : (s.setOutLen v).errCmd = s.errCmd := rfl
@[simp] theorem State.setOutLen_errPos (v : Word) : (s.setOutLen v).errPos = s.errPos := rfl
@[simp] theorem State.setOutLen_inSize (v : Word) : (s.setOutLen v).inSize = s.inSize := rfl
@[simp] theorem State.setOutLen_outSize (v : Word) : (s.setOutLen v).outSize = s.outSize := rfl
@[simp] theorem State.setOutLen_ecsSize (v : Word) : (s.setOutLen v).ecsSize = s.ecsSize := rfl
@[simp] theorem State.setOutLen_lens (v : Word) : (s.setOutLen v).lens = s.lens := rfl
@[simp] theorem State.setOutLen_hlen0 (v : Word) : (s.setOutLen v).hlen0 = s.hlen0 := rfl
@[simp] theorem State.setOutLen_hlen1 (v : Word) : (s.setOutLen v).hlen1 = s.hlen1 := rfl
@[simp] theorem State.setOutLen_hlen2 (v : Word) : (s.setOutLen v).hlen2 = s.hlen2 := rfl
@[simp] theorem State.setOutLen_qt0 (v : Word) : (s.setOutLen v).qt0 = s.qt0 := rfl
@[simp] theorem State.setOutLen_qt1 (v : Word) : (s.setOutLen v).qt1 = s.qt1 := rfl
@[simp] theorem State.setOutLen_blk (v : Word) : (s.setOutLen v).blk = s.blk := rfl
@[simp] theorem State.setOutLen_dctbuf (v : Word) : (s.setOutLen v).dctbuf = s.dctbuf := rfl
@[simp] theorem State.setOutLen_coef (v : Word) : (s.setOutLen v).coef = s.coef := rfl
@[simp] theorem State.setOutLen_hspec (v : Word) : (s.setOutLen v).hspec = s.hspec := rfl
@[simp] theorem State.setOutLen_ehuf (v : Word) : (s.setOutLen v).ehuf = s.ehuf := rfl
@[simp] theorem State.setOutLen_mem (v : Word) : (s.setOutLen v).mem = s.mem := rfl
@[simp] theorem State.setOutLen_bus (v : Word) : (s.setOutLen v).bus = s.bus := rfl
@[simp] theorem State.setOutLen_reads (v : Word) : (s.setOutLen v).reads = s.reads := rfl

/-! ## setEcsLen -/

@[simp] theorem State.setEcsLen_irqEn (v : Word) : (s.setEcsLen v).irqEn = s.irqEn := rfl
@[simp] theorem State.setEcsLen_status (v : Word) : (s.setEcsLen v).status = s.status := rfl
@[simp] theorem State.setEcsLen_pending (v : Word) : (s.setEcsLen v).pending = s.pending := rfl
@[simp] theorem State.setEcsLen_result (v : Word) : (s.setEcsLen v).result = s.result := rfl
@[simp] theorem State.setEcsLen_inLen (v : Word) : (s.setEcsLen v).inLen = s.inLen := rfl
@[simp] theorem State.setEcsLen_brPos (v : Word) : (s.setEcsLen v).brPos = s.brPos := rfl
@[simp] theorem State.setEcsLen_outLen (v : Word) : (s.setEcsLen v).outLen = s.outLen := rfl
@[simp] theorem State.setEcsLen_ecsLen (v : Word) : (s.setEcsLen v).ecsLen = v := rfl
@[simp] theorem State.setEcsLen_pbits (v : Word) : (s.setEcsLen v).pbits = s.pbits := rfl
@[simp] theorem State.setEcsLen_pred (v : Word) : (s.setEcsLen v).pred = s.pred := rfl
@[simp] theorem State.setEcsLen_errCmd (v : Word) : (s.setEcsLen v).errCmd = s.errCmd := rfl
@[simp] theorem State.setEcsLen_errPos (v : Word) : (s.setEcsLen v).errPos = s.errPos := rfl
@[simp] theorem State.setEcsLen_inSize (v : Word) : (s.setEcsLen v).inSize = s.inSize := rfl
@[simp] theorem State.setEcsLen_outSize (v : Word) : (s.setEcsLen v).outSize = s.outSize := rfl
@[simp] theorem State.setEcsLen_ecsSize (v : Word) : (s.setEcsLen v).ecsSize = s.ecsSize := rfl
@[simp] theorem State.setEcsLen_lens (v : Word) : (s.setEcsLen v).lens = s.lens := rfl
@[simp] theorem State.setEcsLen_hlen0 (v : Word) : (s.setEcsLen v).hlen0 = s.hlen0 := rfl
@[simp] theorem State.setEcsLen_hlen1 (v : Word) : (s.setEcsLen v).hlen1 = s.hlen1 := rfl
@[simp] theorem State.setEcsLen_hlen2 (v : Word) : (s.setEcsLen v).hlen2 = s.hlen2 := rfl
@[simp] theorem State.setEcsLen_qt0 (v : Word) : (s.setEcsLen v).qt0 = s.qt0 := rfl
@[simp] theorem State.setEcsLen_qt1 (v : Word) : (s.setEcsLen v).qt1 = s.qt1 := rfl
@[simp] theorem State.setEcsLen_blk (v : Word) : (s.setEcsLen v).blk = s.blk := rfl
@[simp] theorem State.setEcsLen_dctbuf (v : Word) : (s.setEcsLen v).dctbuf = s.dctbuf := rfl
@[simp] theorem State.setEcsLen_coef (v : Word) : (s.setEcsLen v).coef = s.coef := rfl
@[simp] theorem State.setEcsLen_hspec (v : Word) : (s.setEcsLen v).hspec = s.hspec := rfl
@[simp] theorem State.setEcsLen_ehuf (v : Word) : (s.setEcsLen v).ehuf = s.ehuf := rfl
@[simp] theorem State.setEcsLen_mem (v : Word) : (s.setEcsLen v).mem = s.mem := rfl
@[simp] theorem State.setEcsLen_bus (v : Word) : (s.setEcsLen v).bus = s.bus := rfl
@[simp] theorem State.setEcsLen_reads (v : Word) : (s.setEcsLen v).reads = s.reads := rfl

/-! ## setPbits -/

@[simp] theorem State.setPbits_irqEn (v : List Bool) : (s.setPbits v).irqEn = s.irqEn := rfl
@[simp] theorem State.setPbits_status (v : List Bool) : (s.setPbits v).status = s.status := rfl
@[simp] theorem State.setPbits_pending (v : List Bool) : (s.setPbits v).pending = s.pending := rfl
@[simp] theorem State.setPbits_result (v : List Bool) : (s.setPbits v).result = s.result := rfl
@[simp] theorem State.setPbits_inLen (v : List Bool) : (s.setPbits v).inLen = s.inLen := rfl
@[simp] theorem State.setPbits_brPos (v : List Bool) : (s.setPbits v).brPos = s.brPos := rfl
@[simp] theorem State.setPbits_outLen (v : List Bool) : (s.setPbits v).outLen = s.outLen := rfl
@[simp] theorem State.setPbits_ecsLen (v : List Bool) : (s.setPbits v).ecsLen = s.ecsLen := rfl
@[simp] theorem State.setPbits_pbits (v : List Bool) : (s.setPbits v).pbits = v := rfl
@[simp] theorem State.setPbits_pred (v : List Bool) : (s.setPbits v).pred = s.pred := rfl
@[simp] theorem State.setPbits_errCmd (v : List Bool) : (s.setPbits v).errCmd = s.errCmd := rfl
@[simp] theorem State.setPbits_errPos (v : List Bool) : (s.setPbits v).errPos = s.errPos := rfl
@[simp] theorem State.setPbits_inSize (v : List Bool) : (s.setPbits v).inSize = s.inSize := rfl
@[simp] theorem State.setPbits_outSize (v : List Bool) : (s.setPbits v).outSize = s.outSize := rfl
@[simp] theorem State.setPbits_ecsSize (v : List Bool) : (s.setPbits v).ecsSize = s.ecsSize := rfl
@[simp] theorem State.setPbits_lens (v : List Bool) : (s.setPbits v).lens = s.lens := rfl
@[simp] theorem State.setPbits_hlen0 (v : List Bool) : (s.setPbits v).hlen0 = s.hlen0 := rfl
@[simp] theorem State.setPbits_hlen1 (v : List Bool) : (s.setPbits v).hlen1 = s.hlen1 := rfl
@[simp] theorem State.setPbits_hlen2 (v : List Bool) : (s.setPbits v).hlen2 = s.hlen2 := rfl
@[simp] theorem State.setPbits_qt0 (v : List Bool) : (s.setPbits v).qt0 = s.qt0 := rfl
@[simp] theorem State.setPbits_qt1 (v : List Bool) : (s.setPbits v).qt1 = s.qt1 := rfl
@[simp] theorem State.setPbits_blk (v : List Bool) : (s.setPbits v).blk = s.blk := rfl
@[simp] theorem State.setPbits_dctbuf (v : List Bool) : (s.setPbits v).dctbuf = s.dctbuf := rfl
@[simp] theorem State.setPbits_coef (v : List Bool) : (s.setPbits v).coef = s.coef := rfl
@[simp] theorem State.setPbits_hspec (v : List Bool) : (s.setPbits v).hspec = s.hspec := rfl
@[simp] theorem State.setPbits_ehuf (v : List Bool) : (s.setPbits v).ehuf = s.ehuf := rfl
@[simp] theorem State.setPbits_mem (v : List Bool) : (s.setPbits v).mem = s.mem := rfl
@[simp] theorem State.setPbits_bus (v : List Bool) : (s.setPbits v).bus = s.bus := rfl
@[simp] theorem State.setPbits_reads (v : List Bool) : (s.setPbits v).reads = s.reads := rfl

/-! ## setPred -/

@[simp] theorem State.setPred_irqEn (v : Vector Half 3) : (s.setPred v).irqEn = s.irqEn := rfl
@[simp] theorem State.setPred_status (v : Vector Half 3) : (s.setPred v).status = s.status := rfl
@[simp] theorem State.setPred_pending (v : Vector Half 3) : (s.setPred v).pending = s.pending := rfl
@[simp] theorem State.setPred_result (v : Vector Half 3) : (s.setPred v).result = s.result := rfl
@[simp] theorem State.setPred_inLen (v : Vector Half 3) : (s.setPred v).inLen = s.inLen := rfl
@[simp] theorem State.setPred_brPos (v : Vector Half 3) : (s.setPred v).brPos = s.brPos := rfl
@[simp] theorem State.setPred_outLen (v : Vector Half 3) : (s.setPred v).outLen = s.outLen := rfl
@[simp] theorem State.setPred_ecsLen (v : Vector Half 3) : (s.setPred v).ecsLen = s.ecsLen := rfl
@[simp] theorem State.setPred_pbits (v : Vector Half 3) : (s.setPred v).pbits = s.pbits := rfl
@[simp] theorem State.setPred_pred (v : Vector Half 3) : (s.setPred v).pred = v := rfl
@[simp] theorem State.setPred_errCmd (v : Vector Half 3) : (s.setPred v).errCmd = s.errCmd := rfl
@[simp] theorem State.setPred_errPos (v : Vector Half 3) : (s.setPred v).errPos = s.errPos := rfl
@[simp] theorem State.setPred_inSize (v : Vector Half 3) : (s.setPred v).inSize = s.inSize := rfl
@[simp] theorem State.setPred_outSize (v : Vector Half 3) : (s.setPred v).outSize = s.outSize := rfl
@[simp] theorem State.setPred_ecsSize (v : Vector Half 3) : (s.setPred v).ecsSize = s.ecsSize := rfl
@[simp] theorem State.setPred_lens (v : Vector Half 3) : (s.setPred v).lens = s.lens := rfl
@[simp] theorem State.setPred_hlen0 (v : Vector Half 3) : (s.setPred v).hlen0 = s.hlen0 := rfl
@[simp] theorem State.setPred_hlen1 (v : Vector Half 3) : (s.setPred v).hlen1 = s.hlen1 := rfl
@[simp] theorem State.setPred_hlen2 (v : Vector Half 3) : (s.setPred v).hlen2 = s.hlen2 := rfl
@[simp] theorem State.setPred_qt0 (v : Vector Half 3) : (s.setPred v).qt0 = s.qt0 := rfl
@[simp] theorem State.setPred_qt1 (v : Vector Half 3) : (s.setPred v).qt1 = s.qt1 := rfl
@[simp] theorem State.setPred_blk (v : Vector Half 3) : (s.setPred v).blk = s.blk := rfl
@[simp] theorem State.setPred_dctbuf (v : Vector Half 3) : (s.setPred v).dctbuf = s.dctbuf := rfl
@[simp] theorem State.setPred_coef (v : Vector Half 3) : (s.setPred v).coef = s.coef := rfl
@[simp] theorem State.setPred_hspec (v : Vector Half 3) : (s.setPred v).hspec = s.hspec := rfl
@[simp] theorem State.setPred_ehuf (v : Vector Half 3) : (s.setPred v).ehuf = s.ehuf := rfl
@[simp] theorem State.setPred_mem (v : Vector Half 3) : (s.setPred v).mem = s.mem := rfl
@[simp] theorem State.setPred_bus (v : Vector Half 3) : (s.setPred v).bus = s.bus := rfl
@[simp] theorem State.setPred_reads (v : Vector Half 3) : (s.setPred v).reads = s.reads := rfl

/-! ## setErrCmd -/

@[simp] theorem State.setErrCmd_irqEn (v : Word) : (s.setErrCmd v).irqEn = s.irqEn := rfl
@[simp] theorem State.setErrCmd_status (v : Word) : (s.setErrCmd v).status = s.status := rfl
@[simp] theorem State.setErrCmd_pending (v : Word) : (s.setErrCmd v).pending = s.pending := rfl
@[simp] theorem State.setErrCmd_result (v : Word) : (s.setErrCmd v).result = s.result := rfl
@[simp] theorem State.setErrCmd_inLen (v : Word) : (s.setErrCmd v).inLen = s.inLen := rfl
@[simp] theorem State.setErrCmd_brPos (v : Word) : (s.setErrCmd v).brPos = s.brPos := rfl
@[simp] theorem State.setErrCmd_outLen (v : Word) : (s.setErrCmd v).outLen = s.outLen := rfl
@[simp] theorem State.setErrCmd_ecsLen (v : Word) : (s.setErrCmd v).ecsLen = s.ecsLen := rfl
@[simp] theorem State.setErrCmd_pbits (v : Word) : (s.setErrCmd v).pbits = s.pbits := rfl
@[simp] theorem State.setErrCmd_pred (v : Word) : (s.setErrCmd v).pred = s.pred := rfl
@[simp] theorem State.setErrCmd_errCmd (v : Word) : (s.setErrCmd v).errCmd = v := rfl
@[simp] theorem State.setErrCmd_errPos (v : Word) : (s.setErrCmd v).errPos = s.errPos := rfl
@[simp] theorem State.setErrCmd_inSize (v : Word) : (s.setErrCmd v).inSize = s.inSize := rfl
@[simp] theorem State.setErrCmd_outSize (v : Word) : (s.setErrCmd v).outSize = s.outSize := rfl
@[simp] theorem State.setErrCmd_ecsSize (v : Word) : (s.setErrCmd v).ecsSize = s.ecsSize := rfl
@[simp] theorem State.setErrCmd_lens (v : Word) : (s.setErrCmd v).lens = s.lens := rfl
@[simp] theorem State.setErrCmd_hlen0 (v : Word) : (s.setErrCmd v).hlen0 = s.hlen0 := rfl
@[simp] theorem State.setErrCmd_hlen1 (v : Word) : (s.setErrCmd v).hlen1 = s.hlen1 := rfl
@[simp] theorem State.setErrCmd_hlen2 (v : Word) : (s.setErrCmd v).hlen2 = s.hlen2 := rfl
@[simp] theorem State.setErrCmd_qt0 (v : Word) : (s.setErrCmd v).qt0 = s.qt0 := rfl
@[simp] theorem State.setErrCmd_qt1 (v : Word) : (s.setErrCmd v).qt1 = s.qt1 := rfl
@[simp] theorem State.setErrCmd_blk (v : Word) : (s.setErrCmd v).blk = s.blk := rfl
@[simp] theorem State.setErrCmd_dctbuf (v : Word) : (s.setErrCmd v).dctbuf = s.dctbuf := rfl
@[simp] theorem State.setErrCmd_coef (v : Word) : (s.setErrCmd v).coef = s.coef := rfl
@[simp] theorem State.setErrCmd_hspec (v : Word) : (s.setErrCmd v).hspec = s.hspec := rfl
@[simp] theorem State.setErrCmd_ehuf (v : Word) : (s.setErrCmd v).ehuf = s.ehuf := rfl
@[simp] theorem State.setErrCmd_mem (v : Word) : (s.setErrCmd v).mem = s.mem := rfl
@[simp] theorem State.setErrCmd_bus (v : Word) : (s.setErrCmd v).bus = s.bus := rfl
@[simp] theorem State.setErrCmd_reads (v : Word) : (s.setErrCmd v).reads = s.reads := rfl

/-! ## setErrPos -/

@[simp] theorem State.setErrPos_irqEn (v : Word) : (s.setErrPos v).irqEn = s.irqEn := rfl
@[simp] theorem State.setErrPos_status (v : Word) : (s.setErrPos v).status = s.status := rfl
@[simp] theorem State.setErrPos_pending (v : Word) : (s.setErrPos v).pending = s.pending := rfl
@[simp] theorem State.setErrPos_result (v : Word) : (s.setErrPos v).result = s.result := rfl
@[simp] theorem State.setErrPos_inLen (v : Word) : (s.setErrPos v).inLen = s.inLen := rfl
@[simp] theorem State.setErrPos_brPos (v : Word) : (s.setErrPos v).brPos = s.brPos := rfl
@[simp] theorem State.setErrPos_outLen (v : Word) : (s.setErrPos v).outLen = s.outLen := rfl
@[simp] theorem State.setErrPos_ecsLen (v : Word) : (s.setErrPos v).ecsLen = s.ecsLen := rfl
@[simp] theorem State.setErrPos_pbits (v : Word) : (s.setErrPos v).pbits = s.pbits := rfl
@[simp] theorem State.setErrPos_pred (v : Word) : (s.setErrPos v).pred = s.pred := rfl
@[simp] theorem State.setErrPos_errCmd (v : Word) : (s.setErrPos v).errCmd = s.errCmd := rfl
@[simp] theorem State.setErrPos_errPos (v : Word) : (s.setErrPos v).errPos = v := rfl
@[simp] theorem State.setErrPos_inSize (v : Word) : (s.setErrPos v).inSize = s.inSize := rfl
@[simp] theorem State.setErrPos_outSize (v : Word) : (s.setErrPos v).outSize = s.outSize := rfl
@[simp] theorem State.setErrPos_ecsSize (v : Word) : (s.setErrPos v).ecsSize = s.ecsSize := rfl
@[simp] theorem State.setErrPos_lens (v : Word) : (s.setErrPos v).lens = s.lens := rfl
@[simp] theorem State.setErrPos_hlen0 (v : Word) : (s.setErrPos v).hlen0 = s.hlen0 := rfl
@[simp] theorem State.setErrPos_hlen1 (v : Word) : (s.setErrPos v).hlen1 = s.hlen1 := rfl
@[simp] theorem State.setErrPos_hlen2 (v : Word) : (s.setErrPos v).hlen2 = s.hlen2 := rfl
@[simp] theorem State.setErrPos_qt0 (v : Word) : (s.setErrPos v).qt0 = s.qt0 := rfl
@[simp] theorem State.setErrPos_qt1 (v : Word) : (s.setErrPos v).qt1 = s.qt1 := rfl
@[simp] theorem State.setErrPos_blk (v : Word) : (s.setErrPos v).blk = s.blk := rfl
@[simp] theorem State.setErrPos_dctbuf (v : Word) : (s.setErrPos v).dctbuf = s.dctbuf := rfl
@[simp] theorem State.setErrPos_coef (v : Word) : (s.setErrPos v).coef = s.coef := rfl
@[simp] theorem State.setErrPos_hspec (v : Word) : (s.setErrPos v).hspec = s.hspec := rfl
@[simp] theorem State.setErrPos_ehuf (v : Word) : (s.setErrPos v).ehuf = s.ehuf := rfl
@[simp] theorem State.setErrPos_mem (v : Word) : (s.setErrPos v).mem = s.mem := rfl
@[simp] theorem State.setErrPos_bus (v : Word) : (s.setErrPos v).bus = s.bus := rfl
@[simp] theorem State.setErrPos_reads (v : Word) : (s.setErrPos v).reads = s.reads := rfl

/-! ## setLens -/

@[simp] theorem State.setLens_irqEn (v : Vector Byte 320) : (s.setLens v).irqEn = s.irqEn := rfl
@[simp] theorem State.setLens_status (v : Vector Byte 320) : (s.setLens v).status = s.status := rfl
@[simp] theorem State.setLens_pending (v : Vector Byte 320) : (s.setLens v).pending = s.pending := rfl
@[simp] theorem State.setLens_result (v : Vector Byte 320) : (s.setLens v).result = s.result := rfl
@[simp] theorem State.setLens_inLen (v : Vector Byte 320) : (s.setLens v).inLen = s.inLen := rfl
@[simp] theorem State.setLens_brPos (v : Vector Byte 320) : (s.setLens v).brPos = s.brPos := rfl
@[simp] theorem State.setLens_outLen (v : Vector Byte 320) : (s.setLens v).outLen = s.outLen := rfl
@[simp] theorem State.setLens_ecsLen (v : Vector Byte 320) : (s.setLens v).ecsLen = s.ecsLen := rfl
@[simp] theorem State.setLens_pbits (v : Vector Byte 320) : (s.setLens v).pbits = s.pbits := rfl
@[simp] theorem State.setLens_pred (v : Vector Byte 320) : (s.setLens v).pred = s.pred := rfl
@[simp] theorem State.setLens_errCmd (v : Vector Byte 320) : (s.setLens v).errCmd = s.errCmd := rfl
@[simp] theorem State.setLens_errPos (v : Vector Byte 320) : (s.setLens v).errPos = s.errPos := rfl
@[simp] theorem State.setLens_inSize (v : Vector Byte 320) : (s.setLens v).inSize = s.inSize := rfl
@[simp] theorem State.setLens_outSize (v : Vector Byte 320) : (s.setLens v).outSize = s.outSize := rfl
@[simp] theorem State.setLens_ecsSize (v : Vector Byte 320) : (s.setLens v).ecsSize = s.ecsSize := rfl
@[simp] theorem State.setLens_lens (v : Vector Byte 320) : (s.setLens v).lens = v := rfl
@[simp] theorem State.setLens_hlen0 (v : Vector Byte 320) : (s.setLens v).hlen0 = s.hlen0 := rfl
@[simp] theorem State.setLens_hlen1 (v : Vector Byte 320) : (s.setLens v).hlen1 = s.hlen1 := rfl
@[simp] theorem State.setLens_hlen2 (v : Vector Byte 320) : (s.setLens v).hlen2 = s.hlen2 := rfl
@[simp] theorem State.setLens_qt0 (v : Vector Byte 320) : (s.setLens v).qt0 = s.qt0 := rfl
@[simp] theorem State.setLens_qt1 (v : Vector Byte 320) : (s.setLens v).qt1 = s.qt1 := rfl
@[simp] theorem State.setLens_blk (v : Vector Byte 320) : (s.setLens v).blk = s.blk := rfl
@[simp] theorem State.setLens_dctbuf (v : Vector Byte 320) : (s.setLens v).dctbuf = s.dctbuf := rfl
@[simp] theorem State.setLens_coef (v : Vector Byte 320) : (s.setLens v).coef = s.coef := rfl
@[simp] theorem State.setLens_hspec (v : Vector Byte 320) : (s.setLens v).hspec = s.hspec := rfl
@[simp] theorem State.setLens_ehuf (v : Vector Byte 320) : (s.setLens v).ehuf = s.ehuf := rfl
@[simp] theorem State.setLens_mem (v : Vector Byte 320) : (s.setLens v).mem = s.mem := rfl
@[simp] theorem State.setLens_bus (v : Vector Byte 320) : (s.setLens v).bus = s.bus := rfl
@[simp] theorem State.setLens_reads (v : Vector Byte 320) : (s.setLens v).reads = s.reads := rfl

/-! ## setHlen0 -/

@[simp] theorem State.setHlen0_irqEn (v : Vector (BitVec 4) 288) : (s.setHlen0 v).irqEn = s.irqEn := rfl
@[simp] theorem State.setHlen0_status (v : Vector (BitVec 4) 288) : (s.setHlen0 v).status = s.status := rfl
@[simp] theorem State.setHlen0_pending (v : Vector (BitVec 4) 288) : (s.setHlen0 v).pending = s.pending := rfl
@[simp] theorem State.setHlen0_result (v : Vector (BitVec 4) 288) : (s.setHlen0 v).result = s.result := rfl
@[simp] theorem State.setHlen0_inLen (v : Vector (BitVec 4) 288) : (s.setHlen0 v).inLen = s.inLen := rfl
@[simp] theorem State.setHlen0_brPos (v : Vector (BitVec 4) 288) : (s.setHlen0 v).brPos = s.brPos := rfl
@[simp] theorem State.setHlen0_outLen (v : Vector (BitVec 4) 288) : (s.setHlen0 v).outLen = s.outLen := rfl
@[simp] theorem State.setHlen0_ecsLen (v : Vector (BitVec 4) 288) : (s.setHlen0 v).ecsLen = s.ecsLen := rfl
@[simp] theorem State.setHlen0_pbits (v : Vector (BitVec 4) 288) : (s.setHlen0 v).pbits = s.pbits := rfl
@[simp] theorem State.setHlen0_pred (v : Vector (BitVec 4) 288) : (s.setHlen0 v).pred = s.pred := rfl
@[simp] theorem State.setHlen0_errCmd (v : Vector (BitVec 4) 288) : (s.setHlen0 v).errCmd = s.errCmd := rfl
@[simp] theorem State.setHlen0_errPos (v : Vector (BitVec 4) 288) : (s.setHlen0 v).errPos = s.errPos := rfl
@[simp] theorem State.setHlen0_inSize (v : Vector (BitVec 4) 288) : (s.setHlen0 v).inSize = s.inSize := rfl
@[simp] theorem State.setHlen0_outSize (v : Vector (BitVec 4) 288) : (s.setHlen0 v).outSize = s.outSize := rfl
@[simp] theorem State.setHlen0_ecsSize (v : Vector (BitVec 4) 288) : (s.setHlen0 v).ecsSize = s.ecsSize := rfl
@[simp] theorem State.setHlen0_lens (v : Vector (BitVec 4) 288) : (s.setHlen0 v).lens = s.lens := rfl
@[simp] theorem State.setHlen0_hlen0 (v : Vector (BitVec 4) 288) : (s.setHlen0 v).hlen0 = v := rfl
@[simp] theorem State.setHlen0_hlen1 (v : Vector (BitVec 4) 288) : (s.setHlen0 v).hlen1 = s.hlen1 := rfl
@[simp] theorem State.setHlen0_hlen2 (v : Vector (BitVec 4) 288) : (s.setHlen0 v).hlen2 = s.hlen2 := rfl
@[simp] theorem State.setHlen0_qt0 (v : Vector (BitVec 4) 288) : (s.setHlen0 v).qt0 = s.qt0 := rfl
@[simp] theorem State.setHlen0_qt1 (v : Vector (BitVec 4) 288) : (s.setHlen0 v).qt1 = s.qt1 := rfl
@[simp] theorem State.setHlen0_blk (v : Vector (BitVec 4) 288) : (s.setHlen0 v).blk = s.blk := rfl
@[simp] theorem State.setHlen0_dctbuf (v : Vector (BitVec 4) 288) : (s.setHlen0 v).dctbuf = s.dctbuf := rfl
@[simp] theorem State.setHlen0_coef (v : Vector (BitVec 4) 288) : (s.setHlen0 v).coef = s.coef := rfl
@[simp] theorem State.setHlen0_hspec (v : Vector (BitVec 4) 288) : (s.setHlen0 v).hspec = s.hspec := rfl
@[simp] theorem State.setHlen0_ehuf (v : Vector (BitVec 4) 288) : (s.setHlen0 v).ehuf = s.ehuf := rfl
@[simp] theorem State.setHlen0_mem (v : Vector (BitVec 4) 288) : (s.setHlen0 v).mem = s.mem := rfl
@[simp] theorem State.setHlen0_bus (v : Vector (BitVec 4) 288) : (s.setHlen0 v).bus = s.bus := rfl
@[simp] theorem State.setHlen0_reads (v : Vector (BitVec 4) 288) : (s.setHlen0 v).reads = s.reads := rfl

/-! ## setHlen1 -/

@[simp] theorem State.setHlen1_irqEn (v : Vector (BitVec 4) 32) : (s.setHlen1 v).irqEn = s.irqEn := rfl
@[simp] theorem State.setHlen1_status (v : Vector (BitVec 4) 32) : (s.setHlen1 v).status = s.status := rfl
@[simp] theorem State.setHlen1_pending (v : Vector (BitVec 4) 32) : (s.setHlen1 v).pending = s.pending := rfl
@[simp] theorem State.setHlen1_result (v : Vector (BitVec 4) 32) : (s.setHlen1 v).result = s.result := rfl
@[simp] theorem State.setHlen1_inLen (v : Vector (BitVec 4) 32) : (s.setHlen1 v).inLen = s.inLen := rfl
@[simp] theorem State.setHlen1_brPos (v : Vector (BitVec 4) 32) : (s.setHlen1 v).brPos = s.brPos := rfl
@[simp] theorem State.setHlen1_outLen (v : Vector (BitVec 4) 32) : (s.setHlen1 v).outLen = s.outLen := rfl
@[simp] theorem State.setHlen1_ecsLen (v : Vector (BitVec 4) 32) : (s.setHlen1 v).ecsLen = s.ecsLen := rfl
@[simp] theorem State.setHlen1_pbits (v : Vector (BitVec 4) 32) : (s.setHlen1 v).pbits = s.pbits := rfl
@[simp] theorem State.setHlen1_pred (v : Vector (BitVec 4) 32) : (s.setHlen1 v).pred = s.pred := rfl
@[simp] theorem State.setHlen1_errCmd (v : Vector (BitVec 4) 32) : (s.setHlen1 v).errCmd = s.errCmd := rfl
@[simp] theorem State.setHlen1_errPos (v : Vector (BitVec 4) 32) : (s.setHlen1 v).errPos = s.errPos := rfl
@[simp] theorem State.setHlen1_inSize (v : Vector (BitVec 4) 32) : (s.setHlen1 v).inSize = s.inSize := rfl
@[simp] theorem State.setHlen1_outSize (v : Vector (BitVec 4) 32) : (s.setHlen1 v).outSize = s.outSize := rfl
@[simp] theorem State.setHlen1_ecsSize (v : Vector (BitVec 4) 32) : (s.setHlen1 v).ecsSize = s.ecsSize := rfl
@[simp] theorem State.setHlen1_lens (v : Vector (BitVec 4) 32) : (s.setHlen1 v).lens = s.lens := rfl
@[simp] theorem State.setHlen1_hlen0 (v : Vector (BitVec 4) 32) : (s.setHlen1 v).hlen0 = s.hlen0 := rfl
@[simp] theorem State.setHlen1_hlen1 (v : Vector (BitVec 4) 32) : (s.setHlen1 v).hlen1 = v := rfl
@[simp] theorem State.setHlen1_hlen2 (v : Vector (BitVec 4) 32) : (s.setHlen1 v).hlen2 = s.hlen2 := rfl
@[simp] theorem State.setHlen1_qt0 (v : Vector (BitVec 4) 32) : (s.setHlen1 v).qt0 = s.qt0 := rfl
@[simp] theorem State.setHlen1_qt1 (v : Vector (BitVec 4) 32) : (s.setHlen1 v).qt1 = s.qt1 := rfl
@[simp] theorem State.setHlen1_blk (v : Vector (BitVec 4) 32) : (s.setHlen1 v).blk = s.blk := rfl
@[simp] theorem State.setHlen1_dctbuf (v : Vector (BitVec 4) 32) : (s.setHlen1 v).dctbuf = s.dctbuf := rfl
@[simp] theorem State.setHlen1_coef (v : Vector (BitVec 4) 32) : (s.setHlen1 v).coef = s.coef := rfl
@[simp] theorem State.setHlen1_hspec (v : Vector (BitVec 4) 32) : (s.setHlen1 v).hspec = s.hspec := rfl
@[simp] theorem State.setHlen1_ehuf (v : Vector (BitVec 4) 32) : (s.setHlen1 v).ehuf = s.ehuf := rfl
@[simp] theorem State.setHlen1_mem (v : Vector (BitVec 4) 32) : (s.setHlen1 v).mem = s.mem := rfl
@[simp] theorem State.setHlen1_bus (v : Vector (BitVec 4) 32) : (s.setHlen1 v).bus = s.bus := rfl
@[simp] theorem State.setHlen1_reads (v : Vector (BitVec 4) 32) : (s.setHlen1 v).reads = s.reads := rfl

/-! ## setHlen2 -/

@[simp] theorem State.setHlen2_irqEn (v : Vector (BitVec 4) 19) : (s.setHlen2 v).irqEn = s.irqEn := rfl
@[simp] theorem State.setHlen2_status (v : Vector (BitVec 4) 19) : (s.setHlen2 v).status = s.status := rfl
@[simp] theorem State.setHlen2_pending (v : Vector (BitVec 4) 19) : (s.setHlen2 v).pending = s.pending := rfl
@[simp] theorem State.setHlen2_result (v : Vector (BitVec 4) 19) : (s.setHlen2 v).result = s.result := rfl
@[simp] theorem State.setHlen2_inLen (v : Vector (BitVec 4) 19) : (s.setHlen2 v).inLen = s.inLen := rfl
@[simp] theorem State.setHlen2_brPos (v : Vector (BitVec 4) 19) : (s.setHlen2 v).brPos = s.brPos := rfl
@[simp] theorem State.setHlen2_outLen (v : Vector (BitVec 4) 19) : (s.setHlen2 v).outLen = s.outLen := rfl
@[simp] theorem State.setHlen2_ecsLen (v : Vector (BitVec 4) 19) : (s.setHlen2 v).ecsLen = s.ecsLen := rfl
@[simp] theorem State.setHlen2_pbits (v : Vector (BitVec 4) 19) : (s.setHlen2 v).pbits = s.pbits := rfl
@[simp] theorem State.setHlen2_pred (v : Vector (BitVec 4) 19) : (s.setHlen2 v).pred = s.pred := rfl
@[simp] theorem State.setHlen2_errCmd (v : Vector (BitVec 4) 19) : (s.setHlen2 v).errCmd = s.errCmd := rfl
@[simp] theorem State.setHlen2_errPos (v : Vector (BitVec 4) 19) : (s.setHlen2 v).errPos = s.errPos := rfl
@[simp] theorem State.setHlen2_inSize (v : Vector (BitVec 4) 19) : (s.setHlen2 v).inSize = s.inSize := rfl
@[simp] theorem State.setHlen2_outSize (v : Vector (BitVec 4) 19) : (s.setHlen2 v).outSize = s.outSize := rfl
@[simp] theorem State.setHlen2_ecsSize (v : Vector (BitVec 4) 19) : (s.setHlen2 v).ecsSize = s.ecsSize := rfl
@[simp] theorem State.setHlen2_lens (v : Vector (BitVec 4) 19) : (s.setHlen2 v).lens = s.lens := rfl
@[simp] theorem State.setHlen2_hlen0 (v : Vector (BitVec 4) 19) : (s.setHlen2 v).hlen0 = s.hlen0 := rfl
@[simp] theorem State.setHlen2_hlen1 (v : Vector (BitVec 4) 19) : (s.setHlen2 v).hlen1 = s.hlen1 := rfl
@[simp] theorem State.setHlen2_hlen2 (v : Vector (BitVec 4) 19) : (s.setHlen2 v).hlen2 = v := rfl
@[simp] theorem State.setHlen2_qt0 (v : Vector (BitVec 4) 19) : (s.setHlen2 v).qt0 = s.qt0 := rfl
@[simp] theorem State.setHlen2_qt1 (v : Vector (BitVec 4) 19) : (s.setHlen2 v).qt1 = s.qt1 := rfl
@[simp] theorem State.setHlen2_blk (v : Vector (BitVec 4) 19) : (s.setHlen2 v).blk = s.blk := rfl
@[simp] theorem State.setHlen2_dctbuf (v : Vector (BitVec 4) 19) : (s.setHlen2 v).dctbuf = s.dctbuf := rfl
@[simp] theorem State.setHlen2_coef (v : Vector (BitVec 4) 19) : (s.setHlen2 v).coef = s.coef := rfl
@[simp] theorem State.setHlen2_hspec (v : Vector (BitVec 4) 19) : (s.setHlen2 v).hspec = s.hspec := rfl
@[simp] theorem State.setHlen2_ehuf (v : Vector (BitVec 4) 19) : (s.setHlen2 v).ehuf = s.ehuf := rfl
@[simp] theorem State.setHlen2_mem (v : Vector (BitVec 4) 19) : (s.setHlen2 v).mem = s.mem := rfl
@[simp] theorem State.setHlen2_bus (v : Vector (BitVec 4) 19) : (s.setHlen2 v).bus = s.bus := rfl
@[simp] theorem State.setHlen2_reads (v : Vector (BitVec 4) 19) : (s.setHlen2 v).reads = s.reads := rfl

/-! ## setQt0 -/

@[simp] theorem State.setQt0_irqEn (v : QTable) : (s.setQt0 v).irqEn = s.irqEn := rfl
@[simp] theorem State.setQt0_status (v : QTable) : (s.setQt0 v).status = s.status := rfl
@[simp] theorem State.setQt0_pending (v : QTable) : (s.setQt0 v).pending = s.pending := rfl
@[simp] theorem State.setQt0_result (v : QTable) : (s.setQt0 v).result = s.result := rfl
@[simp] theorem State.setQt0_inLen (v : QTable) : (s.setQt0 v).inLen = s.inLen := rfl
@[simp] theorem State.setQt0_brPos (v : QTable) : (s.setQt0 v).brPos = s.brPos := rfl
@[simp] theorem State.setQt0_outLen (v : QTable) : (s.setQt0 v).outLen = s.outLen := rfl
@[simp] theorem State.setQt0_ecsLen (v : QTable) : (s.setQt0 v).ecsLen = s.ecsLen := rfl
@[simp] theorem State.setQt0_pbits (v : QTable) : (s.setQt0 v).pbits = s.pbits := rfl
@[simp] theorem State.setQt0_pred (v : QTable) : (s.setQt0 v).pred = s.pred := rfl
@[simp] theorem State.setQt0_errCmd (v : QTable) : (s.setQt0 v).errCmd = s.errCmd := rfl
@[simp] theorem State.setQt0_errPos (v : QTable) : (s.setQt0 v).errPos = s.errPos := rfl
@[simp] theorem State.setQt0_inSize (v : QTable) : (s.setQt0 v).inSize = s.inSize := rfl
@[simp] theorem State.setQt0_outSize (v : QTable) : (s.setQt0 v).outSize = s.outSize := rfl
@[simp] theorem State.setQt0_ecsSize (v : QTable) : (s.setQt0 v).ecsSize = s.ecsSize := rfl
@[simp] theorem State.setQt0_lens (v : QTable) : (s.setQt0 v).lens = s.lens := rfl
@[simp] theorem State.setQt0_hlen0 (v : QTable) : (s.setQt0 v).hlen0 = s.hlen0 := rfl
@[simp] theorem State.setQt0_hlen1 (v : QTable) : (s.setQt0 v).hlen1 = s.hlen1 := rfl
@[simp] theorem State.setQt0_hlen2 (v : QTable) : (s.setQt0 v).hlen2 = s.hlen2 := rfl
@[simp] theorem State.setQt0_qt0 (v : QTable) : (s.setQt0 v).qt0 = v := rfl
@[simp] theorem State.setQt0_qt1 (v : QTable) : (s.setQt0 v).qt1 = s.qt1 := rfl
@[simp] theorem State.setQt0_blk (v : QTable) : (s.setQt0 v).blk = s.blk := rfl
@[simp] theorem State.setQt0_dctbuf (v : QTable) : (s.setQt0 v).dctbuf = s.dctbuf := rfl
@[simp] theorem State.setQt0_coef (v : QTable) : (s.setQt0 v).coef = s.coef := rfl
@[simp] theorem State.setQt0_hspec (v : QTable) : (s.setQt0 v).hspec = s.hspec := rfl
@[simp] theorem State.setQt0_ehuf (v : QTable) : (s.setQt0 v).ehuf = s.ehuf := rfl
@[simp] theorem State.setQt0_mem (v : QTable) : (s.setQt0 v).mem = s.mem := rfl
@[simp] theorem State.setQt0_bus (v : QTable) : (s.setQt0 v).bus = s.bus := rfl
@[simp] theorem State.setQt0_reads (v : QTable) : (s.setQt0 v).reads = s.reads := rfl

/-! ## setQt1 -/

@[simp] theorem State.setQt1_irqEn (v : QTable) : (s.setQt1 v).irqEn = s.irqEn := rfl
@[simp] theorem State.setQt1_status (v : QTable) : (s.setQt1 v).status = s.status := rfl
@[simp] theorem State.setQt1_pending (v : QTable) : (s.setQt1 v).pending = s.pending := rfl
@[simp] theorem State.setQt1_result (v : QTable) : (s.setQt1 v).result = s.result := rfl
@[simp] theorem State.setQt1_inLen (v : QTable) : (s.setQt1 v).inLen = s.inLen := rfl
@[simp] theorem State.setQt1_brPos (v : QTable) : (s.setQt1 v).brPos = s.brPos := rfl
@[simp] theorem State.setQt1_outLen (v : QTable) : (s.setQt1 v).outLen = s.outLen := rfl
@[simp] theorem State.setQt1_ecsLen (v : QTable) : (s.setQt1 v).ecsLen = s.ecsLen := rfl
@[simp] theorem State.setQt1_pbits (v : QTable) : (s.setQt1 v).pbits = s.pbits := rfl
@[simp] theorem State.setQt1_pred (v : QTable) : (s.setQt1 v).pred = s.pred := rfl
@[simp] theorem State.setQt1_errCmd (v : QTable) : (s.setQt1 v).errCmd = s.errCmd := rfl
@[simp] theorem State.setQt1_errPos (v : QTable) : (s.setQt1 v).errPos = s.errPos := rfl
@[simp] theorem State.setQt1_inSize (v : QTable) : (s.setQt1 v).inSize = s.inSize := rfl
@[simp] theorem State.setQt1_outSize (v : QTable) : (s.setQt1 v).outSize = s.outSize := rfl
@[simp] theorem State.setQt1_ecsSize (v : QTable) : (s.setQt1 v).ecsSize = s.ecsSize := rfl
@[simp] theorem State.setQt1_lens (v : QTable) : (s.setQt1 v).lens = s.lens := rfl
@[simp] theorem State.setQt1_hlen0 (v : QTable) : (s.setQt1 v).hlen0 = s.hlen0 := rfl
@[simp] theorem State.setQt1_hlen1 (v : QTable) : (s.setQt1 v).hlen1 = s.hlen1 := rfl
@[simp] theorem State.setQt1_hlen2 (v : QTable) : (s.setQt1 v).hlen2 = s.hlen2 := rfl
@[simp] theorem State.setQt1_qt0 (v : QTable) : (s.setQt1 v).qt0 = s.qt0 := rfl
@[simp] theorem State.setQt1_qt1 (v : QTable) : (s.setQt1 v).qt1 = v := rfl
@[simp] theorem State.setQt1_blk (v : QTable) : (s.setQt1 v).blk = s.blk := rfl
@[simp] theorem State.setQt1_dctbuf (v : QTable) : (s.setQt1 v).dctbuf = s.dctbuf := rfl
@[simp] theorem State.setQt1_coef (v : QTable) : (s.setQt1 v).coef = s.coef := rfl
@[simp] theorem State.setQt1_hspec (v : QTable) : (s.setQt1 v).hspec = s.hspec := rfl
@[simp] theorem State.setQt1_ehuf (v : QTable) : (s.setQt1 v).ehuf = s.ehuf := rfl
@[simp] theorem State.setQt1_mem (v : QTable) : (s.setQt1 v).mem = s.mem := rfl
@[simp] theorem State.setQt1_bus (v : QTable) : (s.setQt1 v).bus = s.bus := rfl
@[simp] theorem State.setQt1_reads (v : QTable) : (s.setQt1 v).reads = s.reads := rfl

/-! ## setBlk -/

@[simp] theorem State.setBlk_irqEn (v : Vector Byte 64) : (s.setBlk v).irqEn = s.irqEn := rfl
@[simp] theorem State.setBlk_status (v : Vector Byte 64) : (s.setBlk v).status = s.status := rfl
@[simp] theorem State.setBlk_pending (v : Vector Byte 64) : (s.setBlk v).pending = s.pending := rfl
@[simp] theorem State.setBlk_result (v : Vector Byte 64) : (s.setBlk v).result = s.result := rfl
@[simp] theorem State.setBlk_inLen (v : Vector Byte 64) : (s.setBlk v).inLen = s.inLen := rfl
@[simp] theorem State.setBlk_brPos (v : Vector Byte 64) : (s.setBlk v).brPos = s.brPos := rfl
@[simp] theorem State.setBlk_outLen (v : Vector Byte 64) : (s.setBlk v).outLen = s.outLen := rfl
@[simp] theorem State.setBlk_ecsLen (v : Vector Byte 64) : (s.setBlk v).ecsLen = s.ecsLen := rfl
@[simp] theorem State.setBlk_pbits (v : Vector Byte 64) : (s.setBlk v).pbits = s.pbits := rfl
@[simp] theorem State.setBlk_pred (v : Vector Byte 64) : (s.setBlk v).pred = s.pred := rfl
@[simp] theorem State.setBlk_errCmd (v : Vector Byte 64) : (s.setBlk v).errCmd = s.errCmd := rfl
@[simp] theorem State.setBlk_errPos (v : Vector Byte 64) : (s.setBlk v).errPos = s.errPos := rfl
@[simp] theorem State.setBlk_inSize (v : Vector Byte 64) : (s.setBlk v).inSize = s.inSize := rfl
@[simp] theorem State.setBlk_outSize (v : Vector Byte 64) : (s.setBlk v).outSize = s.outSize := rfl
@[simp] theorem State.setBlk_ecsSize (v : Vector Byte 64) : (s.setBlk v).ecsSize = s.ecsSize := rfl
@[simp] theorem State.setBlk_lens (v : Vector Byte 64) : (s.setBlk v).lens = s.lens := rfl
@[simp] theorem State.setBlk_hlen0 (v : Vector Byte 64) : (s.setBlk v).hlen0 = s.hlen0 := rfl
@[simp] theorem State.setBlk_hlen1 (v : Vector Byte 64) : (s.setBlk v).hlen1 = s.hlen1 := rfl
@[simp] theorem State.setBlk_hlen2 (v : Vector Byte 64) : (s.setBlk v).hlen2 = s.hlen2 := rfl
@[simp] theorem State.setBlk_qt0 (v : Vector Byte 64) : (s.setBlk v).qt0 = s.qt0 := rfl
@[simp] theorem State.setBlk_qt1 (v : Vector Byte 64) : (s.setBlk v).qt1 = s.qt1 := rfl
@[simp] theorem State.setBlk_blk (v : Vector Byte 64) : (s.setBlk v).blk = v := rfl
@[simp] theorem State.setBlk_dctbuf (v : Vector Byte 64) : (s.setBlk v).dctbuf = s.dctbuf := rfl
@[simp] theorem State.setBlk_coef (v : Vector Byte 64) : (s.setBlk v).coef = s.coef := rfl
@[simp] theorem State.setBlk_hspec (v : Vector Byte 64) : (s.setBlk v).hspec = s.hspec := rfl
@[simp] theorem State.setBlk_ehuf (v : Vector Byte 64) : (s.setBlk v).ehuf = s.ehuf := rfl
@[simp] theorem State.setBlk_mem (v : Vector Byte 64) : (s.setBlk v).mem = s.mem := rfl
@[simp] theorem State.setBlk_bus (v : Vector Byte 64) : (s.setBlk v).bus = s.bus := rfl
@[simp] theorem State.setBlk_reads (v : Vector Byte 64) : (s.setBlk v).reads = s.reads := rfl

/-! ## setDctbuf -/

@[simp] theorem State.setDctbuf_irqEn (v : Vector F32 64) : (s.setDctbuf v).irqEn = s.irqEn := rfl
@[simp] theorem State.setDctbuf_status (v : Vector F32 64) : (s.setDctbuf v).status = s.status := rfl
@[simp] theorem State.setDctbuf_pending (v : Vector F32 64) : (s.setDctbuf v).pending = s.pending := rfl
@[simp] theorem State.setDctbuf_result (v : Vector F32 64) : (s.setDctbuf v).result = s.result := rfl
@[simp] theorem State.setDctbuf_inLen (v : Vector F32 64) : (s.setDctbuf v).inLen = s.inLen := rfl
@[simp] theorem State.setDctbuf_brPos (v : Vector F32 64) : (s.setDctbuf v).brPos = s.brPos := rfl
@[simp] theorem State.setDctbuf_outLen (v : Vector F32 64) : (s.setDctbuf v).outLen = s.outLen := rfl
@[simp] theorem State.setDctbuf_ecsLen (v : Vector F32 64) : (s.setDctbuf v).ecsLen = s.ecsLen := rfl
@[simp] theorem State.setDctbuf_pbits (v : Vector F32 64) : (s.setDctbuf v).pbits = s.pbits := rfl
@[simp] theorem State.setDctbuf_pred (v : Vector F32 64) : (s.setDctbuf v).pred = s.pred := rfl
@[simp] theorem State.setDctbuf_errCmd (v : Vector F32 64) : (s.setDctbuf v).errCmd = s.errCmd := rfl
@[simp] theorem State.setDctbuf_errPos (v : Vector F32 64) : (s.setDctbuf v).errPos = s.errPos := rfl
@[simp] theorem State.setDctbuf_inSize (v : Vector F32 64) : (s.setDctbuf v).inSize = s.inSize := rfl
@[simp] theorem State.setDctbuf_outSize (v : Vector F32 64) : (s.setDctbuf v).outSize = s.outSize := rfl
@[simp] theorem State.setDctbuf_ecsSize (v : Vector F32 64) : (s.setDctbuf v).ecsSize = s.ecsSize := rfl
@[simp] theorem State.setDctbuf_lens (v : Vector F32 64) : (s.setDctbuf v).lens = s.lens := rfl
@[simp] theorem State.setDctbuf_hlen0 (v : Vector F32 64) : (s.setDctbuf v).hlen0 = s.hlen0 := rfl
@[simp] theorem State.setDctbuf_hlen1 (v : Vector F32 64) : (s.setDctbuf v).hlen1 = s.hlen1 := rfl
@[simp] theorem State.setDctbuf_hlen2 (v : Vector F32 64) : (s.setDctbuf v).hlen2 = s.hlen2 := rfl
@[simp] theorem State.setDctbuf_qt0 (v : Vector F32 64) : (s.setDctbuf v).qt0 = s.qt0 := rfl
@[simp] theorem State.setDctbuf_qt1 (v : Vector F32 64) : (s.setDctbuf v).qt1 = s.qt1 := rfl
@[simp] theorem State.setDctbuf_blk (v : Vector F32 64) : (s.setDctbuf v).blk = s.blk := rfl
@[simp] theorem State.setDctbuf_dctbuf (v : Vector F32 64) : (s.setDctbuf v).dctbuf = v := rfl
@[simp] theorem State.setDctbuf_coef (v : Vector F32 64) : (s.setDctbuf v).coef = s.coef := rfl
@[simp] theorem State.setDctbuf_hspec (v : Vector F32 64) : (s.setDctbuf v).hspec = s.hspec := rfl
@[simp] theorem State.setDctbuf_ehuf (v : Vector F32 64) : (s.setDctbuf v).ehuf = s.ehuf := rfl
@[simp] theorem State.setDctbuf_mem (v : Vector F32 64) : (s.setDctbuf v).mem = s.mem := rfl
@[simp] theorem State.setDctbuf_bus (v : Vector F32 64) : (s.setDctbuf v).bus = s.bus := rfl
@[simp] theorem State.setDctbuf_reads (v : Vector F32 64) : (s.setDctbuf v).reads = s.reads := rfl

/-! ## setCoef -/

@[simp] theorem State.setCoef_irqEn (v : Vector Half 64) : (s.setCoef v).irqEn = s.irqEn := rfl
@[simp] theorem State.setCoef_status (v : Vector Half 64) : (s.setCoef v).status = s.status := rfl
@[simp] theorem State.setCoef_pending (v : Vector Half 64) : (s.setCoef v).pending = s.pending := rfl
@[simp] theorem State.setCoef_result (v : Vector Half 64) : (s.setCoef v).result = s.result := rfl
@[simp] theorem State.setCoef_inLen (v : Vector Half 64) : (s.setCoef v).inLen = s.inLen := rfl
@[simp] theorem State.setCoef_brPos (v : Vector Half 64) : (s.setCoef v).brPos = s.brPos := rfl
@[simp] theorem State.setCoef_outLen (v : Vector Half 64) : (s.setCoef v).outLen = s.outLen := rfl
@[simp] theorem State.setCoef_ecsLen (v : Vector Half 64) : (s.setCoef v).ecsLen = s.ecsLen := rfl
@[simp] theorem State.setCoef_pbits (v : Vector Half 64) : (s.setCoef v).pbits = s.pbits := rfl
@[simp] theorem State.setCoef_pred (v : Vector Half 64) : (s.setCoef v).pred = s.pred := rfl
@[simp] theorem State.setCoef_errCmd (v : Vector Half 64) : (s.setCoef v).errCmd = s.errCmd := rfl
@[simp] theorem State.setCoef_errPos (v : Vector Half 64) : (s.setCoef v).errPos = s.errPos := rfl
@[simp] theorem State.setCoef_inSize (v : Vector Half 64) : (s.setCoef v).inSize = s.inSize := rfl
@[simp] theorem State.setCoef_outSize (v : Vector Half 64) : (s.setCoef v).outSize = s.outSize := rfl
@[simp] theorem State.setCoef_ecsSize (v : Vector Half 64) : (s.setCoef v).ecsSize = s.ecsSize := rfl
@[simp] theorem State.setCoef_lens (v : Vector Half 64) : (s.setCoef v).lens = s.lens := rfl
@[simp] theorem State.setCoef_hlen0 (v : Vector Half 64) : (s.setCoef v).hlen0 = s.hlen0 := rfl
@[simp] theorem State.setCoef_hlen1 (v : Vector Half 64) : (s.setCoef v).hlen1 = s.hlen1 := rfl
@[simp] theorem State.setCoef_hlen2 (v : Vector Half 64) : (s.setCoef v).hlen2 = s.hlen2 := rfl
@[simp] theorem State.setCoef_qt0 (v : Vector Half 64) : (s.setCoef v).qt0 = s.qt0 := rfl
@[simp] theorem State.setCoef_qt1 (v : Vector Half 64) : (s.setCoef v).qt1 = s.qt1 := rfl
@[simp] theorem State.setCoef_blk (v : Vector Half 64) : (s.setCoef v).blk = s.blk := rfl
@[simp] theorem State.setCoef_dctbuf (v : Vector Half 64) : (s.setCoef v).dctbuf = s.dctbuf := rfl
@[simp] theorem State.setCoef_coef (v : Vector Half 64) : (s.setCoef v).coef = v := rfl
@[simp] theorem State.setCoef_hspec (v : Vector Half 64) : (s.setCoef v).hspec = s.hspec := rfl
@[simp] theorem State.setCoef_ehuf (v : Vector Half 64) : (s.setCoef v).ehuf = s.ehuf := rfl
@[simp] theorem State.setCoef_mem (v : Vector Half 64) : (s.setCoef v).mem = s.mem := rfl
@[simp] theorem State.setCoef_bus (v : Vector Half 64) : (s.setCoef v).bus = s.bus := rfl
@[simp] theorem State.setCoef_reads (v : Vector Half 64) : (s.setCoef v).reads = s.reads := rfl

/-! ## setHspec -/

@[simp] theorem State.setHspec_irqEn (v : Vector HSpec 4) : (s.setHspec v).irqEn = s.irqEn := rfl
@[simp] theorem State.setHspec_status (v : Vector HSpec 4) : (s.setHspec v).status = s.status := rfl
@[simp] theorem State.setHspec_pending (v : Vector HSpec 4) : (s.setHspec v).pending = s.pending := rfl
@[simp] theorem State.setHspec_result (v : Vector HSpec 4) : (s.setHspec v).result = s.result := rfl
@[simp] theorem State.setHspec_inLen (v : Vector HSpec 4) : (s.setHspec v).inLen = s.inLen := rfl
@[simp] theorem State.setHspec_brPos (v : Vector HSpec 4) : (s.setHspec v).brPos = s.brPos := rfl
@[simp] theorem State.setHspec_outLen (v : Vector HSpec 4) : (s.setHspec v).outLen = s.outLen := rfl
@[simp] theorem State.setHspec_ecsLen (v : Vector HSpec 4) : (s.setHspec v).ecsLen = s.ecsLen := rfl
@[simp] theorem State.setHspec_pbits (v : Vector HSpec 4) : (s.setHspec v).pbits = s.pbits := rfl
@[simp] theorem State.setHspec_pred (v : Vector HSpec 4) : (s.setHspec v).pred = s.pred := rfl
@[simp] theorem State.setHspec_errCmd (v : Vector HSpec 4) : (s.setHspec v).errCmd = s.errCmd := rfl
@[simp] theorem State.setHspec_errPos (v : Vector HSpec 4) : (s.setHspec v).errPos = s.errPos := rfl
@[simp] theorem State.setHspec_inSize (v : Vector HSpec 4) : (s.setHspec v).inSize = s.inSize := rfl
@[simp] theorem State.setHspec_outSize (v : Vector HSpec 4) : (s.setHspec v).outSize = s.outSize := rfl
@[simp] theorem State.setHspec_ecsSize (v : Vector HSpec 4) : (s.setHspec v).ecsSize = s.ecsSize := rfl
@[simp] theorem State.setHspec_lens (v : Vector HSpec 4) : (s.setHspec v).lens = s.lens := rfl
@[simp] theorem State.setHspec_hlen0 (v : Vector HSpec 4) : (s.setHspec v).hlen0 = s.hlen0 := rfl
@[simp] theorem State.setHspec_hlen1 (v : Vector HSpec 4) : (s.setHspec v).hlen1 = s.hlen1 := rfl
@[simp] theorem State.setHspec_hlen2 (v : Vector HSpec 4) : (s.setHspec v).hlen2 = s.hlen2 := rfl
@[simp] theorem State.setHspec_qt0 (v : Vector HSpec 4) : (s.setHspec v).qt0 = s.qt0 := rfl
@[simp] theorem State.setHspec_qt1 (v : Vector HSpec 4) : (s.setHspec v).qt1 = s.qt1 := rfl
@[simp] theorem State.setHspec_blk (v : Vector HSpec 4) : (s.setHspec v).blk = s.blk := rfl
@[simp] theorem State.setHspec_dctbuf (v : Vector HSpec 4) : (s.setHspec v).dctbuf = s.dctbuf := rfl
@[simp] theorem State.setHspec_coef (v : Vector HSpec 4) : (s.setHspec v).coef = s.coef := rfl
@[simp] theorem State.setHspec_hspec (v : Vector HSpec 4) : (s.setHspec v).hspec = v := rfl
@[simp] theorem State.setHspec_ehuf (v : Vector HSpec 4) : (s.setHspec v).ehuf = s.ehuf := rfl
@[simp] theorem State.setHspec_mem (v : Vector HSpec 4) : (s.setHspec v).mem = s.mem := rfl
@[simp] theorem State.setHspec_bus (v : Vector HSpec 4) : (s.setHspec v).bus = s.bus := rfl
@[simp] theorem State.setHspec_reads (v : Vector HSpec 4) : (s.setHspec v).reads = s.reads := rfl

/-! ## setEhuf -/

@[simp] theorem State.setEhuf_irqEn (v : Vector EHufTable 4) : (s.setEhuf v).irqEn = s.irqEn := rfl
@[simp] theorem State.setEhuf_status (v : Vector EHufTable 4) : (s.setEhuf v).status = s.status := rfl
@[simp] theorem State.setEhuf_pending (v : Vector EHufTable 4) : (s.setEhuf v).pending = s.pending := rfl
@[simp] theorem State.setEhuf_result (v : Vector EHufTable 4) : (s.setEhuf v).result = s.result := rfl
@[simp] theorem State.setEhuf_inLen (v : Vector EHufTable 4) : (s.setEhuf v).inLen = s.inLen := rfl
@[simp] theorem State.setEhuf_brPos (v : Vector EHufTable 4) : (s.setEhuf v).brPos = s.brPos := rfl
@[simp] theorem State.setEhuf_outLen (v : Vector EHufTable 4) : (s.setEhuf v).outLen = s.outLen := rfl
@[simp] theorem State.setEhuf_ecsLen (v : Vector EHufTable 4) : (s.setEhuf v).ecsLen = s.ecsLen := rfl
@[simp] theorem State.setEhuf_pbits (v : Vector EHufTable 4) : (s.setEhuf v).pbits = s.pbits := rfl
@[simp] theorem State.setEhuf_pred (v : Vector EHufTable 4) : (s.setEhuf v).pred = s.pred := rfl
@[simp] theorem State.setEhuf_errCmd (v : Vector EHufTable 4) : (s.setEhuf v).errCmd = s.errCmd := rfl
@[simp] theorem State.setEhuf_errPos (v : Vector EHufTable 4) : (s.setEhuf v).errPos = s.errPos := rfl
@[simp] theorem State.setEhuf_inSize (v : Vector EHufTable 4) : (s.setEhuf v).inSize = s.inSize := rfl
@[simp] theorem State.setEhuf_outSize (v : Vector EHufTable 4) : (s.setEhuf v).outSize = s.outSize := rfl
@[simp] theorem State.setEhuf_ecsSize (v : Vector EHufTable 4) : (s.setEhuf v).ecsSize = s.ecsSize := rfl
@[simp] theorem State.setEhuf_lens (v : Vector EHufTable 4) : (s.setEhuf v).lens = s.lens := rfl
@[simp] theorem State.setEhuf_hlen0 (v : Vector EHufTable 4) : (s.setEhuf v).hlen0 = s.hlen0 := rfl
@[simp] theorem State.setEhuf_hlen1 (v : Vector EHufTable 4) : (s.setEhuf v).hlen1 = s.hlen1 := rfl
@[simp] theorem State.setEhuf_hlen2 (v : Vector EHufTable 4) : (s.setEhuf v).hlen2 = s.hlen2 := rfl
@[simp] theorem State.setEhuf_qt0 (v : Vector EHufTable 4) : (s.setEhuf v).qt0 = s.qt0 := rfl
@[simp] theorem State.setEhuf_qt1 (v : Vector EHufTable 4) : (s.setEhuf v).qt1 = s.qt1 := rfl
@[simp] theorem State.setEhuf_blk (v : Vector EHufTable 4) : (s.setEhuf v).blk = s.blk := rfl
@[simp] theorem State.setEhuf_dctbuf (v : Vector EHufTable 4) : (s.setEhuf v).dctbuf = s.dctbuf := rfl
@[simp] theorem State.setEhuf_coef (v : Vector EHufTable 4) : (s.setEhuf v).coef = s.coef := rfl
@[simp] theorem State.setEhuf_hspec (v : Vector EHufTable 4) : (s.setEhuf v).hspec = s.hspec := rfl
@[simp] theorem State.setEhuf_ehuf (v : Vector EHufTable 4) : (s.setEhuf v).ehuf = v := rfl
@[simp] theorem State.setEhuf_mem (v : Vector EHufTable 4) : (s.setEhuf v).mem = s.mem := rfl
@[simp] theorem State.setEhuf_bus (v : Vector EHufTable 4) : (s.setEhuf v).bus = s.bus := rfl
@[simp] theorem State.setEhuf_reads (v : Vector EHufTable 4) : (s.setEhuf v).reads = s.reads := rfl

/-! ## setMem -/

@[simp] theorem State.setMem_irqEn (v : Memory) : (s.setMem v).irqEn = s.irqEn := rfl
@[simp] theorem State.setMem_status (v : Memory) : (s.setMem v).status = s.status := rfl
@[simp] theorem State.setMem_pending (v : Memory) : (s.setMem v).pending = s.pending := rfl
@[simp] theorem State.setMem_result (v : Memory) : (s.setMem v).result = s.result := rfl
@[simp] theorem State.setMem_inLen (v : Memory) : (s.setMem v).inLen = s.inLen := rfl
@[simp] theorem State.setMem_brPos (v : Memory) : (s.setMem v).brPos = s.brPos := rfl
@[simp] theorem State.setMem_outLen (v : Memory) : (s.setMem v).outLen = s.outLen := rfl
@[simp] theorem State.setMem_ecsLen (v : Memory) : (s.setMem v).ecsLen = s.ecsLen := rfl
@[simp] theorem State.setMem_pbits (v : Memory) : (s.setMem v).pbits = s.pbits := rfl
@[simp] theorem State.setMem_pred (v : Memory) : (s.setMem v).pred = s.pred := rfl
@[simp] theorem State.setMem_errCmd (v : Memory) : (s.setMem v).errCmd = s.errCmd := rfl
@[simp] theorem State.setMem_errPos (v : Memory) : (s.setMem v).errPos = s.errPos := rfl
@[simp] theorem State.setMem_inSize (v : Memory) : (s.setMem v).inSize = s.inSize := rfl
@[simp] theorem State.setMem_outSize (v : Memory) : (s.setMem v).outSize = s.outSize := rfl
@[simp] theorem State.setMem_ecsSize (v : Memory) : (s.setMem v).ecsSize = s.ecsSize := rfl
@[simp] theorem State.setMem_lens (v : Memory) : (s.setMem v).lens = s.lens := rfl
@[simp] theorem State.setMem_hlen0 (v : Memory) : (s.setMem v).hlen0 = s.hlen0 := rfl
@[simp] theorem State.setMem_hlen1 (v : Memory) : (s.setMem v).hlen1 = s.hlen1 := rfl
@[simp] theorem State.setMem_hlen2 (v : Memory) : (s.setMem v).hlen2 = s.hlen2 := rfl
@[simp] theorem State.setMem_qt0 (v : Memory) : (s.setMem v).qt0 = s.qt0 := rfl
@[simp] theorem State.setMem_qt1 (v : Memory) : (s.setMem v).qt1 = s.qt1 := rfl
@[simp] theorem State.setMem_blk (v : Memory) : (s.setMem v).blk = s.blk := rfl
@[simp] theorem State.setMem_dctbuf (v : Memory) : (s.setMem v).dctbuf = s.dctbuf := rfl
@[simp] theorem State.setMem_coef (v : Memory) : (s.setMem v).coef = s.coef := rfl
@[simp] theorem State.setMem_hspec (v : Memory) : (s.setMem v).hspec = s.hspec := rfl
@[simp] theorem State.setMem_ehuf (v : Memory) : (s.setMem v).ehuf = s.ehuf := rfl
@[simp] theorem State.setMem_mem (v : Memory) : (s.setMem v).mem = v := rfl
@[simp] theorem State.setMem_bus (v : Memory) : (s.setMem v).bus = s.bus := rfl
@[simp] theorem State.setMem_reads (v : Memory) : (s.setMem v).reads = s.reads := rfl

/-! ## setBus -/

@[simp] theorem State.setBus_irqEn (v : List BusEvent) : (s.setBus v).irqEn = s.irqEn := rfl
@[simp] theorem State.setBus_status (v : List BusEvent) : (s.setBus v).status = s.status := rfl
@[simp] theorem State.setBus_pending (v : List BusEvent) : (s.setBus v).pending = s.pending := rfl
@[simp] theorem State.setBus_result (v : List BusEvent) : (s.setBus v).result = s.result := rfl
@[simp] theorem State.setBus_inLen (v : List BusEvent) : (s.setBus v).inLen = s.inLen := rfl
@[simp] theorem State.setBus_brPos (v : List BusEvent) : (s.setBus v).brPos = s.brPos := rfl
@[simp] theorem State.setBus_outLen (v : List BusEvent) : (s.setBus v).outLen = s.outLen := rfl
@[simp] theorem State.setBus_ecsLen (v : List BusEvent) : (s.setBus v).ecsLen = s.ecsLen := rfl
@[simp] theorem State.setBus_pbits (v : List BusEvent) : (s.setBus v).pbits = s.pbits := rfl
@[simp] theorem State.setBus_pred (v : List BusEvent) : (s.setBus v).pred = s.pred := rfl
@[simp] theorem State.setBus_errCmd (v : List BusEvent) : (s.setBus v).errCmd = s.errCmd := rfl
@[simp] theorem State.setBus_errPos (v : List BusEvent) : (s.setBus v).errPos = s.errPos := rfl
@[simp] theorem State.setBus_inSize (v : List BusEvent) : (s.setBus v).inSize = s.inSize := rfl
@[simp] theorem State.setBus_outSize (v : List BusEvent) : (s.setBus v).outSize = s.outSize := rfl
@[simp] theorem State.setBus_ecsSize (v : List BusEvent) : (s.setBus v).ecsSize = s.ecsSize := rfl
@[simp] theorem State.setBus_lens (v : List BusEvent) : (s.setBus v).lens = s.lens := rfl
@[simp] theorem State.setBus_hlen0 (v : List BusEvent) : (s.setBus v).hlen0 = s.hlen0 := rfl
@[simp] theorem State.setBus_hlen1 (v : List BusEvent) : (s.setBus v).hlen1 = s.hlen1 := rfl
@[simp] theorem State.setBus_hlen2 (v : List BusEvent) : (s.setBus v).hlen2 = s.hlen2 := rfl
@[simp] theorem State.setBus_qt0 (v : List BusEvent) : (s.setBus v).qt0 = s.qt0 := rfl
@[simp] theorem State.setBus_qt1 (v : List BusEvent) : (s.setBus v).qt1 = s.qt1 := rfl
@[simp] theorem State.setBus_blk (v : List BusEvent) : (s.setBus v).blk = s.blk := rfl
@[simp] theorem State.setBus_dctbuf (v : List BusEvent) : (s.setBus v).dctbuf = s.dctbuf := rfl
@[simp] theorem State.setBus_coef (v : List BusEvent) : (s.setBus v).coef = s.coef := rfl
@[simp] theorem State.setBus_hspec (v : List BusEvent) : (s.setBus v).hspec = s.hspec := rfl
@[simp] theorem State.setBus_ehuf (v : List BusEvent) : (s.setBus v).ehuf = s.ehuf := rfl
@[simp] theorem State.setBus_mem (v : List BusEvent) : (s.setBus v).mem = s.mem := rfl
@[simp] theorem State.setBus_bus (v : List BusEvent) : (s.setBus v).bus = v := rfl
@[simp] theorem State.setBus_reads (v : List BusEvent) : (s.setBus v).reads = s.reads := rfl

/-! ## setReads -/

@[simp] theorem State.setReads_irqEn (v : List Word) : (s.setReads v).irqEn = s.irqEn := rfl
@[simp] theorem State.setReads_status (v : List Word) : (s.setReads v).status = s.status := rfl
@[simp] theorem State.setReads_pending (v : List Word) : (s.setReads v).pending = s.pending := rfl
@[simp] theorem State.setReads_result (v : List Word) : (s.setReads v).result = s.result := rfl
@[simp] theorem State.setReads_inLen (v : List Word) : (s.setReads v).inLen = s.inLen := rfl
@[simp] theorem State.setReads_brPos (v : List Word) : (s.setReads v).brPos = s.brPos := rfl
@[simp] theorem State.setReads_outLen (v : List Word) : (s.setReads v).outLen = s.outLen := rfl
@[simp] theorem State.setReads_ecsLen (v : List Word) : (s.setReads v).ecsLen = s.ecsLen := rfl
@[simp] theorem State.setReads_pbits (v : List Word) : (s.setReads v).pbits = s.pbits := rfl
@[simp] theorem State.setReads_pred (v : List Word) : (s.setReads v).pred = s.pred := rfl
@[simp] theorem State.setReads_errCmd (v : List Word) : (s.setReads v).errCmd = s.errCmd := rfl
@[simp] theorem State.setReads_errPos (v : List Word) : (s.setReads v).errPos = s.errPos := rfl
@[simp] theorem State.setReads_inSize (v : List Word) : (s.setReads v).inSize = s.inSize := rfl
@[simp] theorem State.setReads_outSize (v : List Word) : (s.setReads v).outSize = s.outSize := rfl
@[simp] theorem State.setReads_ecsSize (v : List Word) : (s.setReads v).ecsSize = s.ecsSize := rfl
@[simp] theorem State.setReads_lens (v : List Word) : (s.setReads v).lens = s.lens := rfl
@[simp] theorem State.setReads_hlen0 (v : List Word) : (s.setReads v).hlen0 = s.hlen0 := rfl
@[simp] theorem State.setReads_hlen1 (v : List Word) : (s.setReads v).hlen1 = s.hlen1 := rfl
@[simp] theorem State.setReads_hlen2 (v : List Word) : (s.setReads v).hlen2 = s.hlen2 := rfl
@[simp] theorem State.setReads_qt0 (v : List Word) : (s.setReads v).qt0 = s.qt0 := rfl
@[simp] theorem State.setReads_qt1 (v : List Word) : (s.setReads v).qt1 = s.qt1 := rfl
@[simp] theorem State.setReads_blk (v : List Word) : (s.setReads v).blk = s.blk := rfl
@[simp] theorem State.setReads_dctbuf (v : List Word) : (s.setReads v).dctbuf = s.dctbuf := rfl
@[simp] theorem State.setReads_coef (v : List Word) : (s.setReads v).coef = s.coef := rfl
@[simp] theorem State.setReads_hspec (v : List Word) : (s.setReads v).hspec = s.hspec := rfl
@[simp] theorem State.setReads_ehuf (v : List Word) : (s.setReads v).ehuf = s.ehuf := rfl
@[simp] theorem State.setReads_mem (v : List Word) : (s.setReads v).mem = s.mem := rfl
@[simp] theorem State.setReads_bus (v : List Word) : (s.setReads v).bus = s.bus := rfl
@[simp] theorem State.setReads_reads (v : List Word) : (s.setReads v).reads = v := rfl

end Sys2Proof.Machine
end

