-- ==== Sys2Proof/Laws/Cmd.lean ====
section
/-! SUPPORT. The laws of commands: what each primitive answers, how a sequence runs, and how a relation between the state
before and the state after passes through a sequence. -/

namespace Sys2Proof.Machine

variable {α β : Type}

@[simp] theorem Cmd.pure_apply (a : α) (s : State) : (pure a : Cmd α) s = .ok a s := rfl

@[simp] theorem raise_apply (e : ErrorKind) (s : State) : (raise e : Cmd α) s = .error e s := rfl

@[simp] theorem update_apply (f : State → State) (s : State) : update f s = .ok () (f s) := rfl

@[simp] theorem observe_apply (f : State → α) (s : State) : observe f s = .ok (f s) s := rfl

/-- A sequence runs its first part, then, unless that raised, the rest from the state it left. -/
theorem Cmd.bind_apply (x : Cmd α) (f : α → Cmd β) (s : State) :
    (x >>= f) s = match x s with
      | .ok a t => f a t
      | .error e t => .error e t := by
  change EStateM.bind x f s = _
  unfold EStateM.bind
  cases x s <;> rfl

/-- The first part answers a value. -/
theorem Cmd.bind_ok {x : Cmd α} {f : α → Cmd β} {s t : State} {a : α} (h : x s = .ok a t) :
    (x >>= f) s = f a t := by
  rw [Cmd.bind_apply, h]

/-- The first part raises. -/
theorem Cmd.bind_error {x : Cmd α} {f : α → Cmd β} {s t : State} {e : ErrorKind} (h : x s = .error e t) :
    (x >>= f) s = .error e t := by
  rw [Cmd.bind_apply, h]

/-- If a sequence answers, both its parts did. -/
theorem Cmd.bind_eq_ok {x : Cmd α} {f : α → Cmd β} {s u : State} {b : β} (h : (x >>= f) s = .ok b u) :
    ∃ a t, x s = .ok a t ∧ f a t = .ok b u := by
  rw [Cmd.bind_apply] at h
  cases hx : x s with
  | ok a t => exact ⟨a, t, rfl, by simpa [hx] using h⟩
  | error e t => simp [hx] at h

/-- If a sequence raises, its first part did or its second. -/
theorem Cmd.bind_eq_error {x : Cmd α} {f : α → Cmd β} {s u : State} {e : ErrorKind}
    (h : (x >>= f) s = .error e u) : x s = .error e u ∨ ∃ a t, x s = .ok a t ∧ f a t = .error e u := by
  rw [Cmd.bind_apply] at h
  cases hx : x s with
  | ok a t => exact .inr ⟨a, t, rfl, by simpa [hx] using h⟩
  | error e' t => exact .inl (by simpa [hx] using h)

@[simp] theorem observe_bind_apply (g : State → α) (f : α → Cmd β) (s : State) :
    (observe g >>= f) s = f (g s) s := rfl

@[simp] theorem update_bind_apply (g : State → State) (f : Unit → Cmd β) (s : State) :
    (update g >>= f) s = f () (g s) := rfl

@[simp] theorem pure_bind_apply (a : α) (f : α → Cmd β) (s : State) : ((pure a : Cmd α) >>= f) s = f a s := rfl

@[simp] theorem raise_bind_apply (e : ErrorKind) (f : α → Cmd β) (s : State) :
    ((raise e : Cmd α) >>= f) s = .error e s := rfl

@[simp] theorem raiseIf_true (e : ErrorKind) : raiseIf true e = raise e := rfl

@[simp] theorem raiseIf_false (e : ErrorKind) : raiseIf false e = pure () := rfl

@[simp] theorem legalOperand_some (a : α) : legalOperand (some a) = pure a := rfl

@[simp] theorem legalOperand_none : legalOperand (none : Option α) = raise .illegalCommand := rfl

/-- A command that completes. -/
theorem runCommand_ok {c : Cmd Unit} {s t : State} (h : c s = .ok () t) :
    runCommand c s = .next (completed t) := by
  simp [runCommand, h, finishCommand, State.completeCommand, Status.complete, completed, State.setStatus]

/-- A command that raises. -/
theorem runCommand_error {c : Cmd Unit} {s t : State} {e : ErrorKind} (h : c s = .error e t) :
    runCommand c s = .next (failedWith e t) := by
  simp [runCommand, h, finishCommand, State.raiseError, Status.recordError, Status.complete, failedWith,
    State.setStatus, State.setErrCmd, State.setErrPos]

/-- What any command leaves: completed, or failed with what it raised. -/
theorem runCommand_cases (c : Cmd Unit) (s : State) :
    (∃ t, c s = .ok () t ∧ runCommand c s = .next (completed t)) ∨
      ∃ e t, c s = .error e t ∧ runCommand c s = .next (failedWith e t) := by
  cases h : c s with
  | ok a t => exact .inl ⟨t, rfl, runCommand_ok h⟩
  | error e t => exact .inr ⟨e, t, rfl, runCommand_error h⟩

/-- The state a command part leaves, whether it answers or raises. -/
def Cmd.after (c : Cmd α) (s : State) : State :=
  match c s with
  | .ok _ t => t
  | .error _ t => t

/-- `R` holds between the state before and the state after, whether the part answers or raises. -/
def Cmd.Relates (R : State → State → Prop) (c : Cmd α) : Prop := ∀ s, R s (c.after s)

/-- A reflexive and transitive relation passes through a sequence. -/
theorem Cmd.Relates.bind {R : State → State → Prop} (trans : ∀ {s t u}, R s t → R t u → R s u) {x : Cmd α}
    {f : α → Cmd β} (hx : Cmd.Relates R x) (hf : ∀ a, Cmd.Relates R (f a)) : Cmd.Relates R (x >>= f) := by
  intro s
  have h := hx s
  unfold Cmd.after at h ⊢
  rw [Cmd.bind_apply]
  cases hxs : x s with
  | ok a t =>
    simp only [hxs] at h ⊢
    exact trans h (hf a t)
  | error e t => simpa only [hxs] using h

theorem Cmd.Relates.pure {R : State → State → Prop} (refl : ∀ s, R s s) (a : α) :
    Cmd.Relates R (Pure.pure a : Cmd α) := fun s => refl s

theorem Cmd.Relates.raise {R : State → State → Prop} (refl : ∀ s, R s s) (e : ErrorKind) :
    Cmd.Relates R (Machine.raise e : Cmd α) := fun s => refl s

theorem Cmd.Relates.observe {R : State → State → Prop} (refl : ∀ s, R s s) (f : State → α) :
    Cmd.Relates R (Machine.observe f) := fun s => refl s

theorem Cmd.Relates.update {R : State → State → Prop} {f : State → State} (h : ∀ s, R s (f s)) :
    Cmd.Relates R (Machine.update f) := fun s => h s

theorem Cmd.Relates.raiseIf {R : State → State → Prop} (refl : ∀ s, R s s) (c : Bool) (e : ErrorKind) :
    Cmd.Relates R (Machine.raiseIf c e) := by
  cases c <;> exact fun s => refl s

theorem Cmd.Relates.legalOperand {R : State → State → Prop} (refl : ∀ s, R s s) (o : Option α) :
    Cmd.Relates R (Machine.legalOperand o) := by
  cases o <;> exact fun s => refl s

end Sys2Proof.Machine
end

