-- ==== Sys2Proof/Laws/Memory.lean ====
section
/-! SUPPORT. The laws of the memory: read after write, and that a write keeps the canonical form. -/

namespace Sys2Proof.Machine

theorem memFind_memStore_same (m : Memory) (a : Nat) (v : Byte) : memFind (memStore m a v) a = some v := by
  induction m with
  | nil => simp [memStore, memFind]
  | cons c m ih =>
    obtain ⟨b, w⟩ := c
    simp only [memStore]
    split
    · simp [memFind]
    · split
      · simp [memFind]
      · simp [memFind, *]

theorem memFind_memStore_ne (m : Memory) {a a' : Nat} (v : Byte) (h : a' ≠ a) :
    memFind (memStore m a v) a' = memFind m a' := by
  induction m with
  | nil => simp [memStore, memFind, h]
  | cons c m ih =>
    obtain ⟨b, w⟩ := c
    simp only [memStore]
    split
    · simp [memFind, h]
    · split
      · subst_vars; simp [memFind, h]
      · simp [memFind, ih]

theorem memAbove_memStore {m : Memory} {a b : Nat} (v : Byte) (hb : b < a) (hm : memAbove b m = true) :
    memAbove b (memStore m a v) = true := by
  induction m generalizing b with
  | nil => simp [memStore, memAbove, hb]
  | cons c m ih =>
    obtain ⟨d, w⟩ := c
    simp only [memAbove, Bool.and_eq_true, decide_eq_true_eq] at hm
    simp only [memStore]
    split
    · simp [memAbove, *]
    · split
      · subst_vars; simp [memAbove, *]
      · have hd : d < a := by omega
        simp [memAbove, hm.1, ih hd hm.2]

/-- A write keeps the canonical form. -/
theorem memStore_wf {m : Memory} (a : Nat) (v : Byte) (hm : m.wf = true) : Memory.wf (memStore m a v) = true := by
  cases m with
  | nil => simp [memStore, Memory.wf, memAbove]
  | cons c m =>
    obtain ⟨b, w⟩ := c
    simp only [Memory.wf] at hm
    simp only [memStore]
    split
    · simp [Memory.wf, memAbove, *]
    · split
      · subst_vars; simpa [Memory.wf] using hm
      · have hb : b < a := by omega
        simpa [Memory.wf] using memAbove_memStore v hb hm

/-- Every listed address after a write was listed or is the one written. -/
theorem memStore_all {m : Memory} {a : Nat} {v : Byte} {p : Nat → Bool} (ha : p a = true)
    (hm : m.all (fun c => p c.1) = true) : (memStore m a v).all (fun c => p c.1) = true := by
  induction m with
  | nil => simp [memStore, ha]
  | cons c m ih =>
    obtain ⟨b, w⟩ := c
    simp only [List.all_cons, Bool.and_eq_true] at hm
    simp only [memStore]
    split
    · simp [ha, hm.1, hm.2]
    · split
      · simp [ha, hm.2]
      · simp [hm.1, ih hm.2]

@[simp] theorem State.readByte_writeByte_same (s : State) (a : Nat) (v : Byte) :
    (s.writeByte a v).readByte a = v := by
  simp [State.readByte, State.writeByte, memFind_memStore_same]

theorem State.readByte_writeByte_ne (s : State) {a a' : Nat} (v : Byte) (h : a' ≠ a) :
    (s.writeByte a v).readByte a' = s.readByte a' := by
  simp [State.readByte, State.writeByte, memFind_memStore_ne _ _ h]

/-- The byte at an address depends on the memory alone. -/
theorem State.readByte_congr {s t : State} (h : t.mem = s.mem) (a : Nat) : t.readByte a = s.readByte a := by
  simp [State.readByte, h]

theorem State.reset_mem_wf : State.reset.mem.wf = true := rfl

end Sys2Proof.Machine
end

