-- ==== Sys2Proof/Laws/BitReader.lean ====
section
/-! SUPPORT. What the bit reader's operations can do (40_bitreader R120 to R122). -/

namespace Sys2Proof.Machine

theorem State.streamBits_length (s : State) (p n : Nat) : (s.streamBits p n).length = n := by
  induction n generalizing p with
  | zero => rfl
  | succ n ih => simp [State.streamBits, ih]

theorem State.streamBits_getElem? (s : State) (p n i : Nat) (h : i < n) :
    (s.streamBits p n)[i]? = some (s.streamBit (p + i)) := by
  induction n generalizing p i with
  | zero => omega
  | succ n ih =>
    cases i with
    | zero => simp [State.streamBits]
    | succ i =>
      have := ih (p + 1) i (by omega)
      simpa [State.streamBits, Nat.add_comm, Nat.add_left_comm] using this

theorem bitsValueLsb_lt (bits : List Bool) : bitsValueLsb bits < 2 ^ bits.length := by
  induction bits with
  | nil => simp [bitsValueLsb]
  | cons b bits ih =>
    have : b.toNat ≤ 1 := Bool.toNat_le b
    simp only [bitsValueLsb, List.length_cons, Nat.pow_succ]
    omega

/-- Bit `i` of a value read least significant bit first is the `i`-th bit read. -/
theorem bitsValueLsb_testBit (bits : List Bool) (i : Nat) :
    (bitsValueLsb bits).testBit i = bits.getD i false := by
  induction bits generalizing i with
  | nil => simp [bitsValueLsb]
  | cons b bits ih =>
    cases i with
    | zero => cases b <;> simp [bitsValueLsb, Nat.testBit_zero, Nat.add_mod]
    | succ i =>
      have h : (b.toNat + 2 * bitsValueLsb bits) / 2 = bitsValueLsb bits := by
        have : b.toNat ≤ 1 := Bool.toNat_le b
        omega
      simp [bitsValueLsb, Nat.testBit_succ, h, ih]

/-- ReadBits of zero bits reads nothing. -/
@[simp] theorem readBits_zero (lim : Nat) (s : State) : readBits lim 0 s = .ok 0 s := by simp [readBits]

/-- ReadBits with all its bits before the limit. -/
theorem readBits_ok {lim n : Nat} {s : State} (h : s.brPos.toNat + n ≤ lim) (hn : n ≠ 0) :
    readBits lim n s = .ok (bitsValueLsb (s.streamBits s.brPos.toNat n))
      (s.setBrPos (BitVec.ofNat 32 (s.brPos.toNat + n))) := by
  simp [readBits, hn, Nat.not_lt.mpr h]

/-- ReadBits past the limit leaves the state alone. -/
theorem readBits_truncated {lim n : Nat} {s : State} (h : lim < s.brPos.toNat + n) (hn : n ≠ 0) :
    readBits lim n s = .error .truncatedInput s := by
  simp [readBits, hn, h]

/-- Everything ReadBits can do. -/
theorem readBits_cases (lim n : Nat) (s : State) :
    (n = 0 ∧ readBits lim n s = .ok 0 s) ∨
    (n ≠ 0 ∧ s.brPos.toNat + n ≤ lim ∧ readBits lim n s =
      .ok (bitsValueLsb (s.streamBits s.brPos.toNat n)) (s.setBrPos (BitVec.ofNat 32 (s.brPos.toNat + n)))) ∨
    (n ≠ 0 ∧ lim < s.brPos.toNat + n ∧ readBits lim n s = .error .truncatedInput s) := by
  by_cases hn : n = 0
  · subst hn; simp
  · by_cases h : lim < s.brPos.toNat + n
    · exact .inr (.inr ⟨hn, h, readBits_truncated h hn⟩)
    · exact .inr (.inl ⟨hn, by omega, readBits_ok (by omega) hn⟩)

/-- A value ReadBits answers has at most `n` bits. -/
theorem readBits_lt {lim n v : Nat} {s t : State} (h : readBits lim n s = .ok v t) : v < 2 ^ n := by
  rcases readBits_cases lim n s with ⟨rfl, h'⟩ | ⟨_, _, h'⟩ | ⟨_, _, h'⟩ <;> rw [h'] at h
  · simp at h; omega
  · simp only [EStateM.Result.ok.injEq] at h
    rw [← h.1]
    simpa [State.streamBits_length] using bitsValueLsb_lt (s.streamBits s.brPos.toNat n)
  · simp at h

/-- `t` is `s` but for the bit cursor. -/
def CursorOnly (s t : State) : Prop := t = s.setBrPos t.brPos

theorem CursorOnly.refl (s : State) : CursorOnly s s := rfl

theorem CursorOnly.trans {s t u : State} (h : CursorOnly s t) (h' : CursorOnly t u) : CursorOnly s u := by
  unfold CursorOnly at *
  rw [h', h]
  rfl

/-- A sequence of parts that move the cursor only. -/
theorem CursorOnly.bind {α β : Type} {x : Cmd α} {f : α → Cmd β} (hx : Cmd.Relates CursorOnly x)
    (hf : ∀ a, Cmd.Relates CursorOnly (f a)) : Cmd.Relates CursorOnly (x >>= f) :=
  Cmd.Relates.bind (R := CursorOnly) (fun h h' => h.trans h') hx hf

theorem CursorOnly.setBrPos (s : State) (p : Word) : CursorOnly s (s.setBrPos p) := rfl

/-- ReadBits moves the cursor and nothing else. -/
theorem readBits_cursorOnly (lim n : Nat) : Cmd.Relates CursorOnly (readBits lim n) := by
  intro s
  rcases readBits_cases lim n s with ⟨rfl, h⟩ | ⟨_, _, h⟩ | ⟨_, _, h⟩ <;> simp only [Cmd.after, h] <;> rfl

/-- AlignToByte moves the cursor and nothing else. -/
theorem alignToByte_cursorOnly : Cmd.Relates CursorOnly alignToByte := fun _ => rfl

/-- RESULT is the only register `writeResult` changes. -/
@[simp] theorem writeResult_apply (v : Nat) (s : State) :
    writeResult v s = .ok () (s.setResult (BitVec.ofNat 32 v)) := rfl

end Sys2Proof.Machine
end

