-- ==== Sys2Proof/Laws/Bus.lean ====
section
/-! SUPPORT. What a host access reaches (20_memory R72, R76), and what each access leaves. -/

namespace Sys2Proof.Machine

/-- An aligned word access below 0x100 reaches the register at its offset. -/
theorem State.target?_register (s : State) {a : Word} (h : a.toNat < 0x100) (ha : a.toNat % 4 = 0) :
    s.target? a .word = some (.register (registerAt a.toNat)) := by
  simp [State.target?, AccessWidth.bytes, h, ha]

/-- A register access narrower than a word is dropped. -/
theorem State.target?_narrow (s : State) {a : Word} (h : a.toNat < 0x100) {width : AccessWidth}
    (hw : width ≠ .word) : s.target? a width = none := by
  simp [State.target?, h, hw]

/-- A misaligned access is dropped. -/
theorem State.target?_misaligned (s : State) {a : Word} {width : AccessWidth} (h : a.toNat % width.bytes ≠ 0) :
    s.target? a width = none := by
  simp [State.target?, h]

/-- An aligned word write below 0x100 is a write of the register at its offset. -/
theorem State.hostWrite_register (s : State) {a : Word} (v : Word) (h : a.toNat < 0x100) (ha : a.toNat % 4 = 0) :
    s.hostWrite a .word v = s.writeRegister (registerAt a.toNat) v := by
  simp only [State.hostWrite, s.target?_register h ha]

/-- An aligned word read below 0x100 returns the register at its offset. -/
theorem State.hostRead_register (s : State) {a : Word} (h : a.toNat < 0x100) (ha : a.toNat % 4 = 0) :
    s.hostRead a .word = s.returnRead (s.readRegister (registerAt a.toNat)) := by
  simp only [State.hostRead, s.target?_register h ha]

/-- A dropped write sets HVIOL and changes nothing else. -/
theorem State.hostWrite_dropped {s : State} {a : Word} {width : AccessWidth} (v : Word)
    (h : s.target? a width = none) : s.hostWrite a width v = s.flagViolation := by
  simp only [State.hostWrite, h]

/-- A dropped read sets HVIOL and returns 0. -/
theorem State.hostRead_dropped {s : State} {a : Word} {width : AccessWidth} (h : s.target? a width = none) :
    s.hostRead a width = s.flagViolation.returnRead 0 := by
  simp only [State.hostRead, h]

/-- What an access reaches depends on the sizes alone. -/
theorem State.target?_congr {s t : State} (hi : t.inSize = s.inSize) (ho : t.outSize = s.outSize)
    (he : t.ecsSize = s.ecsSize) (a : Word) (width : AccessWidth) : t.target? a width = s.target? a width := by
  simp only [State.target?, State.windowTarget, State.regions, hi, ho, he]

/-- A permitted window access lies in one region of the map, whole. -/
theorem State.windowTarget_some {s : State} {a n : Nat} {w : Window} {off : Nat}
    (h : s.windowTarget a n = some (.window w off)) :
    ∃ r ∈ s.regions, r.window = w ∧ r.first + off = a ∧ off + n ≤ r.size := by
  unfold State.windowTarget at h
  split at h
  · rename_i r hr
    split at h
    · rename_i hle
      have hm := List.mem_of_find?_eq_some hr
      have hp := List.find?_some hr
      simp only [Bool.and_eq_true, decide_eq_true_eq] at hp
      simp only [Option.some.injEq, Target.window.injEq] at h
      exact ⟨r, hm, h.1, by omega, by omega⟩
    · simp at h
  · simp at h

/-- The address of a register, in its own map. -/
theorem registerAt_cmd : registerAt 0x0C = .cmd := rfl
theorem registerAt_ctrl : registerAt 0x04 = .ctrl := rfl
theorem registerAt_status : registerAt 0x08 = .status := rfl

/-- A served read changes nothing but the values returned. -/
theorem State.returnRead_eq (s : State) (v : Word) : s.returnRead v = { s with reads := v :: s.reads } := rfl

/-- With no host access to come, the engine has the next step. -/
theorem nextEvent_nil {s : State} (h : s.bus = []) : nextEvent s = engineStep s := by
  simp [nextEvent, h]

/-- With a host access to come, it is the next step. -/
theorem nextEvent_cons {s : State} {e : BusEvent} {rest : List BusEvent} (h : s.bus = e :: rest) :
    nextEvent s = busStep e (s.setBus rest) := by
  simp [nextEvent, h]

end Sys2Proof.Machine
end

