-- ==== Sys2Proof/Laws/Entropy.lean ====
section
/-! SUPPORT. What the bit packer can do (45_entropy R260, R261). -/

namespace Sys2Proof.Machine

/-- `t` is `s` but for the memory, ECS_LEN and the pending bits. -/
def PackOnly (s t : State) : Prop := t = { s with mem := t.mem, ecsLen := t.ecsLen, pbits := t.pbits }

theorem PackOnly.refl (s : State) : PackOnly s s := rfl

theorem PackOnly.trans {s t u : State} (h : PackOnly s t) (h' : PackOnly t u) : PackOnly s u := by
  unfold PackOnly at *
  rw [h', h]

theorem State.appendEcs_packOnly (s : State) (b : Byte) : PackOnly s (s.appendEcs b) := rfl

theorem State.emitByte_packOnly (s : State) (b : Byte) : PackOnly s (s.emitByte b) := by
  unfold State.emitByte
  split <;> rfl

theorem State.putBit_packOnly (s : State) (b : Bool) : PackOnly s (s.putBit b) := by
  unfold State.putBit
  split
  · exact (s.emitByte_packOnly _).trans rfl
  · rfl

/-- PutBits writes ECS, ECS_LEN and the pending bits and nothing else. -/
theorem State.putBits_packOnly (s : State) (bits : List Bool) : PackOnly s (s.putBits bits) := by
  induction bits generalizing s with
  | nil => exact PackOnly.refl s
  | cons b bits ih => exact (s.putBit_packOnly b).trans (ih (s.putBit b))

@[simp] theorem State.putBits_nil (s : State) : s.putBits [] = s := rfl

@[simp] theorem State.putBits_cons (s : State) (b : Bool) (bits : List Bool) :
    s.putBits (b :: bits) = (s.putBit b).putBits bits := rfl

/-- EmitByte leaves the pending bits alone. -/
@[simp] theorem State.emitByte_pbits (s : State) (b : Byte) : (s.emitByte b).pbits = s.pbits := by
  unfold State.emitByte
  split <;> rfl

/-- The byte EmitByte adds, at ECS[ECS_LEN]. -/
theorem State.emitByte_first (s : State) (b : Byte) :
    (s.emitByte b).ecsByte s.ecsLen.toNat = b := by
  unfold State.emitByte
  split
  · change (State.writeByte _ _ _).readByte _ = b
    rw [State.readByte_writeByte_ne]
    · change (State.writeByte _ _ _).readByte _ = b
      simp
    · simp [State.appendEcs]
      omega
  · change (State.writeByte _ _ _).readByte _ = b
    simp

/-- Below ECS_LEN, and outside ECS, EmitByte leaves every byte alone. -/
theorem State.emitByte_below (s : State) (b : Byte) {a : Nat} (h : a < ecsBase + s.ecsLen.toNat)
    (hw : s.ecsLen.toNat + 1 < 2 ^ 32) : (s.emitByte b).readByte a = s.readByte a := by
  have h1 : (s.appendEcs b).readByte a = s.readByte a :=
    State.readByte_writeByte_ne s b (by omega)
  unfold State.emitByte
  split
  · rw [← h1]
    refine State.readByte_writeByte_ne _ _ ?_
    simp [State.appendEcs]
    omega
  · exact h1

/-- How far EmitByte moves ECS_LEN. -/
theorem State.emitByte_ecsLen (s : State) (b : Byte) (h : s.ecsLen.toNat + 2 < 2 ^ 32) :
    (s.emitByte b).ecsLen.toNat = s.ecsLen.toNat + emittedBytes b.toNat := by
  unfold State.emitByte emittedBytes
  by_cases hb : b = 0xFF
  · subst hb
    simp [State.appendEcs]
    omega
  · have : b.toNat ≠ 255 := fun h' => hb (BitVec.eq_of_toNat_eq h')
    rw [if_neg hb, if_neg this]
    simp [State.appendEcs]
    omega

/-- At most 7 bits stay pending. -/
theorem State.putBit_pbits_length (s : State) (b : Bool) (h : s.pbits.length ≤ 7) :
    (s.putBit b).pbits.length ≤ 7 := by
  unfold State.putBit
  split
  · simp
  · rename_i hne
    simp at hne ⊢
    omega

theorem State.putBits_pbits_length (s : State) (bits : List Bool) (h : s.pbits.length ≤ 7) :
    (s.putBits bits).pbits.length ≤ 7 := by
  induction bits generalizing s with
  | nil => exact h
  | cons b bits ih => exact ih _ (s.putBit_pbits_length b h)

end Sys2Proof.Machine
end

