-- ==== Sys2Proof/Laws/Huffman.lean ====
section
/-! SUPPORT. What the Huffman decoder's operations can do (40_bitreader R123 to R125). -/

namespace Sys2Proof.Machine

theorem assignCodes_length (lens next : List Nat) : (assignCodes lens next).length = lens.length := by
  induction lens generalizing next with
  | nil => rfl
  | cons l lens ih => by_cases h : l = 0 <;> simp [assignCodes, h, ih]

theorem canonicalCodes_length (lens : List Nat) : (canonicalCodes lens).length = lens.length :=
  assignCodes_length _ _

theorem codeTable_length (lens : List Nat) : (codeTable lens).length = lens.length := by
  simp [codeTable, canonicalCodes_length]

/-- The symbol the first test of Decode finds is one of the table, with the bits read as its code. -/
theorem symbolAt?_some {tab : List (Nat × Nat)} {k p s : Nat} (h : symbolAt? tab k p = some s) :
    k ≠ 0 ∧ tab[s]? = some (k, p) := by
  unfold symbolAt? at h
  split at h
  · simp at h
  · rename_i hk
    refine ⟨hk, ?_⟩
    rw [List.findIdx?_eq_some_iff_getElem] at h
    obtain ⟨hs, hp, _⟩ := h
    simp only [Bool.and_eq_true, decide_eq_true_eq] at hp
    rw [List.getElem?_eq_getElem hs]
    exact congrArg some (Prod.ext hp.1 hp.2)

/-- Decode moves the cursor and nothing else. -/
theorem decodeLoop_cursorOnly (tab : List (Nat × Nat)) (lim fuel k p : Nat) :
    Cmd.Relates CursorOnly (decodeLoop tab lim fuel k p) := by
  induction fuel generalizing k p with
  | zero => exact Cmd.Relates.raise CursorOnly.refl _
  | succ fuel ih =>
    unfold decodeLoop
    split
    · exact Cmd.Relates.pure CursorOnly.refl _
    · split
      · exact CursorOnly.bind (readBits_cursorOnly lim 1) fun b => ih _ _
      · exact Cmd.Relates.raise CursorOnly.refl _

theorem decodeSymbol_cursorOnly (t : DecodeTable) (lim : Nat) : Cmd.Relates CursorOnly (decodeSymbol t lim) :=
  CursorOnly.bind (Cmd.Relates.observe CursorOnly.refl _) fun _ =>
    decodeLoop_cursorOnly _ lim 16 0 0

/-- Everything BuildTable can do: store lengths that are at most 15 and meet the Kraft inequality, or raise InvalidCode
with nothing changed. -/
theorem buildTable_cases (t : DecodeTable) (lens : List Nat) (s : State) :
    ((∀ l ∈ lens, l ≤ 15) ∧ KraftOk lens ∧ buildTable t lens s = .ok () (s.setHlen t lens)) ∨
    (((∃ l ∈ lens, 15 < l) ∨ ¬ KraftOk lens) ∧ buildTable t lens s = .error .invalidCode s) := by
  unfold buildTable KraftOk
  cases h : lens.any fun l => decide (15 < l) with
  | true => exact .inr ⟨.inl (by simpa using h), rfl⟩
  | false =>
    have hl : ∀ l ∈ lens, l ≤ 15 := by simpa using h
    by_cases hk : 2 ^ 15 < kraftSum lens
    · refine .inr ⟨.inr (by omega), ?_⟩
      simp only [hk, decide_true]
      rfl
    · refine .inl ⟨hl, by omega, ?_⟩
      simp only [hk, decide_false]
      rfl

theorem State.setHlen_hlen_ne (s : State) {t t' : DecodeTable} (lens : List Nat) (h : t' ≠ t) :
    (s.setHlen t lens).hlen t' = s.hlen t' := by
  cases t <;> cases t' <;> first | exact absurd rfl h | simp [State.setHlen, State.hlen]

theorem State.hlen_length (s : State) (t : DecodeTable) : (s.hlen t).length = t.capacity := by
  cases t <;> simp [State.hlen, DecodeTable.capacity]

/-- A table after its store: the lengths given, then zeros. -/
theorem State.setHlen_hlen_same (s : State) (t : DecodeTable) (lens : List Nat) (i : Nat) (hi : i < t.capacity)
    (hl : lens.getD i 0 ≤ 15) : ((s.setHlen t lens).hlen t).getD i 0 = lens.getD i 0 := by
  have h16 : lens.getD i 0 % 16 = lens.getD i 0 := Nat.mod_eq_of_lt (by omega)
  cases t <;> simp only [DecodeTable.capacity] at hi <;>
    simp [State.setHlen, State.hlen, List.getD_eq_getElem?_getD, hi] <;>
    simpa [List.getD_eq_getElem?_getD] using h16

/-- The decode tables depend on the three length files alone. -/
theorem State.hlen_setBrPos (s : State) (p : Word) (t : DecodeTable) : (s.setBrPos p).hlen t = s.hlen t := by
  cases t <;> rfl

end Sys2Proof.Machine
end

