-- ==== Sys2Proof/Laws/Inflate.lean ====
section
/-! SUPPORT. What the inflater's operations can do (41_inflate R150, R160). -/

namespace Sys2Proof.Machine

/-- The state after one byte is emitted. -/
def State.emitted (s : State) (b : Byte) : State :=
  (s.writeByte (outBase + s.outLen.toNat) b).setOutLen (BitVec.ofNat 32 (s.outLen.toNat + 1))

/-- Everything Emit can do. -/
theorem emit_cases (b : Byte) (s : State) :
    (s.outLen.toNat < s.outSize.toNat ∧ emit b s = .ok () (s.emitted b)) ∨
    (s.outSize.toNat ≤ s.outLen.toNat ∧ emit b s = .error .outputOverflow s) := by
  by_cases h : s.outSize.toNat ≤ s.outLen.toNat
  · refine .inr ⟨h, ?_⟩
    simp [emit, h]
  · refine .inl ⟨by omega, ?_⟩
    simp [emit, h, State.emitted]

theorem State.emitted_outLen (s : State) (b : Byte) (h : s.outLen.toNat < s.outSize.toNat) :
    (s.emitted b).outLen.toNat = s.outLen.toNat + 1 := by
  have := s.outSize.isLt
  simp [State.emitted]
  omega

theorem State.emitted_outByte_same (s : State) (b : Byte) : (s.emitted b).outByte s.outLen.toNat = b := by
  change ((s.writeByte _ b)).readByte _ = b
  simp

theorem State.emitted_readByte_ne (s : State) (b : Byte) {a : Nat} (h : a ≠ outBase + s.outLen.toNat) :
    (s.emitted b).readByte a = s.readByte a := by
  change ((s.writeByte _ b)).readByte _ = _
  exact State.readByte_writeByte_ne s b h

/-- `t` is `s` but for the cursor, OUT, OUT_LEN, the decode tables and the block-header flags: what an inflate command
may write (41_inflate R168). -/
def InflateOnly (s t : State) : Prop :=
  t = { s with
    brPos := t.brPos, outLen := t.outLen, mem := t.mem, hlen0 := t.hlen0, hlen1 := t.hlen1, hlen2 := t.hlen2
    status := { s.status with last := t.status.last, btype := t.status.btype } }

theorem InflateOnly.refl (s : State) : InflateOnly s s := rfl

theorem InflateOnly.trans {s t u : State} (h : InflateOnly s t) (h' : InflateOnly t u) : InflateOnly s u := by
  unfold InflateOnly at *
  rw [h', h]

/-- A sequence of parts that write what an inflate command may write. -/
theorem InflateOnly.bind {α β : Type} {x : Cmd α} {f : α → Cmd β} (hx : Cmd.Relates InflateOnly x)
    (hf : ∀ a, Cmd.Relates InflateOnly (f a)) : Cmd.Relates InflateOnly (x >>= f) :=
  Cmd.Relates.bind (R := InflateOnly) (fun h h' => h.trans h') hx hf

theorem CursorOnly.inflateOnly {s t : State} (h : CursorOnly s t) : InflateOnly s t := by
  unfold CursorOnly InflateOnly at *
  rw [h]
  rfl

theorem Cmd.Relates.inflateOnly {α : Type} {c : Cmd α} (h : Cmd.Relates CursorOnly c) :
    Cmd.Relates InflateOnly c := fun s => (h s).inflateOnly

theorem emit_inflateOnly (b : Byte) : Cmd.Relates InflateOnly (emit b) := by
  intro s
  rcases emit_cases b s with ⟨_, h⟩ | ⟨_, h⟩ <;> simp only [Cmd.after, h] <;> rfl

theorem buildTable_inflateOnly (t : DecodeTable) (lens : List Nat) :
    Cmd.Relates InflateOnly (buildTable t lens) := by
  intro s
  rcases buildTable_cases t lens s with ⟨_, _, h⟩ | ⟨_, h⟩ <;> simp only [Cmd.after, h]
  · cases t <;> simp [InflateOnly, State.setHlen, State.setHlen0, State.setHlen1, State.setHlen2]
  · exact InflateOnly.refl s

theorem copyBytes_inflateOnly (d l : Nat) : Cmd.Relates InflateOnly (copyBytes d l) := by
  induction l with
  | zero => exact Cmd.Relates.pure InflateOnly.refl _
  | succ l ih =>
    exact InflateOnly.bind (Cmd.Relates.observe InflateOnly.refl _) fun b =>
      InflateOnly.bind (emit_inflateOnly b) fun _ => ih

theorem copyMatch_inflateOnly (l d : Nat) : Cmd.Relates InflateOnly (copyMatch l d) :=
  InflateOnly.bind (Cmd.Relates.observe InflateOnly.refl _) fun _ =>
    InflateOnly.bind (Cmd.Relates.raiseIf InflateOnly.refl _ _) fun _ => copyBytes_inflateOnly d l

theorem storedBytes_inflateOnly (lim l : Nat) : Cmd.Relates InflateOnly (storedBytes lim l) := by
  induction l with
  | zero => exact Cmd.Relates.pure InflateOnly.refl _
  | succ l ih =>
    exact InflateOnly.bind (readBits_cursorOnly lim 8).inflateOnly fun b =>
      InflateOnly.bind (emit_inflateOnly _) fun _ => ih

theorem storedBlock_inflateOnly (lim : Nat) : Cmd.Relates InflateOnly (storedBlock lim) :=
  InflateOnly.bind alignToByte_cursorOnly.inflateOnly fun _ =>
    InflateOnly.bind (readBits_cursorOnly lim 16).inflateOnly fun len =>
      InflateOnly.bind (readBits_cursorOnly lim 16).inflateOnly fun _ =>
        storedBytes_inflateOnly lim len

theorem backReference_inflateOnly (lim sym : Nat) : Cmd.Relates InflateOnly (backReference lim sym) :=
  InflateOnly.bind (readBits_cursorOnly lim _).inflateOnly fun _ =>
    InflateOnly.bind (decodeSymbol_cursorOnly .dist lim).inflateOnly fun _ =>
      InflateOnly.bind (Cmd.Relates.raiseIf InflateOnly.refl _ _) fun _ =>
        InflateOnly.bind (readBits_cursorOnly lim _).inflateOnly fun _ =>
          copyMatch_inflateOnly _ _

theorem huffmanPass_inflateOnly (lim : Nat) : Cmd.Relates InflateOnly (huffmanPass lim) := by
  refine InflateOnly.bind (decodeSymbol_cursorOnly .litlen lim).inflateOnly fun sym => ?_
  split
  · exact InflateOnly.bind (emit_inflateOnly _) fun _ => Cmd.Relates.pure InflateOnly.refl _
  · split
    · exact Cmd.Relates.pure InflateOnly.refl _
    · split
      · exact InflateOnly.bind (backReference_inflateOnly lim sym) fun _ =>
          Cmd.Relates.pure InflateOnly.refl _
      · exact Cmd.Relates.raise InflateOnly.refl _

theorem huffmanBody_inflateOnly (lim fuel : Nat) : Cmd.Relates InflateOnly (huffmanBody lim fuel) := by
  induction fuel with
  | zero => exact Cmd.Relates.raise InflateOnly.refl _
  | succ fuel ih =>
    refine InflateOnly.bind (huffmanPass_inflateOnly lim) fun b => ?_
    cases b
    · exact ih
    · exact Cmd.Relates.pure InflateOnly.refl _

theorem fixedBlock_inflateOnly (lim : Nat) : Cmd.Relates InflateOnly (fixedBlock lim) :=
  InflateOnly.bind (buildTable_inflateOnly _ _) fun _ =>
    InflateOnly.bind (buildTable_inflateOnly _ _) fun _ => huffmanBody_inflateOnly lim _

theorem readCodeLengths_inflateOnly (lim : Nat) (perm cl : List Nat) :
    Cmd.Relates InflateOnly (readCodeLengths lim perm cl) := by
  induction perm generalizing cl with
  | nil => exact Cmd.Relates.pure InflateOnly.refl _
  | cons p perm ih =>
    exact InflateOnly.bind (readBits_cursorOnly lim 3).inflateOnly fun l => ih _

theorem repeatOf_inflateOnly (lim sym : Nat) (a : List Nat) : Cmd.Relates InflateOnly (repeatOf lim sym a) := by
  unfold repeatOf
  split
  · split
    · exact Cmd.Relates.raise InflateOnly.refl _
    · exact InflateOnly.bind (readBits_cursorOnly lim 2).inflateOnly fun _ =>
        Cmd.Relates.pure InflateOnly.refl _
  · split <;>
      exact InflateOnly.bind (readBits_cursorOnly lim _).inflateOnly fun _ =>
        Cmd.Relates.pure InflateOnly.refl _

theorem lengthsPass_inflateOnly (lim m : Nat) (a : List Nat) : Cmd.Relates InflateOnly (lengthsPass lim m a) := by
  refine InflateOnly.bind (decodeSymbol_cursorOnly .clen lim).inflateOnly fun sym => ?_
  split
  · exact Cmd.Relates.pure InflateOnly.refl _
  · exact InflateOnly.bind (repeatOf_inflateOnly lim sym a) fun _ =>
      InflateOnly.bind (Cmd.Relates.raiseIf InflateOnly.refl _ _) fun _ =>
        Cmd.Relates.pure InflateOnly.refl _

theorem readLengths_inflateOnly (lim m fuel : Nat) (a : List Nat) :
    Cmd.Relates InflateOnly (readLengths lim m fuel a) := by
  induction fuel generalizing a with
  | zero => exact Cmd.Relates.pure InflateOnly.refl _
  | succ fuel ih =>
    unfold readLengths
    split
    · exact Cmd.Relates.pure InflateOnly.refl _
    · exact InflateOnly.bind (lengthsPass_inflateOnly lim m a) fun a' => ih a'

theorem dynamicBlock_inflateOnly (lim : Nat) : Cmd.Relates InflateOnly (dynamicBlock lim) :=
  InflateOnly.bind (readBits_cursorOnly lim 5).inflateOnly fun _ =>
    InflateOnly.bind (readBits_cursorOnly lim 5).inflateOnly fun _ =>
      InflateOnly.bind (readBits_cursorOnly lim 4).inflateOnly fun _ =>
        InflateOnly.bind (readCodeLengths_inflateOnly lim _ _) fun _ =>
          InflateOnly.bind (buildTable_inflateOnly _ _) fun _ =>
            InflateOnly.bind (readLengths_inflateOnly lim _ _ _) fun _ =>
              InflateOnly.bind (buildTable_inflateOnly _ _) fun _ =>
                InflateOnly.bind (buildTable_inflateOnly _ _) fun _ =>
                  huffmanBody_inflateOnly lim _

theorem inflateBlock_inflateOnly (lim : Nat) : Cmd.Relates InflateOnly (inflateBlock lim) := by
  refine InflateOnly.bind (readBits_cursorOnly lim 1).inflateOnly fun bfinal =>
    InflateOnly.bind (readBits_cursorOnly lim 2).inflateOnly fun btype =>
      InflateOnly.bind (Cmd.Relates.update fun _ => rfl) fun _ =>
        InflateOnly.bind ?_ fun _ => Cmd.Relates.pure InflateOnly.refl _
  unfold blockBody
  split
  · exact storedBlock_inflateOnly lim
  · split
    · exact fixedBlock_inflateOnly lim
    · split
      · exact dynamicBlock_inflateOnly lim
      · exact Cmd.Relates.raise InflateOnly.refl _

theorem inflateBlocks_inflateOnly (lim fuel : Nat) : Cmd.Relates InflateOnly (inflateBlocks lim fuel) := by
  induction fuel with
  | zero => exact Cmd.Relates.raise InflateOnly.refl _
  | succ fuel ih =>
    refine InflateOnly.bind (inflateBlock_inflateOnly lim) fun f => ?_
    split
    · exact Cmd.Relates.pure InflateOnly.refl _
    · exact ih

/-- INFBLK changes no other state than 41_inflate R168 lists. -/
theorem infblkBody_inflateOnly : Cmd.Relates InflateOnly infblkBody :=
  InflateOnly.bind (Cmd.Relates.observe InflateOnly.refl _) fun lim =>
    InflateOnly.bind (inflateBlock_inflateOnly lim) fun _ => Cmd.Relates.pure InflateOnly.refl _

/-- INFLATE changes no other state than 41_inflate R170 lists. -/
theorem inflateBody_inflateOnly : Cmd.Relates InflateOnly inflateBody :=
  InflateOnly.bind (Cmd.Relates.observe InflateOnly.refl _) fun lim =>
    InflateOnly.bind (Cmd.Relates.update fun _ => rfl) fun _ => inflateBlocks_inflateOnly lim _

/-- ZINFLATE changes no other state than 41_inflate R171 lists. -/
theorem zinflateBody_inflateOnly : Cmd.Relates InflateOnly zinflateBody :=
  InflateOnly.bind (Cmd.Relates.observe InflateOnly.refl _) fun _ =>
    InflateOnly.bind (Cmd.Relates.raiseIf InflateOnly.refl _ _) fun _ =>
      InflateOnly.bind (Cmd.Relates.update fun _ => rfl) fun _ => inflateBlocks_inflateOnly _ _

end Sys2Proof.Machine
end

