-- ==== Sys2Proof/Laws/PerInstr.lean ====
section
/-! SUPPORT. Statements about every command as syntax, one lemma per constructor. -/

namespace Sys2Proof.Laws

/-- A field placed at or above bit 8 leaves the opcode byte 0. -/
theorem opcodeOf_placeField {k : Nat} (f : BitVec k) (lo : Nat) (h : 8 ≤ lo) : opcodeOf (placeField f lo) = 0 := by
  unfold opcodeOf placeField
  ext i hi
  simp only [BitVec.getElem_extractLsb', BitVec.getLsbD_shiftLeft, Nat.zero_add]
  simp [show i < lo by omega]

theorem opcodeOf_or (v w : Word) : opcodeOf (v ||| w) = opcodeOf v ||| opcodeOf w :=
  BitVec.extractLsb'_or

/-- Bit `i` of a placed field. -/
theorem getLsbD_placeField {k : Nat} (f : BitVec k) (lo i : Nat) :
    (placeField f lo).getLsbD i = (decide (i < 32) && !decide (i < lo) && f.getLsbD (i - lo)) := by
  unfold placeField
  by_cases h : i < 32
  · by_cases h' : i < lo
    · simp [h, h']
    · simp [h, h']
  · simp [h]

theorem getElem_placeField {k : Nat} (f : BitVec k) (lo i : Nat) (hi : i < 32) :
    (placeField f lo)[i] = (!decide (i < lo) && f.getLsbD (i - lo)) := by
  rw [← BitVec.getLsbD_eq_getElem, getLsbD_placeField]
  simp [hi]

/-! ## The opcode byte (30_encoding R101) -/

namespace OpcodeByte

/-- Bits [7:0] of the command's word are its opcode. -/
def Statement (i : Instr) : Prop := opcodeOf (encode i) = i.opcode

theorem rdbits (n : BitVec 5) : Statement (.rdbits n) := by
  simp [Statement, encode, Instr.opcode, opcodeOf_or, opcodeOf_placeField]; decide
theorem align : Statement .align := rfl
theorem hbuild (t : BitVec 2) (n : BitVec 9) : Statement (.hbuild t n) := by
  simp [Statement, encode, Instr.opcode, opcodeOf_or, opcodeOf_placeField]; decide
theorem hdecode (t : BitVec 2) : Statement (.hdecode t) := by
  simp [Statement, encode, Instr.opcode, opcodeOf_or, opcodeOf_placeField]; decide
theorem infblk : Statement .infblk := rfl
theorem inflate : Statement .inflate := rfl
theorem zinflate : Statement .zinflate := rfl
theorem qbuild (q : BitVec 8) : Statement (.qbuild q) := by
  simp [Statement, encode, Instr.opcode, opcodeOf_or, opcodeOf_placeField]; decide
theorem qlookup (t : BitVec 1) (i : BitVec 6) (z : BitVec 1) : Statement (.qlookup t i z) := by
  simp [Statement, encode, Instr.opcode, opcodeOf_or, opcodeOf_placeField]; decide
theorem fdct : Statement .fdct := rfl
theorem quant (t : BitVec 1) : Statement (.quant t) := by
  simp [Statement, encode, Instr.opcode, opcodeOf_or, opcodeOf_placeField]; decide
theorem ehbuild (t : BitVec 2) : Statement (.ehbuild t) := by
  simp [Statement, encode, Instr.opcode, opcodeOf_or, opcodeOf_placeField]; decide
theorem encblk (c : BitVec 2) : Statement (.encblk c) := by
  simp [Statement, encode, Instr.opcode, opcodeOf_or, opcodeOf_placeField]; decide
theorem eflush : Statement .eflush := rfl
theorem ereset : Statement .ereset := rfl

end OpcodeByte

/-! ## The row of the opcode table (30_encoding R100, R102) -/

namespace TableRow

/-- The decoder's row for the command's opcode has no reserved bit that is 1 in the command's word. -/
def Statement (i : Instr) : Prop :=
  ∃ r, opcodeRows.find? (fun r => r.opc == i.opcode) = some r ∧ encode i &&& r.reserved = 0

theorem rdbits (n : BitVec 5) : Statement (.rdbits n) := by
  refine ⟨_, rfl, ?_⟩
  apply BitVec.eq_of_getLsbD_eq
  intro i hi
  interval_cases i <;> simp [encode, OpcodeRow.reserved, getElem_placeField]
theorem align : Statement .align := ⟨_, rfl, by decide⟩
theorem hbuild (t : BitVec 2) (n : BitVec 9) : Statement (.hbuild t n) := by
  refine ⟨_, rfl, ?_⟩
  apply BitVec.eq_of_getLsbD_eq
  intro i hi
  interval_cases i <;> simp [encode, OpcodeRow.reserved, getElem_placeField]
theorem hdecode (t : BitVec 2) : Statement (.hdecode t) := by
  refine ⟨_, rfl, ?_⟩
  apply BitVec.eq_of_getLsbD_eq
  intro i hi
  interval_cases i <;> simp [encode, OpcodeRow.reserved, getElem_placeField]
theorem infblk : Statement .infblk := ⟨_, rfl, by decide⟩
theorem inflate : Statement .inflate := ⟨_, rfl, by decide⟩
theorem zinflate : Statement .zinflate := ⟨_, rfl, by decide⟩
theorem qbuild (q : BitVec 8) : Statement (.qbuild q) := by
  refine ⟨_, rfl, ?_⟩
  apply BitVec.eq_of_getLsbD_eq
  intro i hi
  interval_cases i <;> simp [encode, OpcodeRow.reserved, getElem_placeField]
theorem qlookup (t : BitVec 1) (i : BitVec 6) (z : BitVec 1) : Statement (.qlookup t i z) := by
  refine ⟨_, rfl, ?_⟩
  apply BitVec.eq_of_getLsbD_eq
  intro j hj
  interval_cases j <;> simp [encode, OpcodeRow.reserved, getElem_placeField]
theorem fdct : Statement .fdct := ⟨_, rfl, by decide⟩
theorem quant (t : BitVec 1) : Statement (.quant t) := by
  refine ⟨_, rfl, ?_⟩
  apply BitVec.eq_of_getLsbD_eq
  intro i hi
  interval_cases i <;> simp [encode, OpcodeRow.reserved, getElem_placeField]
theorem ehbuild (t : BitVec 2) : Statement (.ehbuild t) := by
  refine ⟨_, rfl, ?_⟩
  apply BitVec.eq_of_getLsbD_eq
  intro i hi
  interval_cases i <;> simp [encode, OpcodeRow.reserved, getElem_placeField]
theorem encblk (c : BitVec 2) : Statement (.encblk c) := by
  refine ⟨_, rfl, ?_⟩
  apply BitVec.eq_of_getLsbD_eq
  intro i hi
  interval_cases i <;> simp [encode, OpcodeRow.reserved, getElem_placeField]
theorem eflush : Statement .eflush := ⟨_, rfl, by decide⟩
theorem ereset : Statement .ereset := ⟨_, rfl, by decide⟩

end TableRow

end Sys2Proof.Laws
end

