-- ==== Sys2Proof/Laws/Streams.lean ====
section
/-! SUPPORT. The bit fields of a written-out stream: their lengths, their values, and reading one at the cursor
(40_bitreader R121, 45_entropy R260). -/

namespace Sys2Proof.Machine

@[simp] theorem fieldBits_length (v n : Nat) : (fieldBits v n).length = n := by
  induction n with
  | zero => rfl
  | succ n ih => simp [fieldBits, ih]

@[simp] theorem lowBits_length (v n : Nat) : (lowBits v n).length = n := by simp [lowBits]

@[simp] theorem lowBits_zero (v : Nat) : lowBits v 0 = [] := rfl

theorem lowBits_succ (v n : Nat) : lowBits v (n + 1) = lowBits v n ++ [v.testBit n] := by simp [lowBits, fieldBits]

@[simp] theorem codeBits_length (lens : List Nat) (sym : Nat) : (codeBits lens sym).length = lens.getD sym 0 :=
  fieldBits_length _ _

theorem bitsValueLsb_append_bit (bits : List Bool) (b : Bool) :
    bitsValueLsb (bits ++ [b]) = bitsValueLsb bits + 2 ^ bits.length * b.toNat := by
  induction bits with
  | nil => simp [bitsValueLsb]
  | cons c bits ih =>
    simp only [List.cons_append, bitsValueLsb, ih, List.length_cons, Nat.pow_succ]
    ring

/-- A field written least significant bit first holds its value. -/
theorem bitsValueLsb_lowBits (v n : Nat) : bitsValueLsb (lowBits v n) = v % 2 ^ n := by
  induction n with
  | zero => simp [bitsValueLsb, Nat.mod_one]
  | succ n ih => rw [lowBits_succ, bitsValueLsb_append_bit, ih, lowBits_length, Nat.mod_pow_succ, Nat.toNat_testBit]

/-- A run of bits is a first run and the rest. -/
theorem State.streamBits_add (s : State) (p m n : Nat) :
    s.streamBits p (m + n) = s.streamBits p m ++ s.streamBits (p + m) n := by
  induction m generalizing p with
  | zero => simp [State.streamBits]
  | succ m ih =>
    rw [Nat.succ_add]
    simp only [State.streamBits, ih, List.cons_append]
    rw [show p + 1 + m = p + (m + 1) by omega]

/-- The first bits of a run. -/
theorem State.streamBits_take (s : State) (p : Nat) {j n : Nat} (h : j ≤ n) :
    (s.streamBits p n).take j = s.streamBits p j := by
  obtain ⟨m, rfl⟩ := Nat.exists_eq_add_of_le h
  rw [s.streamBits_add, List.take_left' (s.streamBits_length p j)]

/-- A stream that begins with a field: the field stands at the cursor, and the rest after it. -/
theorem State.streamBits_split {s : State} {p : Nat} {a b : List Bool}
    (h : s.streamBits p (a ++ b).length = a ++ b) :
    s.streamBits p a.length = a ∧ s.streamBits (p + a.length) b.length = b := by
  rw [List.length_append, s.streamBits_add] at h
  exact List.append_inj h (s.streamBits_length p a.length)

/-- Reading a field that stands at the cursor answers its value and moves past it. -/
theorem readBits_lowBits {lim v n : Nat} {s : State} (hv : v < 2 ^ n) (hn : n ≠ 0) (hlim : s.brPos.toNat + n ≤ lim)
    (h : s.streamBits s.brPos.toNat n = lowBits v n) :
    readBits lim n s = .ok v (s.setBrPos (BitVec.ofNat 32 (s.brPos.toNat + n))) := by
  rw [readBits_ok hlim hn, h, bitsValueLsb_lowBits, Nat.mod_eq_of_lt hv]

end Sys2Proof.Machine
end

