-- ==== Sys2Proof/Tests/Slice0.lean ====
section
/-! SUPPORT. Tests: ill-formed commands refused, words of 30_encoding decoded, the spec's own examples run for one step,
and a witness for the hypotheses of every statement that has any. -/

namespace Sys2Proof.Tests

open Sys2Proof.Machine

set_option Elab.async false

/-! ## Well-formedness: one ill-formed command for each check -/

theorem test_rdbits_zero_ill_formed : Instr.wellFormed (.rdbits 0) = false := by decide
theorem test_rdbits_seventeen_ill_formed : Instr.wellFormed (.rdbits 17) = false := by decide
theorem test_rdbits_sixteen_well_formed : Instr.wellFormed (.rdbits 16) = true := by decide
theorem test_hbuild_table_three_ill_formed : Instr.wellFormed (.hbuild 3 0) = false := by decide
theorem test_hbuild_clen_twenty_ill_formed : Instr.wellFormed (.hbuild 2 20) = false := by decide
theorem test_hbuild_litlen_289_ill_formed : Instr.wellFormed (.hbuild 0 289) = false := by decide
theorem test_hdecode_table_three_ill_formed : Instr.wellFormed (.hdecode 3) = false := by decide
theorem test_encblk_component_three_ill_formed : Instr.wellFormed (.encblk 3) = false := by decide

/-! ## Decoding, on words written out from the fields of 30_encoding R102 and the formulas of R104 -/

theorem test_decode_rdbits : decode 0x00001001#32 = .ok (.rdbits 16) := by decide
theorem test_decode_align : decode 0x00000002#32 = .ok .align := by decide
theorem test_decode_hbuild : decode 0x00130203#32 = .ok (.hbuild 2 19) := by decide
theorem test_decode_hdecode : decode 0x00000104#32 = .ok (.hdecode 1) := by decide
theorem test_decode_infblk : decode 0x00000008#32 = .ok .infblk := by decide
theorem test_decode_inflate : decode 0x00000009#32 = .ok .inflate := by decide
theorem test_decode_zinflate : decode 0x0000000A#32 = .ok .zinflate := by decide
theorem test_decode_qbuild : decode 0x00005510#32 = .ok (.qbuild 85) := by decide
theorem test_decode_qlookup : decode 0x003F0311#32 = .ok (.qlookup 1 63 1) := by decide
theorem test_decode_fdct : decode 0x00000012#32 = .ok .fdct := by decide
theorem test_decode_quant : decode 0x00000113#32 = .ok (.quant 1) := by decide
theorem test_decode_ehbuild : decode 0x00000318#32 = .ok (.ehbuild 3) := by decide
theorem test_decode_encblk : decode 0x00000219#32 = .ok (.encblk 2) := by decide
theorem test_decode_eflush : decode 0x0000001A#32 = .ok .eflush := by decide
theorem test_decode_ereset : decode 0x0000001B#32 = .ok .ereset := by decide
theorem test_decode_opcode_zero : decode 0#32 = .error (.unknownOpcode 0) := by decide
theorem test_decode_reserved_bit : decode 0x00000213#32 = .error (.reservedBits "QUANT") := by decide
theorem test_illegal_field : legalWord 0x00000319#32 = false := by decide

/-! ## A small state to test on -/

/-- An idle block with 64 bytes of each memory, empty tables and quantization tables of ones. -/
def demo : State where
  irqEn := false
  status := .reset
  pending := 0
  result := 0
  inLen := 0
  brPos := 0
  outLen := 0
  ecsLen := 0
  pbits := []
  pred := Vector.replicate 3 0
  errCmd := 0
  errPos := 0
  inSize := 64
  outSize := 64
  ecsSize := 64
  lens := Vector.replicate 320 0
  hlen0 := Vector.replicate 288 0
  hlen1 := Vector.replicate 32 0
  hlen2 := Vector.replicate 19 0
  qt0 := Vector.replicate 64 1
  qt1 := Vector.replicate 64 1
  blk := Vector.replicate 64 0
  dctbuf := Vector.replicate 64 0
  coef := Vector.replicate 64 0
  hspec := Vector.replicate 4 ⟨Vector.replicate 16 0, Vector.replicate 256 0⟩
  ehuf := Vector.replicate 4 (Vector.replicate 256 .absent)
  mem := []
  bus := []
  reads := []

/-- `demo` with bytes in IN and IN_LEN their number. -/
def withInput (bytes : List Byte) : State :=
  { demo with mem := bytes.mapIdx fun i b => (inBase + i, b), inLen := BitVec.ofNat 32 bytes.length }

/-- `demo` with lengths in LENS. -/
def withLens (lengths : List Nat) : State :=
  { demo with lens := Vector.ofFn fun i => BitVec.ofNat 8 (lengths.getD i 0) }

/-- `demo` with code lengths in HLEN0, and bytes in IN. -/
def withTable (lengths : List Nat) (bytes : List Byte) : State := (withInput bytes).setHlen .litlen lengths

/-- `demo` with the specification of 10_state R47 for the DC-Y table in HSPEC0. -/
def withSpec : State := { demo with hspec := demo.hspec.set 0 (hspecRom 0) }

/-- Two codes of one bit each (0 for symbol 0, 1 for symbol 1) in every encoder table. -/
def tinyTable : EHufTable :=
  (Vector.replicate 256 EHufEntry.absent).set 0 ⟨0, 1⟩ |>.set 1 ⟨1, 1⟩

/-- `demo` with those tables. -/
def withTiny : State := { demo with ehuf := Vector.replicate 4 tinyTable }

/-- What holds of the state a command leaves. -/
def leaves (o : Host.Outcome State Fault Refusal) (p : State → Bool) : Bool :=
  match o with
  | .next t => p t
  | .fault _ => false
  | .refused _ => false

/-! ## The spec's own examples, one step each -/

/-- 40_bitreader R130: IN[0] = 0xB5, RDBITS 3 gives RESULT = 5 and BR_POS = 3. -/
theorem test_rdbits_example :
    leaves (exec (.rdbits 3) (withInput [0xB5])) (fun t => decide (t.result = 5 ∧ t.brPos = 3)) = true := by
  decide +kernel

/-- 40_bitreader R130: a read past the limit, here of 9 bits of 8, raises TruncatedInput and moves nothing. -/
theorem test_rdbits_past_limit :
    leaves (exec (.rdbits 9) (withInput [0xB5])) (fun t => decide (t.status.errCode = 1 ∧ t.brPos = 0)) = true := by
  decide +kernel

/-- 40_bitreader R131: BR_POS = 3 gives 8. -/
theorem test_align_example :
    leaves (exec .align { demo with brPos := 3 }) (fun t => decide (t.brPos = 8)) = true := by decide +kernel

/-- 40_bitreader R131: 0xFFFFFFF9 wraps to 0. -/
theorem test_align_wraps :
    leaves (exec .align { demo with brPos := 0xFFFFFFF9 }) (fun t => decide (t.brPos = 0)) = true := by
  decide +kernel

/-- 40_bitreader R132: the codes of the lengths 3,3,3,3,3,2,4,4. -/
theorem test_canonical_codes :
    canonicalCodes [3, 3, 3, 3, 3, 2, 4, 4] = [0b010, 0b011, 0b100, 0b101, 0b110, 0b00, 0b1110, 0b1111] := by
  decide +kernel

/-- 40_bitreader R132: HBUILD CLEN, 8 stores those lengths and zeros after them. -/
theorem test_hbuild_stores :
    leaves (exec (.hbuild 2 8) (withLens [3, 3, 3, 3, 3, 2, 4, 4, 9]))
      (fun t => t.hlen .clen == [3, 3, 3, 3, 3, 2, 4, 4] ++ List.replicate 11 0) = true := by decide +kernel

/-- 40_bitreader R125: three codes of one bit are over-subscribed, InvalidCode. -/
theorem test_hbuild_over_subscribed :
    leaves (exec (.hbuild 2 3) (withLens [1, 1, 1])) (fun t => decide (t.status.errCode = 3)) = true := by
  decide +kernel

/-- 40_bitreader R133: with the table of R132 and IN[0] = 0x00, HDECODE LITLEN gives RESULT = 5, BR_POS = 2. -/
theorem test_hdecode_example :
    leaves (exec (.hdecode 0) (withTable [3, 3, 3, 3, 3, 2, 4, 4] [0x00]))
      (fun t => decide (t.result = 5 ∧ t.brPos = 2)) = true := by decide +kernel

/-- 40_bitreader R124: an empty table raises InvalidCode before it reads a bit. -/
theorem test_hdecode_empty :
    leaves (exec (.hdecode 1) (withInput [0xFF])) (fun t => decide (t.status.errCode = 3 ∧ t.brPos = 0)) = true := by
  decide +kernel

/-- 41_inflate R168: the example of a stored block. -/
theorem test_infblk_stored :
    leaves (exec .infblk (withInput [0x01, 0x03, 0x00, 0xFC, 0xFF, 0x41, 0x42, 0x43]))
      (fun t => decide (t.outLen = 3 ∧ t.outByte 0 = 0x41 ∧ t.outByte 2 = 0x43 ∧ t.brPos = 64 ∧
        t.status.last = true ∧ t.status.btype = 0)) = true := by decide +kernel

/-- 41_inflate R151: BTYPE = 3 is InvalidBlockType, with LAST and BTYPE written. -/
theorem test_infblk_block_type :
    leaves (exec .infblk (withInput [0x07]))
      (fun t => decide (t.status.errCode = 2 ∧ t.status.last = true ∧ t.status.btype = 3 ∧ t.errPos = 3)) = true := by
  decide +kernel

/-- 41_inflate R170: the example 4B 04 00. -/
theorem test_inflate_example :
    leaves (exec .inflate (withInput [0x4B, 0x04, 0x00]))
      (fun t => decide (t.outLen = 1 ∧ t.outByte 0 = 0x61 ∧ t.brPos = 18 ∧ t.status.last = true ∧
        t.status.btype = 1)) = true := by decide +kernel

/-- 41_inflate R171: the zlib stream of "a". -/
theorem test_zinflate_example :
    leaves (exec .zinflate (withInput [0x78, 0x9C, 0x4B, 0x04, 0x00, 0x00, 0x62, 0x00, 0x62]))
      (fun t => decide (t.outLen = 1 ∧ t.outByte 0 = 0x61 ∧ t.brPos = 34)) = true := by decide +kernel

/-- 41_inflate R171: fewer than 6 bytes. -/
theorem test_zinflate_short :
    leaves (exec .zinflate (withInput [1, 2, 3, 4, 5])) (fun t => decide (t.status.errCode = 5 ∧ t.brPos = 0)) = true := by
  decide +kernel

/-- 42_quant R191: QBUILD 85 gives QT0[0] = 5 and QT1[0] = 5. -/
theorem test_qbuild_example :
    leaves (exec (.qbuild 85) demo) (fun t => decide (t.qt0.getD 0 0 = 5 ∧ t.qt1.getD 0 0 = 5)) = true := by
  decide +kernel

/-- 42_quant R191: quality 0 is clipped to 1, whose tables are all 255. -/
theorem test_qbuild_clips :
    leaves (exec (.qbuild 0) demo) (fun t => decide (t.qt0.getD 1 0 = 255 ∧ t.qt1.getD 63 0 = 255)) = true := by
  decide +kernel

/-- 42_quant R192: with the tables of quality 50, QLOOKUP Y, 2, Z returns 12. -/
theorem test_qlookup_zigzag :
    leaves (exec (.qlookup 0 2 1) { demo with qt0 := qTableY 50 }) (fun t => decide (t.result = 12)) = true := by
  decide +kernel

/-- 42_quant R192: and QLOOKUP Y, 2 returns 10. -/
theorem test_qlookup_natural :
    leaves (exec (.qlookup 0 2 0) { demo with qt0 := qTableY 50 }) (fun t => decide (t.result = 10)) = true := by
  decide +kernel

/-- 44_fdct R234: a block of samples 10 gives DCTBUF[0] = 640.0 and +0.0 elsewhere. -/
theorem test_fdct_constant :
    leaves (exec .fdct { demo with blk := Vector.replicate 64 10 })
      (fun t => decide (t.dctbuf.getD 0 0 = 0x44200000 ∧ t.dctbuf.getD 1 0 = 0 ∧ t.dctbuf.getD 63 0 = 0)) = true := by
  decide +kernel

/-- 44_fdct R236: 64.0 / 128.0 = 0.5 rounds away from zero to 1. -/
theorem test_quant_tie :
    leaves (exec (.quant 0) { demo with dctbuf := demo.dctbuf.set 0 0x42800000, qt0 := Vector.replicate 64 16 })
      (fun t => decide (t.coef.getD 0 0 = 1 ∧ t.coef.getD 1 0 = 0)) = true := by decide +kernel

/-- 44_fdct R236: -2.5 rounds to -3. -/
theorem test_round_negative_tie : (roundSat16 0xC0200000).toInt = -3 := by decide +kernel

/-- 43_huffman_tables R211: EHBUILD DCY from Table K.3. -/
theorem test_ehbuild_example :
    leaves (exec (.ehbuild 0) withSpec)
      (fun t => decide ((t.ehuf[0]).getD 0 .absent = ⟨0, 2⟩ ∧ (t.ehuf[0]).getD 1 .absent = ⟨0b010, 3⟩ ∧
        (t.ehuf[0]).getD 11 .absent = ⟨0b111111110, 9⟩)) = true := by decide +kernel

/-- 43_huffman_tables R210: three codes of one bit do not fit, HuffSpec. -/
theorem test_ehbuild_overflow :
    leaves (exec (.ehbuild 2) { demo with hspec := demo.hspec.set 2 ⟨(Vector.replicate 16 0).set 0 3, Vector.ofFn fun i => BitVec.ofNat 8 i⟩ })
      (fun t => decide (t.status.errCode = 11)) = true := by decide +kernel

/-- 45_entropy R265: after ERESET with the reset tables, COEF = -3, -1, 0, ... codes as 0x60 and pending 1010. -/
theorem test_encblk_example :
    leaves (exec (.encblk 0)
        { demo with
          ehuf := (demo.ehuf.set 0 (ehufRom 0)).set 2 (ehufRom 2)
          coef := (demo.coef.set 0 (-3)).set 1 (-1) })
      (fun t => decide (t.ecsLen = 1 ∧ t.ecsByte 0 = 0x60 ∧ t.ebitsWord = 0x40A ∧ t.pred[0] = -3)) = true := by
  decide +kernel

/-- 45_entropy R263: with no codes, EncodeRange. -/
theorem test_encblk_no_code :
    leaves (exec (.encblk 1) demo) (fun t => decide (t.status.errCode = 9 ∧ t.ecsLen = 0)) = true := by
  decide +kernel

/-- 45_entropy R266: pending bits 1010 flush as 0xAF. -/
theorem test_eflush_example :
    leaves (exec .eflush { demo with pbits := [true, false, true, false] })
      (fun t => decide (t.ecsLen = 1 ∧ t.ecsByte 0 = 0xAF ∧ t.ebitsWord = 0)) = true := by decide +kernel

/-- 45_entropy R266: pending ones flush as 0xFF with a stuff byte. -/
theorem test_eflush_stuffs :
    leaves (exec .eflush { demo with pbits := [true] })
      (fun t => decide (t.ecsLen = 2 ∧ t.ecsByte 0 = 0xFF ∧ t.ecsByte 1 = 0x00)) = true := by decide +kernel

/-- 45_entropy R267: the example of ERESET. -/
theorem test_ereset_example :
    leaves (exec .ereset { demo with pred := demo.pred.set 0 (-3), pbits := [true, false, true, false], ecsLen := 1 })
      (fun t => decide (t.pred[0] = 0 ∧ t.ebitsWord = 0 ∧ t.ecsLen = 0)) = true := by decide +kernel

/-! ## Witnesses: concrete states and operands that meet the hypotheses of the statements, clause by clause -/

/-- The invariant as a check. -/
def invHolds (s : State) : Bool :=
  Params.inRange ⟨s.inSize, s.outSize, s.ecsSize⟩ &&
  decide ((s.status.busy = true → s.status.done = false ∧ s.status.err = false) ∧
    (s.status.err = true ↔ s.status.errCode ≠ 0) ∧ s.status.errCode.toNat ≤ 11) &&
  decide (s.inLen.toNat ≤ s.inSize.toNat ∧ s.outLen.toNat ≤ s.outSize.toNat ∧ s.ecsLen.toNat ≤ s.ecsSize.toNat ∧
    s.pbits.length ≤ 7) &&
  s.mem.wf && s.mem.all (fun c => s.inWindows c.1) &&
  [DecodeTable.litlen, .dist, .clen].all (fun t => decide (kraftSum (s.hlen t) ≤ 2 ^ 15)) &&
  s.qt0.toList.all (fun q => decide (q ≠ 0)) && s.qt1.toList.all (fun q => decide (q ≠ 0)) &&
  (List.finRange 4).all (fun t => ehufTableOk t s.ehuf[t])

theorem inv_of_holds {s : State} (h : invHolds s = true) : s.Inv := by
  simp only [invHolds, Bool.and_eq_true, decide_eq_true_eq, List.all_cons, List.all_nil] at h
  obtain ⟨⟨⟨⟨⟨⟨⟨⟨hz, hs⟩, hl⟩, hw⟩, hm⟩, hk⟩, hq0⟩, hq1⟩, he⟩ := h
  exact
    { sizes := hz, status := hs, inLen := hl.1, outLen := hl.2.1, ecsLen := hl.2.2.1, pbits := hl.2.2.2
      memWf := hw, memIn := hm, qt0 := hq0, qt1 := hq1
      kraft := fun t => by cases t <;> [exact hk.1; exact hk.2.1; exact hk.2.2.1]
      ehuf := fun t => by simpa using List.all_eq_true.mp he t (List.mem_finRange t) }

theorem witness_demo_inv : demo.Inv := inv_of_holds (by decide +kernel)
theorem witness_input_inv : (withInput [0x01, 0x01, 0x00, 0x00, 0x00, 0x41]).Inv := inv_of_holds (by decide +kernel)
theorem witness_tiny_inv : withTiny.Inv := inv_of_holds (by decide +kernel)

/-- A segment without 0xFF bytes is stuffed; an empty one is. -/
theorem witness_stuffed : demo.Stuffed := fun i hi => absurd hi (by simp [demo])

theorem witness_encode_of_decode : decode 0x00000002#32 = .ok .align := by decide

theorem witness_illegal_word :
    let s : State := { demo with status := { demo.status with busy := true }, pending := 5 }
    s.status.busy = true ∧ legalWord s.pending = false := by decide +kernel

theorem witness_step_runs :
    let s : State := { demo with status := { demo.status with busy := true }, pending := 0x1B }
    s.status.busy = true ∧ decode s.pending = .ok .ereset ∧ s.bus = [] ∧
      (s.setBus [.engine, .engine]).bus = .engine :: [.engine] := by decide +kernel

/-- A host read and a host write at the head of the host's sequence while the engine is busy, its own point while it is
idle, and a word no command has. -/
theorem witness_step_heads :
    (let s := (demo.acceptCommand 2).setBus [.read 0x08#32 .word, .engine]
     s.bus = .read 0x08#32 .word :: [.engine] ∧ s.status.busy = true) ∧
    (let s := (demo.acceptCommand 2).setBus [.write 0x18#32 .word 7]
     s.bus = .write 0x18#32 .word 7 :: [] ∧ s.status.busy = true) ∧
    (let s := demo.setBus [.engine]
     s.bus = .engine :: [] ∧ s.status.busy = false) ∧
    (let s := (demo.acceptCommand 5).setBus [.engine]
     s.status.busy = true ∧ legalWord s.pending = false ∧ s.bus = .engine :: [] ∧ (s.setBus []).bus = []) := by
  decide +kernel

theorem witness_error_and_none :
    demo.status.err = false ∧
    leaves (exec .zinflate demo) (fun t => t.status.err) = true ∧
    leaves (exec .align demo) (fun t => !t.status.err) = true := by decide +kernel

theorem witness_input_kept : (∃ t, exec .inflate (withInput [0x4B, 0x04, 0x00]) = .next t) ∧ 0 < 2 ^ 24 ∧ 2 ^ 24 - 1 < 2 ^ 24 :=
  ⟨⟨_, rfl⟩, by decide, by decide⟩

/-- Each field that only some commands write is written by one of them. -/
theorem witness_result_written :
    leaves (exec (.rdbits 3) (withInput [0xB5])) (fun t => decide (t.result ≠ 0 ∧ t.brPos ≠ 0)) = true := by
  decide +kernel
theorem witness_inflate_writes :
    leaves (exec .infblk (withInput [0x01, 0x01, 0x00, 0x00, 0x00, 0x41]))
      (fun t => decide (t.outLen ≠ 0 ∧ t.status.last ≠ false)) = true := by decide +kernel
theorem witness_hlen_written :
    leaves (exec (.hbuild 0 1) (withLens [1])) (fun t => decide (t.hlen0[0] ≠ 0)) = true ∧
    leaves (exec (.hbuild 1 1) (withLens [1])) (fun t => decide (t.hlen1[0] ≠ 0)) = true ∧
    leaves (exec (.hbuild 2 1) (withLens [1])) (fun t => decide (t.hlen2[0] ≠ 0)) = true := by decide +kernel
theorem witness_tables_written :
    leaves (exec (.qbuild 1) demo) (fun t => decide (t.qt0.getD 0 0 ≠ 1)) = true ∧
    leaves (exec .fdct { demo with blk := Vector.replicate 64 1 }) (fun t => decide (t.dctbuf.getD 0 0 ≠ 0)) = true ∧
    leaves (exec (.quant 0) { demo with dctbuf := Vector.replicate 64 0x42800000 })
      (fun t => decide (t.coef.getD 0 0 ≠ 0)) = true ∧
    leaves (exec (.ehbuild 0) withSpec) (fun t => decide ((t.ehuf[0]).getD 0 .absent ≠ .absent)) = true := by
  decide +kernel
theorem witness_encoder_written :
    leaves (exec (.encblk 0) { withTiny with coef := withTiny.coef.set 0 1 })
      (fun t => decide (t.pred[0] ≠ 0 ∧ t.pbits ≠ [])) = true ∧
    leaves (exec .eflush { demo with pbits := [true] }) (fun t => decide (t.ecsLen ≠ 0)) = true := by decide +kernel

/-- A command that writes a byte of OUT, and one that writes a byte of ECS, from states with the invariant. -/
theorem witness_memory_written :
    (withInput [0x01, 0x01, 0x00, 0x00, 0x00, 0x41]).Inv ∧ { demo with pbits := [true] }.Inv ∧
    leaves (exec .infblk (withInput [0x01, 0x01, 0x00, 0x00, 0x00, 0x41]))
      (fun t => decide (memFind t.mem outBase = some 0x41)) = true ∧
    leaves (exec .eflush { demo with pbits := [true] }) (fun t => decide (memFind t.mem ecsBase = some 0xFF)) = true :=
  ⟨witness_input_inv, inv_of_holds (by decide +kernel), by decide +kernel, by decide +kernel⟩

theorem witness_bytes_past_limit :
    let s := withInput [0x78, 0x9C, 0x4B, 0x04, 0x00, 0x00, 0x62, 0x00, 0x62]
    s.mem.wf = true ∧ s.inLen.toNat ≤ 2 ^ 24 ∧ 9 < 2 ^ 24 ∧ s.inLen.toNat ≤ 9 ∧ (1 < 2 ∨ s.inLen.toNat ≤ 1 + 4) ∧
      (5 < 2 ∨ s.inLen.toNat ≤ 5 + 4) ∧ ∃ t, exec .zinflate s = .next t :=
  ⟨by decide +kernel, by decide +kernel, by decide, by decide +kernel, by decide, by decide +kernel, _, rfl⟩

theorem witness_idle : demo.status.busy = false ∧ demo.bus = [] := ⟨rfl, rfl⟩

/-- RDBITS at both ends of its range, at the limit and one bit past it, and its illegal counts. -/
theorem witness_rdbits :
    let s := withInput [0xB5, 0x01]
    (1 ≤ (16 : BitVec 5).toNat ∧ (16 : BitVec 5).toNat ≤ 16 ∧ s.brPos.toNat + (16 : BitVec 5).toNat ≤ 8 * s.inLen.toNat) ∧
    (1 ≤ (1 : BitVec 5).toNat ∧ s.brPos.toNat + (1 : BitVec 5).toNat ≤ 8 * s.inLen.toNat) ∧
    8 * s.inLen.toNat < (s.setBrPos 1).brPos.toNat + (16 : BitVec 5).toNat ∧
    (0 : BitVec 5).toNat = 0 ∧ 16 < (17 : BitVec 5).toNat := by decide +kernel

theorem witness_align :
    { demo with brPos := 8 }.brPos.extractLsb' 0 3 = 0 ∧ 0xFFFFFFF9 ≤ { demo with brPos := 0xFFFFFFF9 }.brPos.toNat ∧
    opcodeOf 0x00000102#32 = 0x02 ∧ (0x00000102#32).extractLsb' 8 24 ≠ 0 := by decide +kernel

/-- HBUILD: a table at its whole capacity that is accepted, one with a length above 15, one over-subscribed, and the two
illegal operands. -/
theorem witness_hbuild :
    decodeTableOf 2 = some .clen ∧ (19 : BitVec 9).toNat ≤ DecodeTable.clen.capacity ∧
    (let s := withLens (List.replicate 19 5)
     (∀ j, j < 19 → (s.lens.getD j 0).toNat ≤ 15) ∧
     ((List.range 19).map fun j => if (s.lens.getD j 0).toNat = 0 then 0 else 2 ^ (15 - (s.lens.getD j 0).toNat)).sum ≤ 2 ^ 15) ∧
    15 < ((withLens [16]).lens.getD 0 0).toNat ∧
    (let s := withLens [1, 1, 1]
     2 ^ 15 < ((List.range 3).map fun j => if (s.lens.getD j 0).toNat = 0 then 0 else 2 ^ (15 - (s.lens.getD j 0).toNat)).sum) ∧
    decodeCapacity 2 < (20 : BitVec 9).toNat ∧ (3 : BitVec 2) = 3 := by decide +kernel

theorem witness_canonical_codes :
    (∀ l ∈ [3, 3, 3, 3, 3, 2, 4, 4], l ≤ 15) ∧ kraftSum [3, 3, 3, 3, 3, 2, 4, 4] ≤ 2 ^ 15 ∧
    5 < [3, 3, 3, 3, 3, 2, 4, 4].length ∧ [3, 3, 3, 3, 3, 2, 4, 4].getD 5 0 ≠ 0 ∧
    [3, 3, 3, 3, 3, 2, 4, 4].getD 5 0 ≤ [3, 3, 3, 3, 3, 2, 4, 4].getD 0 0 := by decide +kernel

/-- The example of 40_bitreader R133: the code 00 of symbol 5 stands at the cursor, and ends within the input. -/
theorem witness_hdecode :
    let s := withTable [3, 3, 3, 3, 3, 2, 4, 4] [0x00]
    decodeTableOf 0 = some .litlen ∧ 5 < DecodeTable.litlen.capacity ∧ kraftSum (s.hlen .litlen) ≤ 2 ^ 15 ∧
    s.inLen.toNat ≤ 2 ^ 24 ∧ (s.hlen .litlen).getD 5 0 = 2 ∧ s.brPos.toNat + 2 ≤ 8 * s.inLen.toNat ∧
    ∀ k, k < 2 → s.streamBit (s.brPos.toNat + k) = ((canonicalCodes (s.hlen .litlen)).getD 5 0).testBit (2 - 1 - k) := by
  decide +kernel

theorem witness_hdecode_outcomes :
    demo.inLen.toNat ≤ 2 ^ 24 ∧ decodeTableOf 2 = some .clen ∧ decodeTableOf 3 = none ∧
    ∀ j, j < DecodeTable.clen.capacity → (demo.hlen .clen).getD j 0 = 0 := by decide +kernel

/-- Copy: two bytes of history, OUT of 64: a copy that fits whole, one that overflows by one byte, one too far. -/
theorem witness_copy :
    let s : State := { demo with outLen := 2 }
    1 ≤ 2 ∧ s.outLen.toNat ≤ s.outSize.toNat ∧ 2 ≤ s.outLen.toNat ∧ s.outLen.toNat + 62 ≤ s.outSize.toNat ∧
    s.outSize.toNat < s.outLen.toNat + 63 ∧ s.outLen.toNat < 3 := by decide +kernel

/-- A stored block of three bytes whose NLEN is wrong, that ends at the end of the input. -/
theorem witness_stored_block :
    let s := withInput [0x01, 0x03, 0x00, 0x00, 0x00, 0x41, 0x42, 0x43]
    s.StoredBlockAt s.brPos.toNat 1 3 true ∧ s.inLen.toNat ≤ 2 ^ 24 ∧ 1 + 4 + 3 ≤ s.inLen.toNat ∧
      s.outLen.toNat + 3 ≤ s.outSize.toNat :=
  ⟨⟨by decide +kernel, by decide +kernel, by decide +kernel, by decide +kernel, by decide +kernel⟩, by decide +kernel,
    by decide +kernel, by decide +kernel⟩

/-- The header ends before its first bit, inside it, and with BTYPE = 3 just within the input. -/
theorem witness_header_errors :
    8 * demo.inLen.toNat < demo.brPos.toNat + 1 ∧
    (let s := (withInput [0xFF]).setBrPos 6
     s.brPos.toNat + 1 ≤ 8 * s.inLen.toNat ∧ 8 * s.inLen.toNat < s.brPos.toNat + 3) ∧
    (let s := (withInput [0xFF]).setBrPos 5
     s.brPos.toNat + 3 ≤ 8 * s.inLen.toNat ∧ s.streamBit (s.brPos.toNat + 1) = true ∧
       s.streamBit (s.brPos.toNat + 2) = true) := by decide +kernel

theorem witness_inflate_repeats :
    (withInput [0x4B, 0x04, 0x00]).inLen.toNat ≤ 2 ^ 24 ∧ (withInput [0x4B, 0x04, 0x00]).status.err = false := by
  decide +kernel

/-- The example of 41_inflate R170, "a" as one fixed block. -/
theorem witness_fixed_literals :
    let s := withInput [0x4B, 0x04, 0x00]
    s.inLen.toNat ≤ 2 ^ 24 ∧ [(0x61 : Byte)].length ≤ s.outSize.toNat ∧
    s.brPos.toNat + (fixedLiteralStream [0x61]).length ≤ 8 * s.inLen.toNat ∧
    s.streamBits s.brPos.toNat (fixedLiteralStream [0x61]).length = fixedLiteralStream [0x61] := by decide +kernel

theorem witness_fixed_legal : BlockTables.fixed.Legal ∧ BlockTables.fixed.lit.getD 256 0 ≠ 0 :=
  ⟨trivial, by decide +kernel⟩

/-- Vector D3 of 95_test_vectors, a fixed block that gives abcabcabc: a, b, c, a, then length 5 at distance 3. (The vector
speaks of length 6; its cursor of 54 is that of four literals.) -/
theorem witness_fixed_tokens :
    let s := withInput [0x4B, 0x4C, 0x4A, 0x4E, 0x04, 0x23, 0x00]
    let tokens := [.literal 0x61, .literal 0x62, .literal 0x63, .literal 0x61, Token.copy 2 0 2 0]
    tokens.foldl Token.extend s.decodeResult = [0x61, 0x62, 0x63, 0x61, 0x62, 0x63, 0x61, 0x62, 0x63] ∧
    tokensLegal fixedLit fixedDist s.decodeResult tokens = true ∧ s.inLen.toNat ≤ 2 ^ 24 ∧
    (tokens.foldl Token.extend s.decodeResult).length ≤ s.outSize.toNat ∧
    s.brPos.toNat + (huffmanBlock true .fixed tokens).length ≤ 8 * s.inLen.toNat ∧
    s.streamBits s.brPos.toNat (huffmanBlock true .fixed tokens).length = huffmanBlock true .fixed tokens := by
  decide +kernel

/-- The code-length symbols of vector D13 of 95_test_vectors, as that file lists them, with their repeats 18, 16, 17. -/
def d13Ops : List LengthOp :=
  ([.manyZeros 86, .length 2, .length 2, .manyZeros 54, .length 3, .manyZeros 80, .length 4, .again 0] : List LengthOp) ++
  ([.length 3, .length 3, .length 0, .length 0, .length 2, .length 2, .zeros 0, .length 2, .length 3] : List LengthOp)

/-- The header of vector D13, as 95_test_vectors lists it: HLIT 261, HDIST 10, HCLEN 16 and the lengths of HLEN2. -/
def d13Tables : BlockTables :=
  .dynamic 4 9 12 [3, 0, 2, 2, 3, 0, 0, 0, 0, 0, 0, 0, 0, 0, 0, 0, 4, 4, 3] d13Ops

/-- The tokens of vector D13. -/
def d13Tokens : List Token :=
  let a : Token := .literal 0x61
  let b : Token := .literal 0x62
  let x : Token := .literal 0xA4
  ([a, a, a, b, a, .copy 1 0 0 0, b, a, b, b, .copy 2 0 4 1, a] : List Token) ++
  ([a, x, a, b, x, .copy 3 0 8 2, .copy 2 0 3 0, b, .copy 0 0 8 0, .copy 3 0 9 4, b] : List Token)

/-- The bytes of vector D13. -/
def d13Stream : List Byte :=
  [0x25, 0x89, 0xC9, 0x0D, 0x00, 0x00, 0x0C, 0x82, 0x66, 0x85, 0xD9, 0x1C, 0xB4, 0x87] ++
  [0x26, 0xF0, 0x40, 0x40, 0x6E, 0xA2, 0x6F, 0x08, 0xA6, 0xE9, 0x71, 0x43, 0x4F, 0x07]

theorem witness_dynamic_legal : d13Tables.Legal ∧ d13Tables.lit.getD 256 0 ≠ 0 := by
  simp only [d13Tables, BlockTables.Legal, CountsLegal, KraftOk]
  decide +kernel

/-- The stream of D13 is that header and those tokens, and they stand for the 46 bytes the vector lists. -/
theorem witness_dynamic_tokens :
    let s := withInput d13Stream
    tokensLegal d13Tables.lit d13Tables.dist s.decodeResult d13Tokens = true ∧ s.inLen.toNat ≤ 2 ^ 24 ∧
    (d13Tokens.foldl Token.extend s.decodeResult).length ≤ s.outSize.toNat ∧
    s.brPos.toNat + (huffmanBlock true d13Tables d13Tokens).length ≤ 8 * s.inLen.toNat ∧
    s.streamBits s.brPos.toNat (huffmanBlock true d13Tables d13Tokens).length = huffmanBlock true d13Tables d13Tokens ∧
    (huffmanBlock true d13Tables d13Tokens).length = 221 ∧
    d13Tokens.foldl Token.extend s.decodeResult =
      [0x61, 0x61, 0x61, 0x62, 0x61, 0x61, 0x61, 0x61, 0x61, 0x62, 0x61, 0x62, 0x62, 0x61, 0x61, 0x62] ++
      [0x61, 0x62, 0x61, 0x61, 0xA4, 0x61, 0x62, 0xA4, 0x61, 0x61, 0x61, 0x61, 0x62, 0x61, 0x61, 0x61] ++
      [0x62, 0x61, 0x61, 0x62, 0x61, 0xA4, 0x61, 0x61, 0x62, 0x62, 0x61, 0x61, 0x62, 0x62] := by decide +kernel

/-- A stored block, with IN ending inside LEN, inside NLEN and inside the data (vector D9), and with OUT full before the
third byte (vector D10). -/
theorem witness_stored_failures :
    (let s := withInput [0x01]
     s.StoredBlockAt s.brPos.toNat 1 ((s.inByte 1).toNat + 256 * (s.inByte 2).toNat) true ∧ s.inLen.toNat < 1 + 2 ∧
       s.brPos.toNat + 3 ≤ 8 * s.inLen.toNat) ∧
    (let s := withInput [0x01, 0x05, 0x00, 0xFA]
     s.StoredBlockAt s.brPos.toNat 1 5 true ∧ 1 + 2 ≤ s.inLen.toNat ∧ s.inLen.toNat < 1 + 4) ∧
    (let s := withInput [0x01, 0x05, 0x00, 0xFA, 0xFF, 0x41, 0x42, 0x43]
     s.StoredBlockAt s.brPos.toNat 1 5 true ∧ s.inLen.toNat ≤ 2 ^ 24 ∧ s.outLen.toNat ≤ s.outSize.toNat ∧
       1 + 4 ≤ s.inLen.toNat ∧ s.inLen.toNat - (1 + 4) < 5 ∧ s.inLen.toNat - (1 + 4) ≤ s.outSize.toNat - s.outLen.toNat) ∧
    (let s := { withInput [0x01, 0x03, 0x00, 0xFC, 0xFF, 0x41, 0x42, 0x43] with outSize := 2 }
     s.StoredBlockAt s.brPos.toNat 1 3 true ∧ 1 + 4 ≤ s.inLen.toNat ∧ s.outSize.toNat - s.outLen.toNat < 3 ∧
       s.outSize.toNat - s.outLen.toNat < s.inLen.toNat - (1 + 4)) :=
  ⟨⟨⟨by decide +kernel, by decide +kernel, by decide +kernel, by decide +kernel, rfl⟩, by decide +kernel, by decide +kernel⟩,
    ⟨⟨by decide +kernel, by decide +kernel, by decide +kernel, by decide +kernel, by decide +kernel⟩, by decide +kernel,
      by decide +kernel⟩,
    ⟨⟨by decide +kernel, by decide +kernel, by decide +kernel, by decide +kernel, by decide +kernel⟩, by decide +kernel⟩,
    ⟨by decide +kernel, by decide +kernel, by decide +kernel, by decide +kernel, by decide +kernel⟩, by decide +kernel⟩

/-- Bits packed into bytes, the first in bit 0 (20_memory R81). -/
def packBits : Nat → List Bool → List Byte
  | 0, _ => []
  | n + 1, bits => BitVec.ofNat 8 (bitsValueLsb (bits.take 8)) :: packBits n (bits.drop 8)

/-- `demo` with a stream in IN. -/
def withStream (bits : List Bool) : State := withInput (packBits ((bits.length + 7) / 8) bits)

/-- The stream stands at the cursor, within the input. -/
def streamStands (s : State) (stream : List Bool) : Bool :=
  decide (s.inLen.toNat ≤ 2 ^ 24 ∧ s.brPos.toNat + stream.length ≤ 8 * s.inLen.toNat) &&
    s.streamBits s.brPos.toNat stream.length == stream

/-- The bits of a dynamic block up to a failure of its header, as `InfblkHeaderErrors` writes them. -/
def headerStream (hlit hdist hclen : Nat) (cl : List Nat) (ops : List LengthOp) (f : HeaderFailure) : List Bool :=
  true :: false :: true :: countBits hlit hdist hclen cl ++ opsBits cl ops ++ f.bits cl

/-- The lengths of a code-length code: `n` for each symbol listed. -/
def clLengths (n : Nat) (symbols : List Nat) : List Nat := (List.range 19).map fun i => if i ∈ symbols then n else 0

/-- Vector D14: a first code-length symbol 16. Vector D15: four lengths of 1 in the code-length code. -/
theorem witness_header_vectors :
    (CountsLegal 0 0 0 (clLengths 1 [0, 16]) ∧ HeaderFailure.firstRepeat.Occurs 0 0 0 (clLengths 1 [0, 16]) [] ∧
      streamStands (withInput [0x05, 0x00, 0x02, 0x24]) (headerStream 0 0 0 (clLengths 1 [0, 16]) [] .firstRepeat) = true ∧
      (headerStream 0 0 0 (clLengths 1 [0, 16]) [] .firstRepeat).length = 30) ∧
    (CountsLegal 0 0 0 (clLengths 1 [0, 16, 17, 18]) ∧
      HeaderFailure.codeLengths.Occurs 0 0 0 (clLengths 1 [0, 16, 17, 18]) [] ∧
      streamStands (withInput [0x05, 0x00, 0x92, 0x04]) (headerStream 0 0 0 (clLengths 1 [0, 16, 17, 18]) [] .codeLengths)
        = true ∧
      (headerStream 0 0 0 (clLengths 1 [0, 16, 17, 18]) [] .codeLengths).length = 29) := by
  simp only [CountsLegal, HeaderFailure.Occurs, KraftOk]
  decide +kernel

/-- A repeat of 138 zeros, then another that passes the 258 lengths wanted; three literal/length codes of one bit; three
distance codes of one bit. -/
theorem witness_header_failures :
    (let f := HeaderFailure.overrun (.manyZeros 127)
     f.Occurs 0 0 0 (clLengths 1 [18]) [.manyZeros 127] ∧
       streamStands (withStream (headerStream 0 0 0 (clLengths 1 [18]) [.manyZeros 127] f))
         (headerStream 0 0 0 (clLengths 1 [18]) [.manyZeros 127] f) = true) ∧
    (let ops := [LengthOp.length 1, .length 1, .length 1, .manyZeros 127, .manyZeros 106]
     HeaderFailure.litTable.Occurs 0 0 14 (clLengths 1 [1, 18]) ops ∧
       streamStands (withStream (headerStream 0 0 14 (clLengths 1 [1, 18]) ops .litTable))
         (headerStream 0 0 14 (clLengths 1 [1, 18]) ops .litTable) = true) ∧
    (let ops := [LengthOp.manyZeros 127, .manyZeros 108, .length 1, .length 1, .length 1]
     HeaderFailure.distTable.Occurs 0 2 14 (clLengths 1 [1, 18]) ops ∧
       streamStands (withStream (headerStream 0 2 14 (clLengths 1 [1, 18]) ops .distTable))
         (headerStream 0 2 14 (clLengths 1 [1, 18]) ops .distTable) = true) := by
  simp only [HeaderFailure.Occurs, KraftOk]
  decide +kernel

theorem witness_counts_legal :
    CountsLegal 0 0 0 (clLengths 1 [18]) ∧ CountsLegal 0 0 14 (clLengths 1 [1, 18]) ∧
    CountsLegal 0 2 14 (clLengths 1 [1, 18]) := by
  simp only [CountsLegal]
  decide +kernel

/-- With the one code 0, of length 1, the bit 1 leaves the code; an empty table is left at once (40_bitreader R124). -/
theorem witness_leaves_code :
    LeavesCode (clLengths 1 [18]) [true] ∧ LeavesCode (List.replicate 32 0) [] := by
  refine ⟨⟨by decide +kernel, fun j hj => ?_⟩, by decide +kernel, fun j hj => absurd hj (Nat.not_lt_zero j)⟩
  obtain rfl : j = 0 := by simpa using hj
  exact ⟨fun sym h => h.2.1 rfl, 18, by decide +kernel⟩

theorem witness_header_no_code :
    (HeaderFailure.noCode [true]).Occurs 0 0 0 (clLengths 1 [18]) [] ∧
    streamStands (withStream (headerStream 0 0 0 (clLengths 1 [18]) [] (.noCode [true])))
      (headerStream 0 0 0 (clLengths 1 [18]) [] (.noCode [true])) = true :=
  ⟨⟨by simp only [KraftOk]; decide +kernel, by decide +kernel, by decide +kernel, witness_leaves_code.1⟩, by decide +kernel⟩

/-- Vectors D5, D6 and D7: length symbol 286, distance symbol 30, and a distance of 1 before any output; and a literal with
OUT full. -/
theorem witness_body_failures :
    ((BodyFailure.badLength 286).Occurs fixedLit fixedDist [0x78] 64 ∧
      streamStands (withInput [0xAB, 0x18, 0x03])
        (huffmanTokens true .fixed [.literal 0x78] ++ (BodyFailure.badLength 286).bits fixedLit fixedDist) = true) ∧
    ((BodyFailure.badDistance 0 0 30).Occurs fixedLit fixedDist [0x78] 64 ∧
      streamStands (withInput [0xAB, 0x00, 0x3E])
        (huffmanTokens true .fixed [.literal 0x78] ++ (BodyFailure.badDistance 0 0 30).bits fixedLit fixedDist) = true) ∧
    ((BodyFailure.tooFar 0 0 0 0).Occurs fixedLit fixedDist [] 64 ∧
      streamStands (withInput [0x03, 0x02])
        (huffmanTokens true .fixed [] ++ (BodyFailure.tooFar 0 0 0 0).bits fixedLit fixedDist) = true) ∧
    ((BodyFailure.noRoom (.literal 0x61)).Occurs fixedLit fixedDist (List.replicate 64 0) 64 ∧
      streamStands { withInput [0x4B, 0x04, 0x00] with outLen := 64 }
        (huffmanTokens true .fixed [] ++ (BodyFailure.noRoom (.literal 0x61)).bits fixedLit fixedDist) = true) ∧
    tokensLegal fixedLit fixedDist demo.decodeResult [.literal 0x78] = true := by
  simp only [BodyFailure.Occurs, lengthLegal]
  decide +kernel

/-- A dynamic block whose only literal/length codes are 0 for symbol 256 and 1 for symbol 257, and whose distance table is
empty. -/
def bareTables : BlockTables :=
  .dynamic 1 0 14 (clLengths 2 [0, 1, 18]) [.manyZeros 127, .manyZeros 107, .length 1, .length 1, .length 0]

/-- A dynamic block whose only literal/length code is 0, for symbol 256, and whose distance table is empty. -/
def barerTables : BlockTables :=
  .dynamic 0 0 14 (clLengths 2 [0, 1, 18]) [.manyZeros 127, .manyZeros 107, .length 1, .length 0]

theorem witness_bare_tables : bareTables.Legal ∧ barerTables.Legal := by
  simp only [bareTables, barerTables, BlockTables.Legal, CountsLegal, KraftOk]
  decide +kernel

/-- Bits that leave the literal/length code, and a length symbol with no distance code after it. -/
theorem witness_body_no_code :
    (BodyFailure.noLitCode [true]).Occurs barerTables.lit barerTables.dist [] 64 ∧
    (BodyFailure.noDistCode 0 0 []).Occurs bareTables.lit bareTables.dist [] 64 ∧
    streamStands (withStream (huffmanTokens true barerTables [] ++ [true])) (huffmanTokens true barerTables [] ++ [true])
      = true ∧
    (let stream := huffmanTokens true bareTables [] ++ (BodyFailure.noDistCode 0 0 []).bits bareTables.lit bareTables.dist
     streamStands (withStream stream) stream = true) := by
  refine ⟨⟨by decide +kernel, fun j hj => ?_⟩, ⟨by simp only [lengthLegal]; decide +kernel, ?_⟩, by decide +kernel,
    by decide +kernel⟩
  · obtain rfl : j = 0 := by simpa using hj
    exact ⟨fun sym h => h.2.1 rfl, 256, by decide +kernel⟩
  · exact ⟨by decide +kernel, fun j hj => absurd hj (Nat.not_lt_zero j)⟩

/-- A run inside a code, as a check. -/
def insideCheck (lens : List Nat) (p : List Bool) : Bool :=
  (List.range lens.length).all (fun sym =>
    decide (¬ (p ≠ [] ∧ lens.getD sym 0 = p.length ∧ (canonicalCodes lens).getD sym 0 = bitsValue p))) &&
  (List.range lens.length).any fun sym =>
    decide (p.length < lens.getD sym 0 ∧
      (canonicalCodes lens).getD sym 0 / 2 ^ (lens.getD sym 0 - p.length) = bitsValue p)

theorem staysInside_of_check {lens : List Nat} {p : List Bool}
    (h : (List.range (p.length + 1)).all (fun j => insideCheck lens (p.take j)) = true) : StaysInside lens p := by
  intro j hj
  have hc := List.all_eq_true.mp h j (List.mem_range.mpr (by omega))
  simp only [insideCheck, Bool.and_eq_true, List.all_eq_true, List.any_eq_true, decide_eq_true_eq, List.mem_range] at hc
  obtain ⟨h1, sym, hs, h2⟩ := hc
  exact ⟨fun y hy => h1 y hy.1 hy.2, sym, hs, h2⟩

/-- The input ends where more bits are wanted. -/
def inputEnds (s : State) (stream : List Bool) (wants : Nat) : Bool :=
  streamStands s stream && decide (8 * s.inLen.toNat < s.brPos.toNat + stream.length + wants)

/-- Vector D8: the first 5 bits of the end-of-block code, and the end of the input. Vector D8a: the first 5 bits of a
literal's code. -/
theorem witness_cut_literal_code :
    (BodyFailure.cutLitCode (List.replicate 5 false)).Occurs fixedLit fixedDist [0x61] 64 ∧
    inputEnds (withInput [0x4B, 0x04]) (huffmanTokens true .fixed [.literal 0x61] ++ List.replicate 5 false) 1 = true ∧
    (BodyFailure.cutLitCode [true, false, false, true, false]).Occurs fixedLit fixedDist [] 64 ∧
    inputEnds (withInput [0x4B]) (huffmanTokens true .fixed [] ++ [true, false, false, true, false]) 1 = true :=
  ⟨staysInside_of_check (by decide +kernel), by decide +kernel, staysInside_of_check (by decide +kernel), by decide +kernel⟩

/-- A fixed block that ends inside the extra bits of length symbol 269, inside the distance code after symbol 257, and
inside the extra bits of distance symbol 4. -/
theorem witness_cut_back_reference :
    ((BodyFailure.cutLengthExtra 12).Occurs fixedLit fixedDist [] 64 ∧
      (let stream := huffmanTokens true .fixed [] ++ (BodyFailure.cutLengthExtra 12).bits fixedLit fixedDist
       inputEnds ((withStream (List.replicate 5 false ++ stream)).setBrPos 5) stream 2 = true)) ∧
    ((BodyFailure.cutDistCode 0 0 [false]).Occurs fixedLit fixedDist [] 64 ∧
      (let stream := huffmanTokens true .fixed [] ++ (BodyFailure.cutDistCode 0 0 [false]).bits fixedLit fixedDist
       inputEnds ((withStream (List.replicate 5 false ++ stream)).setBrPos 5) stream 1 = true)) ∧
    ((BodyFailure.cutDistExtra 0 0 4).Occurs fixedLit fixedDist [] 64 ∧
      (let stream := huffmanTokens true .fixed [] ++ (BodyFailure.cutDistExtra 0 0 4).bits fixedLit fixedDist
       inputEnds ((withStream (List.replicate 1 false ++ stream)).setBrPos 1) stream 1 = true)) := by
  refine ⟨⟨?_, by decide +kernel⟩, ⟨⟨?_, staysInside_of_check (by decide +kernel)⟩, by decide +kernel⟩, ?_, by decide +kernel⟩ <;>
    simp only [BodyFailure.Occurs, lengthLegal] <;> decide +kernel

/-- A dynamic header that ends in HLIT, in the last length of the code-length code, inside a code and inside the extra bits
of a repeat. -/
theorem witness_cut_header :
    (let stream := [true, false, true] ++ (countBits 0 0 0 (clLengths 1 [18])).take (5 * 0)
     inputEnds ((withStream (List.replicate 5 false ++ stream)).setBrPos 5) stream 5 = true) ∧
    (let stream := [true, false, true] ++ (countBits 0 0 0 (clLengths 1 [18])).take (14 + 3 * (6 - 3))
     inputEnds ((withStream (List.replicate 6 false ++ stream)).setBrPos 6) stream 3 = true ∧ 6 < 3 + (0 + 4)) ∧
    ((HeaderFailure.cutCode []).Occurs 0 0 0 (clLengths 1 [18]) [] ∧
      (let stream := headerStream 0 0 0 (clLengths 1 [18]) [] (.cutCode [])
       inputEnds ((withStream (List.replicate 3 false ++ stream)).setBrPos 3) stream 1 = true)) ∧
    ((HeaderFailure.cutExtra (.manyZeros 0)).Occurs 0 0 0 (clLengths 1 [18]) [] ∧
      (let stream := headerStream 0 0 0 (clLengths 1 [18]) [] (.cutExtra (.manyZeros 0))
       inputEnds (withStream stream) stream 7 = true)) := by
  refine ⟨by decide +kernel, by decide +kernel, ⟨⟨?_, by decide +kernel, by decide +kernel,
    staysInside_of_check (by decide +kernel)⟩, by decide +kernel⟩, ?_, by decide +kernel⟩ <;>
    simp only [HeaderFailure.Occurs, KraftOk] <;> decide +kernel

theorem witness_zinflate :
    (withInput [1, 2, 3, 4, 5]).inLen.toNat < 6 ∧ 6 ≤ (withInput [1, 2, 3, 4, 5, 6]).inLen.toNat ∧
    (∃ t, exec .inflate (((withInput [1, 2, 3, 4, 5, 6]).setInLen 2).setBrPos 16) = .next t) ∧
    opcodeOf 0x0000010A#32 = 0x0A ∧ (0x0000010A#32).extractLsb' 8 24 ≠ 0 :=
  ⟨by decide +kernel, by decide +kernel, ⟨_, rfl⟩, by decide, by decide⟩

theorem witness_zinflate_stored :
    let s := withInput [0x78, 0x9C, 0x01, 0x01, 0x00, 0xFE, 0xFF, 0x41, 0, 0, 0, 0]
    s.StoredBlockAt 16 3 1 true ∧ s.inLen.toNat ≤ 2 ^ 24 ∧ 7 + 1 ≤ s.inLen.toNat - 4 ∧ 1 ≤ s.outSize.toNat :=
  ⟨⟨by decide +kernel, by decide +kernel, by decide +kernel, by decide +kernel, by decide +kernel⟩, by decide +kernel,
    by decide +kernel, by decide +kernel⟩

theorem witness_loops : (2 ^ 27 : Nat) ≤ 2 ^ 27 := Nat.le_refl _

/-- A word with a reserved bit for each command whose rule names its illegal bits. -/
theorem witness_reserved_bits :
    (opcodeOf 0x00010010#32 = 0x10 ∧ (0x00010010#32).extractLsb' 16 16 ≠ 0) ∧
    (opcodeOf 0x00400011#32 = 0x11 ∧ (0x00400011#32).extractLsb' 22 10 ≠ 0) ∧
    (opcodeOf 0x00000411#32 = 0x11 ∧ (0x00000411#32).extractLsb' 10 6 ≠ 0) ∧
    (opcodeOf 0x00000213#32 = 0x13 ∧ (0x00000213#32).extractLsb' 9 23 ≠ 0) ∧
    (opcodeOf 0x00000418#32 = 0x18 ∧ (0x00000418#32).extractLsb' 10 22 ≠ 0) ∧
    (opcodeOf 0x00000419#32 = 0x19 ∧ (0x00000419#32).extractLsb' 10 22 ≠ 0) ∧
    (opcodeOf 0x0000011A#32 = 0x1A ∧ (0x0000011A#32).extractLsb' 8 24 ≠ 0) ∧
    (opcodeOf 0x8000001B#32 = 0x1B ∧ (0x8000001B#32).extractLsb' 8 24 ≠ 0) := by decide

theorem witness_quality_order : (50 : Nat) ≤ 100 ∧ (63 : Nat) < 64 := by decide

theorem witness_constant_block :
    ∀ n, n < 64 → ({ demo with blk := Vector.replicate 64 0x80 } : State).blk.getD n 0 = 0x80 := by decide +kernel

/-- One unit rounds to itself; 2^24 + 1 units lie halfway between two finite magnitudes. -/
theorem witness_rounding :
    0 < 1 ∧ roundMagnitude 1 1 < f32InfMagnitude ∧ roundMagnitude (2 ^ 24 + 1) 1 < f32InfMagnitude ∧
    roundMagnitude (2 ^ 24 + 1) 1 = 0x01000000 ∧ f32Units 0x01000000 + 1 = 2 ^ 24 + 1 ∧
    f32Units 0x01000001 = 2 ^ 24 + 1 + 1 := by decide +kernel

/-- Both sides of the overflow to infinity, the two kinds of finite operand, zeros of both signs, an infinity and a NaN. -/
theorem witness_binary32_operands :
    (2 ^ 25 - 1) * 2 ^ 252 * 1 ≤ (2 ^ 25 - 1) * 2 ^ 252 ∧ ¬ (2 ^ 25 - 1) * 2 ^ 252 * 3 ≤ (2 ^ 25 - 1) * 2 ^ 252 * 3 - 1 ∧
    (0x00000001#32).toNat % 2 ^ 31 < 0x7F800000 ∧ binary32Units ((0x00000001#32).toNat % 2 ^ 31) = 1 ∧
    (0xFF7FFFFF#32).toNat % 2 ^ 31 < 0x7F800000 ∧ binary32Units ((0xFF7FFFFF#32).toNat % 2 ^ 31) = (2 ^ 24 - 1) * 2 ^ 253 ∧
    (0x80000000#32).toNat % 2 ^ 31 < 0x7F800000 ∧ binary32Units ((0x80000000#32).toNat % 2 ^ 31) = 0 ∧
    (0xFF800000#32).toNat % 2 ^ 31 = 0x7F800000 ∧ 0x7F800000 < (0x7FC00000#32).toNat % 2 ^ 31 := by decide +kernel

/-- A NaN, both infinities, values beyond both ends of `s16`, and a tie within. -/
theorem witness_round_sat :
    f32IsNaN 0x7FC00000 = true ∧ f32IsInf 0x7F800000 = true ∧ f32IsInf 0xFF800000 = true ∧
    f32IsNaN 0x47000000 = false ∧ f32IsInf 0x47000000 = false ∧
    32767 * (2 : Int) ^ 149 < f32Scaled 0x47000000 ∧ f32Scaled 0xC7000100 < -32768 * (2 : Int) ^ 149 ∧
    -32768 * (2 : Int) ^ 149 ≤ f32Scaled 0xC0200000 ∧ f32Scaled 0xC0200000 ≤ 32767 * (2 : Int) ^ 149 := by
  decide +kernel

/-- A specification for each of the four refusals, and one that is accepted. -/
theorem witness_specifications :
    256 < ((List.range 16).map fun l => (((Vector.replicate 16 17 : Vector Byte 16)).getD (l + 1 - 1) 0).toNat).sum ∧
    huffBuild 0 ⟨(Vector.replicate 16 0).set 0 1, (Vector.replicate 256 0).set 0 12⟩ = none ∧
    huffBuild 2 ⟨(Vector.replicate 16 0).set 0 2, Vector.replicate 256 7⟩ = none ∧
    huffBuild 2 ⟨(Vector.replicate 16 0).set 0 3, Vector.ofFn fun i => BitVec.ofNat 8 i⟩ = none ∧
    ∃ table, huffBuild 0 (hspecRom 0) = some table :=
  ⟨by decide +kernel, by decide +kernel, by decide +kernel, by decide +kernel,
    Option.isSome_iff_exists.mp (by decide +kernel)⟩

/-- The tables of `withTiny` are built: BITS[1] = 2, VALS = 0, 1. -/
theorem witness_tiny_built :
    ∀ t : Fin 4, huffBuild t ⟨(Vector.replicate 16 0).set 0 2, Vector.ofFn fun i => BitVec.ofNat 8 i⟩ =
      some withTiny.ehuf[t] := by decide +kernel

theorem witness_put_bits : withTiny.pbits.length ≤ 7 ∧ withTiny.ecsLen.toNat + outBytes withTiny.pbits [true] < 2 ^ 32 := by
  decide +kernel

/-- A segment that starts with the header bytes FF D8 the host placed there: not stuffed, and a byte 0xFF emitted after
them with its stuff byte. -/
theorem witness_host_placed_header :
    let s : State := { demo with mem := [(ecsBase, 0xFF), (ecsBase + 1, 0xD8)], ecsLen := 2, pbits := List.replicate 7 true }
    ¬ s.Stuffed ∧ s.pbits.length ≤ 7 ∧ s.ecsLen.toNat + outBytes s.pbits [true] < 2 ^ 32 ∧
      (s.putBits [true]).ecsFrom s.ecsLen.toNat = [0xFF, 0x00] :=
  ⟨fun h => absurd (h 0 (by decide) (by decide +kernel)).2 (by decide +kernel), by decide +kernel, by decide +kernel,
    by decide +kernel⟩

/-- DC differences of size 11 and 12, with a code for the size and without one. -/
theorem witness_dc_fields :
    11 = bitlen (2047 : Int).natAbs ∧ 11 < bitlen (2048 : Int).natAbs ∧
    codeField (ehufRom 0) 11 = some (0x1FE, 9) ∧ codeField tinyTable 11 = none ∧ codeField tinyTable 0 = some (0, 1) := by
  decide +kernel

theorem witness_value_bits : (3 : Int) ≠ 0 ∧ (0 : Int) < 3 ∧ (-3 : Int) < 0 := by decide

theorem witness_reset_tables :
    ∀ t : Fin 4, ({ demo with ehuf := Vector.ofFn ehufRom } : State).ehuf[t] = ehufRom t := by
  intro t
  simp

/-- ENCBLK: no code in the table, a block that fits, one that does not fit by one byte, and C = 3. -/
theorem witness_encblk :
    componentOf 0 = some .y ∧ componentOf 3 = none ∧ demo.pbits.length ≤ 7 ∧ demo.blockBits .y = none ∧
    withTiny.blockBits .y = some [(0, 1), (0, 1)] ∧
    withTiny.ecsLen.toNat + outBytes withTiny.pbits (bitsOfFields [(0, 1), (0, 1)]) ≤ withTiny.ecsSize.toNat ∧
    (let s : State := { withTiny with pbits := [true, true, true, true, true, true, true], ecsLen := 64 }
     s.blockBits .y = some [(0, 1), (0, 1)] ∧
       s.ecsSize.toNat < s.ecsLen.toNat + outBytes s.pbits (bitsOfFields [(0, 1), (0, 1)])) := by decide +kernel

/-- EFLUSH: nothing pending; seven bits pending that just fit; a byte 0xFF that does not fit for its stuff byte. -/
theorem witness_eflush :
    demo.pbits = [] ∧ demo.pbits.length ≤ 7 ∧
    (let s : State := { demo with pbits := [false, true, true, true, true, true, true], ecsLen := 63 }
     s.pbits.length ≤ 7 ∧ s.pbits ≠ [] ∧ s.ecsLen.toNat + emittedBytes (flushByte s.pbits) ≤ s.ecsSize.toNat) ∧
    (let s : State := { demo with pbits := [true], ecsLen := 63 }
     flushByte s.pbits = 0xFF ∧ s.ecsSize.toNat < s.ecsLen.toNat + emittedBytes (flushByte s.pbits)) := by
  decide +kernel

/-- The host: a CMD write accepted, one dropped while busy, one dropped after an error, a CMD read. -/
theorem witness_cmd_write :
    let w : BusEvent := .write 0x0000000C#32 .word 2
    (let s := demo.setBus [w]
     s.bus = w :: [] ∧ s.status.busy = false ∧ s.status.err = false) ∧
    (let s := (demo.acceptCommand 2).setBus [w]
     s.bus = w :: [] ∧ s.status.busy = true) ∧
    (let s := (demo.raiseError .malformedIDAT).setBus [w]
     s.bus = w :: [] ∧ s.status.err = true) ∧
    (demo.setBus [.read 0x0000000C#32 .word]).bus = [.read 0x0000000C#32 .word] := by decide +kernel

theorem witness_status_write : (0x00000002#32 : Word).getLsbD 1 = true := by decide

theorem witness_idle_registers :
    demo.status.busy = false ∧ (0x44#32 : Word) ∈ [0x00#32, 0x10#32, 0x24#32, 0x34#32, 0x38#32, 0x3C#32, 0x40#32, 0x44#32] ∧
    0x48 ≤ (0x48#32 : Word).toNat ∧ (0xFC#32 : Word).toNat < 0x100 ∧ (0xFC#32 : Word).toNat % 4 = 0 ∧
    (0xFFFFFFFE#32 : Word).getLsbD 0 = false ∧
    (let s : State := { demo with pbits := [true, false, true, false, true, true, true] }
     s.pbits.length ≤ 7 ∧ s.ebitsWord = 0x757) := by decide +kernel

/-- A misaligned access, a narrow register access, one that straddles the end of HLEN2, one at an address of no range. -/
theorem witness_dropped :
    demo.Inv ∧ (0x1001#32 : Word).toNat % AccessWidth.half.bytes ≠ 0 ∧ (0x10#32 : Word).toNat < 0x100 ∧
    AccessWidth.byte ≠ .word ∧
    (∃ r ∈ demo.regions, r.first ≤ (0x1712#32 : Word).toNat ∧ (0x1712#32 : Word).toNat < r.first + r.size ∧
      r.first + r.size < (0x1712#32 : Word).toNat + AccessWidth.half.bytes) ∧
    (0x100 ≤ (0x0F00#32 : Word).toNat ∧
      ∀ r ∈ demo.regions, (0x0F00#32 : Word).toNat < r.first ∨ r.first + r.size ≤ (0x0F00#32 : Word).toNat) :=
  ⟨witness_demo_inv, by decide, by decide, by decide, ⟨⟨.hlen .clen, 0x1700, 19⟩, by decide +kernel, by decide⟩,
    by decide +kernel⟩

theorem witness_busy :
    (demo.acceptCommand 2).status.busy = true ∧ (0x44#32 : Word).toNat < 0x48 ∧ (0x10#32 : Word).toNat % 4 = 0 ∧
    0x100 ≤ (0x1000#32 : Word).toNat := by decide +kernel

/-- A write of the last word of each read-write window. -/
theorem witness_windows :
    demo.Inv ∧ demo.status.busy = false ∧
    demo.target? 0x113C#32 .word = some (.window .lens 316) ∧ demo.target? 0x303C#32 .word = some (.window .blk 60) ∧
    demo.target? 0x317C#32 .word = some (.window .coef 124) ∧
    demo.target? 0x460C#32 .word = some (.window (.hspecBits 3) 12) ∧
    demo.target? 0x47FC#32 .word = some (.window (.hspecVals 3) 252) ∧
    demo.target? 0x0100003C#32 .word = some (.window .input 60) ∧
    demo.target? 0x0200003C#32 .word = some (.window .output 60) ∧
    demo.target? 0x0300003F#32 .byte = some (.window .ecs 63) :=
  ⟨witness_demo_inv, rfl, by decide +kernel, by decide +kernel, by decide +kernel, by decide +kernel, by decide +kernel,
    by decide +kernel, by decide +kernel, by decide +kernel⟩

/-- The last byte or word of each read-only window, and a read at the end of DCTBUF and of EHUF3. -/
theorem witness_read_only_windows :
    demo.status.busy = false ∧
    demo.target? 0x151F#32 .byte = some (.window (.hlen .litlen) 287) ∧
    demo.target? 0x161F#32 .byte = some (.window (.hlen .dist) 31) ∧
    demo.target? 0x1712#32 .byte = some (.window (.hlen .clen) 18) ∧
    demo.target? 0x203C#32 .word = some (.window (.qt 0) 60) ∧ demo.target? 0x207F#32 .byte = some (.window (.qt 1) 63) ∧
    demo.target? 0x20BC#32 .word = some (.window .qstdY 60) ∧ demo.target? 0x20FF#32 .byte = some (.window .qstdC 63) ∧
    demo.target? 0x213F#32 .byte = some (.window .zz 63) ∧ demo.target? 0x32FC#32 .word = some (.window .dctbuf 252) ∧
    demo.target? 0x5FFC#32 .word = some (.window (.ehuf 3) 1020) := by decide +kernel

/-- The ends of the read-write windows, within the sizes of `demo`. -/
theorem witness_window_bounds :
    demo.Inv ∧ demo.status.busy = false ∧ 319 < 320 ∧ 255 < 256 ∧ 63 < demo.inSize.toNat ∧ 63 < demo.outSize.toNat ∧
    63 < demo.ecsSize.toNat :=
  ⟨witness_demo_inv, rfl, by decide, by decide, by decide +kernel, by decide +kernel, by decide +kernel⟩

theorem witness_soft_reset :
    (0x00000003#32 : Word).getLsbD 0 = true ∧
    (demo.setBus [.write 0x00000004#32 .word 3]).bus = [.write 0x00000004#32 .word 3] ∧
    (let s := (demo.acceptCommand 2).setBus [.engine, .write 0x00000004#32 .word 3]
     s.status.busy = true ∧ s.bus = [.engine, .write 0x00000004#32 .word 3] ∧ ∃ t, step s = .next t) :=
  ⟨by decide, rfl, rfl, rfl, _, rfl⟩

theorem witness_stuffed_step : demo.Inv ∧ demo.Stuffed ∧ ∃ t, exec .ereset demo = .next t :=
  ⟨witness_demo_inv, witness_stuffed, _, rfl⟩

theorem witness_step_inv : demo.Inv ∧ ∃ t, step demo = .next t := ⟨witness_demo_inv, _, rfl⟩

theorem witness_params : Config.params.inRange = true ∧ Params.inRange ⟨6, 1, 2⟩ = true := by decide

end Sys2Proof.Tests
end

section
/-! PROOFS. Binary32 (00_scope R10): the model's operations round the exact result once, to nearest, ties to even. -/

namespace Sys2Proof.Machine

/-! ### Magnitudes: a last place of `2 ^ k` units, taken `q` times -/

/-- The value of the magnitude with `q` in the last place `2 ^ k`; `q = 2 ^ 24` has carried into the exponent. -/
theorem binary32Units_place {k q : Nat} (hq : q ≤ 2 ^ 24) (hk : k = 0 ∨ 2 ^ 23 ≤ q) :
    binary32Units (k * 2 ^ 23 + q) = q * 2 ^ k := by
  unfold binary32Units
  split
  next hlt =>
    obtain rfl : k = 0 := by omega
    simp
  next hge =>
    obtain hq' | rfl := Nat.lt_or_eq_of_le hq
    · have he : (k * 2 ^ 23 + q) / 2 ^ 23 - 1 = k := by omega
      have hf : 2 ^ 23 + (k * 2 ^ 23 + q) % 2 ^ 23 = q := by omega
      rw [he, hf]
    · have he : (k * 2 ^ 23 + 2 ^ 24) / 2 ^ 23 - 1 = k + 1 := by omega
      have hf : 2 ^ 23 + (k * 2 ^ 23 + 2 ^ 24) % 2 ^ 23 = 2 ^ 23 := by omega
      rw [he, hf]
      ring

/-- Every magnitude has such a last place. -/
theorem exists_place (m : Nat) : ∃ k q, m = k * 2 ^ 23 + q ∧ q < 2 ^ 24 ∧ (k = 0 ∨ 2 ^ 23 ≤ q) :=
  ⟨m / 2 ^ 23 - 1, m - (m / 2 ^ 23 - 1) * 2 ^ 23, by omega, by omega, by omega⟩

theorem binary32Units_strictMono : StrictMono binary32Units := by
  refine strictMono_nat_of_lt_succ fun m => ?_
  obtain ⟨k, q, rfl, hq, hk⟩ := exists_place m
  rw [Nat.add_assoc, binary32Units_place hq.le hk, binary32Units_place hq (by omega)]
  exact Nat.mul_lt_mul_of_pos_right q.lt_succ_self (Nat.two_pow_pos k)

theorem binary32Units_mul_lt {m p den : Nat} (h : m < p) (hden : 0 < den) :
    binary32Units m * den < binary32Units p * den :=
  Nat.mul_lt_mul_of_pos_right (binary32Units_strictMono h) hden

theorem binary32Units_mul_le {m p : Nat} (h : m ≤ p) (den : Nat) : binary32Units m * den ≤ binary32Units p * den :=
  Nat.mul_le_mul_right den (binary32Units_strictMono.monotone h)

theorem binary32Units_eq_zero {m : Nat} : binary32Units m = 0 ↔ m = 0 :=
  binary32Units_strictMono.injective.eq_iff' rfl

/-- Infinity's pattern and the largest finite one, read as magnitudes: the overflow bound is half of their sum. -/
theorem binary32Units_largest_add_inf :
    binary32Units (f32InfMagnitude - 1) + binary32Units f32InfMagnitude = 2 * ((2 ^ 25 - 1) * 2 ^ 252) := by
  decide +kernel

/-! ### The nearest magnitude, infinity's pattern and those after it included -/

/-- `m` is the magnitude nearest to `num / den` units, even if another is as near: the value is on `m`'s side of the
middle between `m` and each other magnitude. -/
structure NearestEven (num den m : Nat) : Prop where
  below : ∀ p, p < m → (binary32Units p + binary32Units m) * den ≤ 2 * num ∧
    ((binary32Units p + binary32Units m) * den = 2 * num → m % 2 = 0)
  above : ∀ p, m < p → 2 * num ≤ (binary32Units m + binary32Units p) * den ∧
    (2 * num = (binary32Units m + binary32Units p) * den → m % 2 = 0)

/-- How far the magnitude `m` lies from `num / den` units, in units divided by `den`. -/
def magnitudeDistance (num den m : Nat) : Nat := ((binary32Units m * den : Int) - num).natAbs

section
variable {num den m : Nat}

/-- Rounding down: the value is at or above `m`, and the middle to the next magnitude is not passed. -/
theorem nearestEven_of_le_middle (hden : 0 < den) (hm : binary32Units m * den ≤ num)
    (hmid : 2 * num ≤ (binary32Units m + binary32Units (m + 1)) * den)
    (htie : 2 * num = (binary32Units m + binary32Units (m + 1)) * den → m % 2 = 0) : NearestEven num den m where
  below p hp := by
    have hlt := binary32Units_mul_lt hp hden
    rw [Nat.add_mul]
    omega
  above p hp := by
    have hle := binary32Units_mul_le (m := m + 1) hp den
    rw [Nat.add_mul] at hmid htie ⊢
    omega

/-- Rounding up: the value is below the next magnitude, and the middle to it is reached. -/
theorem nearestEven_of_middle_le (hden : 0 < den) (hm : num < binary32Units (m + 1) * den)
    (hmid : (binary32Units m + binary32Units (m + 1)) * den ≤ 2 * num)
    (htie : (binary32Units m + binary32Units (m + 1)) * den = 2 * num → (m + 1) % 2 = 0) :
    NearestEven num den (m + 1) where
  below p hp := by
    have hle := binary32Units_mul_le (Nat.le_of_lt_succ hp) den
    rw [Nat.add_mul] at hmid htie ⊢
    omega
  above p hp := by
    have hlt := binary32Units_mul_lt hp hden
    rw [Nat.add_mul]
    omega

/-- The nearest magnitude is finite exactly below half a last place over the largest finite value. -/
theorem NearestEven.inf_le_iff (h : NearestEven num den m) (hden : 0 < den) :
    f32InfMagnitude ≤ m ↔ (2 ^ 25 - 1) * 2 ^ 252 * den ≤ num := by
  have hmid := congrArg (· * den) binary32Units_largest_add_inf
  simp only [Nat.add_mul, Nat.mul_assoc 2] at hmid
  constructor
  · intro hinf
    obtain ⟨hbelow, -⟩ := h.below (f32InfMagnitude - 1) (by unfold f32InfMagnitude at *; omega)
    have hle := binary32Units_mul_le hinf den
    rw [Nat.add_mul] at hbelow
    omega
  · intro hnum
    by_contra hfin
    obtain ⟨habove, htie⟩ := h.above f32InfMagnitude (by omega)
    rw [Nat.add_mul] at habove htie
    obtain rfl | hlt : m = f32InfMagnitude - 1 ∨ m < f32InfMagnitude - 1 := by omega
    · exact absurd (htie (by omega)) (by decide)
    · have := binary32Units_mul_lt hlt hden
      omega

/-- No magnitude is nearer, and one as near leaves `m` even. -/
theorem NearestEven.distance_le (h : NearestEven num den m) (hden : 0 < den) (p : Nat) :
    magnitudeDistance num den m ≤ magnitudeDistance num den p ∧
    (p ≠ m → magnitudeDistance num den p = magnitudeDistance num den m → m % 2 = 0) := by
  unfold magnitudeDistance
  obtain hp | rfl | hp := Nat.lt_trichotomy p m
  · have hlt := binary32Units_mul_lt hp hden
    have hbelow := h.below p hp
    rw [Nat.add_mul] at hbelow
    zify at hlt hbelow
    omega
  · exact ⟨le_rfl, fun hne => absurd rfl hne⟩
  · have hlt := binary32Units_mul_lt hp hden
    have habove := h.above p hp
    rw [Nat.add_mul] at habove
    zify at hlt habove
    omega

/-- The nearest magnitude, with infinity in place of all that lie beyond the finite ones, is the rounded one. -/
theorem NearestEven.roundsTo (h : NearestEven num den m) (hden : 0 < den) :
    RoundsTo num den (min m f32InfMagnitude) := by
  unfold RoundsTo
  split
  next hover => exact Nat.min_eq_right ((h.inf_le_iff hden).2 hover)
  next hunder =>
    have hfin : m < f32InfMagnitude := Nat.lt_of_not_le fun hle => hunder ((h.inf_le_iff hden).1 hle)
    rw [Nat.min_eq_left hfin.le]
    exact ⟨hfin, fun p _ => h.distance_le hden p⟩

/-! ### `roundMagnitude` chooses it -/

/-- A quotient by the last place `2 ^ (bitlen n - 24)` has at most 24 bits, and all 24 unless it is exact. -/
theorem div_lastPlace_bounds (n : Nat) :
    n / 2 ^ (bitlen n - 24) < 2 ^ 24 ∧ (bitlen n - 24 = 0 ∨ 2 ^ 23 ≤ n / 2 ^ (bitlen n - 24)) := by
  unfold bitlen
  split
  next h0 => simp [h0]
  next h0 =>
    constructor
    · refine Nat.div_lt_of_lt_mul ?_
      rw [← Nat.pow_add]
      exact Nat.lt_log2_self.trans_le (Nat.pow_le_pow_right two_pos (by omega))
    · refine or_iff_not_imp_left.2 fun hk => ?_
      rw [Nat.le_div_iff_mul_le (Nat.two_pow_pos _), ← Nat.pow_add]
      exact (Nat.pow_le_pow_right two_pos (by omega)).trans (Nat.log2_self_le h0)

/-- The remainder says which way the quotient is rounded, and a tie goes to the even side. -/
theorem roundHalfEven_cases (num den : Nat) :
    (roundHalfEven num den = num / den ∧ 2 * (num % den) ≤ den ∧ (2 * (num % den) = den → num / den % 2 = 0)) ∨
    (roundHalfEven num den = num / den + 1 ∧ den ≤ 2 * (num % den) ∧
      (2 * (num % den) = den → num / den % 2 = 1)) := by
  unfold roundHalfEven
  dsimp only
  split
  next => exact .inr ⟨rfl, by omega, by omega⟩
  next =>
    split
    next => exact .inr ⟨rfl, by omega, by omega⟩
    next => exact .inl ⟨rfl, by omega, by omega⟩

/-- Rounding the quotient by the last place `2 ^ k` half to even gives the nearest magnitude. -/
theorem nearestEven_roundHalfEven {k : Nat} (hden : 0 < den) (hq : num / (den * 2 ^ k) < 2 ^ 24)
    (hk : k = 0 ∨ 2 ^ 23 ≤ num / (den * 2 ^ k)) :
    NearestEven num den (k * 2 ^ 23 + roundHalfEven num (den * 2 ^ k)) := by
  have hdiv := Nat.div_add_mod num (den * 2 ^ k)
  have hmod := Nat.mod_lt num (Nat.mul_pos hden (Nat.two_pow_pos k))
  have hcases := roundHalfEven_cases num (den * 2 ^ k)
  set q := num / (den * 2 ^ k)
  have hunits : binary32Units (k * 2 ^ 23 + q) * den = den * 2 ^ k * q := by
    rw [binary32Units_place hq.le hk]
    ring
  have hnext : binary32Units (k * 2 ^ 23 + q + 1) * den = den * 2 ^ k * q + den * 2 ^ k := by
    rw [Nat.add_assoc, binary32Units_place (q := q + 1) hq (by omega)]
    ring
  obtain ⟨hround, hhalf, htie⟩ | ⟨hround, hhalf, htie⟩ := hcases
  · rw [hround]
    apply nearestEven_of_le_middle hden <;> simp only [Nat.add_mul, hunits, hnext] <;> omega
  · rw [hround, ← Nat.add_assoc]
    apply nearestEven_of_middle_le hden <;> simp only [Nat.add_mul, hunits, hnext] <;> omega

/-- The magnitude the model chooses for `num / den` units is the rounded one (00_scope R10). -/
theorem roundsTo_roundMagnitude (hden : 0 < den) : RoundsTo num den (roundMagnitude num den) := by
  obtain ⟨hq, hk⟩ := div_lastPlace_bounds (num / den)
  rw [Nat.div_div_eq_div_mul] at hq hk
  exact (nearestEven_roundHalfEven hden hq hk).roundsTo hden

end
/-! ### The fields of a pattern -/

theorem f32Magnitude_eq (x : F32) : f32Magnitude x = x.toNat % 2 ^ 31 := rfl

theorem f32Units_eq (x : F32) : f32Units x = binary32Units (f32Magnitude x) := by
  unfold f32Units binary32Units
  dsimp only
  by_cases h : f32Magnitude x < 2 ^ 23
  · rw [if_pos (by omega), if_pos h, Nat.mod_eq_of_lt h]
  · rw [if_neg (by omega), if_neg h]

theorem f32Units_ne_zero_of_inf {x : F32} (hx : f32Magnitude x = f32InfMagnitude) : f32Units x ≠ 0 := by
  rw [f32Units_eq, hx, Ne, binary32Units_eq_zero]
  decide

theorem f32Sign_pack (neg : Bool) {mag : Nat} (h : mag ≤ f32InfMagnitude) : f32Sign (f32Pack neg mag) = neg := by
  have hmag : mag < 2 ^ 31 := h.trans_lt (by decide)
  rw [f32Sign, f32Pack, BitVec.getLsbD_ofNat]
  cases neg
  · simpa using Nat.testBit_lt_two_pow hmag
  · rw [if_pos rfl, Nat.testBit_two_pow_add_eq, Nat.testBit_lt_two_pow hmag]
    rfl

theorem f32Magnitude_pack (neg : Bool) {mag : Nat} (h : mag ≤ f32InfMagnitude) :
    f32Magnitude (f32Pack neg mag) = mag := by
  have hmag : mag < 2 ^ 31 := h.trans_lt (by decide)
  rw [f32Magnitude_eq, f32Pack, BitVec.toNat_ofNat]
  cases neg <;> simp only [if_true, if_false, Bool.false_eq_true] <;> omega

@[simp] theorem f32Sign_neg (x : F32) : f32Sign (f32Neg x) = !f32Sign x := by
  simp [f32Sign, f32Neg]

@[simp] theorem f32Magnitude_neg (x : F32) : f32Magnitude (f32Neg x) = f32Magnitude x := by
  unfold f32Magnitude f32Neg
  rw [BitVec.extractLsb'_xor]
  simp

@[simp] theorem f32Scaled_neg (x : F32) : f32Scaled (f32Neg x) = -f32Scaled x := by
  unfold f32Scaled
  rw [f32Units_eq, f32Units_eq, f32Magnitude_neg, f32Sign_neg]
  cases f32Sign x <;> simp

/-! ### Finite operands, infinities and NaNs -/

section
variable {x y : F32}

theorem f32IsNaN_of_le (h : f32Magnitude x ≤ f32InfMagnitude) : f32IsNaN x = false :=
  decide_eq_false h.not_gt

theorem f32IsNaN_neg (x : F32) : f32IsNaN (f32Neg x) = f32IsNaN x := by
  simp [f32IsNaN]

theorem f32IsInf_of_lt (h : f32Magnitude x < f32InfMagnitude) : f32IsInf x = false :=
  decide_eq_false h.ne

theorem f32IsInf_of_eq (h : f32Magnitude x = f32InfMagnitude) : f32IsInf x = true :=
  decide_eq_true h

/-- `r` is the value of `num / den` units with the sign `neg`, rounded once. -/
def IsRounded (r : F32) (neg : Bool) (num den : Nat) : Prop :=
  f32Sign r = neg ∧ RoundsTo num den (f32Magnitude r)

/-- `r` is the infinity with the sign `neg`. -/
def IsInfinity (r : F32) (neg : Bool) : Prop := f32Sign r = neg ∧ f32Magnitude r = f32InfMagnitude

theorem isRounded_pack (neg : Bool) (num : Nat) {den : Nat} (hden : 0 < den) :
    IsRounded (f32Pack neg (roundMagnitude num den)) neg num den := by
  have hle : roundMagnitude num den ≤ f32InfMagnitude := Nat.min_le_right _ _
  refine ⟨f32Sign_pack neg hle, ?_⟩
  rw [f32Magnitude_pack neg hle]
  exact roundsTo_roundMagnitude hden

theorem isInfinity_pack (neg : Bool) : IsInfinity (f32Pack neg f32InfMagnitude) neg :=
  ⟨f32Sign_pack neg le_rfl, f32Magnitude_pack neg le_rfl⟩

theorem f32NaN_isNaN : f32IsNaN f32NaN = true := by decide

/-! ### Sums and differences -/

theorem f32Add_of_nan (h : f32IsNaN x = true ∨ f32IsNaN y = true) : f32Add x y = f32NaN := by
  simp [f32Add, h]

/-- The sum of finite operands is exact and rounded once; the rounded magnitude of an exact zero is 0. -/
theorem isRounded_f32Add (hx : f32Magnitude x < f32InfMagnitude) (hy : f32Magnitude y < f32InfMagnitude) :
    IsRounded (f32Add x y)
      (if f32Scaled x + f32Scaled y = 0 then f32Sign x && f32Sign y else decide (f32Scaled x + f32Scaled y < 0))
      (f32Scaled x + f32Scaled y).natAbs 1 := by
  have hpack : f32Add x y = f32Pack
      (if f32Scaled x + f32Scaled y = 0 then f32Sign x && f32Sign y else decide (f32Scaled x + f32Scaled y < 0))
      (roundMagnitude (f32Scaled x + f32Scaled y).natAbs 1) := by
    simp only [f32Add, f32IsNaN_of_le hx.le, f32IsNaN_of_le hy.le, f32IsInf_of_lt hx, f32IsInf_of_lt hy]
    by_cases hsum : f32Scaled x + f32Scaled y = 0
    · have hzero : roundMagnitude 0 1 = 0 := by decide
      simp [hsum, hzero]
    · simp [hsum]
  rw [hpack]
  exact isRounded_pack _ _ one_pos

theorem f32Add_inf_left (hx : f32Magnitude x = f32InfMagnitude) (hy : f32Magnitude y < f32InfMagnitude) :
    f32Add x y = x := by
  simp [f32Add, f32IsNaN_of_le hx.le, f32IsNaN_of_le hy.le, f32IsInf_of_eq hx, f32IsInf_of_lt hy]

theorem f32Add_inf_right (hx : f32Magnitude x < f32InfMagnitude) (hy : f32Magnitude y = f32InfMagnitude) :
    f32Add x y = y := by
  simp [f32Add, f32IsNaN_of_le hx.le, f32IsNaN_of_le hy.le, f32IsInf_of_lt hx, f32IsInf_of_eq hy]

theorem f32Add_inf_inf (hx : f32Magnitude x = f32InfMagnitude) (hy : f32Magnitude y = f32InfMagnitude) :
    f32Add x y = if f32Sign x = f32Sign y then x else f32NaN := by
  by_cases hsign : f32Sign x = f32Sign y <;>
    simp [f32Add, f32IsNaN_of_le hx.le, f32IsNaN_of_le hy.le, f32IsInf_of_eq hx, f32IsInf_of_eq hy, hsign]

theorem f32Sub_of_nan (h : f32IsNaN x = true ∨ f32IsNaN y = true) : f32Sub x y = f32NaN :=
  f32Add_of_nan (by rwa [f32IsNaN_neg])

theorem isRounded_f32Sub (hx : f32Magnitude x < f32InfMagnitude) (hy : f32Magnitude y < f32InfMagnitude) :
    IsRounded (f32Sub x y)
      (if f32Scaled x - f32Scaled y = 0 then f32Sign x && !f32Sign y else decide (f32Scaled x - f32Scaled y < 0))
      (f32Scaled x - f32Scaled y).natAbs 1 := by
  have h := isRounded_f32Add hx (y := f32Neg y) (by rwa [f32Magnitude_neg])
  rwa [f32Scaled_neg, f32Sign_neg, ← sub_eq_add_neg] at h

theorem f32Sub_inf_left (hx : f32Magnitude x = f32InfMagnitude) (hy : f32Magnitude y < f32InfMagnitude) :
    f32Sub x y = x :=
  f32Add_inf_left hx (by rwa [f32Magnitude_neg])

theorem isInfinity_f32Sub_inf_right (hx : f32Magnitude x < f32InfMagnitude) (hy : f32Magnitude y = f32InfMagnitude) :
    IsInfinity (f32Sub x y) (!f32Sign y) := by
  have hneg : f32Magnitude (f32Neg y) = f32InfMagnitude := by rwa [f32Magnitude_neg]
  rw [f32Sub, f32Add_inf_right hx hneg]
  exact ⟨f32Sign_neg y, hneg⟩

theorem f32Sub_inf_inf (hx : f32Magnitude x = f32InfMagnitude) (hy : f32Magnitude y = f32InfMagnitude) :
    f32Sub x y = if f32Sign x = f32Sign y then f32NaN else x := by
  rw [f32Sub, f32Add_inf_inf hx (by rwa [f32Magnitude_neg]), f32Sign_neg]
  cases f32Sign x <;> cases f32Sign y <;> rfl

/-! ### Products -/

theorem f32Mul_of_nan (h : f32IsNaN x = true ∨ f32IsNaN y = true) : f32Mul x y = f32NaN := by
  simp [f32Mul, h]

theorem isRounded_f32Mul (hx : f32Magnitude x < f32InfMagnitude) (hy : f32Magnitude y < f32InfMagnitude) :
    IsRounded (f32Mul x y) (f32Sign x != f32Sign y) (f32Units x * f32Units y) (2 ^ 149) := by
  simp only [f32Mul, f32IsNaN_of_le hx.le, f32IsNaN_of_le hy.le, f32IsInf_of_lt hx, f32IsInf_of_lt hy]
  exact isRounded_pack _ _ (Nat.two_pow_pos 149)

theorem f32Mul_inf_left (hx : f32Magnitude x = f32InfMagnitude) (hy : f32Magnitude y ≤ f32InfMagnitude) :
    f32Mul x y = if f32Units y = 0 then f32NaN else f32Pack (f32Sign x != f32Sign y) f32InfMagnitude := by
  simp [f32Mul, f32IsNaN_of_le hx.le, f32IsNaN_of_le hy, f32IsInf_of_eq hx]

theorem f32Mul_inf_right (hx : f32Magnitude x < f32InfMagnitude) (hy : f32Magnitude y = f32InfMagnitude) :
    f32Mul x y = if f32Units x = 0 then f32NaN else f32Pack (f32Sign x != f32Sign y) f32InfMagnitude := by
  simp [f32Mul, f32IsNaN_of_le hx.le, f32IsNaN_of_le hy.le, f32IsInf_of_lt hx, f32IsInf_of_eq hy]

/-! ### Quotients -/

theorem f32Div_of_nan (h : f32IsNaN x = true ∨ f32IsNaN y = true) : f32Div x y = f32NaN := by
  simp [f32Div, h]

theorem f32Div_of_finite (hx : f32Magnitude x < f32InfMagnitude) (hy : f32Magnitude y < f32InfMagnitude) :
    f32Div x y =
      if f32Units y = 0 then
        if f32Units x = 0 then f32NaN else f32Pack (f32Sign x != f32Sign y) f32InfMagnitude
      else f32Pack (f32Sign x != f32Sign y) (roundMagnitude (f32Units x * 2 ^ 149) (f32Units y)) := by
  simp [f32Div, f32IsNaN_of_le hx.le, f32IsNaN_of_le hy.le, f32IsInf_of_lt hx, f32IsInf_of_lt hy]

theorem isRounded_f32Div (hx : f32Magnitude x < f32InfMagnitude) (hy : f32Magnitude y < f32InfMagnitude)
    (hy0 : f32Units y ≠ 0) : IsRounded (f32Div x y) (f32Sign x != f32Sign y) (f32Units x * 2 ^ 149) (f32Units y) := by
  rw [f32Div_of_finite hx hy, if_neg hy0]
  exact isRounded_pack _ _ (Nat.pos_of_ne_zero hy0)

theorem isInfinity_f32Div_zero (hx : f32Magnitude x < f32InfMagnitude) (hy : f32Magnitude y < f32InfMagnitude)
    (hy0 : f32Units y = 0) (hx0 : f32Units x ≠ 0) : IsInfinity (f32Div x y) (f32Sign x != f32Sign y) := by
  rw [f32Div_of_finite hx hy, if_pos hy0, if_neg hx0]
  exact isInfinity_pack _

theorem f32Div_zero_zero (hx : f32Magnitude x < f32InfMagnitude) (hy : f32Magnitude y < f32InfMagnitude)
    (hy0 : f32Units y = 0) (hx0 : f32Units x = 0) : f32Div x y = f32NaN := by
  rw [f32Div_of_finite hx hy, if_pos hy0, if_pos hx0]

theorem f32Div_inf_left (hx : f32Magnitude x = f32InfMagnitude) (hy : f32Magnitude y < f32InfMagnitude) :
    f32Div x y = f32Pack (f32Sign x != f32Sign y) f32InfMagnitude := by
  simp [f32Div, f32IsNaN_of_le hx.le, f32IsNaN_of_le hy.le, f32IsInf_of_eq hx, f32IsInf_of_lt hy]

theorem f32Div_inf_right (hx : f32Magnitude x < f32InfMagnitude) (hy : f32Magnitude y = f32InfMagnitude) :
    f32Div x y = f32Pack (f32Sign x != f32Sign y) 0 := by
  simp [f32Div, f32IsNaN_of_le hx.le, f32IsNaN_of_le hy.le, f32IsInf_of_lt hx, f32IsInf_of_eq hy]

theorem f32Div_inf_inf (hx : f32Magnitude x = f32InfMagnitude) (hy : f32Magnitude y = f32InfMagnitude) :
    f32Div x y = f32NaN := by
  simp [f32Div, f32IsNaN_of_le hx.le, f32IsNaN_of_le hy.le, f32IsInf_of_eq hx, f32IsInf_of_eq hy]

end

/-! ### Integers -/

theorem isRounded_f32OfInt (v : Int) : IsRounded (f32OfInt v) (decide (v < 0)) (v.natAbs * 2 ^ 149) 1 :=
  isRounded_pack _ _ one_pos

/-! ### The finite magnitudes as patterns -/

theorem f32Units_ofNat {m : Nat} (h : m ≤ f32InfMagnitude) : f32Units (BitVec.ofNat 32 m) = binary32Units m := by
  have hmag := f32Magnitude_pack false h
  rw [f32Pack, if_neg Bool.false_ne_true, Nat.zero_add] at hmag
  rw [f32Units_eq, hmag]

/-- A finite rounded magnitude is nearest among the finite ones, the even one of two as near. -/
theorem RoundsTo.nearest_of_finite {num den m : Nat} (h : RoundsTo num den m) (hfin : m < f32InfMagnitude) {p : Nat}
    (hp : p < f32InfMagnitude) :
    magnitudeDistance num den m ≤ magnitudeDistance num den p ∧
    (p ≠ m → magnitudeDistance num den p = magnitudeDistance num den m → m % 2 = 0) := by
  unfold RoundsTo at h
  split at h
  next => exact absurd h hfin.ne
  next =>
    obtain ⟨-, hnear⟩ := h
    exact hnear p hp

/-- Settles O36: `roundMagnitude` chooses the nearest magnitude, and each operation packs the exact result it rounds. -/
theorem binary32RoundsToNearestEven : Obligations.Binary32RoundsToNearestEven := by
  unfold Obligations.Binary32RoundsToNearestEven
  refine ⟨fun num den hden hfin => ?_, fun num den => roundsTo_roundMagnitude, ?_⟩
  · intro units away m hm
    simp only [away, units, f32Units_ofNat hm.le, f32Units_ofNat hfin.le]
    exact (roundsTo_roundMagnitude hden).nearest_of_finite hfin hm
  intro inf neg mag units value rounded infinite nan
  -- The statement's own readings of a pattern are the model's.
  have hinf : inf = f32InfMagnitude := rfl
  have hneg : neg = f32Sign := rfl
  have hmag : mag = f32Magnitude := rfl
  have hunits : units = f32Units := funext fun x => (f32Units_eq x).symm
  have hvalue : value = f32Scaled := funext fun x => by simp only [f32Scaled, f32Units_eq]; rfl
  have hrounded : rounded = IsRounded := rfl
  have hinfinite : infinite = IsInfinity := rfl
  have hnan : nan = fun r => f32IsNaN r = true := funext fun r => propext decide_eq_true_iff.symm
  clear_value nan infinite rounded value units mag neg inf
  subst hinf hneg hmag hunits hvalue hrounded hinfinite hnan
  refine ⟨isRounded_f32OfInt, fun x y hx hy => ?_, fun x y hx hy => ?_, fun x y hx hy => ?_, fun x y h => ?_⟩
  · exact ⟨isRounded_f32Add hx hy, isRounded_f32Sub hx hy, isRounded_f32Mul hx hy, isRounded_f32Div hx hy,
      isInfinity_f32Div_zero hx hy, fun hy0 hx0 => f32Div_zero_zero hx hy hy0 hx0 ▸ f32NaN_isNaN⟩
  · rw [f32Mul_inf_left hx hy.le, f32Mul_inf_right hy hx, bne_comm (a := f32Sign y), f32Div_inf_left hx hy,
      f32Div_inf_right hy hx, bne_comm (a := f32Sign y)]
    refine ⟨f32Add_inf_left hx hy, f32Add_inf_right hy hx, f32Sub_inf_left hx hy, isInfinity_f32Sub_inf_right hy hx,
      fun hy0 => ?_, fun hy0 => ?_, isInfinity_pack _, f32Magnitude_pack _ (Nat.zero_le _),
      f32Sign_pack _ (Nat.zero_le _)⟩
    · rw [if_neg hy0]
      exact ⟨isInfinity_pack _, isInfinity_pack _⟩
    · rw [if_pos hy0]
      exact ⟨f32NaN_isNaN, f32NaN_isNaN⟩
  · rw [f32Add_inf_inf hx hy, f32Sub_inf_inf hx hy, f32Mul_inf_left hx hy.le, if_neg (f32Units_ne_zero_of_inf hy),
      f32Div_inf_inf hx hy]
    refine ⟨fun hsign => ?_, fun hsign => ?_, isInfinity_pack _, f32NaN_isNaN⟩
    · rw [if_pos hsign, if_pos hsign]
      exact ⟨rfl, f32NaN_isNaN⟩
    · rw [if_neg hsign, if_neg hsign]
      exact ⟨f32NaN_isNaN, rfl⟩
  · rw [f32Add_of_nan h, f32Sub_of_nan h, f32Mul_of_nan h, f32Div_of_nan h]
    exact ⟨f32NaN_isNaN, f32NaN_isNaN, f32NaN_isNaN, f32NaN_isNaN⟩

end Sys2Proof.Machine
end

section
/-! PROOFS. The commands: one body each, what a body can write, and the parts the inflate commands are made of. -/

namespace Sys2Proof.Machine

/-! ### One body per command -/

/-- The rule each command runs (30_encoding R101). -/
def commandBody : Instr → Cmd Unit
  | .rdbits n => rdbitsBody n
  | .align => alignToByte
  | .hbuild t n => hbuildBody t n
  | .hdecode t => hdecodeBody t
  | .infblk => infblkBody
  | .inflate => inflateBody
  | .zinflate => zinflateBody
  | .qbuild q => qbuildBody q
  | .qlookup t i z => qlookupBody t i z
  | .fdct => fdctBody
  | .quant t => quantBody t
  | .ehbuild t => ehbuildBody t
  | .encblk c => encblkBody c
  | .eflush => eflushBody
  | .ereset => eresetBody

theorem exec_eq_runCommand (i : Instr) (s : State) : exec i s = runCommand (commandBody i) s := by
  cases i <;> rfl

/-- A command leaves what its body left, completed or failed. -/
theorem exec_cases {i : Instr} {s t : State} (h : exec i s = .next t) :
    t = completed ((commandBody i).after s) ∨ ∃ e, t = failedWith e ((commandBody i).after s) := by
  rw [exec_eq_runCommand] at h
  obtain ⟨u, hu, hrun⟩ | ⟨e, u, hu, hrun⟩ := runCommand_cases (commandBody i) s <;>
    rw [hrun, Host.Outcome.next.injEq] at h <;> subst h
  · exact .inl (by simp only [Cmd.after, hu])
  · exact .inr ⟨e, by simp only [Cmd.after, hu]⟩

/-! ### The commands whose parts depend on what they observe, run to their end -/

theorem ehbuildBody_cases (t : BitVec 2) (s : State) :
    (∃ table, huffBuild (encTableIndex t) s.hspec[encTableIndex t] = some table ∧
      ehbuildBody t s = .ok () (s.setEhuf (s.ehuf.set (encTableIndex t) table))) ∨
    (huffBuild (encTableIndex t) s.hspec[encTableIndex t] = none ∧ ehbuildBody t s = .error .huffSpec s) := by
  unfold ehbuildBody
  rw [observe_bind_apply]
  cases h : huffBuild (encTableIndex t) s.hspec[encTableIndex t] with
  | some table => exact .inl ⟨table, rfl, rfl⟩
  | none => exact .inr ⟨rfl, rfl⟩

/-- ENCBLK appends a block that has its codes and fits ECS, and takes COEF[0] as the predictor; or it raises first. -/
theorem encblkBody_cases (c : BitVec 2) (s : State) :
    (∃ comp fields, componentOf c = some comp ∧ s.blockBits comp = some fields ∧
      s.ecsLen.toNat + outBytes s.pbits (bitsOfFields fields) ≤ s.ecsSize.toNat ∧
      encblkBody c s = .ok () ((s.putBits (bitsOfFields fields)).setPred
        ((s.putBits (bitsOfFields fields)).pred.set comp.index (s.putBits (bitsOfFields fields)).coef[0]))) ∨
    ∃ e, encblkBody c s = .error e s := by
  unfold encblkBody
  cases hc : componentOf c with
  | none => exact .inr ⟨_, rfl⟩
  | some comp =>
    rw [legalOperand_some, pure_bind_apply, observe_bind_apply]
    cases hb : s.blockBits comp with
    | none => exact .inr ⟨_, rfl⟩
    | some fields =>
      rw [orRaise, pure_bind_apply, observe_bind_apply]
      by_cases hroom : s.ecsSize.toNat < s.ecsLen.toNat + outBytes s.pbits (bitsOfFields fields)
      · rw [decide_eq_true hroom]
        exact .inr ⟨_, rfl⟩
      · rw [decide_eq_false hroom]
        exact .inl ⟨comp, fields, rfl, hb, Nat.le_of_not_lt hroom, rfl⟩

/-- EFLUSH has nothing to do, or emits the padded byte where it fits ECS, or raises first. -/
theorem eflushBody_cases (s : State) :
    (s.pbits = [] ∧ eflushBody s = .ok () s) ∨
    (s.pbits ≠ [] ∧ s.ecsLen.toNat + emittedBytes (flushByte s.pbits) ≤ s.ecsSize.toNat ∧
      eflushBody s = .ok () ((s.emitByte (BitVec.ofNat 8 (flushByte s.pbits))).setPbits [])) ∨
    (s.pbits ≠ [] ∧ s.ecsSize.toNat < s.ecsLen.toNat + emittedBytes (flushByte s.pbits) ∧
      eflushBody s = .error .encodeOverflow s) := by
  unfold eflushBody
  rw [observe_bind_apply]
  by_cases hp : s.pbits = []
  · rw [if_pos (by rw [hp]; rfl)]
    exact .inl ⟨hp, rfl⟩
  · rw [if_neg (by rwa [List.length_eq_zero_iff]), observe_bind_apply]
    by_cases hroom : s.ecsSize.toNat < s.ecsLen.toNat + emittedBytes (flushByte s.pbits)
    · rw [decide_eq_true hroom]
      exact .inr (.inr ⟨hp, hroom, rfl⟩)
    · rw [decide_eq_false hroom]
      exact .inr (.inl ⟨hp, Nat.le_of_not_lt hroom, rfl⟩)

theorem encblkBody_after (c : BitVec 2) (s : State) :
    (∃ comp fields, s.ecsLen.toNat + outBytes s.pbits (bitsOfFields fields) ≤ s.ecsSize.toNat ∧
      (encblkBody c).after s = (s.putBits (bitsOfFields fields)).setPred
        ((s.putBits (bitsOfFields fields)).pred.set (Component.index comp) (s.putBits (bitsOfFields fields)).coef[0])) ∨
    (encblkBody c).after s = s := by
  obtain ⟨comp, fields, -, -, hroom, h⟩ | ⟨e, h⟩ := encblkBody_cases c s
  · exact .inl ⟨comp, fields, hroom, by rw [Cmd.after, h]⟩
  · exact .inr (by rw [Cmd.after, h])

/-! ### What a body can write -/

/-- `t` is `s` but for RESULT and the cursor. -/
def ResultAndCursorOnly (s t : State) : Prop := t = { s with result := t.result, brPos := t.brPos }

theorem ResultAndCursorOnly.trans {s t u : State} (h : ResultAndCursorOnly s t) (h' : ResultAndCursorOnly t u) :
    ResultAndCursorOnly s u := by
  unfold ResultAndCursorOnly at *
  rw [h', h]

theorem ResultAndCursorOnly.refl (s : State) : ResultAndCursorOnly s s := rfl

theorem ResultAndCursorOnly.bind {α β : Type} {x : Cmd α} {f : α → Cmd β} (hx : Cmd.Relates ResultAndCursorOnly x)
    (hf : ∀ a, Cmd.Relates ResultAndCursorOnly (f a)) : Cmd.Relates ResultAndCursorOnly (x >>= f) :=
  Cmd.Relates.bind (R := ResultAndCursorOnly) (fun h h' => h.trans h') hx hf

theorem CursorOnly.resultAndCursorOnly {s t : State} (h : CursorOnly s t) : ResultAndCursorOnly s t := by
  unfold CursorOnly at h
  rw [h]
  rfl

/-- Moving the cursor and then writing what was read to RESULT writes nothing else. -/
theorem ResultAndCursorOnly.bind_writeResult {x : Cmd Nat} (hx : Cmd.Relates CursorOnly x) :
    Cmd.Relates ResultAndCursorOnly (x >>= writeResult) :=
  ResultAndCursorOnly.bind (fun s => (hx s).resultAndCursorOnly) fun _ _ => rfl

/-- `t` is `s` but for what the entropy encoder writes. -/
def EncodeOnly (s t : State) : Prop :=
  t = { s with mem := t.mem, ecsLen := t.ecsLen, pbits := t.pbits, pred := t.pred }

/-- The registers, tables and memories the body of each command can write; nothing else differs between `s` and `t`
(10_state R26 to R33, R39 to R44). -/
def commandFrame : Instr → State → State → Prop
  | .rdbits _ | .hdecode _ => ResultAndCursorOnly
  | .align => CursorOnly
  | .hbuild t _ => fun s s' => s' = s ∨ ∃ tab lens, decodeTableOf t = some tab ∧ s' = s.setHlen tab lens
  | .infblk | .inflate | .zinflate => InflateOnly
  | .qbuild _ => fun s s' => s' = { s with qt0 := s'.qt0, qt1 := s'.qt1 }
  | .qlookup _ _ _ => fun s s' => s' = { s with result := s'.result }
  | .fdct => fun s s' => s' = { s with dctbuf := s'.dctbuf }
  | .quant _ => fun s s' => s' = { s with coef := s'.coef }
  | .ehbuild t => fun s s' => s' = s ∨ ∃ table, s' = s.setEhuf (s.ehuf.set (encTableIndex t) table)
  | .encblk _ | .ereset => EncodeOnly
  | .eflush => PackOnly

theorem rdbitsBody_frame (n : BitVec 5) : Cmd.Relates ResultAndCursorOnly (rdbitsBody n) :=
  ResultAndCursorOnly.bind (Cmd.Relates.legalOperand ResultAndCursorOnly.refl _) fun _ =>
    ResultAndCursorOnly.bind (Cmd.Relates.observe ResultAndCursorOnly.refl _) fun _ =>
      ResultAndCursorOnly.bind_writeResult (readBits_cursorOnly _ _)

theorem hdecodeBody_frame (t : BitVec 2) : Cmd.Relates ResultAndCursorOnly (hdecodeBody t) :=
  ResultAndCursorOnly.bind (Cmd.Relates.legalOperand ResultAndCursorOnly.refl _) fun _ =>
    ResultAndCursorOnly.bind (Cmd.Relates.observe ResultAndCursorOnly.refl _) fun _ =>
      ResultAndCursorOnly.bind_writeResult (decodeSymbol_cursorOnly _ _)

theorem hbuildBody_frame (t : BitVec 2) (n : BitVec 9) (s : State) :
    (hbuildBody t n).after s = s ∨
      ∃ tab lens, decodeTableOf t = some tab ∧ (hbuildBody t n).after s = s.setHlen tab lens := by
  unfold hbuildBody hbuildOperands
  cases ht : decodeTableOf t with
  | none => exact .inl rfl
  | some tab =>
    dsimp only
    split
    · rw [legalOperand_some, Cmd.after, pure_bind_apply, observe_bind_apply]
      obtain ⟨-, -, h⟩ | ⟨-, h⟩ := buildTable_cases tab (s.lensTake n.toNat) s <;> rw [h]
      · exact .inr ⟨tab, _, rfl, rfl⟩
      · exact .inl rfl
    · exact .inl rfl

theorem ehbuildBody_frame (t : BitVec 2) (s : State) :
    (ehbuildBody t).after s = s ∨
      ∃ table, (ehbuildBody t).after s = s.setEhuf (s.ehuf.set (encTableIndex t) table) := by
  obtain ⟨table, -, h⟩ | ⟨-, h⟩ := ehbuildBody_cases t s <;> rw [Cmd.after, h]
  · exact .inr ⟨table, rfl⟩
  · exact .inl rfl

theorem encblkBody_frame (c : BitVec 2) : Cmd.Relates EncodeOnly (encblkBody c) := by
  intro s
  obtain ⟨comp, fields, -, h⟩ | h := encblkBody_after c s <;> rw [h]
  · have hpack := s.putBits_packOnly (bitsOfFields fields)
    unfold PackOnly at hpack
    rw [hpack]
    rfl
  · rfl

theorem eflushBody_frame : Cmd.Relates PackOnly eflushBody := by
  intro s
  obtain ⟨-, h⟩ | ⟨-, -, h⟩ | ⟨-, -, h⟩ := eflushBody_cases s <;> rw [Cmd.after, h]
  · exact PackOnly.refl s
  · exact (s.emitByte_packOnly _).trans rfl
  · exact PackOnly.refl s

theorem qbuild_frame (q : BitVec 8) (s : State) (v w : QTable) :
    commandFrame (.qbuild q) s ((s.setQt0 v).setQt1 w) := rfl

theorem commandBody_frame (i : Instr) : Cmd.Relates (commandFrame i) (commandBody i) := by
  cases i with
  | rdbits n => exact rdbitsBody_frame n
  | align => exact alignToByte_cursorOnly
  | hbuild t n => exact hbuildBody_frame t n
  | hdecode t => exact hdecodeBody_frame t
  | infblk => exact infblkBody_inflateOnly
  | inflate => exact inflateBody_inflateOnly
  | zinflate => exact zinflateBody_inflateOnly
  | qbuild q => exact fun s => qbuild_frame q s _ _
  | qlookup t i z => exact fun _ => rfl
  | fdct => exact fun _ => rfl
  | quant t => exact fun _ => rfl
  | ehbuild t => exact ehbuildBody_frame t
  | encblk c => exact encblkBody_frame c
  | eflush => exact eflushBody_frame
  | ereset => exact Cmd.Relates.update fun _ => rfl

/-! ### Which registers and tables a command can change -/

/-- The number of a decode table in field T (30_encoding R102). -/
def DecodeTable.number : DecodeTable → BitVec 2
  | .litlen => 0
  | .dist => 1
  | .clen => 2

theorem decodeTableOf_eq_some {t : BitVec 2} {tab : DecodeTable} (h : decodeTableOf t = some tab) :
    t = tab.number := by
  unfold decodeTableOf at h
  split_ifs at h with h0 h1 h2 <;> cases h <;> assumption

/-- The end of a command writes the completion flags and the error record alone (60_exceptions R304, R305, R307). -/
theorem exec_writes_record {i : Instr} {s t : State} (h : exec i s = .next t) :
    ∃ busy done err code cmd pos, t = { (commandBody i).after s with
      status := { ((commandBody i).after s).status with busy := busy, done := done, err := err, errCode := code }
      errCmd := cmd, errPos := pos } := by
  obtain rfl | ⟨e, rfl⟩ := exec_cases h <;> exact ⟨_, _, _, _, _, _, rfl⟩

/-- Settles O10: each command's frame names what it can change, and its end writes the error record alone. -/
theorem stateWrittenOnlyBy : Obligations.StateWrittenOnlyBy := by
  unfold Obligations.StateWrittenOnlyBy
  intro i s t h
  have hframe := commandBody_frame i s
  obtain ⟨busy, done, err, code, cmd, pos, rfl⟩ := exec_writes_record h
  generalize (commandBody i).after s = u at hframe
  cases i <;> rw [commandFrame] at hframe
  case hbuild =>
    obtain rfl | ⟨tab, lens, htab, rfl⟩ := hframe
    · simp
    · rw [decodeTableOf_eq_some htab]
      cases tab <;> simp [State.setHlen, DecodeTable.number, inflates]
  case ehbuild tb =>
    obtain rfl | ⟨table, rfl⟩ := hframe
    · simp
    · have hk : ∀ k : Fin 4, (s.ehuf.set (encTableIndex tb) table)[k] ≠ s.ehuf[k] → tb = BitVec.ofFin k := by
        intro k hne
        by_contra htb
        exact hne (Vector.getElem_set_ne _ _ fun heq => htb (congrArg BitVec.ofFin (Fin.ext heq)))
      simpa using hk
  all_goals
    rw [hframe]
    simp [inflates]

end Sys2Proof.Machine
end

section
/-! PROOFS. A relation kept by the steps of the inflater is kept by every inflate command. No command writes IN. -/

namespace Sys2Proof.Machine

/-! ### The steps of the inflater -/

/-- A reflexive and transitive relation between the states before and after, kept by every step the inflater is made of:
moving the cursor, emitting a byte, building a table, writing the block-header flags, and starting over at OUT[0]. -/
structure InflateClosed (R : State → State → Prop) : Prop where
  refl : ∀ s, R s s
  trans : ∀ {s t u}, R s t → R t u → R s u
  cursor : ∀ {s t}, CursorOnly s t → R s t
  emit : ∀ b, Cmd.Relates R (emit b)
  buildTable : ∀ t lens, Cmd.Relates R (buildTable t lens)
  blockHeader : ∀ s bfinal btype, R s (s.setBlockHeader bfinal btype)
  restart : ∀ s, R s (s.setOutLen 0)

namespace InflateClosed

variable {R : State → State → Prop} {α β : Type}

theorem bind (hR : InflateClosed R) {x : Cmd α} {f : α → Cmd β} (hx : Cmd.Relates R x)
    (hf : ∀ a, Cmd.Relates R (f a)) : Cmd.Relates R (x >>= f) :=
  Cmd.Relates.bind (R := R) (fun h h' => hR.trans h h') hx hf

/-- A part that moves the cursor and nothing else comes first. -/
theorem bind_cursor (hR : InflateClosed R) {x : Cmd α} {f : α → Cmd β} (hx : Cmd.Relates CursorOnly x)
    (hf : ∀ a, Cmd.Relates R (f a)) : Cmd.Relates R (x >>= f) :=
  hR.bind (fun s => hR.cursor (hx s)) hf

theorem bind_observe (hR : InflateClosed R) (g : State → α) {f : α → Cmd β} (hf : ∀ a, Cmd.Relates R (f a)) :
    Cmd.Relates R (observe g >>= f) :=
  hR.bind (Cmd.Relates.observe hR.refl g) hf

theorem bind_raiseIf (hR : InflateClosed R) (c : Bool) (e : ErrorKind) {f : Unit → Cmd β}
    (hf : ∀ a, Cmd.Relates R (f a)) : Cmd.Relates R (raiseIf c e >>= f) :=
  hR.bind (Cmd.Relates.raiseIf hR.refl c e) hf

theorem pure (hR : InflateClosed R) (a : α) : Cmd.Relates R (Pure.pure a : Cmd α) := Cmd.Relates.pure hR.refl a

theorem raise (hR : InflateClosed R) (e : ErrorKind) : Cmd.Relates R (Machine.raise e : Cmd α) :=
  Cmd.Relates.raise hR.refl e

theorem copyBytes (hR : InflateClosed R) (d l : Nat) : Cmd.Relates R (copyBytes d l) := by
  induction l with
  | zero => exact hR.pure ()
  | succ l ih => exact hR.bind_observe _ fun b => hR.bind (hR.emit b) fun _ => ih

theorem copyMatch (hR : InflateClosed R) (l d : Nat) : Cmd.Relates R (copyMatch l d) :=
  hR.bind_observe _ fun _ => hR.bind_raiseIf _ _ fun _ => hR.copyBytes d l

theorem storedBytes (hR : InflateClosed R) (lim l : Nat) : Cmd.Relates R (storedBytes lim l) := by
  induction l with
  | zero => exact hR.pure ()
  | succ l ih => exact hR.bind_cursor (readBits_cursorOnly lim 8) fun b => hR.bind (hR.emit _) fun _ => ih

theorem storedBlock (hR : InflateClosed R) (lim : Nat) : Cmd.Relates R (storedBlock lim) :=
  hR.bind_cursor alignToByte_cursorOnly fun _ =>
    hR.bind_cursor (readBits_cursorOnly lim 16) fun len =>
      hR.bind_cursor (readBits_cursorOnly lim 16) fun _ => hR.storedBytes lim len

theorem backReference (hR : InflateClosed R) (lim sym : Nat) : Cmd.Relates R (backReference lim sym) :=
  hR.bind_cursor (readBits_cursorOnly lim _) fun _ =>
    hR.bind_cursor (decodeSymbol_cursorOnly .dist lim) fun _ =>
      hR.bind_raiseIf _ _ fun _ =>
        hR.bind_cursor (readBits_cursorOnly lim _) fun _ => hR.copyMatch _ _

theorem huffmanPass (hR : InflateClosed R) (lim : Nat) : Cmd.Relates R (huffmanPass lim) := by
  refine hR.bind_cursor (decodeSymbol_cursorOnly .litlen lim) fun sym => ?_
  split
  · exact hR.bind (hR.emit _) fun _ => hR.pure false
  · split
    · exact hR.pure true
    · split
      · exact hR.bind (hR.backReference lim sym) fun _ => hR.pure false
      · exact hR.raise _

theorem huffmanBody (hR : InflateClosed R) (lim fuel : Nat) : Cmd.Relates R (huffmanBody lim fuel) := by
  induction fuel with
  | zero => exact hR.raise _
  | succ fuel ih =>
    refine hR.bind (hR.huffmanPass lim) fun atEnd => ?_
    cases atEnd
    · exact ih
    · exact hR.pure ()

theorem fixedBlock (hR : InflateClosed R) (lim : Nat) : Cmd.Relates R (fixedBlock lim) :=
  hR.bind (hR.buildTable _ _) fun _ => hR.bind (hR.buildTable _ _) fun _ => hR.huffmanBody lim _

theorem readCodeLengths (hR : InflateClosed R) (lim : Nat) (perm cl : List Nat) :
    Cmd.Relates R (readCodeLengths lim perm cl) := by
  induction perm generalizing cl with
  | nil => exact hR.pure cl
  | cons p perm ih => exact hR.bind_cursor (readBits_cursorOnly lim 3) fun l => ih _

theorem repeatOf (hR : InflateClosed R) (lim sym : Nat) (a : List Nat) : Cmd.Relates R (repeatOf lim sym a) := by
  unfold Machine.repeatOf
  split
  · split
    · exact hR.raise _
    · exact hR.bind_cursor (readBits_cursorOnly lim 2) fun _ => hR.pure _
  · split <;> exact hR.bind_cursor (readBits_cursorOnly lim _) fun _ => hR.pure _

theorem lengthsPass (hR : InflateClosed R) (lim m : Nat) (a : List Nat) : Cmd.Relates R (lengthsPass lim m a) := by
  refine hR.bind_cursor (decodeSymbol_cursorOnly .clen lim) fun sym => ?_
  split
  · exact hR.pure _
  · exact hR.bind (hR.repeatOf lim sym a) fun _ => hR.bind_raiseIf _ _ fun _ => hR.pure _

theorem readLengths (hR : InflateClosed R) (lim m fuel : Nat) (a : List Nat) :
    Cmd.Relates R (readLengths lim m fuel a) := by
  induction fuel generalizing a with
  | zero => exact hR.pure a
  | succ fuel ih =>
    unfold Machine.readLengths
    split
    · exact hR.pure a
    · exact hR.bind (hR.lengthsPass lim m a) fun a' => ih a'

theorem dynamicBlock (hR : InflateClosed R) (lim : Nat) : Cmd.Relates R (dynamicBlock lim) :=
  hR.bind_cursor (readBits_cursorOnly lim 5) fun _ =>
    hR.bind_cursor (readBits_cursorOnly lim 5) fun _ =>
      hR.bind_cursor (readBits_cursorOnly lim 4) fun _ =>
        hR.bind (hR.readCodeLengths lim _ _) fun _ =>
          hR.bind (hR.buildTable _ _) fun _ =>
            hR.bind (hR.readLengths lim _ _ _) fun _ =>
              hR.bind (hR.buildTable _ _) fun _ =>
                hR.bind (hR.buildTable _ _) fun _ => hR.huffmanBody lim _

theorem blockBody (hR : InflateClosed R) (lim btype : Nat) : Cmd.Relates R (blockBody lim btype) := by
  unfold Machine.blockBody
  split
  · exact hR.storedBlock lim
  · split
    · exact hR.fixedBlock lim
    · split
      · exact hR.dynamicBlock lim
      · exact hR.raise _

theorem inflateBlock (hR : InflateClosed R) (lim : Nat) : Cmd.Relates R (inflateBlock lim) :=
  hR.bind_cursor (readBits_cursorOnly lim 1) fun bfinal =>
    hR.bind_cursor (readBits_cursorOnly lim 2) fun btype =>
      hR.bind (Cmd.Relates.update fun s => hR.blockHeader s bfinal btype) fun _ =>
        hR.bind (hR.blockBody lim btype) fun _ => hR.pure bfinal

theorem inflateBlocks (hR : InflateClosed R) (lim fuel : Nat) : Cmd.Relates R (inflateBlocks lim fuel) := by
  induction fuel with
  | zero => exact hR.raise _
  | succ fuel ih =>
    refine hR.bind (hR.inflateBlock lim) fun f => ?_
    split
    · exact hR.pure ()
    · exact ih

/-- Every inflate command keeps such a relation. -/
theorem commandBody (hR : InflateClosed R) {i : Instr} (hi : inflates i) : Cmd.Relates R (commandBody i) := by
  obtain rfl | rfl | rfl := hi
  · exact hR.bind_observe _ fun lim => hR.bind (hR.inflateBlock lim) fun _ => hR.pure ()
  · exact hR.bind_observe _ fun lim =>
      hR.bind (Cmd.Relates.update hR.restart) fun _ => hR.inflateBlocks lim _
  · exact hR.bind_observe _ fun len => hR.bind_raiseIf _ _ fun _ =>
      hR.bind (Cmd.Relates.update fun s => hR.trans (hR.cursor (CursorOnly.setBrPos s 16)) (hR.restart _)) fun _ =>
        hR.inflateBlocks _ _

end InflateClosed

/-! ### No command writes below OUT -/

/-- Every byte below the window of OUT, those of IN among them, reads as before. -/
def KeepsBelowOut (s t : State) : Prop := ∀ a, a < outBase → t.readByte a = s.readByte a

theorem KeepsBelowOut.of_mem_eq {s t : State} (h : t.mem = s.mem) : KeepsBelowOut s t :=
  fun a _ => State.readByte_congr h a

theorem KeepsBelowOut.trans {s t u : State} (h : KeepsBelowOut s t) (h' : KeepsBelowOut t u) : KeepsBelowOut s u :=
  fun a ha => (h' a ha).trans (h a ha)

@[simp] theorem State.setHlen_mem (s : State) (t : DecodeTable) (lens : List Nat) :
    (s.setHlen t lens).mem = s.mem := by
  cases t <;> simp only [State.setHlen, State.setHlen0_mem, State.setHlen1_mem, State.setHlen2_mem]

theorem keepsBelowOut_inflateClosed : InflateClosed KeepsBelowOut where
  refl _ := .of_mem_eq rfl
  trans := KeepsBelowOut.trans
  cursor h := .of_mem_eq (by rw [h, State.setBrPos_mem])
  emit b s := by
    obtain ⟨-, h⟩ | ⟨-, h⟩ := emit_cases b s <;> rw [Cmd.after, h]
    · exact fun a ha => s.emitted_readByte_ne b (by omega)
    · exact .of_mem_eq rfl
  buildTable t lens s := by
    obtain ⟨-, -, h⟩ | ⟨-, h⟩ := buildTable_cases t lens s <;> rw [Cmd.after, h]
    · exact .of_mem_eq (s.setHlen_mem t lens)
    · exact .of_mem_eq rfl
  blockHeader _ _ _ := .of_mem_eq rfl
  restart _ := .of_mem_eq rfl

theorem State.appendEcs_keepsBelowOut (s : State) (b : Byte) : KeepsBelowOut s (s.appendEcs b) :=
  fun a ha => State.readByte_writeByte_ne s b (by unfold outBase ecsBase at *; omega)

theorem State.emitByte_keepsBelowOut (s : State) (b : Byte) : KeepsBelowOut s (s.emitByte b) := by
  unfold State.emitByte
  split
  · exact (s.appendEcs_keepsBelowOut b).trans (State.appendEcs_keepsBelowOut _ _)
  · exact s.appendEcs_keepsBelowOut b

theorem State.putBit_keepsBelowOut (s : State) (b : Bool) : KeepsBelowOut s (s.putBit b) := by
  unfold State.putBit
  split
  · exact (s.emitByte_keepsBelowOut _).trans (.of_mem_eq rfl)
  · exact .of_mem_eq rfl

theorem State.putBits_keepsBelowOut (s : State) (bits : List Bool) : KeepsBelowOut s (s.putBits bits) := by
  induction bits generalizing s with
  | nil => exact .of_mem_eq rfl
  | cons b bits ih => exact (s.putBit_keepsBelowOut b).trans (ih _)

theorem encblkBody_keepsBelowOut (c : BitVec 2) (s : State) : KeepsBelowOut s ((encblkBody c).after s) := by
  obtain ⟨comp, fields, -, h⟩ | h := encblkBody_after c s <;> rw [h]
  · exact (s.putBits_keepsBelowOut _).trans (.of_mem_eq rfl)
  · exact .of_mem_eq rfl

theorem eflushBody_keepsBelowOut (s : State) : KeepsBelowOut s (eflushBody.after s) := by
  obtain ⟨-, h⟩ | ⟨-, -, h⟩ | ⟨-, -, h⟩ := eflushBody_cases s <;> rw [Cmd.after, h]
  · exact .of_mem_eq rfl
  · exact (s.emitByte_keepsBelowOut _).trans (.of_mem_eq rfl)
  · exact .of_mem_eq rfl

theorem commandBody_keepsBelowOut (i : Instr) (s : State) : KeepsBelowOut s ((commandBody i).after s) := by
  have hframe := commandBody_frame i s
  cases i
  case infblk | inflate | zinflate => exact keepsBelowOut_inflateClosed.commandBody (by simp [inflates]) s
  case encblk c => exact encblkBody_keepsBelowOut c s
  case eflush => exact eflushBody_keepsBelowOut s
  case hbuild t n =>
    obtain h | ⟨tab, lens, -, h⟩ := hframe <;> rw [h]
    · exact .of_mem_eq rfl
    · exact .of_mem_eq (s.setHlen_mem tab lens)
  case ehbuild t =>
    obtain h | ⟨table, h⟩ := hframe <;> rw [h] <;> exact .of_mem_eq rfl
  case ereset => exact .of_mem_eq rfl
  all_goals
    rw [hframe]
    exact .of_mem_eq rfl

/-- Settles O9: every byte a command writes lies in the window of OUT or above it. -/
theorem noCommandWritesInput : Obligations.NoCommandWritesInput := by
  unfold Obligations.NoCommandWritesInput
  intro i s t h j hj
  obtain ⟨busy, done, err, code, cmd, pos, rfl⟩ := exec_writes_record h
  exact commandBody_keepsBelowOut i s _ (by unfold inBase outBase; omega)

end Sys2Proof.Machine
end

section
/-! PROOFS. The address map (20_memory R72): the ranges are disjoint, so an access inside a range reaches its window. -/

namespace Sys2Proof.Machine

/-! ### Where each window lies -/

/-- The first address of a window (20_memory R72). -/
def Window.base : Window → Nat
  | .lens => 0x1000
  | .hlen .litlen => 0x1400
  | .hlen .dist => 0x1600
  | .hlen .clen => 0x1700
  | .qt t => if t = 0 then 0x2000 else 0x2040
  | .qstdY => 0x2080
  | .qstdC => 0x20C0
  | .zz => 0x2100
  | .blk => 0x3000
  | .coef => 0x3100
  | .dctbuf => 0x3200
  | .hspecBits t => 0x4000 + 0x200 * t
  | .hspecVals t => 0x4100 + 0x200 * t
  | .ehuf t => 0x5000 + 0x400 * t
  | .input => inBase
  | .output => outBase
  | .ecs => ecsBase

/-- The size of a window in bytes (20_memory R72). -/
def State.windowSize (s : State) : Window → Nat
  | .lens => 320
  | .hlen t => t.capacity
  | .qt _ | .qstdY | .qstdC | .zz | .blk => 64
  | .coef => 128
  | .dctbuf => 256
  | .hspecBits _ => 16
  | .hspecVals _ => 256
  | .ehuf _ => 1024
  | .input => s.inSize.toNat
  | .output => s.outSize.toNat
  | .ecs => s.ecsSize.toNat

/-- The ranges that no parameter moves or sizes. -/
def fixedRegions : List Region := lowRegions ++ tableRegions

/-- The ranges of IN, OUT and ECS. -/
def State.memoryRegions (s : State) : List Region :=
  [⟨.input, inBase, s.inSize.toNat⟩, ⟨.output, outBase, s.outSize.toNat⟩, ⟨.ecs, ecsBase, s.ecsSize.toNat⟩]

theorem State.regions_eq (s : State) : s.regions = fixedRegions ++ s.memoryRegions := rfl

/-- The range of a window. -/
def State.region (s : State) (w : Window) : Region := ⟨w, w.base, s.windowSize w⟩

theorem State.eq_region_of_mem_fixedRegions (s : State) {r : Region} (h : r ∈ fixedRegions) :
    r = s.region r.window := by
  simp only [fixedRegions, lowRegions, tableRegions, List.mem_append, List.mem_cons, List.not_mem_nil, or_false,
    List.mem_flatMap, List.mem_finRange, true_and] at h
  obtain ((hside | hquant) | hblock) | ⟨t, rfl | rfl | rfl⟩ := h
  · obtain rfl | rfl | rfl | rfl := hside <;> rfl
  · obtain rfl | rfl | rfl | rfl | rfl := hquant <;> rfl
  · obtain rfl | rfl | rfl := hblock <;> rfl
  all_goals rfl

theorem State.eq_region_of_mem {s : State} {r : Region} (h : r ∈ s.regions) : r = s.region r.window := by
  rw [s.regions_eq, List.mem_append] at h
  obtain h | h := h
  · exact s.eq_region_of_mem_fixedRegions h
  · simp only [State.memoryRegions, List.mem_cons, List.not_mem_nil, or_false] at h
    obtain rfl | rfl | rfl := h <;> rfl

theorem mem_fixedRegions_bounds {r : Region} (h : r ∈ fixedRegions) :
    0x1000 ≤ r.first ∧ r.first + r.size ≤ inBase := by
  revert r
  decide

theorem bitVec_one_cases (t : BitVec 1) : t = 0 ∨ t = 1 := by
  revert t
  decide

theorem State.region_mem_fixedRegions (s : State) {w : Window} (hw : w ≠ .input ∧ w ≠ .output ∧ w ≠ .ecs) :
    s.region w ∈ fixedRegions := by
  cases w
  case input => exact absurd rfl hw.1
  case output => exact absurd rfl hw.2.1
  case ecs => exact absurd rfl hw.2.2
  case hlen t =>
    cases t <;> simp [State.region, fixedRegions, lowRegions, Window.base, State.windowSize, DecodeTable.capacity]
  case qt t =>
    obtain rfl | rfl := bitVec_one_cases t <;>
      simp [State.region, fixedRegions, lowRegions, Window.base, State.windowSize]
  case hspecBits t | hspecVals t | ehuf t =>
    refine List.mem_append_right _ (List.mem_flatMap.2 ⟨t, List.mem_finRange t, ?_⟩)
    simp [State.region, Window.base, State.windowSize]
  all_goals simp [State.region, fixedRegions, lowRegions, Window.base, State.windowSize]

theorem State.region_mem (s : State) (w : Window) : s.region w ∈ s.regions := by
  rw [s.regions_eq, List.mem_append]
  by_cases hw : w ≠ .input ∧ w ≠ .output ∧ w ≠ .ecs
  · exact .inl (s.region_mem_fixedRegions hw)
  · right
    obtain rfl | rfl | rfl : w = .input ∨ w = .output ∨ w = .ecs := by tauto
    all_goals simp [State.region, State.memoryRegions, Window.base, State.windowSize]

/-- A permitted window access lies in the window's range, whole. -/
theorem State.target?_window {s : State} {a : Word} {width : AccessWidth} {w : Window} {off : Nat}
    (h : s.target? a width = some (.window w off)) :
    w.base + off = a.toNat ∧ off + width.bytes ≤ s.windowSize w := by
  unfold State.target? at h
  dsimp only at h
  split_ifs at h with halign hlow hword
  · cases h
  · obtain ⟨r, hr, rfl, hoff, hsize⟩ := State.windowTarget_some h
    rw [State.eq_region_of_mem hr] at hoff hsize
    exact ⟨hoff, hsize⟩

/-! ### The ranges are disjoint -/

/-- No address lies in both ranges. -/
def Region.Disjoint (r r' : Region) : Prop := r.first + r.size ≤ r'.first ∨ r'.first + r'.size ≤ r.first

theorem Region.Disjoint.symm {r r' : Region} (h : r.Disjoint r') : r'.Disjoint r := Or.symm h

theorem fixedRegions_pairwise_disjoint : fixedRegions.Pairwise Region.Disjoint := by
  unfold Region.Disjoint
  decide

/-- The top of each parameter's range (00_scope R7). -/
theorem State.Inv.size_le {s : State} (h : s.Inv) :
    s.inSize.toNat ≤ 2 ^ 24 ∧ s.outSize.toNat ≤ 2 ^ 24 ∧ s.ecsSize.toNat ≤ 2 ^ 24 := by
  have hsizes := h.sizes
  simp only [Params.inRange, decide_eq_true_eq] at hsizes
  omega

theorem State.Inv.regions_pairwise_disjoint {s : State} (h : s.Inv) : s.regions.Pairwise Region.Disjoint := by
  obtain ⟨hin, hout, hecs⟩ := h.size_le
  rw [s.regions_eq, List.pairwise_append]
  refine ⟨fixedRegions_pairwise_disjoint, ?_, fun r hr r' hr' => .inl ?_⟩
  · simp only [State.memoryRegions, Region.Disjoint, inBase, outBase, ecsBase, List.pairwise_cons, List.mem_cons,
      List.not_mem_nil, forall_eq_or_imp, IsEmpty.forall_iff, implies_true, List.Pairwise.nil, and_true]
    omega
  · have hend := (mem_fixedRegions_bounds hr).2
    simp only [State.memoryRegions, List.mem_cons, List.not_mem_nil, or_false] at hr'
    obtain rfl | rfl | rfl := hr' <;> simp only [inBase, outBase, ecsBase] at * <;> omega

theorem Region.eq_of_pairwise_disjoint {l : List Region} (h : l.Pairwise Region.Disjoint) {r r' : Region} {a : Nat}
    (hr : r ∈ l) (hr' : r' ∈ l) (ha : r.first ≤ a ∧ a < r.first + r.size)
    (ha' : r'.first ≤ a ∧ a < r'.first + r'.size) : r' = r := by
  by_contra hne
  have : Std.Symm Region.Disjoint := ⟨fun _ _ => Region.Disjoint.symm⟩
  have hdisj := h.forall hr' hr hne
  unfold Region.Disjoint at hdisj
  omega

/-- Bytes of two windows never share an address. -/
theorem State.Inv.eq_of_address_eq {s : State} (h : s.Inv) {w w' : Window} {off off' : Nat}
    (hoff : off < s.windowSize w) (hoff' : off' < s.windowSize w') (haddr : w'.base + off' = w.base + off) : w' = w := by
  have heq := Region.eq_of_pairwise_disjoint h.regions_pairwise_disjoint (s.region_mem w) (s.region_mem w')
    (a := w.base + off) (by simp only [State.region]; omega) (by simp only [State.region]; omega)
  exact congrArg Region.window heq

/-- The window whose range alone holds the first address of an access decides what it reaches. -/
theorem State.windowTarget_of_unique {s : State} {w : Window} {off n : Nat} (hn : 0 < n)
    (hend : off + n ≤ s.windowSize w)
    (hunique : ∀ r ∈ s.regions, r.first ≤ w.base + off ∧ w.base + off < r.first + r.size → r = s.region w) :
    s.windowTarget (w.base + off) n = some (.window w off) := by
  unfold State.windowTarget
  split
  next r hfind =>
    have hp := List.find?_some hfind
    simp only [Bool.and_eq_true, decide_eq_true_eq] at hp
    obtain rfl := hunique r (List.mem_of_find?_eq_some hfind) hp
    simp only [State.region, Nat.add_sub_cancel_left]
    exact if_pos (by omega)
  next hfind =>
    have hout := List.find?_eq_none.1 hfind _ (s.region_mem w)
    simp only [Bool.and_eq_true, decide_eq_true_eq] at hout
    exact absurd ⟨by simp only [State.region]; omega, by simp only [State.region]; omega⟩ hout

/-- An access inside the range of a window that no parameter moves reaches that window. -/
theorem State.windowTarget_fixed (s : State) {w : Window} (hw : w ≠ .input ∧ w ≠ .output ∧ w ≠ .ecs) {off n : Nat}
    (hn : 0 < n) (hend : off + n ≤ s.windowSize w) : s.windowTarget (w.base + off) n = some (.window w off) := by
  have hmem := s.region_mem_fixedRegions hw
  refine State.windowTarget_of_unique hn hend fun r hr hin => ?_
  rw [s.regions_eq, List.mem_append] at hr
  obtain hr | hr := hr
  · exact Region.eq_of_pairwise_disjoint fixedRegions_pairwise_disjoint hmem hr
      (by simp only [State.region]; omega) hin
  · have hlow := (mem_fixedRegions_bounds hmem).2
    simp only [State.memoryRegions, List.mem_cons, List.not_mem_nil, or_false] at hr
    obtain rfl | rfl | rfl := hr <;> simp only [State.region, inBase, outBase, ecsBase] at * <;> omega

/-- With the parameters in their ranges every window lies between the registers and 2^26. -/
theorem State.Inv.region_bounds {s : State} (h : s.Inv) (w : Window) :
    0x1000 ≤ w.base ∧ w.base + s.windowSize w ≤ 2 ^ 26 := by
  obtain ⟨hin, hout, hecs⟩ := h.size_le
  have hw := s.region_mem w
  rw [s.regions_eq, List.mem_append] at hw
  obtain hw | hw := hw
  · have := mem_fixedRegions_bounds hw
    simp only [State.region, inBase] at this
    omega
  · simp only [State.memoryRegions, State.region, List.mem_cons, List.not_mem_nil, or_false, Region.mk.injEq] at hw
    unfold inBase outBase ecsBase at hw
    omega

/-- An access inside the range of a window reaches that window. -/
theorem State.Inv.windowTarget {s : State} (h : s.Inv) {w : Window} {off n : Nat} (hn : 0 < n)
    (hend : off + n ≤ s.windowSize w) : s.windowTarget (w.base + off) n = some (.window w off) :=
  State.windowTarget_of_unique hn hend fun _ hr hin =>
    Region.eq_of_pairwise_disjoint h.regions_pairwise_disjoint (s.region_mem w) hr
      (by simp only [State.region]; omega) hin

/-! ### What a write of a window changes -/

/-- `t` is `s` but for the memories and tables the host can write. -/
def WindowOnly (s t : State) : Prop :=
  t = { s with lens := t.lens, blk := t.blk, coef := t.coef, hspec := t.hspec, mem := t.mem }

theorem WindowOnly.trans {s t u : State} (h : WindowOnly s t) (h' : WindowOnly t u) : WindowOnly s u := by
  unfold WindowOnly at *
  rw [h', h]

theorem State.setWindowByte_windowOnly (s : State) (w : Window) (off : Nat) (b : Byte) :
    WindowOnly s (s.setWindowByte w off b) := by
  cases w <;> rfl

@[simp] theorem State.writeWindow_zero (s : State) (w : Window) (off : Nat) (v : Word) :
    s.writeWindow w off 0 v = s := rfl

/-- A write is made byte by byte, lowest address first. -/
theorem State.writeWindow_succ (s : State) (w : Window) (off n : Nat) (v : Word) :
    s.writeWindow w off (n + 1) v = (s.writeWindow w off n v).setWindowByte w (off + n) (byteAt v n) := by
  simp [State.writeWindow, List.range_succ]

theorem State.writeWindow_windowOnly (s : State) (w : Window) (off n : Nat) (v : Word) :
    WindowOnly s (s.writeWindow w off n v) := by
  induction n with
  | zero => rfl
  | succ n ih =>
    rw [s.writeWindow_succ]
    exact ih.trans (State.setWindowByte_windowOnly _ _ _ _)

theorem WindowOnly.windowSize {s t : State} (h : WindowOnly s t) (w : Window) : t.windowSize w = s.windowSize w := by
  rw [h]
  cases w <;> rfl

end Sys2Proof.Machine
end

section
/-! PROOFS. The tables and the memory within the invariant: what builds them keeps them well-formed. -/

namespace Sys2Proof.Machine

/-! ### Decode tables (40_bitreader R125) -/

/-- Lengths that agree with `lens`, and are 0 past its end, add no more to the Kraft sum. -/
theorem kraftSum_le {l lens : List Nat} (h : ∀ i, i < l.length → l.getD i 0 = lens.getD i 0) :
    kraftSum l ≤ kraftSum lens := by
  induction l generalizing lens with
  | nil => exact Nat.zero_le _
  | cons x l ih =>
    have hx : x = lens.getD 0 0 := h 0 (Nat.succ_pos _)
    have htail := ih (lens := lens.tail) fun i hi => by
      simpa [List.getD_eq_getElem?_getD] using h (i + 1) (Nat.succ_lt_succ hi)
    cases lens <;> simp_all [kraftSum]

theorem kraftOk_setHlen (s : State) {t : DecodeTable} {lens : List Nat} (hle : ∀ l ∈ lens, l ≤ 15)
    (hkraft : KraftOk lens) : KraftOk ((s.setHlen t lens).hlen t) := by
  refine (kraftSum_le fun i hi => ?_).trans hkraft
  rw [State.hlen_length] at hi
  refine s.setHlen_hlen_same t lens i hi ?_
  rw [List.getD_eq_getElem?_getD]
  cases h : lens[i]? with
  | none => exact Nat.zero_le _
  | some l => exact hle l (List.mem_of_getElem? h)

/-! ### Quantization tables (42_quant R190, R193) -/

theorem qEntry_ne_zero (s scale : Nat) : BitVec.ofNat 8 (qEntry s scale) ≠ 0#8 := by
  intro h
  have hmod := congrArg BitVec.toNat h
  simp only [BitVec.toNat_ofNat, qEntry, clampNat] at hmod
  generalize (s * scale + 50) / 100 = x at hmod
  omega

theorem qTableY_nonzero (q : Nat) : (qTableY q).toList.all (fun b => decide (b ≠ 0)) = true := by
  simp [qTableY, qEntry_ne_zero]

theorem qTableC_nonzero (q : Nat) : (qTableC q).toList.all (fun b => decide (b ≠ 0)) = true := by
  simp [qTableC, qEntry_ne_zero]

/-! ### Encoder tables (43_huffman_tables R210, R212) -/

theorem codeLengths_bounds {counts : List Nat} {len l : Nat} (h : l ∈ codeLengths counts len) :
    len ≤ l ∧ l < len + counts.length := by
  induction counts generalizing len with
  | nil => cases h
  | cons n counts ih =>
    rw [codeLengths, List.mem_append] at h
    rw [List.length_cons]
    obtain h | h := h
    · have := List.eq_of_mem_replicate h
      omega
    · have := ih h
      omega

/-- Every code that is emitted fits its length. -/
theorem emitCodes_lt {lens codes : List Nat} {cur code : Nat} (h : emitCodes lens cur code = some codes) :
    ∀ r ∈ lens.zip codes, r.2 < 2 ^ r.1 := by
  induction lens generalizing cur code codes with
  | nil => simp
  | cons len lens ih =>
    simp only [emitCodes] at h
    split at h
    · cases h
    · obtain ⟨rest, hrest, rfl⟩ := Option.map_eq_some_iff.1 h
      simp only [List.zip_cons_cons, List.mem_cons, forall_eq_or_imp]
      exact ⟨by omega, ih hrest⟩

/-- A row that gives a symbol its entry: a code that fits its length, of at most 16 bits. -/
theorem entryOf_ok {rows : List (Byte × Nat × Nat)} (h : ∀ r ∈ rows, r.2.1 ≤ 16 ∧ r.2.2 < 2 ^ r.2.1) (s : Byte) :
    (entryOf rows s).ok = true := by
  unfold entryOf
  split
  next sym len code hfind =>
    obtain ⟨hlen, hcode⟩ := h _ (List.mem_of_find?_eq_some hfind)
    have hpow : 2 ^ len ≤ 2 ^ 16 := Nat.pow_le_pow_right (by omega) hlen
    simp only [EHufEntry.ok, BitVec.toNat_ofNat, decide_eq_true_eq] at *
    rw [Nat.mod_eq_of_lt (by omega : len < 2 ^ 5), Nat.mod_eq_of_lt (by omega : code < 2 ^ 16)]
    exact ⟨hlen, hcode⟩
  next => rfl

/-- A symbol in no row has no code. -/
theorem entryOf_absent {rows : List (Byte × Nat × Nat)} {s : Byte} (h : ∀ r ∈ rows, r.1 ≠ s) :
    entryOf rows s = .absent := by
  have hfind : rows.find? (fun r => r.1 == s) = none := by simpa using h
  rw [entryOf, hfind]

theorem huffBuild_rows {t : Fin 4} {h : HSpec} {table : EHufTable} (hbuild : huffBuild t h = some table) :
    ∃ codes, emitCodes (codeLengths h.counts 1) 1 0 = some codes ∧
      (t.val ≤ 1 → ∀ sym ∈ h.symbols, sym.toNat ≤ 11) ∧
      table = Vector.ofFn fun s =>
        entryOf (h.symbols.zip ((codeLengths h.counts 1).zip codes)) (BitVec.ofNat 8 s) := by
  unfold huffBuild at hbuild
  split_ifs at hbuild with htotal hdc hrep
  dsimp only at hbuild
  split at hbuild
  · cases hbuild
  · rename_i codes hcodes
    refine ⟨codes, hcodes, fun ht sym hsym => ?_, (Option.some.inj hbuild).symm⟩
    have hany := fun hlt => hdc ⟨ht, List.any_eq_true.2 ⟨sym, hsym, decide_eq_true hlt⟩⟩
    exact Nat.le_of_not_lt hany

theorem ehufTableOk_ofFn {t : Fin 4} {f : Fin 256 → EHufEntry} (hok : ∀ s, (f s).ok = true)
    (hdc : t.val ≤ 1 → ∀ s, 12 ≤ s.val → (f s).size = 0) : ehufTableOk t (Vector.ofFn f) = true := by
  unfold ehufTableOk
  rw [Bool.and_eq_true, Bool.or_eq_true, decide_eq_true_eq]
  refine ⟨by simpa [Fin.forall_iff] using hok, ?_⟩
  by_cases ht : t.val ≤ 1
  · right
    simp only [List.all_eq_true, decide_eq_true_eq, List.mem_drop_iff_getElem]
    rintro e ⟨i, hi, rfl⟩
    have hlt : i + 12 < 256 := by simpa using hi
    simpa using hdc ht ⟨12 + i, by omega⟩ (Nat.le_add_right 12 i)
  · exact .inl (by omega)

/-- A table that is built holds codes that fit their lengths, and a DC table none above symbol 11. -/
theorem huffBuild_ok {t : Fin 4} {h : HSpec} {table : EHufTable} (hbuild : huffBuild t h = some table) :
    ehufTableOk t table = true := by
  obtain ⟨codes, hcodes, hdc, rfl⟩ := huffBuild_rows hbuild
  refine ehufTableOk_ofFn (fun s => entryOf_ok ?_ _) fun ht s hs => ?_
  · rintro ⟨sym, len, code⟩ hr
    have hrow := (List.of_mem_zip hr).2
    have hlen := (codeLengths_bounds (List.of_mem_zip hrow).1).2
    have hcounts : h.counts.length = 16 := by simp [HSpec.counts]
    exact ⟨by dsimp only; omega, emitCodes_lt hcodes _ hrow⟩
  · rw [entryOf_absent]
    · rfl
    · rintro ⟨sym, len, code⟩ hr rfl
      have hsym := hdc ht _ (List.of_mem_zip hr).1
      rw [BitVec.toNat_ofNat] at hsym
      omega

theorem ehufRom_ok (t : Fin 4) : ehufTableOk t (ehufRom t) = true := by
  unfold ehufRom
  cases h : huffBuild t (hspecRom t) with
  | some table => exact huffBuild_ok h
  | none => exact ehufTableOk_ofFn (fun _ => rfl) fun _ _ _ => rfl

end Sys2Proof.Machine
end

section
/-! PROOFS. Every step keeps the invariant: what each part of a command, each host access and a reset leave of it. -/

namespace Sys2Proof.Machine

/-! ### The fields the invariant does not speak of, and those it does, one by one -/

/-- `t` is `s` but for fields the invariant leaves free. -/
def FreeFieldsOnly (s t : State) : Prop :=
  t = { s with
    irqEn := t.irqEn, pending := t.pending, result := t.result, brPos := t.brPos, pred := t.pred, errCmd := t.errCmd
    errPos := t.errPos, lens := t.lens, blk := t.blk, dctbuf := t.dctbuf, coef := t.coef, hspec := t.hspec
    bus := t.bus, reads := t.reads }

section
variable {s : State} (h : s.Inv)
include h

theorem State.Inv.of_freeFieldsOnly {t : State} (ht : FreeFieldsOnly s t) : t.Inv := by
  rw [ht]
  exact { h with }

theorem State.Inv.setStatus {st : Status} (hst : st.Inv) : (s.setStatus st).Inv := { h with status := hst }

theorem State.Inv.setInLen {v : Word} (hv : v.toNat ≤ s.inSize.toNat) : (s.setInLen v).Inv := { h with inLen := hv }

theorem State.Inv.setOutLen {v : Word} (hv : v.toNat ≤ s.outSize.toNat) : (s.setOutLen v).Inv :=
  { h with outLen := hv }

theorem State.Inv.setEcsLen {v : Word} (hv : v.toNat ≤ s.ecsSize.toNat) : (s.setEcsLen v).Inv :=
  { h with ecsLen := hv }

theorem State.Inv.setPbits {p : List Bool} (hp : p.length ≤ 7) : (s.setPbits p).Inv := { h with pbits := hp }

theorem State.Inv.writeByte {a : Nat} (ha : s.inWindows a = true) (v : Byte) : (s.writeByte a v).Inv :=
  { h with
    memWf := memStore_wf a v h.memWf
    memIn := memStore_all ha h.memIn }

/-- New decode tables, each of them within the Kraft inequality. -/
theorem State.Inv.of_decodeTables {t : State}
    (ht : t = { s with hlen0 := t.hlen0, hlen1 := t.hlen1, hlen2 := t.hlen2 }) (hkraft : ∀ tab, KraftOk (t.hlen tab)) :
    t.Inv := by
  rw [ht] at hkraft ⊢
  exact { h with kraft := hkraft }

theorem State.Inv.setHlen {tab : DecodeTable} {lens : List Nat} (hle : ∀ l ∈ lens, l ≤ 15) (hkraft : KraftOk lens) :
    (s.setHlen tab lens).Inv := by
  refine h.of_decodeTables ?_ fun t => ?_
  · cases tab <;> simp [State.setHlen, State.setHlen0, State.setHlen1, State.setHlen2]
  · by_cases ht : t = tab
    · rw [ht]
      exact kraftOk_setHlen s hle hkraft
    · rw [s.setHlen_hlen_ne lens ht]
      exact h.kraft t

theorem State.Inv.setEhuf {k : Fin 4} {table : EHufTable} (htable : ehufTableOk k table = true) :
    (s.setEhuf (s.ehuf.set k table)).Inv :=
  { h with
    ehuf := fun t => by
      by_cases ht : t = k
      · subst ht
        simpa using htable
      · have hget : (s.ehuf.set k table)[t] = s.ehuf[t] := Vector.getElem_set_ne _ _ fun heq => ht (Fin.ext heq.symm)
        rw [State.setEhuf_ehuf, hget]
        exact h.ehuf t }

theorem State.Inv.setQuantTables {y c : QTable} (hy : y.toList.all (fun b => decide (b ≠ 0)) = true)
    (hc : c.toList.all (fun b => decide (b ≠ 0)) = true) : ((s.setQt0 y).setQt1 c).Inv :=
  { h with qt0 := hy, qt1 := hc }

end

/-! ### The engine -/

/-- The invariant passes from the state before to the state after. -/
def KeepsInv (s t : State) : Prop := s.Inv → t.Inv

theorem KeepsInv.of_freeFieldsOnly {s t : State} (ht : FreeFieldsOnly s t) : KeepsInv s t :=
  fun h => h.of_freeFieldsOnly ht

theorem CursorOnly.keepsInv {s t : State} (ht : CursorOnly s t) : KeepsInv s t := by
  rw [ht]
  exact KeepsInv.of_freeFieldsOnly rfl

theorem State.Inv.emitted {s : State} (h : s.Inv) (hroom : s.outLen.toNat < s.outSize.toNat) (b : Byte) :
    (s.emitted b).Inv := by
  refine (h.writeByte ?_ b).setOutLen ?_
  · simp only [State.inWindows, decide_eq_true_eq]
    omega
  · have := s.emitted_outLen b hroom
    simp only [State.emitted, State.setOutLen_outLen] at this
    exact this.trans_le hroom

theorem keepsInv_inflateClosed : InflateClosed KeepsInv where
  refl _ := id
  trans h h' := h' ∘ h
  cursor := CursorOnly.keepsInv
  emit b s h := by
    obtain ⟨hroom, he⟩ | ⟨-, he⟩ := emit_cases b s <;> rw [Cmd.after, he]
    · exact h.emitted hroom b
    · exact h
  buildTable t lens s h := by
    obtain ⟨hle, hkraft, hb⟩ | ⟨-, hb⟩ := buildTable_cases t lens s <;> rw [Cmd.after, hb]
    · exact h.setHlen hle hkraft
    · exact h
  blockHeader _ _ _ h := h.setStatus h.status
  restart _ h := h.setOutLen (Nat.zero_le _)

theorem State.Inv.appendEcs {s : State} (h : s.Inv) (hroom : s.ecsLen.toNat < s.ecsSize.toNat) (b : Byte) :
    (s.appendEcs b).Inv ∧ (s.appendEcs b).ecsLen.toNat = s.ecsLen.toNat + 1 := by
  have hlt := s.ecsSize.isLt
  have hlen : (BitVec.ofNat 32 (s.ecsLen.toNat + 1)).toNat = s.ecsLen.toNat + 1 := by
    rw [BitVec.toNat_ofNat]
    omega
  refine ⟨(h.writeByte ?_ b).setEcsLen (hlen.trans_le hroom), hlen⟩
  simp only [State.inWindows, decide_eq_true_eq]
  omega

theorem State.Inv.emitByte {s : State} (h : s.Inv) {b : Byte}
    (hroom : s.ecsLen.toNat + emittedBytes b.toNat ≤ s.ecsSize.toNat) : (s.emitByte b).Inv := by
  unfold State.emitByte
  unfold emittedBytes at hroom
  split
  next hb =>
    rw [if_pos (by rw [hb]; rfl)] at hroom
    obtain ⟨hfirst, hlen⟩ := h.appendEcs (by omega) b
    exact (hfirst.appendEcs (by rw [hlen]; exact hroom) 0x00).1
  next => exact (h.appendEcs (by split at hroom <;> omega) b).1

theorem bitsValue_append_bit (bits : List Bool) (b : Bool) :
    bitsValue (bits ++ [b]) = 2 * bitsValue bits + b.toNat := by
  simp [bitsValue]

theorem bitsValue_lt (bits : List Bool) : bitsValue bits < 2 ^ bits.length := by
  induction bits using List.reverseRecOn with
  | nil => exact Nat.one_pos
  | append_singleton bits b ih =>
    have := b.toNat_le
    rw [bitsValue_append_bit, List.length_append, List.length_singleton, Nat.pow_succ]
    omega

theorem State.Inv.putBits {s : State} (h : s.Inv) {bits : List Bool}
    (hroom : s.ecsLen.toNat + outBytes s.pbits bits ≤ s.ecsSize.toNat) : (s.putBits bits).Inv := by
  induction bits generalizing s with
  | nil => exact h
  | cons b bits ih =>
    rw [State.putBits_cons]
    rw [outBytes] at hroom
    unfold State.putBit
    split
    next hfull =>
      rw [if_pos hfull] at hroom
      have hbyte := bitsValue_lt (s.pbits ++ [b])
      rw [hfull] at hbyte
      have htoNat : (BitVec.ofNat 8 (bitsValue (s.pbits ++ [b]))).toNat = bitsValue (s.pbits ++ [b]) := by
        rw [BitVec.toNat_ofNat, Nat.mod_eq_of_lt hbyte]
      have hlen := s.emitByte_ecsLen (BitVec.ofNat 8 (bitsValue (s.pbits ++ [b])))
        (by have := h.size_le; have := h.ecsLen; omega)
      have hsize := congrArg State.ecsSize (s.emitByte_packOnly (BitVec.ofNat 8 (bitsValue (s.pbits ++ [b]))))
      rw [htoNat] at hlen
      refine ih ((h.emitByte (by rw [htoNat]; omega)).setPbits (Nat.zero_le _)) ?_
      simp only [State.setPbits_ecsLen, State.setPbits_pbits, State.setPbits_ecsSize, hlen, hsize]
      omega
    next hmore =>
      rw [if_neg hmore] at hroom
      refine ih (h.setPbits ?_) hroom
      have := h.pbits
      simp only [List.length_append, List.length_singleton] at hmore ⊢
      omega

theorem flushByte_lt {p : List Bool} (hp : p.length ≤ 7) : flushByte p < 256 := by
  have hlt := bitsValue_lt p
  have hpow : 2 ^ p.length * 2 ^ (8 - p.length) = 256 := by
    rw [← Nat.pow_add, Nat.add_sub_cancel' (by omega)]
  have hpos := Nat.two_pow_pos (8 - p.length)
  have hle := Nat.mul_le_mul_right (2 ^ (8 - p.length)) hlt
  rw [hpow, Nat.succ_mul] at hle
  unfold flushByte
  omega

theorem hbuildBody_keepsInv (t : BitVec 2) (n : BitVec 9) : Cmd.Relates KeepsInv (hbuildBody t n) :=
  keepsInv_inflateClosed.bind (Cmd.Relates.legalOperand (fun _ => id) _) fun _ =>
    keepsInv_inflateClosed.bind_observe _ fun _ => keepsInv_inflateClosed.buildTable _ _

theorem ehbuildBody_keepsInv (t : BitVec 2) : Cmd.Relates KeepsInv (ehbuildBody t) := by
  intro s h
  obtain ⟨table, hbuild, he⟩ | ⟨-, he⟩ := ehbuildBody_cases t s <;> rw [Cmd.after, he]
  · exact h.setEhuf (huffBuild_ok hbuild)
  · exact h

theorem encblkBody_keepsInv (c : BitVec 2) : Cmd.Relates KeepsInv (encblkBody c) := by
  intro s h
  obtain ⟨comp, fields, hroom, he⟩ | he := encblkBody_after c s <;> rw [he]
  · exact (h.putBits hroom).of_freeFieldsOnly rfl
  · exact h

theorem eflushBody_keepsInv : Cmd.Relates KeepsInv eflushBody := by
  intro s h
  obtain ⟨-, he⟩ | ⟨-, hroom, he⟩ | ⟨-, -, he⟩ := eflushBody_cases s <;> rw [Cmd.after, he]
  · exact h
  · refine (h.emitByte ?_).setPbits (Nat.zero_le _)
    rwa [BitVec.toNat_ofNat, Nat.mod_eq_of_lt (flushByte_lt h.pbits)]
  · exact h

theorem commandBody_keepsInv (i : Instr) (s : State) : KeepsInv s ((commandBody i).after s) := by
  have hframe := commandBody_frame i s
  intro h
  cases i
  case infblk | inflate | zinflate => exact keepsInv_inflateClosed.commandBody (by simp [inflates]) s h
  case qbuild q => exact h.setQuantTables (qTableY_nonzero _) (qTableC_nonzero _)
  case hbuild t n => exact hbuildBody_keepsInv t n s h
  case ehbuild t => exact ehbuildBody_keepsInv t s h
  case encblk c => exact encblkBody_keepsInv c s h
  case eflush => exact eflushBody_keepsInv s h
  case ereset =>
    have hpred := h.of_freeFieldsOnly (t := s.setPred (Vector.ofFn fun _ => 0)) rfl
    exact (hpred.setPbits (Nat.zero_le _)).setEcsLen (Nat.zero_le _)
  all_goals
    rw [hframe]
    exact h.of_freeFieldsOnly rfl

theorem ErrorKind.code_bounds (e : ErrorKind) : e.code ≠ 0 ∧ e.code.toNat ≤ 11 := by
  cases e <;> decide

theorem State.Inv.completed {s : State} (h : s.Inv) : (completed s).Inv := by
  obtain ⟨-, herr, hcode⟩ := h.status
  exact h.setStatus ⟨nofun, herr, hcode⟩

theorem State.Inv.failedWith {s : State} (h : s.Inv) (e : ErrorKind) : (failedWith e s).Inv := by
  obtain ⟨hne, hle⟩ := e.code_bounds
  have hstatus := h.setStatus (st := (Machine.failedWith e s).status) ⟨nofun, iff_of_true rfl hne, hle⟩
  exact hstatus.of_freeFieldsOnly rfl

theorem exec_keepsInv {i : Instr} {s t : State} (h : s.Inv) (ht : exec i s = .next t) : t.Inv := by
  have hbody := commandBody_keepsInv i s h
  obtain rfl | ⟨e, rfl⟩ := exec_cases ht
  · exact hbody.completed
  · exact hbody.failedWith e

theorem engineStep_keepsInv {s t : State} (h : s.Inv) (ht : engineStep s = .next t) : t.Inv := by
  unfold engineStep engineExecute at ht
  split at ht
  · split at ht
    · exact exec_keepsInv h ht
    · obtain rfl := Host.Outcome.next.inj ht
      exact h.failedWith .illegalCommand
  · obtain rfl := Host.Outcome.next.inj ht
    exact h

/-! ### Reset -/

theorem kraftSum_of_all_zero {l : List Nat} (h : ∀ x ∈ l, x = 0) : kraftSum l = 0 := by
  rw [List.eq_replicate_of_mem h]
  simp [kraftSum]

theorem Status.reset_inv : Status.reset.Inv := ⟨nofun, by decide, by decide⟩

theorem resetAt_inv {p : Params} (hp : p.inRange = true) : (State.resetAt p).Inv where
  sizes := hp
  status := Status.reset_inv
  inLen := Nat.zero_le _
  outLen := Nat.zero_le _
  ecsLen := Nat.zero_le _
  pbits := Nat.zero_le _
  memWf := rfl
  memIn := rfl
  kraft t := by
    have hzero : kraftSum ((State.resetAt p).hlen t) = 0 := kraftSum_of_all_zero (by
      cases t <;> simp [State.hlen, State.resetAt])
    simp [KraftOk, hzero]
  qt0 := qTableY_nonzero 50
  qt1 := qTableC_nonzero 50
  ehuf t := by simpa [State.resetAt] using ehufRom_ok t

theorem State.Inv.softReset {s : State} (h : s.Inv) : s.softReset.Inv := by
  have hreset := resetAt_inv h.sizes
  have hmem : State.Inv { State.resetAt ⟨s.inSize, s.outSize, s.ecsSize⟩ with mem := s.mem } :=
    { hreset with memWf := h.memWf, memIn := h.memIn }
  exact hmem.of_freeFieldsOnly rfl

/-! ### The host -/

theorem State.Inv.flagViolation {s : State} (h : s.Inv) : s.flagViolation.Inv := h.setStatus h.status

theorem Status.Inv.writeW1C {st : Status} (h : st.Inv) (v : Word) : (st.writeW1C v).Inv := by
  obtain ⟨hbusy, herr, hcode⟩ := h
  unfold Status.writeW1C
  dsimp only
  split
  · exact ⟨fun hb => ⟨by simp [Status.acknowledge, (hbusy hb).1], rfl⟩, by simp [Status.acknowledge], by
      simp [Status.acknowledge]⟩
  · exact ⟨fun hb => ⟨by simp [(hbusy hb).1], (hbusy hb).2⟩, herr, hcode⟩

theorem clampTo_toNat (size v : Word) : (clampTo size v).toNat = min v.toNat size.toNat := by
  unfold clampTo
  split <;> omega

theorem State.Inv.writeCmd {s : State} (h : s.Inv) (v : Word) : (s.writeCmd v).Inv := by
  unfold State.writeCmd
  split
  next => exact h.setStatus h.status
  next hfree =>
    obtain ⟨-, herr, hcode⟩ := h.status
    simp only [Bool.or_eq_true, not_or, Bool.not_eq_true] at hfree
    have hpending : (s.setPending v).Inv := h.of_freeFieldsOnly rfl
    exact hpending.setStatus ⟨fun _ => ⟨rfl, hfree.2⟩, herr, hcode⟩

theorem State.Inv.writeIdle {s : State} (h : s.Inv) (r : Register) (v : Word) : (s.writeIdle r v).Inv := by
  cases r
  case inLen => exact h.setInLen (by rw [clampTo_toNat]; exact Nat.min_le_right _ _)
  case outLen => exact h.setOutLen (by rw [clampTo_toNat]; exact Nat.min_le_right _ _)
  case ecsLen => exact h.setEcsLen (by rw [clampTo_toNat]; exact Nat.min_le_right _ _)
  case ctrl =>
    rw [State.writeIdle, State.writeCtrl]
    split
    · exact h.softReset
    · exact h.of_freeFieldsOnly rfl
  case status => exact h.setStatus (h.status.writeW1C v)
  case cmd => exact h.writeCmd v
  all_goals exact h.of_freeFieldsOnly rfl

/-- A register write is an idle one, or does nothing, or is dropped. -/
theorem State.writeRegister_cases (s : State) (r : Register) (v : Word) :
    s.writeRegister r v = s.writeIdle r v ∨ s.writeRegister r v = s ∨ s.writeRegister r v = s.flagViolation := by
  unfold State.writeRegister
  split
  · cases r <;> simp
  · exact .inl rfl

theorem State.Inv.writeRegister {s : State} (h : s.Inv) (r : Register) (v : Word) : (s.writeRegister r v).Inv := by
  obtain hw | hw | hw := s.writeRegister_cases r v <;> rw [hw]
  · exact h.writeIdle r v
  · exact h
  · exact h.flagViolation

theorem State.Inv.setWindowByte {s : State} (h : s.Inv) {w : Window} {off : Nat} (hoff : off < s.windowSize w)
    (b : Byte) : (s.setWindowByte w off b).Inv := by
  cases w
  case input | output | ecs =>
    refine h.writeByte ?_ b
    simp only [State.windowSize] at hoff
    simp only [State.inWindows, decide_eq_true_eq]
    omega
  all_goals exact h.of_freeFieldsOnly rfl

theorem State.Inv.writeWindow {s : State} (h : s.Inv) {w : Window} {off n : Nat} (hoff : off + n ≤ s.windowSize w)
    (v : Word) : (s.writeWindow w off n v).Inv := by
  induction n with
  | zero => exact h
  | succ n ih =>
    rw [s.writeWindow_succ]
    refine (ih (by omega)).setWindowByte ?_ _
    rw [(s.writeWindow_windowOnly w off n v).windowSize]
    omega

theorem State.Inv.hostRead {s : State} (h : s.Inv) (a : Word) (width : AccessWidth) : (s.hostRead a width).Inv := by
  unfold State.hostRead
  split
  · exact h.of_freeFieldsOnly rfl
  · split
    · exact h.flagViolation.of_freeFieldsOnly rfl
    · exact h.of_freeFieldsOnly rfl
  · exact h.flagViolation.of_freeFieldsOnly rfl

theorem State.Inv.hostWrite {s : State} (h : s.Inv) (a : Word) (width : AccessWidth) (v : Word) :
    (s.hostWrite a width v).Inv := by
  unfold State.hostWrite
  split
  next => exact h.writeRegister _ v
  next htarget =>
    split
    · exact h.flagViolation
    · obtain ⟨-, hoff⟩ := State.target?_window htarget
      exact h.writeWindow hoff v
  next => exact h.flagViolation

/-- Settles O59: the next event is the engine's step, a host read or a host write, and each keeps the invariant. -/
theorem stepKeepsTheInvariant : Obligations.StepKeepsTheInvariant := by
  unfold Obligations.StepKeepsTheInvariant
  intro s t h ht
  unfold step at ht
  cases hbus : s.bus with
  | nil =>
    rw [nextEvent_nil hbus] at ht
    exact engineStep_keepsInv h ht
  | cons e rest =>
    rw [nextEvent_cons hbus] at ht
    have hrest : (s.setBus rest).Inv := h.of_freeFieldsOnly rfl
    cases e with
    | engine => exact engineStep_keepsInv hrest ht
    | read a width =>
      obtain rfl := Host.Outcome.next.inj ht
      exact hrest.hostRead a width
    | write a width v =>
      obtain rfl := Host.Outcome.next.inj ht
      exact hrest.hostWrite a width v

end Sys2Proof.Machine
end

section
/-! PROOFS. The host's side of the registers: which register an aligned word access reaches, what it reads there and
what a write leaves (10_state section 2). -/

namespace Sys2Proof.Machine

/-! ### Writes of the registers a busy engine serves too -/

theorem State.writeRegister_status (s : State) (v : Word) :
    s.writeRegister .status v = s.setStatus (s.status.writeW1C v) := by
  unfold State.writeRegister
  split <;> rfl

theorem State.writeRegister_cmd (s : State) (v : Word) : s.writeRegister .cmd v = s.writeCmd v := by
  unfold State.writeRegister
  split <;> rfl

theorem State.writeRegister_of_idle {s : State} (hidle : s.status.busy = false) (r : Register) (v : Word) :
    s.writeRegister r v = s.writeIdle r v :=
  if_neg (by simp [hidle])

/-! ### CMD -/

theorem State.hostWrite_cmd (s : State) (v : Word) : s.hostWrite 0x0000000C#32 .word v = s.writeCmd v :=
  (s.hostWrite_register v (by decide) (by decide)).trans (s.writeRegister_cmd v)

theorem State.hostRead_cmd (s : State) : s.hostRead 0x0000000C#32 .word = s.returnRead 0 :=
  s.hostRead_register (by decide) (by decide)

theorem State.writeCmd_of_idle {s : State} (hbusy : s.status.busy = false) (herr : s.status.err = false) (v : Word) :
    s.writeCmd v = s.acceptCommand v :=
  if_neg (by simp [hbusy, herr])

theorem State.writeCmd_rejected {s : State} (h : s.status.busy = true ∨ s.status.err = true) (v : Word) :
    s.writeCmd v = s.flagRejected :=
  if_pos (by simpa using h)

/-- Settles O50: the access at the head of `bus` is a write or a read of CMD. -/
theorem cmdWriteAcceptedOrDropped : Obligations.CmdWriteAcceptedOrDropped := by
  unfold Obligations.CmdWriteAcceptedOrDropped
  intro s v rest
  refine ⟨fun hbus => ?_, fun hbus => ?_⟩ <;> rw [step, nextEvent_cons hbus, busStep]
  · rw [State.hostWrite_cmd]
    exact ⟨fun hbusy herr => congrArg _ (State.writeCmd_of_idle (s := s.setBus rest) hbusy herr v),
      fun h => congrArg _ (State.writeCmd_rejected (s := s.setBus rest) h v)⟩
  · rw [State.hostRead_cmd]
    rfl

/-! ### STATUS -/

theorem flagNat_le (b : Bool) : flagNat b ≤ 1 := b.toNat_le

theorem flagNat_testBit (b : Bool) (k : Nat) : (flagNat b).testBit k = (decide (k = 0) && b) :=
  Nat.testBit_bool_toNat b k

/-- The bits STATUS shows (10_state R25). -/
theorem Status.toWord_getLsbD (st : Status) (k : Nat) :
    st.toWord.getLsbD k =
      if k = 0 then st.busy else if k = 1 then st.done else if k = 2 then st.err else if k = 3 then st.rej
      else if k = 4 then st.hviol else if k = 5 then st.last else if k ≤ 7 then st.btype.getLsbD (k - 6)
      else if k ≤ 11 then st.errCode.getLsbD (k - 8) else false := by
  have hbusy := flagNat_le st.busy
  have hdone := flagNat_le st.done
  have herr := flagNat_le st.err
  have hrej := flagNat_le st.rej
  have hhviol := flagNat_le st.hviol
  have hlast := flagNat_le st.last
  have hbtype := st.btype.isLt
  have hcode := st.errCode.isLt
  rw [Status.toWord, BitVec.getLsbD_ofNat]
  obtain hk | hk := Nat.lt_or_ge k 12
  · have hfields : flagNat st.busy + 2 * flagNat st.done + 4 * flagNat st.err + 8 * flagNat st.rej +
        16 * flagNat st.hviol + 32 * flagNat st.last + 64 * st.btype.toNat + 256 * st.errCode.toNat =
        2 ^ 8 * st.errCode.toNat + (2 ^ 6 * st.btype.toNat + (2 ^ 5 * flagNat st.last + (2 ^ 4 * flagNat st.hviol +
          (2 ^ 3 * flagNat st.rej + (2 ^ 2 * flagNat st.err + (2 ^ 1 * flagNat st.done + flagNat st.busy)))))) := by
      omega
    rw [hfields, Nat.testBit_two_pow_mul_add _ (by omega), Nat.testBit_two_pow_mul_add _ (by omega),
      Nat.testBit_two_pow_mul_add _ (by omega), Nat.testBit_two_pow_mul_add _ (by omega),
      Nat.testBit_two_pow_mul_add _ (by omega), Nat.testBit_two_pow_mul_add _ (by omega),
      Nat.testBit_two_pow_mul_add _ (by omega)]
    interval_cases k <;> simp [flagNat_testBit, BitVec.testBit_toNat, -Nat.testBit_zero]
  · have hpow : 2 ^ 12 ≤ 2 ^ k := Nat.pow_le_pow_right (by omega) hk
    rw [Nat.testBit_lt_two_pow (by omega), Bool.and_false]
    repeat rw [if_neg (by omega)]

theorem Status.writeW1C_eq (st : Status) (v : Word) :
    st.writeW1C v = { st with
      done := st.done && !v.getLsbD 1, err := st.err && !v.getLsbD 2, rej := st.rej && !v.getLsbD 3
      hviol := st.hviol && !v.getLsbD 4, errCode := if v.getLsbD 2 then 0 else st.errCode } := by
  unfold Status.writeW1C
  cases h : v.getLsbD 2 <;> simp [Status.acknowledge]

theorem State.hostWrite_status (s : State) (v : Word) :
    s.hostWrite 0x00000008#32 .word v = s.setStatus (s.status.writeW1C v) :=
  (s.hostWrite_register v (by decide) (by decide)).trans (s.writeRegister_status v)

theorem State.hostRead_status (s : State) : s.hostRead 0x00000008#32 .word = s.returnRead s.status.toWord :=
  s.hostRead_register (by decide) (by decide)

/-- Settles O51: STATUS packs its fields, and its write is one update of them. -/
theorem statusReadAndCleared : Obligations.StatusReadAndCleared := by
  unfold Obligations.StatusReadAndCleared
  intro s v
  dsimp only
  rw [s.hostWrite_status, s.hostRead_status, s.status.writeW1C_eq]
  refine ⟨rfl, s.status.toWord_getLsbD, rfl, rfl, rfl, rfl, rfl, rfl, rfl, rfl, rfl, rfl, fun hdone => ?_⟩
  simp [State.irq, hdone]

/-! ### The other registers, with the engine idle -/

theorem State.hostWrite_of_idle {s : State} (hidle : s.status.busy = false) {a : Word} (v : Word)
    (h : a.toNat < 0x100) (ha : a.toNat % 4 = 0) :
    s.hostWrite a .word v = s.writeIdle (registerAt a.toNat) v := by
  rw [s.hostWrite_register v h ha, State.writeRegister_of_idle hidle]

theorem State.hostRead_eq (s : State) {a w : Word} (h : a.toNat < 0x100) (ha : a.toNat % 4 = 0)
    (hw : s.readRegister (registerAt a.toNat) = w) : s.hostRead a .word = { s with reads := w :: s.reads } := by
  rw [s.hostRead_register h ha, hw]
  rfl

theorem registerAt_reserved {offset : Nat} (h : 0x48 ≤ offset) : registerAt offset = .reserved :=
  List.getD_eq_default _ _ (by simp [registerMap]; omega)

theorem registerAt_pred (c : Component) : registerAt (BitVec.ofNat 32 (0x28 + 4 * c.index.val)).toNat = .pred c := by
  cases c <;> rfl

theorem exists_component (k : Fin 3) : ∃ c : Component, c.index = k := by
  fin_cases k
  exacts [⟨.y, rfl⟩, ⟨.cb, rfl⟩, ⟨.cr, rfl⟩]

theorem State.ctrlWord_getLsbD (s : State) (k : Nat) : s.ctrlWord.getLsbD k = (decide (k = 1) && s.irqEn) := by
  rw [State.ctrlWord, BitVec.getLsbD_ofNat]
  cases s.irqEn
  · simp [flagNat]
  · have htwo : 2 * flagNat true = 2 ^ 1 := rfl
    rw [htwo, Nat.testBit_two_pow, Bool.and_true]
    by_cases hk : k = 1 <;> simp [hk, eq_comm]

/-- The earliest bit is the most significant. -/
theorem bitsValue_testBit (bits : List Bool) {j : Nat} (hj : j < bits.length) :
    (bitsValue bits).testBit (bits.length - 1 - j) = bits.getD j false := by
  induction bits using List.reverseRecOn with
  | nil => cases hj
  | append_singleton bits b ih =>
    rw [bitsValue_append_bit, List.length_append, List.length_singleton, Nat.add_sub_cancel]
    rw [List.length_append, List.length_singleton] at hj
    have hb := b.toNat_le
    obtain hj | rfl := Nat.lt_succ_iff_lt_or_eq.1 hj
    · have hhalf : (2 * bitsValue bits + b.toNat) / 2 = bitsValue bits := by omega
      rw [List.getD_append _ _ _ _ hj, ← ih hj, show bits.length - j = bits.length - 1 - j + 1 by omega,
        Nat.testBit_succ, hhalf]
    · rw [Nat.sub_self, List.getD_append_right _ _ _ _ le_rfl, Nat.sub_self, Nat.testBit_zero]
      cases b <;> simp

/-- What EBITS shows: the count in [11:8], the bits right-aligned in [7:0] (10_state R31). -/
theorem State.ebitsWord_fields {s : State} (hlen : s.pbits.length ≤ 7) :
    (s.ebitsWord.extractLsb' 8 4).toNat = s.pbits.length ∧ s.ebitsWord.extractLsb' 12 20 = 0 ∧
      ∀ k, k < 8 → s.ebitsWord.getLsbD k = (bitsValue s.pbits).testBit k := by
  have hval : bitsValue s.pbits < 2 ^ 8 :=
    (bitsValue_lt s.pbits).trans_le (Nat.pow_le_pow_right (by omega) (by omega))
  have hnat : s.ebitsWord.toNat = 2 ^ 8 * s.pbits.length + bitsValue s.pbits := by
    rw [State.ebitsWord, BitVec.toNat_ofNat]
    omega
  refine ⟨?_, BitVec.eq_of_toNat_eq ?_, fun k hk => ?_⟩
  · rw [BitVec.extractLsb'_toNat, hnat, Nat.shiftRight_eq_div_pow]
    omega
  · rw [BitVec.extractLsb'_toNat, hnat, Nat.shiftRight_eq_div_pow]
    change _ = 0
    omega
  · rw [← BitVec.testBit_toNat, hnat, Nat.testBit_two_pow_mul_add _ hval, if_pos hk]

/-- Settles O52: each clause is the access of one register. -/
theorem idleRegisterWrites : Obligations.IdleRegisterWrites := by
  unfold Obligations.IdleRegisterWrites
  intro s v hidle
  dsimp only
  refine ⟨?_, ?_, ?_, ?_, ?_, ?_, ?_, ?_, ?_, ?_, ?_⟩
  · rw [State.hostWrite_of_idle hidle v (by decide) (by decide)]
    exact ⟨rfl, clampTo_toNat _ _⟩
  · exact State.hostWrite_of_idle hidle v (by decide) (by decide)
  · rw [State.hostWrite_of_idle hidle v (by decide) (by decide)]
    exact ⟨rfl, clampTo_toNat _ _⟩
  · rw [State.hostWrite_of_idle hidle v (by decide) (by decide)]
    exact ⟨rfl, clampTo_toNat _ _⟩
  · intro k
    obtain ⟨c, rfl⟩ := exists_component k
    have hlow : (BitVec.ofNat 32 (0x28 + 4 * c.index.val)).toNat < 0x100 := by cases c <;> decide
    have halign : (BitVec.ofNat 32 (0x28 + 4 * c.index.val)).toNat % 4 = 0 := by cases c <;> decide
    rw [State.hostWrite_of_idle hidle v hlow halign, State.hostRead_register _ hlow halign, registerAt_pred]
    refine ⟨rfl, ?_⟩
    simp [State.writeIdle, State.readRegister, State.returnRead_eq]
  · intro a ha
    simp only [List.mem_cons, List.not_mem_nil, or_false] at ha
    rcases ha with rfl | rfl | rfl | rfl | rfl | rfl | rfl | rfl <;>
      exact State.hostWrite_of_idle hidle v (by decide) (by decide)
  · intro a hlow hhigh halign
    rw [State.hostWrite_of_idle hidle v hhigh halign, s.hostRead_register hhigh halign, registerAt_reserved hlow]
    exact ⟨rfl, rfl⟩
  · intro hreset
    rw [State.hostWrite_of_idle hidle v (by decide) (by decide)]
    exact if_neg (by rw [hreset]; exact Bool.false_ne_true)
  · exact ⟨s.ctrlWord, s.hostRead_register (by decide) (by decide), s.ctrlWord_getLsbD⟩
  · intro hlen
    obtain ⟨hcount, hzero, hbits⟩ := State.ebitsWord_fields hlen
    refine ⟨s.ebitsWord, s.hostRead_register (by decide) (by decide), hcount, hzero, fun j hj => ?_, fun k hk hk8 => ?_⟩
    · rw [hbits _ (by omega), bitsValue_testBit _ hj]
    · rw [hbits k hk8]
      exact Nat.testBit_lt_two_pow ((bitsValue_lt _).trans_le (Nat.pow_le_pow_right (by omega) hk))
  · intro r hr
    simp only [List.mem_cons, List.not_mem_nil, or_false] at hr
    rcases hr with rfl | rfl | rfl | rfl | rfl | rfl | rfl | rfl | rfl | rfl | rfl <;>
      dsimp only <;> exact s.hostRead_eq (by decide) (by decide) rfl

end Sys2Proof.Machine
end

section
/-! PROOFS. The bytes of the host's windows: their order, what a write of a byte reads back as, and what it leaves
alone (20_memory R75, R79, R80). -/

namespace Sys2Proof.Machine

/-! ### Bytes in order -/

theorem byteAt_toNat {k : Nat} (x : BitVec k) (i : Nat) : (byteAt x i).toNat = x.toNat / 2 ^ (8 * i) % 256 := by
  rw [byteAt, BitVec.extractLsb'_toNat, Nat.shiftRight_eq_div_pow]

theorem assembleBytes_append (l l' : List Byte) :
    assembleBytes (l ++ l') = assembleBytes l + 2 ^ (8 * l.length) * assembleBytes l' := by
  induction l with
  | nil => simp [assembleBytes]
  | cons b l ih =>
    rw [List.cons_append, assembleBytes, assembleBytes, ih, List.length_cons, Nat.mul_succ, Nat.pow_add]
    ring

theorem assembleBytes_lt (l : List Byte) : assembleBytes l < 2 ^ (8 * l.length) := by
  induction l with
  | nil => exact Nat.one_pos
  | cons b l ih =>
    have hb := b.isLt
    rw [assembleBytes, List.length_cons, Nat.mul_succ, Nat.pow_add]
    omega

/-- Byte `i` of the assembled value is the byte at index `i`. -/
theorem assembleBytes_digit {l : List Byte} {i : Nat} {b : Byte} (h : l[i]? = some b) :
    assembleBytes l / 2 ^ (8 * i) % 256 = b.toNat := by
  induction l generalizing i with
  | nil => cases h
  | cons c l ih =>
    have hc := c.isLt
    rw [assembleBytes]
    cases i with
    | zero =>
      obtain rfl := Option.some.inj h
      rw [Nat.mul_zero, Nat.pow_zero, Nat.div_one]
      omega
    | succ i =>
      have hshift : (c.toNat + 256 * assembleBytes l) / 256 = assembleBytes l := by omega
      rw [Nat.mul_succ, Nat.add_comm (8 * i), Nat.pow_add, ← Nat.div_div_eq_div_mul, hshift]
      exact ih h

/-- The first `n` bytes of a value assemble to its low `8n` bits. -/
theorem assembleBytes_byteAt {k : Nat} (x : BitVec k) (n : Nat) :
    assembleBytes ((List.range n).map (byteAt x)) = x.toNat % 2 ^ (8 * n) := by
  induction n with
  | zero => simp [assembleBytes, Nat.mod_one]
  | succ n ih =>
    rw [List.range_succ, List.map_append, assembleBytes_append, ih, List.length_map, List.length_range,
      Nat.mul_succ, Nat.pow_add, Nat.mod_mul]
    simp [assembleBytes, byteAt_toNat]

theorem byteAt_append_zero (hi lo : Byte) : byteAt (hi ++ lo) 0 = lo := by
  refine BitVec.eq_of_getLsbD_eq fun k hk => ?_
  rw [byteAt, BitVec.getLsbD_extractLsb', BitVec.getLsbD_append]
  simp [hk]

theorem byteAt_append_one (hi lo : Byte) : byteAt (hi ++ lo) 1 = hi := by
  refine BitVec.eq_of_getLsbD_eq fun k hk => ?_
  rw [byteAt, BitVec.getLsbD_extractLsb', BitVec.getLsbD_append]
  simp [hk]

theorem setHalfByte_same (x : Half) {i : Nat} (hi : i < 2) (b : Byte) : byteAt (setHalfByte x i b) i = b := by
  interval_cases i
  · exact byteAt_append_zero _ b
  · exact byteAt_append_one b _

theorem setHalfByte_other (x : Half) {i j : Nat} (hi : i < 2) (hj : j < 2) (hne : j ≠ i) (b : Byte) :
    byteAt (setHalfByte x i b) j = byteAt x j := by
  obtain ⟨rfl, rfl⟩ | ⟨rfl, rfl⟩ : (i = 0 ∧ j = 1) ∨ (i = 1 ∧ j = 0) := by omega
  · exact byteAt_append_one _ b
  · exact byteAt_append_zero b _

/-! ### Reading a window -/

theorem State.readWindow_toNat (s : State) (w : Window) (off : Nat) {n : Nat} (hn : n ≤ 4) :
    (s.readWindow w off n).toNat = assembleBytes ((List.range n).map fun i => s.windowByte w (off + i)) := by
  rw [State.readWindow, BitVec.toNat_ofNat]
  refine Nat.mod_eq_of_lt ((assembleBytes_lt _).trans_le (Nat.pow_le_pow_right (by omega) ?_))
  rw [List.length_map, List.length_range]
  omega

theorem AccessWidth.bytes_bounds (width : AccessWidth) : 0 < width.bytes ∧ width.bytes ≤ 4 := by
  cases width <;> decide

theorem State.readWindow_lt (s : State) (w : Window) (off : Nat) {n : Nat} (hn : n ≤ 4) :
    (s.readWindow w off n).toNat < 2 ^ (8 * n) := by
  rw [s.readWindow_toNat w off hn]
  simpa using assembleBytes_lt ((List.range n).map fun i => s.windowByte w (off + i))

theorem State.readWindow_digit (s : State) (w : Window) (off : Nat) {n i : Nat} (hn : n ≤ 4) (hi : i < n) :
    (s.readWindow w off n).toNat / 2 ^ (8 * i) % 256 = (s.windowByte w (off + i)).toNat := by
  rw [s.readWindow_toNat w off hn]
  exact assembleBytes_digit (by simp [hi])

theorem State.readWindow_one (s : State) (w : Window) (off : Nat) :
    s.readWindow w off 1 = BitVec.ofNat 32 (s.windowByte w off).toNat := by
  simp [State.readWindow, assembleBytes]

/-- Where a window shows the bytes of `x`, it reads as the low bits of `x`. -/
theorem State.readWindow_of_bytes {s : State} {w : Window} {off n k : Nat} {x : BitVec k}
    (h : ∀ i, i < n → s.windowByte w (off + i) = byteAt x i) :
    s.readWindow w off n = BitVec.ofNat 32 (x.toNat % 2 ^ (8 * n)) := by
  rw [State.readWindow, ← assembleBytes_byteAt x n]
  congr 2
  exact List.map_congr_left fun i hi => h i (List.mem_range.1 hi)

/-! ### Writing a window -/

theorem getD_setIfInBounds_self {α : Type} {n : Nat} (v : Vector α n) {i : Nat} (b d : α) (h : i < n) :
    (v.setIfInBounds i b).getD i d = b := by
  simp [Vector.getD, h]

theorem getD_setIfInBounds_ne {α : Type} {n : Nat} (v : Vector α n) {i j : Nat} (b d : α) (h : j ≠ i) :
    (v.setIfInBounds i b).getD j d = v.getD j d := by
  simp [Vector.getD, Array.getElem?_setIfInBounds_ne h.symm]

/-- The windows a host write changes (20_memory R77). -/
def Window.Writable (w : Window) : Prop :=
  w = .lens ∨ w = .blk ∨ w = .coef ∨ (∃ t, w = .hspecBits t) ∨ (∃ t, w = .hspecVals t) ∨ w = .input ∨
    w = .output ∨ w = .ecs

theorem State.windowByte_setWindowByte_same (s : State) {w : Window} (hw : w.Writable) {off : Nat}
    (hoff : off < s.windowSize w) (b : Byte) : (s.setWindowByte w off b).windowByte w off = b := by
  obtain rfl | rfl | rfl | ⟨t, rfl⟩ | ⟨t, rfl⟩ | rfl | rfl | rfl := hw
  · exact getD_setIfInBounds_self _ _ _ hoff
  · exact getD_setIfInBounds_self _ _ _ hoff
  · simp only [State.windowSize] at hoff
    simp only [State.setWindowByte, State.windowByte, State.setCoef_coef]
    rw [getD_setIfInBounds_self _ _ _ (by omega), setHalfByte_same _ (by omega)]
  · simp only [State.setWindowByte, State.windowByte, State.setHspec_hspec]
    simpa using getD_setIfInBounds_self s.hspec[t].bits b 0 hoff
  · simp only [State.setWindowByte, State.windowByte, State.setHspec_hspec]
    simpa using getD_setIfInBounds_self s.hspec[t].vals b 0 hoff
  · exact State.readByte_writeByte_same _ _ _
  · exact State.readByte_writeByte_same _ _ _
  · exact State.readByte_writeByte_same _ _ _

theorem hspec_getElem_set (v : Vector HSpec 4) (t t' : Fin 4) (x : HSpec) :
    (v.set t x)[t'] = if t' = t then x else v[t'] := by
  by_cases h : t' = t
  · subst h
    simp
  · rw [if_neg h]
    exact Vector.getElem_set_ne _ _ fun heq => h (Fin.ext heq.symm)

theorem coef_setHalfByte_ne (v : Vector Half 64) {off off' : Nat} (b : Byte) (h : off' ≠ off) :
    byteAt ((v.setIfInBounds (off / 2) (setHalfByte (v.getD (off / 2) 0) (off % 2) b)).getD (off' / 2) 0) (off' % 2) =
      byteAt (v.getD (off' / 2) 0) (off' % 2) := by
  by_cases hhalf : off' / 2 = off / 2
  · rw [hhalf]
    by_cases hlt : off / 2 < 64
    · rw [getD_setIfInBounds_self _ _ _ hlt, setHalfByte_other _ (by omega) (by omega) (by omega)]
    · rw [Vector.setIfInBounds_eq_of_size_le (by omega)]
  · rw [getD_setIfInBounds_ne _ _ _ hhalf]

theorem State.windowByte_setWindowByte_ne (s : State) {w w' : Window} {off off' : Nat} (b : Byte)
    (h : w'.base + off' ≠ w.base + off) : (s.setWindowByte w off b).windowByte w' off' = s.windowByte w' off' := by
  cases w
  case lens =>
    cases w'
    case lens => exact getD_setIfInBounds_ne _ _ _ (by omega)
    all_goals rfl
  case blk =>
    cases w'
    case blk => exact getD_setIfInBounds_ne _ _ _ (by omega)
    all_goals rfl
  case coef =>
    cases w'
    case coef => exact coef_setHalfByte_ne s.coef b (by omega)
    all_goals rfl
  case hspecBits t =>
    cases w'
    case hspecBits t' =>
      simp only [State.setWindowByte, State.windowByte, State.setHspec_hspec, hspec_getElem_set]
      split
      next ht =>
        subst ht
        exact getD_setIfInBounds_ne _ _ _ (by omega)
      next => rfl
    case hspecVals t' =>
      simp only [State.setWindowByte, State.windowByte, State.setHspec_hspec, hspec_getElem_set]
      split
      next ht => rw [ht]
      next => rfl
    all_goals rfl
  case hspecVals t =>
    cases w'
    case hspecBits t' =>
      simp only [State.setWindowByte, State.windowByte, State.setHspec_hspec, hspec_getElem_set]
      split
      next ht => rw [ht]
      next => rfl
    case hspecVals t' =>
      simp only [State.setWindowByte, State.windowByte, State.setHspec_hspec, hspec_getElem_set]
      split
      next ht =>
        subst ht
        exact getD_setIfInBounds_ne _ _ _ (by omega)
      next => rfl
    all_goals rfl
  case input | output | ecs =>
    cases w'
    case input | output | ecs => exact State.readByte_writeByte_ne _ _ h
    all_goals rfl
  all_goals rfl

theorem State.readByte_setWindowByte_ne (s : State) {w : Window} {off a : Nat} (b : Byte) (h : a ≠ w.base + off) :
    (s.setWindowByte w off b).readByte a = s.readByte a := by
  cases w
  case input | output | ecs => exact State.readByte_writeByte_ne _ _ h
  all_goals rfl

/-- What no byte of a write changes, the write leaves. -/
theorem State.writeWindow_keeps {β : Type} (f : State → β) (s : State) {w : Window} {off n : Nat} (v : Word)
    (h : ∀ u i b, i < n → f (u.setWindowByte w (off + i) b) = f u) : f (s.writeWindow w off n v) = f s := by
  induction n with
  | zero => rfl
  | succ n ih =>
    rw [s.writeWindow_succ, h _ _ _ n.lt_succ_self]
    exact ih fun u i b hi => h u i b (hi.trans n.lt_succ_self)

theorem State.windowByte_writeWindow_same (s : State) {w : Window} (hw : w.Writable) {off n : Nat}
    (hoff : off + n ≤ s.windowSize w) (v : Word) {i : Nat} (hi : i < n) :
    (s.writeWindow w off n v).windowByte w (off + i) = byteAt v i := by
  induction n with
  | zero => cases hi
  | succ n ih =>
    rw [s.writeWindow_succ]
    obtain hlt | rfl := Nat.lt_succ_iff_lt_or_eq.1 hi
    · rw [State.windowByte_setWindowByte_ne _ _ (by omega)]
      exact ih (by omega) hlt
    · refine State.windowByte_setWindowByte_same _ hw ?_ _
      rw [(s.writeWindow_windowOnly w off i v).windowSize]
      omega

theorem State.setWindowByte_lens (s : State) {w : Window} (hw : w ≠ .lens) (off : Nat) (b : Byte) :
    (s.setWindowByte w off b).lens = s.lens := by
  cases w
  case lens => exact absurd rfl hw
  all_goals rfl

theorem State.setWindowByte_blk (s : State) {w : Window} (hw : w ≠ .blk) (off : Nat) (b : Byte) :
    (s.setWindowByte w off b).blk = s.blk := by
  cases w
  case blk => exact absurd rfl hw
  all_goals rfl

theorem State.setWindowByte_coef (s : State) {w : Window} (hw : w ≠ .coef) (off : Nat) (b : Byte) :
    (s.setWindowByte w off b).coef = s.coef := by
  cases w
  case coef => exact absurd rfl hw
  all_goals rfl

theorem State.setWindowByte_hspec (s : State) {w : Window} (hw : ∀ t, w ≠ .hspecBits t ∧ w ≠ .hspecVals t) (off : Nat)
    (b : Byte) : (s.setWindowByte w off b).hspec = s.hspec := by
  cases w
  case hspecBits t => exact absurd rfl (hw t).1
  case hspecVals t => exact absurd rfl (hw t).2
  all_goals rfl

theorem State.setWindowByte_mem (s : State) {w : Window} (hw : w ≠ .input ∧ w ≠ .output ∧ w ≠ .ecs) (off : Nat)
    (b : Byte) : (s.setWindowByte w off b).mem = s.mem := by
  cases w
  case input => exact absurd rfl hw.1
  case output => exact absurd rfl hw.2.1
  case ecs => exact absurd rfl hw.2.2
  all_goals rfl

/-! ### Accesses of a window -/

theorem State.hostRead_window {s : State} (hidle : s.status.busy = false) {a : Word} {width : AccessWidth} {w : Window}
    {off : Nat} (h : s.target? a width = some (.window w off)) :
    s.hostRead a width = s.returnRead (s.readWindow w off width.bytes) := by
  simp [State.hostRead, h, hidle]

theorem State.hostWrite_window {s : State} (hidle : s.status.busy = false) {a : Word} {width : AccessWidth} (v : Word)
    {w : Window} {off : Nat} (h : s.target? a width = some (.window w off)) :
    s.hostWrite a width v = s.writeWindow w off width.bytes v := by
  simp [State.hostWrite, h, hidle]

theorem State.target?_eq_windowTarget (s : State) {a : Word} {width : AccessWidth} (halign : a.toNat % width.bytes = 0)
    (ha : 0x100 ≤ a.toNat) : s.target? a width = s.windowTarget a.toNat width.bytes := by
  simp [State.target?, halign, Nat.not_lt.2 ha]

/-- A byte inside a permitted access is itself permitted. -/
theorem State.Inv.target?_byte {s : State} (h : s.Inv) {a : Word} {width : AccessWidth} {w : Window} {off i : Nat}
    (ht : s.target? a width = some (.window w off)) (hi : i < width.bytes) :
    s.target? (a + BitVec.ofNat 32 i) .byte = some (.window w (off + i)) := by
  obtain ⟨hbase, hend⟩ := State.target?_window ht
  have hbounds := h.region_bounds w
  have haddr : (a + BitVec.ofNat 32 i).toNat = w.base + (off + i) := by
    rw [BitVec.toNat_add, BitVec.toNat_ofNat]
    omega
  rw [State.target?_eq_windowTarget s (Nat.mod_one _) (by omega), haddr]
  exact h.windowTarget Nat.one_pos (by change off + i + 1 ≤ _; omega)

end Sys2Proof.Machine
end

section
/-! PROOFS. Windows are little-endian and show the tables of the commands (20_memory R72 to R80). -/

namespace Sys2Proof.Machine

/-! ### What a write of a read-write window leaves -/

/-- A write leaves every byte of a window that is not one of its own. -/
theorem State.Inv.windowByte_writeWindow_ne {s : State} (h : s.Inv) {w w' : Window} {off off' n : Nat}
    (hend : off + n ≤ s.windowSize w) (hoff' : off' < s.windowSize w') (hne : w' ≠ w ∨ off' < off ∨ off + n ≤ off')
    (v : Word) : (s.writeWindow w off n v).windowByte w' off' = s.windowByte w' off' := by
  refine s.writeWindow_keeps (fun u => u.windowByte w' off') v fun u i b hi => u.windowByte_setWindowByte_ne b ?_
  intro haddr
  have hw := h.eq_of_address_eq (off := off + i) (by omega) hoff' haddr
  subst hw
  simp only [ne_eq, not_true_eq_false, false_or] at hne
  omega

theorem State.writeWindow_readOnly (s : State) {w : Window} (hw : ¬ w.Writable) (off n : Nat) (v : Word) :
    s.writeWindow w off n v = s := by
  refine s.writeWindow_keeps id v fun u i b _ => ?_
  cases w
  case lens | blk | coef | hspecBits | hspecVals | input | output | ecs => exact absurd (by simp [Window.Writable]) hw
  all_goals rfl

/-! ### The addresses of the tables -/

/-- A read inside a window, at its own address. -/
theorem State.hostRead_of_windowTarget {s : State} (hidle : s.status.busy = false) {w : Window} {off : Nat}
    {width : AccessWidth} (htarget : s.windowTarget (w.base + off) width.bytes = some (.window w off))
    (halign : (w.base + off) % width.bytes = 0) (hbounds : 0x100 ≤ w.base + off ∧ w.base + off < 2 ^ 32) {r : Word}
    (hr : s.readWindow w off width.bytes = r) :
    s.hostRead (BitVec.ofNat 32 (w.base + off)) width = { s with reads := r :: s.reads } := by
  have haddr : (BitVec.ofNat 32 (w.base + off)).toNat = w.base + off := by
    rw [BitVec.toNat_ofNat, Nat.mod_eq_of_lt hbounds.2]
  rw [← haddr] at htarget halign
  rw [← s.target?_eq_windowTarget halign (by omega)] at htarget
  rw [State.hostRead_window hidle htarget, hr]
  rfl

theorem State.hostRead_fixed {s : State} (hidle : s.status.busy = false) {w : Window} {off : Nat} {width : AccessWidth}
    (hw : w ≠ .input ∧ w ≠ .output ∧ w ≠ .ecs) (halign : (w.base + off) % width.bytes = 0)
    (hend : off + width.bytes ≤ s.windowSize w) {r : Word} (hr : s.readWindow w off width.bytes = r) :
    s.hostRead (BitVec.ofNat 32 (w.base + off)) width = { s with reads := r :: s.reads } := by
  have hbounds := mem_fixedRegions_bounds (s.region_mem_fixedRegions hw)
  have hpos := width.bytes_bounds.1
  simp only [State.region, inBase] at hbounds
  exact State.hostRead_of_windowTarget hidle (s.windowTarget_fixed hw hpos hend) halign (by omega) hr

theorem State.hostRead_fixed_byte {s : State} (hidle : s.status.busy = false) {w : Window} {off : Nat}
    (hw : w ≠ .input ∧ w ≠ .output ∧ w ≠ .ecs) (hoff : off < s.windowSize w) {r : Word}
    (hr : BitVec.ofNat 32 (s.windowByte w off).toNat = r) :
    s.hostRead (BitVec.ofNat 32 (w.base + off)) .byte = { s with reads := r :: s.reads } :=
  State.hostRead_fixed hidle hw (Nat.mod_one _) hoff ((s.readWindow_one w off).trans hr)

theorem State.Inv.hostRead_byte {s : State} (h : s.Inv) (hidle : s.status.busy = false) {w : Window} {off : Nat}
    (hoff : off < s.windowSize w) {r : Word} (hr : BitVec.ofNat 32 (s.windowByte w off).toNat = r) :
    s.hostRead (BitVec.ofNat 32 (w.base + off)) .byte = { s with reads := r :: s.reads } := by
  have hbounds := h.region_bounds w
  have htarget := h.windowTarget (n := AccessWidth.byte.bytes) Nat.one_pos hoff
  exact State.hostRead_of_windowTarget hidle htarget (Nat.mod_one _) (by omega) ((s.readWindow_one w off).trans hr)

theorem ofNat_toNat_ofNat_of_lt {x : Nat} (h : x < 256) :
    BitVec.ofNat 32 (BitVec.ofNat 8 x).toNat = BitVec.ofNat 32 x := by
  rw [BitVec.toNat_ofNat, Nat.mod_eq_of_lt h]

theorem State.hlen_getD_lt (s : State) (t : DecodeTable) (n : Nat) : (s.hlen t).getD n 0 < 256 := by
  have hbound : ∀ x ∈ s.hlen t, x < 256 := by
    cases t <;> simp only [State.hlen, List.mem_map] <;> rintro x ⟨v, -, rfl⟩ <;> omega
  rw [List.getD_eq_getElem?_getD]
  cases h : (s.hlen t)[n]? with
  | none => exact Nat.succ_pos _
  | some x => exact hbound x (List.mem_of_getElem? h)

theorem rom_tables_lt : ∀ n, n < 64 → qstdY n < 256 ∧ qstdC n < 256 ∧ zz n < 256 := by decide

/-- The word form of an entry: SIZE in [20:16], CODE in [15:0] (10_state R44). -/
theorem EHufEntry.toWord_eq (e : EHufEntry) : e.toWord = e.size.setWidth 32 <<< 16 ||| e.code.setWidth 32 := by
  have hsize := e.size.isLt
  have hcode := e.code.isLt
  apply BitVec.eq_of_toNat_eq
  have hshift : (e.size.setWidth 32 <<< 16).toNat = e.size.toNat <<< 16 := by
    simp only [BitVec.toNat_shiftLeft, BitVec.toNat_setWidth, Nat.shiftLeft_eq]
    omega
  rw [BitVec.toNat_or, hshift, BitVec.toNat_setWidth, Nat.mod_eq_of_lt (by omega),
    ← Nat.shiftLeft_add_eq_or_of_lt hcode, EHufEntry.toWord, BitVec.toNat_ofNat, Nat.shiftLeft_eq]
  omega

/-- A window that shows an element by its bytes reads as the element. -/
theorem State.readWindow_element {s : State} {w : Window} {off n k : Nat} {x : BitVec k} (hk : k = 8 * n)
    (h : ∀ i, i < n → s.windowByte w (off + i) = byteAt x i) : s.readWindow w off n = x.setWidth 32 := by
  rw [State.readWindow_of_bytes h, ← hk, Nat.mod_eq_of_lt x.isLt, BitVec.ofNat_toNat]

theorem State.windowByte_dctbuf (s : State) (n : Nat) {i : Nat} (hi : i < 4) :
    s.windowByte .dctbuf (4 * n + i) = byteAt (s.dctbuf.getD n 0) i := by
  rw [State.windowByte, show (4 * n + i) / 4 = n by omega, show (4 * n + i) % 4 = i by omega]

theorem State.windowByte_ehuf (s : State) (t : Fin 4) (n : Nat) {i : Nat} (hi : i < 4) :
    s.windowByte (.ehuf t) (4 * n + i) = byteAt (s.ehuf[t].getD n .absent).toWord i := by
  rw [State.windowByte, show (4 * n + i) / 4 = n by omega, show (4 * n + i) % 4 = i by omega]

theorem State.windowByte_coef (s : State) (n : Nat) {i : Nat} (hi : i < 2) :
    s.windowByte .coef (2 * n + i) = byteAt (s.coef.getD n 0) i := by
  rw [State.windowByte, show (2 * n + i) / 2 = n by omega, show (2 * n + i) % 2 = i by omega]

theorem State.hostRead_dctbuf_word {s : State} (hidle : s.status.busy = false) {n : Nat} (hn : n < 64) :
    s.hostRead (BitVec.ofNat 32 (0x3200 + 4 * n)) .word = { s with reads := s.dctbuf.getD n 0 :: s.reads } := by
  refine State.hostRead_fixed hidle (w := .dctbuf) (width := .word) (by simp) ?_ ?_ ?_
  · change (0x3200 + 4 * n) % 4 = 0
    omega
  · change 4 * n + 4 ≤ 256
    omega
  · exact (State.readWindow_element rfl fun i => s.windowByte_dctbuf n).trans (BitVec.setWidth_eq _)

theorem State.hostRead_ehuf_word {s : State} (hidle : s.status.busy = false) (t : Fin 4) {n : Nat} (hn : n < 256) :
    s.hostRead (BitVec.ofNat 32 (0x5000 + 0x400 * t.val + 4 * n)) .word =
      { s with reads := (s.ehuf[t].getD n .absent).toWord :: s.reads } := by
  refine State.hostRead_fixed hidle (w := .ehuf t) (off := 4 * n) (width := .word) (by simp) ?_ ?_ ?_
  · change (0x5000 + 0x400 * t.val + 4 * n) % 4 = 0
    omega
  · change 4 * n + 4 ≤ 1024
    omega
  · exact (State.readWindow_element rfl fun i => s.windowByte_ehuf t n).trans (BitVec.setWidth_eq _)

theorem State.hostRead_coef_half {s : State} (hidle : s.status.busy = false) {n : Nat} (hn : n < 64) :
    s.hostRead (BitVec.ofNat 32 (0x3100 + 2 * n)) .half =
      { s with reads := (s.coef.getD n 0).setWidth 32 :: s.reads } := by
  refine State.hostRead_fixed hidle (w := .coef) (off := 2 * n) (width := .half) (by simp) ?_ ?_ ?_
  · change (0x3100 + 2 * n) % 2 = 0
    omega
  · change 2 * n + 2 ≤ 128
    omega
  · exact State.readWindow_element rfl fun i => s.windowByte_coef n

theorem State.hostRead_coef_byte {s : State} (hidle : s.status.busy = false) {n i : Nat} (hn : n < 64) (hi : i < 2) :
    s.hostRead (BitVec.ofNat 32 (0x3100 + (2 * n + i))) .byte =
      { s with reads := (byteAt (s.coef.getD n 0) i).setWidth 32 :: s.reads } := by
  refine State.hostRead_fixed_byte hidle (w := .coef) (by simp) ?_ ?_
  · change 2 * n + i < 128
    omega
  · rw [s.windowByte_coef n hi, BitVec.ofNat_toNat]

theorem State.hostRead_hlen_byte {s : State} (hidle : s.status.busy = false) (t : DecodeTable) (n : Nat)
    (hn : n < t.capacity) :
    s.hostRead (BitVec.ofNat 32 ((Window.hlen t).base + n)) .byte =
      { s with reads := BitVec.ofNat 32 ((s.hlen t).getD n 0) :: s.reads } :=
  State.hostRead_fixed_byte hidle (w := .hlen t) (by simp) hn (ofNat_toNat_ofNat_of_lt (s.hlen_getD_lt t n))

/-- A byte inside a permitted access, read alone. -/
theorem State.Inv.hostRead_byte_inside {s : State} (h : s.Inv) (hidle : s.status.busy = false) {a : Word}
    {width : AccessWidth} {w : Window} {off i : Nat} (ht : s.target? a width = some (.window w off))
    (hi : i < width.bytes) {x : Nat} (hx : (s.windowByte w (off + i)).toNat = x) :
    s.hostRead (a + BitVec.ofNat 32 i) .byte = { s with reads := BitVec.ofNat 32 x :: s.reads } := by
  rw [State.hostRead_window hidle (h.target?_byte ht hi), show AccessWidth.byte.bytes = 1 from rfl,
    s.readWindow_one, hx]
  rfl

/-- The windows that ignore a host write (20_memory R77). -/
theorem Window.not_writable {w : Window} (h : (∃ t, w = .hlen t) ∨ (∃ t, w = .qt t) ∨ w = .qstdY ∨ w = .qstdC ∨
    w = .zz ∨ w = .dctbuf ∨ ∃ t, w = .ehuf t) : ¬ w.Writable := by
  obtain ⟨t, rfl⟩ | ⟨t, rfl⟩ | rfl | rfl | rfl | rfl | ⟨t, rfl⟩ := h <;> simp [Window.Writable]

/-- Settles O55: a write is its bytes in order at their own addresses, and a window shows one table, byte by byte. -/
theorem littleEndianWindows : Obligations.LittleEndianWindows := by
  unfold Obligations.LittleEndianWindows
  refine ⟨?_, ?_, ?_, ?_⟩
  · intro s a v width w off h hidle ht hw
    dsimp only
    rw [State.hostWrite_window hidle v ht]
    obtain ⟨hbase, hend⟩ := State.target?_window ht
    have hframe := s.writeWindow_windowOnly w off width.bytes v
    have hbytes := fun i hi => s.windowByte_writeWindow_same (i := i) hw hend v hi
    have hinv := h.writeWindow hend v
    have hother := fun w' off' hoff' hne => h.windowByte_writeWindow_ne (w' := w') (off' := off') hend hoff' hne v
    have hkeeps := fun (β : Type) (f : State → β) => s.writeWindow_keeps f (w := w) (off := off) (n := width.bytes) v
    generalize s.writeWindow w off width.bytes v = t at *
    have htidle : t.status.busy = false := by rw [hframe]; exact hidle
    have htt : t.target? a width = some (.window w off) := by
      rw [← ht, hframe]
      exact State.target?_congr rfl rfl rfl a width
    have hreads : t.reads = s.reads := by rw [hframe]
    refine ⟨?_, fun i hi => ?_, fun w' off' hne hoff' => ?_, hframe, fun hne => ?_, fun hne => ?_, fun hne => ?_,
      fun hne => ?_, fun hne => ?_, fun b hb => ?_⟩
    · rw [State.hostRead_window htidle htt, State.readWindow_of_bytes hbytes, ← hreads]
      rfl
    · rw [← hreads]
      exact hinv.hostRead_byte_inside htidle htt hi (by rw [hbytes i hi, byteAt_toNat])
    · exact hother w' off' (hoff' _ (s.region_mem w') rfl) hne
    · exact hkeeps _ (·.lens) fun u i b _ => u.setWindowByte_lens hne _ b
    · exact hkeeps _ (·.blk) fun u i b _ => u.setWindowByte_blk hne _ b
    · exact hkeeps _ (·.coef) fun u i b _ => u.setWindowByte_coef hne _ b
    · exact hkeeps _ (·.hspec) fun u i b _ => u.setWindowByte_hspec hne _ b
    · exact hkeeps _ (·.mem) fun u i b _ => u.setWindowByte_mem hne _ b
    · exact hkeeps _ (·.readByte b) fun u i x hi => u.readByte_setWindowByte_ne x (by omega)
  · intro s a v width w off hidle ht hw
    rw [State.hostWrite_window hidle v ht]
    exact s.writeWindow_readOnly (Window.not_writable hw) off width.bytes v
  · intro s a width w off h hidle ht
    have hle := width.bytes_bounds.2
    refine ⟨s.readWindow w off width.bytes, State.hostRead_window hidle ht, s.readWindow_lt w off hle, ?_,
      fun i hi => ?_⟩
    · rintro rfl
      rw [← BitVec.ofNat_toNat]
      exact s.readWindow_one w off
    · exact h.hostRead_byte_inside hidle ht hi (s.readWindow_digit w off hle hi).symm
  · intro s hidle
    dsimp only
    have hbyte : ∀ (w : Window) (off : Nat), w ≠ .input ∧ w ≠ .output ∧ w ≠ .ecs → off < s.windowSize w →
        s.hostRead (BitVec.ofNat 32 (w.base + off)) .byte =
          { s with reads := (s.windowByte w off).setWidth 32 :: s.reads } :=
      fun w off hw hoff => State.hostRead_fixed_byte hidle hw hoff (BitVec.ofNat_toNat _ _)
    refine ⟨State.hostRead_hlen_byte hidle .litlen, State.hostRead_hlen_byte hidle .dist,
      State.hostRead_hlen_byte hidle .clen, fun n hn => ?_, fun t sym hsym => ?_,
      fun n hn => hbyte .lens n (by simp) hn, fun n hn => hbyte .blk n (by simp) hn,
      fun k hk => ⟨State.hostRead_coef_half hidle hk, State.hostRead_coef_byte hidle (i := 0) hk (by omega),
        State.hostRead_coef_byte hidle (i := 1) hk (by omega)⟩,
      fun t n hn => hbyte (.hspecBits t) n (by simp) hn, fun t n hn => hbyte (.hspecVals t) n (by simp) hn,
      fun h => ⟨fun n hn => ?_, fun n hn => ?_, fun n hn => ?_⟩⟩
    · obtain ⟨hy, hc, hzz⟩ := rom_tables_lt n hn
      exact ⟨hbyte (.qt 0) n (by simp) hn, hbyte (.qt 1) n (by simp) hn,
        State.hostRead_fixed_byte hidle (w := .qstdY) (by simp) hn (ofNat_toNat_ofNat_of_lt hy),
        State.hostRead_fixed_byte hidle (w := .qstdC) (by simp) hn (ofNat_toNat_ofNat_of_lt hc),
        State.hostRead_fixed_byte hidle (w := .zz) (by simp) hn (ofNat_toNat_ofNat_of_lt hzz),
        State.hostRead_dctbuf_word hidle hn⟩
    · rw [← EHufEntry.toWord_eq]
      exact State.hostRead_ehuf_word hidle t hsym
    · exact h.hostRead_byte hidle (w := .input) hn (BitVec.ofNat_toNat _ _)
    · exact h.hostRead_byte hidle (w := .output) hn (BitVec.ofNat_toNat _ _)
    · exact h.hostRead_byte hidle (w := .ecs) hn (BitVec.ofNat_toNat _ _)

end Sys2Proof.Machine
end

section
/-! PROOFS. What a step does with each head of the host's sequence, what a read leaves, and which accesses of the host
are dropped (20_memory R76 to R79, R84, R86). -/

namespace Sys2Proof.Machine

/-! ### A word no command has (30_encoding R105, R106) -/

/-- A command with a field out of range refuses it first thing (30_encoding R106). -/
theorem exec_of_illFormed {i : Instr} (h : i.wellFormed = false) (s : State) :
    exec i s = .next (failedWith .illegalCommand s) := by
  rw [exec_eq_runCommand]
  refine runCommand_error ?_
  cases i
  case rdbits n =>
    have hn : bitCountOf n = none := if_neg (by simpa [Instr.wellFormed] using h)
    simp [commandBody, rdbitsBody, hn]
  case hbuild t n =>
    have hn : hbuildOperands t n = none := by
      simp only [Instr.wellFormed, decide_eq_false_iff_not, not_and, Nat.not_le] at h
      unfold hbuildOperands
      split
      next tab htab =>
        obtain rfl := decodeTableOf_eq_some htab
        refine if_neg (Nat.not_le.2 ?_)
        cases tab <;> exact h (by decide)
      next => rfl
    simp [commandBody, hbuildBody, hn]
  case hdecode t =>
    obtain rfl : t = 3 := by simpa [Instr.wellFormed] using h
    rfl
  case encblk c =>
    obtain rfl : c = 3 := by simpa [Instr.wellFormed] using h
    rfl
  all_goals cases h

theorem engineStep_of_busy {s : State} (hbusy : s.status.busy = true) :
    engineStep s = engineExecute s.pending s :=
  if_pos hbusy

theorem engineStep_of_idle {s : State} (hidle : s.status.busy = false) : engineStep s = .next s :=
  if_neg (by simp [hidle])

theorem engineExecute_of_decode {w : Word} {i : Instr} (h : decode w = .ok i) (s : State) :
    engineExecute w s = exec i s := by
  simp only [engineExecute, h]

theorem engineExecute_of_illegal {w : Word} (h : legalWord w = false) (s : State) :
    engineExecute w s = .next (failedWith .illegalCommand s) := by
  unfold legalWord at h
  cases hdecode : decode w with
  | ok i =>
    rw [hdecode] at h
    rw [engineExecute_of_decode hdecode, exec_of_illFormed h]
  | error e =>
    simp only [engineExecute, hdecode]
    rfl

theorem engineStep_of_illegal {s : State} (hbusy : s.status.busy = true) (h : legalWord s.pending = false) :
    engineStep s = .next (failedWith .illegalCommand s) := by
  rw [engineStep_of_busy hbusy, engineExecute_of_illegal h]

/-- Settles O6: each head of `bus` is one event, and the engine's is `engineStep`. -/
theorem stepRunsDecodedCommand : Obligations.StepRunsDecodedCommand := by
  unfold Obligations.StepRunsDecodedCommand
  refine ⟨fun s i hbusy hdecode => ?_, fun s hbusy hillegal => ?_, fun s rest => ?_⟩
  · have hengine : ∀ u : State, u.status = s.status → u.pending = s.pending → engineStep u = exec i u :=
      fun u hstatus hpending => by
        rw [engineStep_of_busy (hstatus ▸ hbusy), hpending, engineExecute_of_decode hdecode]
    exact ⟨fun hbus => (nextEvent_nil hbus).trans (hengine s rfl rfl),
      fun rest hbus => (nextEvent_cons hbus).trans (hengine (s.setBus rest) rfl rfl)⟩
  · exact ⟨fun hbus => (nextEvent_nil hbus).trans (engineStep_of_illegal hbusy hillegal),
      fun rest hbus => (nextEvent_cons hbus).trans (engineStep_of_illegal (s := s.setBus rest) hbusy hillegal)⟩
  · exact ⟨fun hbus hidle => (nextEvent_cons hbus).trans (engineStep_of_idle (s := s.setBus rest) hidle),
      fun _ _ hbus => nextEvent_cons hbus, fun _ _ _ hbus => nextEvent_cons hbus⟩

/-! ### Reads (20_memory R79) -/

/-- The access is dropped: it reaches nothing, or a window while a command is pending (20_memory R76, R78, R84). -/
def State.Drops (s : State) (a : Word) (width : AccessWidth) : Prop :=
  s.target? a width = none ∨ s.status.busy = true ∧ ∃ w off, s.target? a width = some (.window w off)

/-- An access is dropped, or it reaches a register, or a window while the engine is idle. -/
theorem State.access_cases (s : State) (a : Word) (width : AccessWidth) :
    s.Drops a width ∨ (∃ r, s.target? a width = some (.register r)) ∨
      s.status.busy = false ∧ ∃ w off, s.target? a width = some (.window w off) := by
  unfold State.Drops
  cases htarget : s.target? a width with
  | none => exact .inl (.inl rfl)
  | some target =>
    cases target with
    | register r => exact .inr (.inl ⟨r, rfl⟩)
    | window w off =>
      cases hbusy : s.status.busy with
      | true => exact .inl (.inr ⟨rfl, w, off, rfl⟩)
      | false => exact .inr (.inr ⟨rfl, w, off, rfl⟩)

theorem State.Drops.hostRead {s : State} {a : Word} {width : AccessWidth} (h : s.Drops a width) :
    s.hostRead a width = s.flagViolation.returnRead 0 := by
  obtain hnone | ⟨hbusy, w, off, hwindow⟩ := h
  · exact State.hostRead_dropped hnone
  · simp only [State.hostRead, hwindow, hbusy, if_true]

theorem State.Drops.hostWrite {s : State} {a : Word} {width : AccessWidth} (h : s.Drops a width) (v : Word) :
    s.hostWrite a width v = s.flagViolation := by
  obtain hnone | ⟨hbusy, w, off, hwindow⟩ := h
  · exact State.hostWrite_dropped v hnone
  · simp only [State.hostWrite, hwindow, hbusy, if_true]

theorem State.hostRead_of_register {s : State} {a : Word} {width : AccessWidth} {r : Register}
    (h : s.target? a width = some (.register r)) : s.hostRead a width = s.returnRead (s.readRegister r) := by
  simp only [State.hostRead, h]

/-- Settles O56: the values returned and HVIOL have no part in whether a read is dropped, nor in the value it is served
with. -/
theorem readsHaveNoSideEffects : Obligations.ReadsHaveNoSideEffects := by
  unfold Obligations.ReadsHaveNoSideEffects
  intro s a width
  obtain h | ⟨r, h⟩ | ⟨hidle, w, off, h⟩ := s.access_cases a width
  · have hagain : (s.flagViolation.returnRead 0).Drops a width := h
    exact ⟨0, .inr ⟨rfl, h.hostRead⟩, by rw [h.hostRead, hagain.hostRead]; rfl⟩
  · have hagain : (s.returnRead (s.readRegister r)).target? a width = some (.register r) := h
    have hread := State.hostRead_of_register h
    exact ⟨_, .inl hread, by rw [hread, State.hostRead_of_register hagain]; rfl⟩
  · have hagain : (s.returnRead (s.readWindow w off width.bytes)).target? a width = some (.window w off) := h
    have hread := State.hostRead_window hidle h
    exact ⟨_, .inl hread, by rw [hread, State.hostRead_window (s := s.returnRead _) hidle hagain]; rfl⟩

/-! ### Accesses that reach nothing (20_memory R76, R78) -/

/-- An access that runs past the end of a range lies in no window whole. -/
theorem State.Inv.windowTarget_straddling {s : State} (h : s.Inv) {r : Region} (hr : r ∈ s.regions) {a n : Nat}
    (ha : r.first ≤ a ∧ a < r.first + r.size) (hend : r.first + r.size < a + n) : s.windowTarget a n = none := by
  unfold State.windowTarget
  split
  next r' hfind =>
    have hin := List.find?_some hfind
    simp only [Bool.and_eq_true, decide_eq_true_eq] at hin
    obtain rfl := Region.eq_of_pairwise_disjoint h.regions_pairwise_disjoint hr (List.mem_of_find?_eq_some hfind) ha hin
    exact if_neg (Nat.not_le.2 hend)
  next => rfl

theorem State.windowTarget_unmapped {s : State} {a : Nat} (ha : ∀ r ∈ s.regions, a < r.first ∨ r.first + r.size ≤ a)
    (n : Nat) : s.windowTarget a n = none := by
  have hfind : s.regions.find? (fun r => decide (r.first ≤ a) && decide (a < r.first + r.size)) = none := by
    refine List.find?_eq_none.2 fun r hr => ?_
    have := ha r hr
    simp only [Bool.and_eq_true, decide_eq_true_eq]
    omega
  simp only [State.windowTarget, hfind]

/-- An access at 0x100 or above that lies in no window whole is dropped, aligned or not. -/
theorem State.target?_of_windowTarget_none {s : State} {a : Word} {width : AccessWidth} (ha : 0x100 ≤ a.toNat)
    (h : s.windowTarget a.toNat width.bytes = none) : s.target? a width = none := by
  by_cases halign : a.toNat % width.bytes = 0
  · rw [s.target?_eq_windowTarget halign ha, h]
  · exact s.target?_misaligned halign

/-- Settles O53: each of the four kinds of access has no target. -/
theorem droppedAccessesSetHviol : Obligations.DroppedAccessesSetHviol := by
  unfold Obligations.DroppedAccessesSetHviol
  intro s a width h hdropped
  have htarget : s.target? a width = none := by
    obtain halign | ⟨hlow, hwidth⟩ | ⟨r, hr, hfirst, hlast, hend⟩ | ⟨hlow, hunmapped⟩ := hdropped
    · exact s.target?_misaligned halign
    · exact s.target?_narrow hlow hwidth
    · have hbounds := (h.region_bounds r.window).1
      rw [show r.window.base = r.first from (congrArg Region.first (State.eq_region_of_mem hr)).symm] at hbounds
      exact State.target?_of_windowTarget_none (by omega) (h.windowTarget_straddling hr ⟨hfirst, hlast⟩ hend)
    · exact State.target?_of_windowTarget_none hlow (State.windowTarget_unmapped hunmapped _)
  have hdrops : s.Drops a width := .inl htarget
  exact ⟨hdrops.hostWrite, hdrops.hostRead⟩

/-! ### Accesses while a command is pending (20_memory R84) -/

theorem State.writeRegister_ctrl (s : State) (v : Word) : s.writeRegister .ctrl v = s.writeCtrl v := by
  unfold State.writeRegister
  split <;> rfl

/-- While busy, every register but CTRL, STATUS, CMD and the reserved ones drops a write. -/
theorem State.writeRegister_of_busy {s : State} (hbusy : s.status.busy = true) {r : Register}
    (hr : r ∉ [Register.ctrl, .status, .cmd, .reserved]) (v : Word) : s.writeRegister r v = s.flagViolation := by
  unfold State.writeRegister
  rw [if_pos hbusy]
  cases r
  case ctrl | status | cmd | reserved => simp at hr
  all_goals rfl

/-- Below 0x48 the map holds CTRL, STATUS and CMD at 0x04, 0x08 and 0x0C alone, and nothing reserved (10_state
section 2). -/
theorem registerAt_below_reserved :
    ∀ k, k < 18 → k = 1 ∨ k = 2 ∨ k = 3 ∨ registerAt (4 * k) ∉ [Register.ctrl, .status, .cmd, .reserved] := by
  decide

/-- An access at 0x100 or above reaches no register. -/
theorem State.target?_ne_register (s : State) {a : Word} (ha : 0x100 ≤ a.toNat) (width : AccessWidth) (r : Register) :
    s.target? a width ≠ some (.register r) := by
  intro h
  have halign : a.toNat % width.bytes = 0 := by
    by_contra hne
    rw [s.target?_misaligned hne] at h
    cases h
  rw [s.target?_eq_windowTarget halign ha] at h
  unfold State.windowTarget at h
  split at h
  · split at h <;> cases h
  · cases h

theorem State.drops_of_busy {s : State} (hbusy : s.status.busy = true) {a : Word} (ha : 0x100 ≤ a.toNat)
    (width : AccessWidth) : s.Drops a width := by
  obtain h | ⟨r, h⟩ | ⟨hidle, -⟩ := s.access_cases a width
  · exact h
  · exact absurd h (s.target?_ne_register ha width r)
  · rw [hbusy] at hidle
    cases hidle

/-- Settles O54: a register access by its register, a window access by BUSY. -/
theorem busyAccessesDropped : Obligations.BusyAccessesDropped := by
  unfold Obligations.BusyAccessesDropped
  intro s a v width hbusy
  refine ⟨fun hlow halign => s.hostRead_register hlow halign, ?_, ?_, fun hlow halign hctrl hstatus hcmd => ?_,
    fun hhigh => ?_⟩
  · exact (s.hostWrite_register v (by decide) (by decide)).trans (s.writeRegister_ctrl v)
  · exact (s.hostWrite_cmd v).trans (State.writeCmd_rejected (.inl hbusy) v)
  · obtain ⟨k, hk⟩ := Nat.dvd_of_mod_eq_zero halign
    rw [s.hostWrite_register v (by omega) halign, hk]
    obtain hk1 | hk2 | hk3 | hr := registerAt_below_reserved k (by omega)
    · omega
    · omega
    · omega
    · exact State.writeRegister_of_busy hbusy hr v
  · have hdrops := State.drops_of_busy hbusy hhigh width
    exact ⟨hdrops.hostWrite v, hdrops.hostRead⟩

end Sys2Proof.Machine
end

section
/-! PROOFS. The canonical codes: a code is given by the symbols before it, fits its length and begins no other
(40_bitreader R123 to R125). -/

namespace Sys2Proof.Machine

/-! ### The codes in closed form (40_bitreader R123) -/

/-- The assignment gives a symbol the next code of its length, moved on by the earlier symbols of that length. -/
theorem assignCodes_getD {lens next : List Nat} {j : Nat} (hj : j < lens.length) (hne : lens.getD j 0 ≠ 0)
    (hnext : lens.getD j 0 < next.length) :
    (assignCodes lens next).getD j 0 = next.getD (lens.getD j 0) 0 + (lens.take j).count (lens.getD j 0) := by
  induction lens generalizing next j with
  | nil => exact absurd hj (Nat.not_lt_zero j)
  | cons l lens ih =>
    cases j with
    | zero =>
      rw [List.getD_cons_zero] at hne
      simp [assignCodes, hne]
    | succ j =>
      simp only [List.getD_cons_succ, List.length_cons, Nat.succ_lt_succ_iff] at hj hne hnext ⊢
      rw [List.take_succ_cons, List.count_cons]
      by_cases hl : l = 0
      · simp only [assignCodes, if_pos hl, List.getD_cons_succ, ih hj hne hnext]
        rw [if_neg (by simpa [hl] using hne.symm), Nat.add_zero]
      · simp only [assignCodes, if_neg hl, List.getD_cons_succ]
        rw [ih hj hne (by rwa [List.length_set])]
        generalize lens.getD j 0 = m at hnext
        by_cases hsame : l = m
        · subst hsame
          simp only [List.getD_eq_getElem?_getD, List.getElem?_set_self hnext, Option.getD_some, beq_self_eq_true,
            if_true]
          omega
        · simp only [List.getD_eq_getElem?_getD, List.getElem?_set_ne hsame, beq_iff_eq, if_neg hsame, Nat.add_zero]

/-- A symbol's code is the first code of its length plus the number of earlier symbols of that length. -/
theorem canonicalCodes_getD {lens : List Nat} {j : Nat} (hj : j < lens.length) (hne : lens.getD j 0 ≠ 0)
    (hle : lens.getD j 0 ≤ 15) :
    (canonicalCodes lens).getD j 0 = firstCode lens (lens.getD j 0) + (lens.take j).count (lens.getD j 0) := by
  have hlen : (firstCodes lens).length = 16 := by simp [firstCodes]
  rw [canonicalCodes, assignCodes_getD hj hne (by omega), List.getD_eq_getElem _ _ (by omega)]
  simp [firstCodes]

/-! ### The codes of each length (40_bitreader R124, R125) -/

/-- The code after the last one of a length. -/
def endCode (lens : List Nat) (k : Nat) : Nat := firstCode lens k + blCount lens k

theorem firstCode_succ (lens : List Nat) (k : Nat) : firstCode lens (k + 1) = endCode lens k * 2 := rfl

/-- A longer run of symbols holds the symbol at the end of a shorter one too. -/
theorem count_take_lt_count_take {lens : List Nat} {j n : Nat} (hj : j < n) (hn : n ≤ lens.length) :
    (lens.take j).count (lens.getD j 0) < (lens.take n).count (lens.getD j 0) := by
  have hsucc : lens.take (j + 1) = lens.take j ++ [lens.getD j 0] := by
    rw [List.getD_eq_getElem _ _ (by omega), List.take_append_getElem]
  have hle := (List.take_sublist_take_left (l := lens) (Nat.succ_le_of_lt hj)).count_le (lens.getD j 0)
  rw [hsucc, List.count_append, List.count_singleton_self] at hle
  omega

/-- The codes of a length lie from its first code up to its end. -/
theorem canonicalCodes_bounds {lens : List Nat} {j : Nat} (hj : j < lens.length) (hne : lens.getD j 0 ≠ 0)
    (hle : lens.getD j 0 ≤ 15) :
    firstCode lens (lens.getD j 0) ≤ (canonicalCodes lens).getD j 0 ∧
      (canonicalCodes lens).getD j 0 < endCode lens (lens.getD j 0) := by
  have hcount := count_take_lt_count_take hj le_rfl
  rw [List.take_length] at hcount
  rw [canonicalCodes_getD hj hne hle, endCode, blCount, if_neg hne]
  omega

/-- The codes of a longer length come after every code of a shorter one, filled up with bits 0. -/
theorem endCode_le_firstCode (lens : List Nat) {k m : Nat} (h : k < m) :
    endCode lens k * 2 ^ (m - k) ≤ firstCode lens m := by
  induction m, h using Nat.le_induction with
  | base => simp [firstCode_succ]
  | succ m hm ih =>
    rw [firstCode_succ, Nat.succ_sub (by omega), Nat.pow_succ, ← Nat.mul_assoc]
    exact Nat.mul_le_mul_right 2 (ih.trans (Nat.le_add_right _ _))

/-- The end of a length, in units of 2^-15, is the Kraft sum of the lengths up to it. -/
theorem endCode_mul (lens : List Nat) {k : Nat} (h : k ≤ 15) :
    endCode lens k * 2 ^ (15 - k) = ∑ l ∈ Finset.range (k + 1), blCount lens l * 2 ^ (15 - l) := by
  induction k with
  | zero => simp [endCode, firstCode]
  | succ k ih =>
    have hpow : 2 ^ (15 - k) = 2 * 2 ^ (15 - (k + 1)) := by
      rw [← Nat.pow_succ']
      congr 1
      omega
    rw [Finset.sum_range_succ, ← ih (by omega), hpow, endCode, firstCode_succ]
    ring

theorem sum_blCount_le_kraftSum (lens : List Nat) (k : Nat) :
    ∑ l ∈ Finset.range (k + 1), blCount lens l * 2 ^ (15 - l) ≤ kraftSum lens := by
  rw [kraftSum, Finset.sum_list_map_count]
  refine (Finset.sum_le_sum fun l _ => ?_).trans
    (Finset.sum_le_sum_of_ne_zero (s := Finset.range (k + 1)) fun l _ hl => ?_)
  · rw [blCount, smul_eq_mul]
    split
    next => simp
    next => rfl
  · rw [List.mem_toFinset]
    exact List.count_pos_iff.1 (Nat.pos_of_ne_zero (left_ne_zero_of_mul hl))

/-- Under the Kraft inequality the codes of a length end within it (40_bitreader R125). -/
theorem endCode_le {lens : List Nat} (hkraft : KraftOk lens) {k : Nat} (h : k ≤ 15) : endCode lens k ≤ 2 ^ k := by
  have hsum := sum_blCount_le_kraftSum lens k
  rw [← endCode_mul lens h] at hsum
  have htop : (2 : Nat) ^ 15 = 2 ^ k * 2 ^ (15 - k) := by rw [← Nat.pow_add, Nat.add_sub_cancel' h]
  refine Nat.le_of_mul_le_mul_right (c := 2 ^ (15 - k)) ?_ (Nat.two_pow_pos _)
  exact (hsum.trans hkraft).trans_eq htop

theorem canonicalCodes_fit {lens : List Nat} (hkraft : KraftOk lens) {j : Nat} (hj : j < lens.length)
    (hne : lens.getD j 0 ≠ 0) (hle : lens.getD j 0 ≤ 15) : (canonicalCodes lens).getD j 0 < 2 ^ lens.getD j 0 :=
  (canonicalCodes_bounds hj hne hle).2.trans_le (endCode_le hkraft hle)

/-- Two symbols of one length have different codes. -/
theorem canonicalCodes_injective {lens : List Nat} {i j : Nat} (hi : i < lens.length) (hj : j < lens.length)
    (hne : lens.getD i 0 ≠ 0) (hle : lens.getD i 0 ≤ 15) (hlen : lens.getD j 0 = lens.getD i 0)
    (hcode : (canonicalCodes lens).getD j 0 = (canonicalCodes lens).getD i 0) : j = i := by
  have hcount := hcode
  rw [canonicalCodes_getD hi hne hle, canonicalCodes_getD hj (by omega) (by omega), hlen] at hcount
  obtain hlt | heq | hlt := Nat.lt_trichotomy j i
  · have := count_take_lt_count_take hlt hi.le
    rw [hlen] at this
    omega
  · exact heq
  · have := count_take_lt_count_take hlt hj.le
    omega

/-- No code begins a longer one (40_bitreader R124). -/
theorem canonicalCodes_prefixFree {lens : List Nat} {i j : Nat} (hi : i < lens.length) (hj : j < lens.length)
    (hne : lens.getD i 0 ≠ 0) (hlt : lens.getD i 0 < lens.getD j 0) (hle : lens.getD j 0 ≤ 15) :
    (canonicalCodes lens).getD j 0 / 2 ^ (lens.getD j 0 - lens.getD i 0) ≠ (canonicalCodes lens).getD i 0 := by
  have hlast := (canonicalCodes_bounds hi hne (by omega)).2
  have hfirst := (canonicalCodes_bounds hj (by omega) hle).1
  have hend := (Nat.le_div_iff_mul_le (Nat.two_pow_pos _)).2 ((endCode_le_firstCode lens hlt).trans hfirst)
  omega

end Sys2Proof.Machine
end

section
/-! PROOFS. The decoder: Decode reads the code at the cursor bit by bit and answers its symbol (40_bitreader R124,
R133). -/

namespace Sys2Proof.Machine

/-! ### The tests of Decode (40_bitreader R124) -/

theorem codeTable_getElem? {lens : List Nat} {j : Nat} (hj : j < lens.length) :
    (codeTable lens)[j]? = some (lens.getD j 0, (canonicalCodes lens).getD j 0) := by
  have hcode : j < (canonicalCodes lens).length := by rwa [canonicalCodes_length]
  simp [codeTable, List.getD_eq_getElem?_getD, hj, hcode]

/-- An entry of the code table is its symbol's length and code. -/
theorem codeTable_entry {lens : List Nat} {j : Nat} {e : Nat × Nat} (h : (codeTable lens)[j]? = some e) :
    j < lens.length ∧ lens.getD j 0 = e.1 ∧ (canonicalCodes lens).getD j 0 = e.2 := by
  have hj : j < lens.length := codeTable_length lens ▸ (List.getElem?_eq_some_iff.1 h).1
  rw [codeTable_getElem? hj, Option.some.injEq] at h
  subst h
  exact ⟨hj, rfl, rfl⟩

theorem codeIs_of_symbolAt? {lens : List Nat} {p : List Bool} {sym : Nat}
    (h : symbolAt? (codeTable lens) p.length (bitsValue p) = some sym) : CodeIs lens p sym := by
  obtain ⟨hk, htab⟩ := symbolAt?_some h
  obtain ⟨hsym, hlen, hcode⟩ := codeTable_entry htab
  exact ⟨hsym, fun hp => hk (congrArg List.length hp), hlen, hcode⟩

/-- Bits are the code of one symbol at most. -/
theorem codeIs_unique {lens : List Nat} {p : List Bool} {i j : Nat} (hi : CodeIs lens p i) (hj : CodeIs lens p j)
    (hle : p.length ≤ 15) : j = i := by
  obtain ⟨hi, hp, hilen, hicode⟩ := hi
  obtain ⟨hj, -, hjlen, hjcode⟩ := hj
  have hpos := List.length_pos_iff.2 hp
  exact canonicalCodes_injective hi hj (by omega) (by omega) (by omega) (by omega)

theorem symbolAt?_eq_none {lens : List Nat} {p : List Bool} (h : ∀ sym, ¬ CodeIs lens p sym) :
    symbolAt? (codeTable lens) p.length (bitsValue p) = none :=
  Option.eq_none_iff_forall_ne_some.2 fun sym hsym => h sym (codeIs_of_symbolAt? hsym)

/-- The first test finds the symbol itself: no other has its code. -/
theorem symbolAt?_of_codeIs {lens : List Nat} {p : List Bool} {sym : Nat} (h : CodeIs lens p sym)
    (hle : p.length ≤ 15) : symbolAt? (codeTable lens) p.length (bitsValue p) = some sym := by
  cases hfound : symbolAt? (codeTable lens) p.length (bitsValue p) with
  | none =>
    obtain ⟨hsym, hp, hlen, hcode⟩ := h
    rw [symbolAt?, if_neg (by simpa using hp), List.findIdx?_eq_none_iff] at hfound
    have hmiss := hfound _ (List.mem_of_getElem? (codeTable_getElem? hsym))
    simp only [hlen, hcode, decide_true, Bool.and_self, Bool.true_eq_false] at hmiss
  | some sym' =>
    rw [codeIs_unique h (codeIs_of_symbolAt? hfound) hle]

theorem extendsPath_eq_true {lens : List Nat} {k p : Nat} :
    extendsPath (codeTable lens) k p = true ↔
      ∃ sym, sym < lens.length ∧ k < lens.getD sym 0 ∧
        (canonicalCodes lens).getD sym 0 / 2 ^ (lens.getD sym 0 - k) = p := by
  simp only [extendsPath, List.any_eq_true, Bool.and_eq_true, decide_eq_true_eq, List.mem_iff_getElem?]
  constructor
  · rintro ⟨e, ⟨sym, htab⟩, hlen, hcode⟩
    obtain ⟨hsym, hl, hc⟩ := codeTable_entry htab
    rw [← hl] at hlen hcode
    rw [← hc] at hcode
    exact ⟨sym, hsym, hlen, hcode⟩
  · rintro ⟨sym, hsym, hlen, hcode⟩
    exact ⟨_, ⟨sym, codeTable_getElem? hsym⟩, hlen, hcode⟩

/-! ### The loop of Decode (40_bitreader R124) -/

/-- Decode ends at a code. -/
theorem decodeLoop_of_codeIs {lens : List Nat} {p : List Bool} {sym : Nat} (h : CodeIs lens p sym)
    (hle : p.length ≤ 15) (lim fuel : Nat) (s : State) :
    decodeLoop (codeTable lens) lim (fuel + 1) p.length (bitsValue p) s = .ok sym s := by
  rw [decodeLoop, symbolAt?_of_codeIs h hle]
  rfl

/-- Inside a code Decode reads one bit more. -/
theorem decodeLoop_of_insideCode {lens : List Nat} {p : List Bool} (h : InsideCode lens p) {lim : Nat} {s : State}
    (hlim : s.brPos.toNat + 1 ≤ lim) (fuel : Nat) :
    decodeLoop (codeTable lens) lim (fuel + 1) p.length (bitsValue p) s =
      decodeLoop (codeTable lens) lim fuel (p.length + 1) (bitsValue (p ++ [s.streamBit s.brPos.toNat]))
        (s.setBrPos (BitVec.ofNat 32 (s.brPos.toNat + 1))) := by
  obtain ⟨hnone, hextends⟩ := h
  rw [decodeLoop, symbolAt?_eq_none hnone]
  simp only [extendsPath_eq_true.2 hextends, if_true]
  rw [Cmd.bind_ok (readBits_ok hlim Nat.one_ne_zero), bitsValue_append_bit]
  simp [State.streamBits, bitsValueLsb]

/-- Decode reads a run of bits each of which stands inside a code. -/
theorem decodeLoop_streamBits {lens : List Nat} {lim : Nat} (hlim : lim < 2 ^ 32) {s : State} (n fuel : Nat)
    (hend : s.brPos.toNat + n ≤ lim) (h : ∀ j, j < n → InsideCode lens (s.streamBits s.brPos.toNat j)) :
    decodeLoop (codeTable lens) lim (fuel + n) 0 0 s =
      decodeLoop (codeTable lens) lim fuel n (bitsValue (s.streamBits s.brPos.toNat n))
        (s.setBrPos (BitVec.ofNat 32 (s.brPos.toNat + n))) := by
  induction n generalizing fuel with
  | zero => simp [State.streamBits, bitsValue, State.setBrPos]
  | succ n ih =>
    have hpos : (s.setBrPos (BitVec.ofNat 32 (s.brPos.toNat + n))).brPos.toNat = s.brPos.toNat + n := by
      rw [State.setBrPos_brPos, BitVec.toNat_ofNat, Nat.mod_eq_of_lt (by omega)]
    have hstep := decodeLoop_of_insideCode (h n (Nat.lt_succ_self n))
      (s := s.setBrPos (BitVec.ofNat 32 (s.brPos.toNat + n))) (lim := lim) (by omega) fuel
    rw [State.streamBits_length, hpos] at hstep
    have hrun := (ih (fuel + 1) (by omega) fun j hj => h j (by omega)).trans hstep
    rw [show fuel + (n + 1) = fuel + 1 + n by omega, hrun, s.streamBits_add]
    rfl

/-- Decode answers the symbol at whose code the bits at the cursor lead (40_bitreader R124). -/
theorem decodeSymbol_of_decodesTo {t : DecodeTable} {lim l sym : Nat} {s : State} (hlim : lim < 2 ^ 32)
    (hend : s.brPos.toNat + l ≤ lim) (hle : l ≤ 15)
    (h : DecodesTo (s.hlen t) (s.streamBits s.brPos.toNat l) sym) :
    decodeSymbol t lim s = .ok sym (s.setBrPos (BitVec.ofNat 32 (s.brPos.toNat + l))) := by
  obtain ⟨hcode, hinside⟩ := h
  rw [State.streamBits_length] at hinside
  have hrun := decodeLoop_streamBits hlim l (15 - l + 1) hend fun j hj => by
    simpa only [s.streamBits_take _ hj.le] using hinside j hj
  have hlast := decodeLoop_of_codeIs hcode (by rwa [State.streamBits_length]) lim (15 - l)
    (s.setBrPos (BitVec.ofNat 32 (s.brPos.toNat + l)))
  rw [State.streamBits_length] at hlast
  rw [show 15 - l + 1 + l = 16 by omega, hlast] at hrun
  exact hrun

/-! ### A symbol's own code -/

theorem fieldBits_succ_append (v n : Nat) : fieldBits v (n + 1) = fieldBits (v / 2) n ++ [v.testBit 0] := by
  induction n with
  | zero => rfl
  | succ n ih =>
    rw [fieldBits, ih, ← List.cons_append, fieldBits, Nat.testBit_succ]

theorem bitsValue_fieldBits (v n : Nat) : bitsValue (fieldBits v n) = v % 2 ^ n := by
  induction n generalizing v with
  | zero => simp [fieldBits, bitsValue, Nat.mod_one]
  | succ n ih =>
    rw [fieldBits_succ_append, bitsValue_append_bit, ih, Nat.toNat_testBit, Nat.pow_zero, Nat.div_one, Nat.pow_succ',
      Nat.mod_mul]
    omega

/-- The first bits of a field are a field of its high bits. -/
theorem fieldBits_take (v : Nat) {j n : Nat} (h : j ≤ n) : (fieldBits v n).take j = fieldBits (v / 2 ^ (n - j)) j := by
  induction n, h using Nat.le_induction generalizing v with
  | base => simp
  | succ n hn ih =>
    rw [fieldBits_succ_append, List.take_append_of_le_length (by simpa using hn), ih, Nat.div_div_eq_div_mul,
      ← Nat.pow_succ', Nat.succ_sub hn]

/-- Bits that stand in the stream one by one are the field they make up, most significant first. -/
theorem State.streamBits_eq_fieldBits {s : State} {p v n : Nat}
    (h : ∀ k, k < n → s.streamBit (p + k) = v.testBit (n - 1 - k)) : s.streamBits p n = fieldBits v n := by
  induction n generalizing p with
  | zero => rfl
  | succ n ih =>
    have htail : s.streamBits (p + 1) n = fieldBits v n := ih fun k hk => by
      rw [Nat.add_assoc, Nat.add_comm 1 k, h (k + 1) (by omega)]
      congr 1
      omega
    rw [State.streamBits, fieldBits, htail]
    exact congrArg (· :: _) (h 0 (Nat.succ_pos n))

theorem getD_le_of_all_le {lens : List Nat} {n : Nat} (h : ∀ l ∈ lens, l ≤ n) {j : Nat} (hj : j < lens.length) :
    lens.getD j 0 ≤ n := by
  rw [List.getD_eq_getElem _ _ hj]
  exact h _ (List.getElem_mem hj)

/-- Under the Kraft inequality Decode reads a symbol's code to its end and answers the symbol. -/
theorem codeBits_decodesTo {lens : List Nat} (hlens : ∀ l ∈ lens, l ≤ 15) (hkraft : KraftOk lens) {sym : Nat}
    (hsym : sym < lens.length) (hne : lens.getD sym 0 ≠ 0) : DecodesTo lens (codeBits lens sym) sym := by
  have hle := getD_le_of_all_le hlens hsym
  have hfit := canonicalCodes_fit hkraft hsym hne hle
  refine ⟨⟨hsym, fun hnil => hne ?_, (codeBits_length lens sym).symm, ?_⟩, fun j hj => ?_⟩
  · rw [← codeBits_length, hnil, List.length_nil]
  · rw [codeBits, bitsValue_fieldBits, Nat.mod_eq_of_lt hfit]
  · rw [codeBits_length] at hj
    have hvalue : bitsValue ((codeBits lens sym).take j) =
        (canonicalCodes lens).getD sym 0 / 2 ^ (lens.getD sym 0 - j) := by
      rw [codeBits, fieldBits_take _ hj.le, bitsValue_fieldBits, Nat.mod_eq_of_lt]
      rwa [Nat.div_lt_iff_lt_mul (Nat.two_pow_pos _), ← Nat.pow_add, Nat.add_sub_cancel' hj.le]
    have hlength : ((codeBits lens sym).take j).length = j := by
      rw [List.length_take, codeBits_length, Nat.min_eq_left hj.le]
    refine ⟨fun other ⟨hother, hnil, hlen, hcode⟩ => ?_, sym, hsym, by rwa [hlength], by rw [hlength, hvalue]⟩
    have hpos := List.length_pos_iff.2 hnil
    rw [hlength] at hlen hpos
    rw [hvalue, ← hlen] at hcode
    exact canonicalCodes_prefixFree hother hsym (by omega) (by omega) hle hcode.symm

/-- A decode table holds lengths of 4 bits (10_state R39). -/
theorem State.hlen_le (s : State) (t : DecodeTable) : ∀ l ∈ s.hlen t, l ≤ 15 := by
  cases t <;> simp only [State.hlen, List.mem_map] <;> rintro l ⟨v, -, rfl⟩ <;> omega

/-- Settles O19: the bits at the cursor are the symbol's code, each shorter run of them stands inside a code, and Decode
answers where they end. -/
theorem hdecodeReturnsSymbol : Obligations.HdecodeReturnsSymbol := by
  unfold Obligations.HdecodeReturnsSymbol
  intro t tab s sym htab hsym hkraft hin l hne hend hbits
  rw [← s.hlen_length] at hsym
  have hcode : s.streamBits s.brPos.toNat l = codeBits (s.hlen tab) sym := State.streamBits_eq_fieldBits hbits
  have hle : l ≤ 15 := getD_le_of_all_le (s.hlen_le tab) hsym
  have hdecodes := codeBits_decodesTo (s.hlen_le tab) hkraft hsym hne
  rw [← hcode] at hdecodes
  have hrun : decodeSymbol tab s.bitLimit s = .ok sym (s.setBrPos (BitVec.ofNat 32 (s.brPos.toNat + l))) :=
    decodeSymbol_of_decodesTo (by unfold State.bitLimit; omega) hend hle hdecodes
  rw [exec_eq_runCommand]
  refine runCommand_ok (t := (s.setBrPos (BitVec.ofNat 32 (s.brPos.toNat + l))).setResult (BitVec.ofNat 32 sym)) ?_
  simp only [commandBody, hdecodeBody, htab, legalOperand_some, pure_bind_apply, observe_bind_apply, Cmd.bind_ok hrun,
    writeResult_apply]

end Sys2Proof.Machine
end

section
/-! PROOFS. The command word: the decoder and the encoder are each other's inverse, and which words are legal
(30_encoding R100 to R106). -/

namespace Sys2Proof.Laws

open Sys2Proof.Machine

/-! ### Operand fields (30_encoding R103) -/

section
variable {k m : Nat}

theorem extractLsb'_placeField_same (f : BitVec k) {lo : Nat} (h : lo + k ≤ 32) :
    (placeField f lo).extractLsb' lo k = f := by
  ext j hj
  rw [BitVec.getElem_extractLsb', getLsbD_placeField]
  simp [show lo + j < 32 by omega, hj]

/-- A field leaves the bits of every other field 0. -/
theorem extractLsb'_placeField_disjoint (g : BitVec m) {lo lo' : Nat} (h : lo + k ≤ lo' ∨ lo' + m ≤ lo) :
    (placeField g lo').extractLsb' lo k = 0 := by
  ext j hj
  rw [BitVec.getElem_extractLsb', getLsbD_placeField]
  obtain h | h := h
  · simp [show lo + j < lo' by omega]
  · simp [BitVec.getLsbD_of_ge g (lo + j - lo') (by omega)]

/-- Placing back the field read at bit `lo` keeps the field's bits and clears the others. -/
theorem placeField_extractLsb' (w : Word) (lo : Nat) :
    placeField (w.extractLsb' lo k) lo = w &&& placeField (BitVec.allOnes k) lo := by
  apply BitVec.eq_of_getLsbD_eq
  intro j hj
  rw [BitVec.getLsbD_and, getLsbD_placeField, getLsbD_placeField, BitVec.getLsbD_extractLsb', BitVec.getLsbD_allOnes]
  by_cases hlo : j < lo
  · simp [hlo]
  · simp [hlo, hj, Bool.and_comm, show lo + (j - lo) = j by omega]

theorem toNat_placeField (f : BitVec k) {lo : Nat} (h : k + lo ≤ 32) : (placeField f lo).toNat = f.toNat <<< lo := by
  have hlt : f.toNat <<< lo < 2 ^ 32 := (Nat.shiftLeft_lt f.isLt).trans_le (Nat.pow_le_pow_right two_pos h)
  unfold placeField
  rw [BitVec.toNat_shiftLeft, BitVec.toNat_setWidth_of_le (by omega), Nat.mod_eq_of_lt hlt]

end

/-! ### The rows of the opcode table (30_encoding R101, R105) -/

/-- The map finds the one row of an opcode: no two rows share one. -/
theorem find?_opc_eq_some_iff {opc : BitVec 8} {r : OpcodeRow} :
    opcodeRows.find? (fun r => r.opc == opc) = some r ↔ r ∈ opcodeRows ∧ opc = r.opc := by
  constructor
  · intro h
    have hopc : (r.opc == opc) = true := List.find?_some (p := fun r : OpcodeRow => r.opc == opc) h
    exact ⟨List.mem_of_find?_eq_some h, (beq_iff_eq.1 hopc).symm⟩
  · rintro ⟨hmem, rfl⟩
    revert r
    simp [opcodeRows, decodeSideRows, encodeSideRows]

/-- The decoder reads a command by the row with the word's opcode, where no reserved bit of that row is set. -/
theorem decode_eq_ok_iff {w : Word} {i : Instr} :
    decode w = .ok i ↔ ∃ r ∈ opcodeRows, opcodeOf w = r.opc ∧ w &&& r.reserved = 0 ∧ r.build w = i := by
  constructor
  · intro h
    unfold decode at h
    split at h
    next => cases h
    next r hrow =>
      split at h
      next hreserved =>
        obtain ⟨hmem, hopc⟩ := find?_opc_eq_some_iff.1 hrow
        exact ⟨r, hmem, hopc, hreserved, Except.ok.inj h⟩
      next => cases h
  · rintro ⟨r, hmem, hopc, hreserved, rfl⟩
    unfold decode
    rw [find?_opc_eq_some_iff.2 ⟨hmem, hopc⟩]
    exact if_pos hreserved

/-! ### Decode of encode -/

/-- The row of a command reads the command's own operands from its word. -/
theorem build_encode {i : Instr} {r : OpcodeRow} (h : opcodeRows.find? (fun r => r.opc == i.opcode) = some r) :
    r.build (encode i) = i := by
  cases i <;> obtain rfl := Option.some.inj h
  all_goals simp [encode, BitVec.extractLsb'_or, extractLsb'_placeField_same, extractLsb'_placeField_disjoint]

theorem decode_encode_of_row {i : Instr} (hopc : OpcodeByte.Statement i) (hrow : TableRow.Statement i) :
    decode (encode i) = .ok i := by
  obtain ⟨r, hfind, hreserved⟩ := hrow
  obtain ⟨hmem, hr⟩ := find?_opc_eq_some_iff.1 hfind
  exact decode_eq_ok_iff.2 ⟨r, hmem, Eq.trans hopc hr, hreserved, build_encode hfind⟩

/-- Settles O2: the row of each command has its opcode, reserves no bit of its word and reads its operands back. -/
theorem decodeOfEncode : Obligations.DecodeOfEncode := by
  unfold Obligations.DecodeOfEncode
  intro i
  cases i with
  | rdbits n => exact decode_encode_of_row (OpcodeByte.rdbits n) (TableRow.rdbits n)
  | align => exact decode_encode_of_row OpcodeByte.align TableRow.align
  | hbuild t n => exact decode_encode_of_row (OpcodeByte.hbuild t n) (TableRow.hbuild t n)
  | hdecode t => exact decode_encode_of_row (OpcodeByte.hdecode t) (TableRow.hdecode t)
  | infblk => exact decode_encode_of_row OpcodeByte.infblk TableRow.infblk
  | inflate => exact decode_encode_of_row OpcodeByte.inflate TableRow.inflate
  | zinflate => exact decode_encode_of_row OpcodeByte.zinflate TableRow.zinflate
  | qbuild q => exact decode_encode_of_row (OpcodeByte.qbuild q) (TableRow.qbuild q)
  | qlookup t idx z => exact decode_encode_of_row (OpcodeByte.qlookup t idx z) (TableRow.qlookup t idx z)
  | fdct => exact decode_encode_of_row OpcodeByte.fdct TableRow.fdct
  | quant t => exact decode_encode_of_row (OpcodeByte.quant t) (TableRow.quant t)
  | ehbuild t => exact decode_encode_of_row (OpcodeByte.ehbuild t) (TableRow.ehbuild t)
  | encblk c => exact decode_encode_of_row (OpcodeByte.encblk c) (TableRow.encblk c)
  | eflush => exact decode_encode_of_row OpcodeByte.eflush TableRow.eflush
  | ereset => exact decode_encode_of_row OpcodeByte.ereset TableRow.ereset

/-- Settles O1: the words are those of commands, but for the last two, a reserved bit of ALIGN and a gap of the map. -/
theorem specWordsDecode : Obligations.SpecWordsDecode :=
  ⟨decodeOfEncode (.rdbits 16), decodeOfEncode (.hbuild 2 19), decodeOfEncode (.hbuild 0 288),
    decodeOfEncode .inflate, decodeOfEncode (.qbuild 85), decodeOfEncode (.qlookup 1 63 1), decodeOfEncode .fdct,
    decodeOfEncode (.ehbuild 2), decodeOfEncode (.encblk 2), decodeOfEncode .ereset, by decide, by decide⟩

/-- Settles O4: a field placed at bit `lo` is the number `F <<< lo`, since it ends below bit 32. -/
theorem encodingFormulas : Obligations.EncodingFormulas := by
  unfold Obligations.EncodingFormulas
  simp [encode, BitVec.toNat_or, toNat_placeField]
  decide

/-! ### Encode of decode -/

/-- The word of the command a row reads from `w`: the row's opcode and the field bits of `w`. -/
theorem encode_build (w : Word) :
    ∀ r ∈ opcodeRows, encode (r.build w) = r.opc.setWidth 32 ||| w &&& r.fieldBits := by
  simp only [opcodeRows, decodeSideRows, encodeSideRows, List.cons_append, List.nil_append, List.forall_mem_cons,
    encode, placeField_extractLsb', BitVec.or_assoc, ← BitVec.and_or_distrib_left]
  simp [placeField]

/-- A word is its opcode and its field bits where a row reserves none of its other bits. -/
theorem opcodeOf_or_fieldBits {w : Word} {r : OpcodeRow} (h : w &&& r.reserved = 0) :
    (opcodeOf w).setWidth 32 ||| w &&& r.fieldBits = w := by
  have hopc : (opcodeOf w).setWidth 32 = w &&& 0xFF#32 := by
    simpa [placeField, opcodeOf] using placeField_extractLsb' (k := 8) w 0
  calc (opcodeOf w).setWidth 32 ||| w &&& r.fieldBits
      = w &&& (r.fieldBits ||| 0xFF#32) := by rw [hopc, ← BitVec.and_or_distrib_left, BitVec.or_comm]
    _ = w &&& (r.fieldBits ||| 0xFF#32) ||| w &&& r.reserved := by rw [h]; simp
    _ = w := by
      rw [← BitVec.and_or_distrib_left, OpcodeRow.reserved, BitVec.or_not_self, BitVec.and_allOnes]

/-- Settles O3: the row that reads the command encodes it with the word's own opcode and field bits. -/
theorem encodeOfDecode : Obligations.EncodeOfDecode := by
  unfold Obligations.EncodeOfDecode
  intro w i h
  obtain ⟨r, hmem, hopc, hreserved, rfl⟩ := decode_eq_ok_iff.1 h
  rw [encode_build w r hmem, ← hopc, opcodeOf_or_fieldBits hreserved]

/-! ### The legal words (30_encoding R105) -/

theorem legalWord_iff {w : Word} :
    legalWord w = true ↔
      ∃ r ∈ opcodeRows, opcodeOf w = r.opc ∧ w &&& r.reserved = 0 ∧ (r.build w).wellFormed = true := by
  constructor
  · intro h
    unfold legalWord at h
    split at h
    next i hdecode =>
      obtain ⟨r, hmem, hopc, hreserved, rfl⟩ := decode_eq_ok_iff.1 hdecode
      exact ⟨r, hmem, hopc, hreserved, h⟩
    next => cases h
  · rintro ⟨r, hmem, hopc, hreserved, hwf⟩
    unfold legalWord
    rw [decode_eq_ok_iff.2 ⟨r, hmem, hopc, hreserved, rfl⟩]
    exact hwf

theorem le_decodeCapacity_iff {t : BitVec 2} {n : Nat} :
    (¬t = 3#2 ∧ n ≤ decodeCapacity t) ↔ t = 0 ∧ n ≤ 288 ∨ t = 1 ∧ n ≤ 32 ∨ t = 2 ∧ n ≤ 19 := by
  have ht : t = 0 ∨ t = 1 ∨ t = 2 ∨ t = 3 := by revert t; decide
  rcases ht with rfl | rfl | rfl | rfl <;> simp [decodeCapacity]

/-- Settles O5: a word is legal by the row of its opcode, and the engine refuses every other word. -/
theorem illegalWordsRaise : Obligations.IllegalWordsRaise := by
  unfold Obligations.IllegalWordsRaise
  refine ⟨fun w => ?_, fun s hbusy hillegal => engineStep_of_illegal hbusy hillegal⟩
  rw [legalWord_iff]
  -- One disjunct for each row; the statement then gathers the seven rows that have no operand.
  simp only [opcodeRows, decodeSideRows, encodeSideRows, List.cons_append, List.nil_append, List.exists_mem_cons_iff,
    List.not_mem_nil, false_and, exists_false, or_false, OpcodeRow.reserved, Instr.wellFormed, decide_eq_true_eq,
    and_true]
  simp [le_decodeCapacity_iff, or_and_right, or_assoc]
  exact iff_of_eq (by ac_rfl)

end Sys2Proof.Laws
end

section
/-! PROOFS. The bit reader's commands: RDBITS reads a field at the cursor, ALIGN moves to the next byte (40_bitreader
R121, R122, R130, R131). -/

namespace Sys2Proof.Laws

/-- A command without operands: any bit above its opcode makes the word illegal (30_encoding R105). -/
theorem legalWord_of_operandless {w : Word} {r : OpcodeRow} (hr : r ∈ opcodeRows) (hfields : r.fieldBits = 0)
    (hopc : opcodeOf w = r.opc) (hw : w.extractLsb' 8 24 ≠ 0) : legalWord w = false := by
  refine Bool.eq_false_iff.2 fun hlegal => hw ?_
  obtain ⟨r', hr', hopc', hreserved, -⟩ := legalWord_iff.1 hlegal
  obtain rfl : r = r' := Option.some.inj
    ((find?_opc_eq_some_iff.2 ⟨hr, hopc⟩).symm.trans (find?_opc_eq_some_iff.2 ⟨hr', hopc'⟩))
  rw [OpcodeRow.reserved, hfields] at hreserved
  ext i hi
  have hbit := congrArg (·.getLsbD (8 + i)) hreserved
  interval_cases i <;> simpa using hbit

end Sys2Proof.Laws

namespace Sys2Proof.Machine

open Sys2Proof.Laws

/-- Settles O14: RDBITS is ReadBits of a legal count. -/
theorem rdbitsReadsField : Obligations.RdbitsReadsField := by
  unfold Obligations.RdbitsReadsField
  intro n s
  have hcount : 1 ≤ n.toNat → n.toNat ≤ 16 → bitCountOf n = some n.toNat := fun h1 h16 => if_pos ⟨h1, h16⟩
  refine ⟨rfl, fun h1 h16 hend => ?_, fun h1 h16 hend => ?_, fun hillegal => ?_⟩
  · refine ⟨BitVec.ofNat 32 (bitsValueLsb (s.streamBits s.brPos.toNat n.toNat)), fun k => ?_, ?_⟩
    · rw [BitVec.getLsbD_ofNat, bitsValueLsb_testBit, List.getD_eq_getElem?_getD]
      by_cases hk : k < n.toNat
      · rw [s.streamBits_getElem? _ _ k hk]
        simp [hk, show k < 32 by omega, State.streamBit]
      · rw [List.getElem?_eq_none (by rw [State.streamBits_length]; omega)]
        simp [hk]
    · have hpos : BitVec.ofNat 32 (s.brPos.toNat + n.toNat) = s.brPos + n.setWidth 32 := by
        rw [BitVec.ofNat_add, BitVec.ofNat_toNat, BitVec.ofNat_toNat, BitVec.setWidth_eq]
      rw [exec_eq_runCommand]
      refine runCommand_ok ?_
      rw [commandBody, rdbitsBody, hcount h1 h16, legalOperand_some, pure_bind_apply, observe_bind_apply,
        Cmd.bind_ok (readBits_ok (lim := s.bitLimit) hend (by omega)), hpos]
      rfl
  · rw [exec_eq_runCommand]
    refine runCommand_error ?_
    rw [commandBody, rdbitsBody, hcount h1 h16, legalOperand_some, pure_bind_apply, observe_bind_apply]
    exact Cmd.bind_error (readBits_truncated hend (by omega))
  · have hnone : bitCountOf n = none := if_neg (by omega)
    rw [exec_eq_runCommand]
    refine runCommand_error ?_
    rw [commandBody, rdbitsBody, hnone]
    rfl

theorem and_not_seven_toNat (p : Word) : (p &&& ~~~(7#32)).toNat = p.toNat / 8 * 8 := by
  have hshift : p &&& ~~~(7#32) = (p >>> 3) <<< 3 := by
    ext i hi
    interval_cases i <;> simp
  rw [hshift, BitVec.toNat_shiftLeft, BitVec.toNat_ushiftRight, Nat.shiftRight_eq_div_pow, Nat.shiftLeft_eq]
  omega

/-- The next byte boundary, the sum wrapping like the boundary itself (40_bitreader R122). -/
theorem alignedPos_eq (p : Word) : alignedPos p = (p + 7) &&& ~~~(7#32) := by
  apply BitVec.eq_of_toNat_eq
  have hseven : (7 : Word).toNat = 7 := rfl
  rw [and_not_seven_toNat, alignedPos, BitVec.toNat_ofNat, BitVec.toNat_add, hseven]
  omega

/-- A cursor at a byte boundary stays (40_bitreader R122). -/
theorem alignedPos_of_aligned {p : Word} (h : p.extractLsb' 0 3 = 0) : alignedPos p = p := by
  have hmod : p.toNat % 8 = 0 := by simpa using congrArg BitVec.toNat h
  apply BitVec.eq_of_toNat_eq
  rw [alignedPos, BitVec.toNat_ofNat]
  omega

/-- Settles O15: ALIGN moves the cursor to `alignedPos`, and its row has no operand. -/
theorem alignMovesToByte : Obligations.AlignMovesToByte := by
  unfold Obligations.AlignMovesToByte
  have hexec : ∀ s : State, exec .align s = .next (completed (s.setBrPos (alignedPos s.brPos))) := fun s => by
    rw [exec_eq_runCommand]
    exact runCommand_ok rfl
  refine ⟨rfl, fun w hopc hw => ?_, fun s => ⟨?_, fun haligned => ?_, fun hwrap => ?_⟩⟩
  · exact legalWord_of_operandless (r := ⟨"ALIGN", 0x02#8, 0#32, fun _ => .align⟩)
      (by simp [opcodeRows, decodeSideRows]) rfl hopc hw
  · rw [hexec, alignedPos_eq]
    rfl
  · rw [hexec, alignedPos_of_aligned haligned]
    rfl
  · have hzero : alignedPos s.brPos = 0 := by
      apply BitVec.eq_of_toNat_eq
      rw [alignedPos, BitVec.toNat_ofNat]
      exact Nat.mod_eq_zero_of_dvd (by omega)
    rw [hexec, hzero]
    rfl

end Sys2Proof.Machine
end

section
/-! PROOFS. The canonical codes and HBUILD (40_bitreader R123 to R125, R132). -/

namespace Sys2Proof.Machine

/-- Settles O17: the first codes of `firstCode`, and the count of the earlier symbols. -/
theorem canonicalCodesAssigned : Obligations.CanonicalCodesAssigned := by
  unfold Obligations.CanonicalCodesAssigned
  refine ⟨by decide, fun lens hlens => ⟨firstCode lens, rfl, fun k _ => Nat.mul_comm _ _, fun j hj hne => ?_⟩⟩
  exact canonicalCodes_getD hj hne (getD_le_of_all_le hlens hj)

/-- Settles O18: the codes of a length end within it, and the codes of longer ones begin after them. -/
theorem canonicalCodesPrefixFree : Obligations.CanonicalCodesPrefixFree := by
  unfold Obligations.CanonicalCodesPrefixFree
  refine fun lens hlens hkraft => ⟨fun j hj hne => canonicalCodes_fit hkraft hj hne (getD_le_of_all_le hlens hj),
    fun i j hi hj hij hne hle => ?_⟩
  obtain hlt | heq := Nat.lt_or_eq_of_le hle
  · exact canonicalCodes_prefixFree hi hj hne hlt (getD_le_of_all_le hlens hj)
  · rw [← heq, Nat.sub_self, Nat.pow_zero, Nat.div_one]
    exact fun hcode =>
      hij (canonicalCodes_injective hi hj hne (getD_le_of_all_le hlens hi) heq.symm hcode).symm

/-! ### HBUILD (40_bitreader R132) -/

/-- LENS[0..n), length by length. -/
theorem State.lensTake_eq (s : State) {n : Nat} (hn : n ≤ 320) :
    s.lensTake n = (List.range n).map fun j => (s.lens.getD j 0).toNat := by
  refine List.ext_getElem ?_ fun j hj hj' => ?_
  · simpa [State.lensTake] using hn
  · have hjn : j < n := by simpa using hj'
    simp [State.lensTake, Vector.getD, show j < 320 by omega]

theorem DecodeTable.capacity_le (tab : DecodeTable) : tab.capacity ≤ 288 := by cases tab <;> simp [DecodeTable.capacity]

/-- The store of a decode table leaves the rest of the state alone. -/
theorem State.setHlen_frame (s : State) (tab : DecodeTable) (lens : List Nat) :
    s.setHlen tab lens = { s with
      hlen0 := (s.setHlen tab lens).hlen0, hlen1 := (s.setHlen tab lens).hlen1,
      hlen2 := (s.setHlen tab lens).hlen2 } := by
  cases tab <;> simp [State.setHlen, State.setHlen0, State.setHlen1, State.setHlen2]

/-- HBUILD with legal operands is BuildTable of LENS[0..n). -/
theorem hbuildBody_of_legal {t : BitVec 2} {n : BitVec 9} {tab : DecodeTable} (htab : decodeTableOf t = some tab)
    (hn : n.toNat ≤ tab.capacity) (s : State) : hbuildBody t n s = buildTable tab (s.lensTake n.toNat) s := by
  have hoperands : hbuildOperands t n = some (tab, n.toNat) := by
    simp only [hbuildOperands, htab, if_pos hn]
  simp only [hbuildBody, hoperands, legalOperand_some, pure_bind_apply, observe_bind_apply]

theorem hbuildOperands_of_illegal {t : BitVec 2} {n : BitVec 9} (h : t = 3 ∨ decodeCapacity t < n.toNat) :
    hbuildOperands t n = none := by
  unfold hbuildOperands
  cases htab : decodeTableOf t with
  | none => rfl
  | some tab =>
    obtain rfl := decodeTableOf_eq_some htab
    have hover : tab.capacity < n.toNat := by cases tab <;> exact h.resolve_left (by decide)
    exact if_neg (Nat.not_le.2 hover)

/-- Settles O16: HBUILD is BuildTable of the lengths LENS holds, by its two outcomes. -/
theorem hbuildStoresLengths : Obligations.HbuildStoresLengths := by
  unfold Obligations.HbuildStoresLengths
  intro t n s
  refine ⟨rfl, fun hillegal => ?_, fun tab htab hn => ?_⟩
  · rw [exec_eq_runCommand]
    refine runCommand_error ?_
    rw [commandBody, hbuildBody, hbuildOperands_of_illegal hillegal]
    rfl
  intro len kraft
  have hbody := hbuildBody_of_legal htab hn s
  have hlens : s.lensTake n.toNat = (List.range n.toNat).map len :=
    s.lensTake_eq (by have := tab.capacity_le; omega)
  have hkraft : kraftSum (s.lensTake n.toNat) = kraft := by rw [hlens, kraftSum, List.map_map]; rfl
  have hmem : ∀ P : Nat → Prop, (∀ l ∈ s.lensTake n.toNat, P l) ↔ ∀ j, j < n.toNat → P (len j) := fun P => by
    simp [hlens]
  obtain ⟨hle, hok, hstore⟩ | ⟨hbad, hraise⟩ := buildTable_cases tab (s.lensTake n.toNat) s
  · have hle' := (hmem (· ≤ 15)).1 hle
    rw [KraftOk, hkraft] at hok
    refine ⟨fun _ _ => ⟨s.setHlen tab (s.lensTake n.toNat), ?_, s.setHlen_frame tab _, fun j hj => ?_,
      fun other hother => s.setHlen_hlen_ne _ hother⟩, ?_⟩
    · rw [exec_eq_runCommand]
      exact runCommand_ok (hbody.trans hstore)
    · have hget : (s.lensTake n.toNat).getD j 0 = if j < n.toNat then len j else 0 := by
        rw [hlens, List.getD_eq_getElem?_getD, List.getElem?_map]
        by_cases hjn : j < n.toNat <;> simp [hjn]
      rw [State.setHlen_hlen_same s tab _ j hj ?_, hget]
      rw [hget]
      split
      next hjn => exact hle' j hjn
      next => exact Nat.zero_le _
    · rintro (⟨j, hj, hlong⟩ | hover)
      · exact absurd (hle' j hj) (Nat.not_le.2 hlong)
      · exact absurd hok (Nat.not_le.2 hover)
  · refine ⟨fun hle hok => ?_, fun _ => ?_⟩
    · obtain ⟨l, hl, hlong⟩ | hover := hbad
      · exact absurd ((hmem (· ≤ 15)).2 hle l hl) (Nat.not_le.2 hlong)
      · exact absurd (hkraft.trans_le hok) hover
    · rw [exec_eq_runCommand]
      exact runCommand_error (hbody.trans hraise)

end Sys2Proof.Machine
end

section
/-! PROOFS. Everything Decode can do: it reads while the bits stand inside a code, and ends at a code, where the bits
leave the codes, or at the end of the input (40_bitreader R124, R133). -/

namespace Sys2Proof.Machine

/-! ### Where the bits read end (40_bitreader R124) -/

theorem InsideCode.length_lt {lens : List Nat} {p : List Bool} (h : InsideCode lens p) (hlens : ∀ l ∈ lens, l ≤ 15) :
    p.length < 15 := by
  obtain ⟨-, sym, hsym, hlt, -⟩ := h
  exact hlt.trans_le (getD_le_of_all_le hlens hsym)

/-- Bits that are not inside a code, each shorter run of them being so, are a code or leave the codes. -/
theorem decodesTo_or_leavesCode {lens : List Nat} {p : List Bool} (hout : ¬ InsideCode lens p)
    (hinside : ∀ j, j < p.length → InsideCode lens (p.take j)) :
    (∃ sym, DecodesTo lens p sym) ∨ LeavesCode lens p := by
  by_cases hcode : ∃ sym, CodeIs lens p sym
  · obtain ⟨sym, hsym⟩ := hcode
    exact .inl ⟨sym, hsym, hinside⟩
  · refine .inr ⟨fun sym hsym hne hle heq => ?_, hinside⟩
    obtain hlt | hlen := Nat.lt_or_eq_of_le hle
    · exact hout ⟨fun sym' h => hcode ⟨sym', h⟩, sym, hsym, hlt, heq⟩
    · rw [← hlen, Nat.sub_self, Nat.pow_zero, Nat.div_one] at heq
      exact hcode ⟨sym, hsym, fun hnil => hne (by rw [← hlen, hnil, List.length_nil]), hlen.symm, heq⟩

/-- Bits that leave the codes are no code. -/
theorem LeavesCode.not_codeIs {lens : List Nat} {p : List Bool} (h : LeavesCode lens p) (sym : Nat) :
    ¬ CodeIs lens p sym := by
  rintro ⟨hsym, hp, hlen, hcode⟩
  have hpos := List.length_pos_iff.2 hp
  refine h.1 sym hsym (by omega) hlen.ge ?_
  rw [hlen, Nat.sub_self, Nat.pow_zero, Nat.div_one, hcode]

/-- Bits that leave the codes are at most 15: one bit fewer stood inside a code. -/
theorem LeavesCode.length_le {lens : List Nat} {p : List Bool} (h : LeavesCode lens p) (hlens : ∀ l ∈ lens, l ≤ 15) :
    p.length ≤ 15 := by
  by_contra hlong
  have hinside := (h.2 15 (by omega)).length_lt hlens
  rw [List.length_take] at hinside
  omega

theorem StaysInside.length_lt {lens : List Nat} {p : List Bool} (h : StaysInside lens p) (hlens : ∀ l ∈ lens, l ≤ 15) :
    p.length < 15 := by
  have hinside := h p.length le_rfl
  rw [List.take_length] at hinside
  exact hinside.length_lt hlens

/-! ### The loop of Decode (40_bitreader R124) -/

/-- Decode raises InvalidCode where the bits read leave the codes. -/
theorem decodeLoop_of_leavesCode {lens : List Nat} {p : List Bool} (h : LeavesCode lens p) (lim fuel : Nat)
    (s : State) :
    decodeLoop (codeTable lens) lim (fuel + 1) p.length (bitsValue p) s = .error .invalidCode s := by
  have hnone : extendsPath (codeTable lens) p.length (bitsValue p) = false :=
    Bool.eq_false_iff.2 fun hextends => by
      obtain ⟨sym, hsym, hlt, heq⟩ := extendsPath_eq_true.1 hextends
      exact h.1 sym hsym (by omega) hlt.le heq
  rw [decodeLoop, symbolAt?_eq_none h.not_codeIs]
  simp [hnone]

/-- Decode raises TruncatedInput where the input ends inside a code. -/
theorem decodeLoop_of_insideCode_truncated {lens : List Nat} {p : List Bool} (h : InsideCode lens p) {lim : Nat}
    {s : State} (hlim : lim < s.brPos.toNat + 1) (fuel : Nat) :
    decodeLoop (codeTable lens) lim (fuel + 1) p.length (bitsValue p) s = .error .truncatedInput s := by
  obtain ⟨hnone, hextends⟩ := h
  rw [decodeLoop, symbolAt?_eq_none hnone]
  simp only [extendsPath_eq_true.2 hextends, if_true]
  exact Cmd.bind_error (readBits_truncated hlim Nat.one_ne_zero)

section
variable {t : DecodeTable} {lim n : Nat} {s : State}

/-- Decode reads on while the bits stand inside a code. -/
theorem decodeSymbol_streamBits (hlim : lim < 2 ^ 32) (hend : n = 0 ∨ s.brPos.toNat + n ≤ lim) (hn : n ≤ 15)
    (h : ∀ j, j < n → InsideCode (s.hlen t) ((s.streamBits s.brPos.toNat n).take j)) :
    decodeSymbol t lim s = decodeLoop (codeTable (s.hlen t)) lim (15 - n + 1) (s.streamBits s.brPos.toNat n).length
      (bitsValue (s.streamBits s.brPos.toNat n)) (s.setBrPos (BitVec.ofNat 32 (s.brPos.toNat + n))) := by
  rw [State.streamBits_length]
  obtain rfl | hend := hend
  · simp [decodeSymbol, State.streamBits, bitsValue, State.setBrPos]
  · have hrun := decodeLoop_streamBits hlim n (15 - n + 1) hend fun j hj => by
      simpa only [s.streamBits_take _ hj.le] using h j hj
    rwa [show 15 - n + 1 + n = 16 by omega] at hrun

/-- Decode raises InvalidCode just after the bits that leave the codes (40_bitreader R124, 92 D12). -/
theorem decodeSymbol_of_leavesCode (hlim : lim < 2 ^ 32) (hend : n = 0 ∨ s.brPos.toNat + n ≤ lim)
    (h : LeavesCode (s.hlen t) (s.streamBits s.brPos.toNat n)) :
    decodeSymbol t lim s = .error .invalidCode (s.setBrPos (BitVec.ofNat 32 (s.brPos.toNat + n))) := by
  have hn := h.length_le (s.hlen_le t)
  have hinside := h.2
  rw [State.streamBits_length] at hn hinside
  rw [decodeSymbol_streamBits hlim hend hn hinside]
  exact decodeLoop_of_leavesCode h lim _ _

/-- Decode raises TruncatedInput at the limit when the bits up to it stand inside a code (40_bitreader R121, R124). -/
theorem decodeSymbol_of_staysInside (hlim : lim < 2 ^ 32) (hend : n = 0 ∨ s.brPos.toNat + n ≤ lim)
    (hcut : lim < s.brPos.toNat + n + 1) (h : StaysInside (s.hlen t) (s.streamBits s.brPos.toNat n)) :
    decodeSymbol t lim s = .error .truncatedInput (s.setBrPos (BitVec.ofNat 32 (s.brPos.toNat + n))) := by
  have hn := h.length_lt (s.hlen_le t)
  have hlast := h _ le_rfl
  rw [List.take_length] at hlast
  rw [State.streamBits_length] at hn
  rw [decodeSymbol_streamBits hlim hend hn.le fun j hj => h j (by rw [State.streamBits_length]; exact hj.le)]
  refine decodeLoop_of_insideCode_truncated hlast ?_ _
  have hpos := s.brPos.isLt
  rw [State.setBrPos_brPos, BitVec.toNat_ofNat, Nat.mod_eq_of_lt (by omega)]
  exact hcut

end

/-! ### HDECODE (40_bitreader R133) -/

theorem hdecodeBody_eq {t : BitVec 2} {tab : DecodeTable} (htab : decodeTableOf t = some tab) (s : State) :
    hdecodeBody t s = (decodeSymbol tab s.bitLimit >>= writeResult) s := by
  simp only [hdecodeBody, htab, legalOperand_some, pure_bind_apply, observe_bind_apply]

/-- HDECODE completes with the symbol Decode answers. -/
theorem exec_hdecode_ok {t : BitVec 2} {tab : DecodeTable} {s u : State} {sym : Nat} (htab : decodeTableOf t = some tab)
    (h : decodeSymbol tab s.bitLimit s = .ok sym u) :
    exec (.hdecode t) s = .next (completed (u.setResult (BitVec.ofNat 32 sym))) := by
  rw [exec_eq_runCommand]
  refine runCommand_ok ?_
  rw [commandBody, hdecodeBody_eq htab, Cmd.bind_ok h]
  rfl

/-- HDECODE fails as Decode does. -/
theorem exec_hdecode_error {t : BitVec 2} {tab : DecodeTable} {s u : State} {e : ErrorKind}
    (htab : decodeTableOf t = some tab) (h : decodeSymbol tab s.bitLimit s = .error e u) :
    exec (.hdecode t) s = .next (failedWith e u) := by
  rw [exec_eq_runCommand]
  refine runCommand_error ?_
  rw [commandBody, hdecodeBody_eq htab, Cmd.bind_error h]

/-- An empty table is left at once. -/
theorem leavesCode_nil {lens : List Nat} (h : ∀ j, j < lens.length → lens.getD j 0 = 0) : LeavesCode lens [] :=
  ⟨fun sym hsym hne => absurd (h sym hsym) hne, fun j hj => absurd hj (Nat.not_lt_zero j)⟩

/-- Settles O20: Decode ends at the first run of bits that is not inside a code, or where the input does. -/
theorem hdecodeOutcomes : Obligations.HdecodeOutcomes := by
  unfold Obligations.HdecodeOutcomes
  refine fun t s hin => ⟨?_, fun tab htab => ?_⟩
  · rintro rfl
    rw [exec_eq_runCommand]
    exact runCommand_error rfl
  intro lens bits
  have hlim : s.bitLimit < 2 ^ 32 := by unfold State.bitLimit; omega
  refine ⟨fun hempty => ?_, ?_⟩
  · have hleaves : LeavesCode lens [] := leavesCode_nil fun j hj => hempty j (by rwa [s.hlen_length] at hj)
    rw [exec_hdecode_error htab (decodeSymbol_of_leavesCode (n := 0) hlim (.inl rfl) hleaves), Nat.add_zero,
      BitVec.ofNat_toNat, BitVec.setWidth_eq]
    rfl
  by_cases hall : ∀ k, k ≤ 8 * s.inLen.toNat - s.brPos.toNat → InsideCode lens (bits k)
  · refine .inr (.inr ⟨hall, ?_⟩)
    have hstays : StaysInside lens (bits (8 * s.inLen.toNat - s.brPos.toNat)) := fun j hj => by
      rw [State.streamBits_length] at hj
      simpa only [bits, s.streamBits_take _ hj] using hall j hj
    rw [exec_hdecode_error htab (decodeSymbol_of_staysInside hlim (by unfold State.bitLimit; omega)
      (by unfold State.bitLimit; omega) hstays)]
    rw [show s.brPos.toNat + (8 * s.inLen.toNat - s.brPos.toNat) = max (8 * s.inLen.toNat) s.brPos.toNat by omega]
    rfl
  · push Not at hall
    -- The first run of bits that is not inside a code.
    classical
    obtain ⟨k, ⟨hk, hout⟩, hfirst⟩ := Nat.findX hall
    have hinside : ∀ j, j < k → InsideCode lens ((bits k).take j) := fun j hj => by
      rw [s.streamBits_take _ hj.le]
      by_contra hj'
      exact hfirst j hj ⟨by omega, hj'⟩
    have hlength : (bits k).length = k := s.streamBits_length _ _
    have hend : k = 0 ∨ s.brPos.toNat + k ≤ 8 * s.inLen.toNat := by omega
    obtain ⟨sym, hsym⟩ | hleaves := decodesTo_or_leavesCode hout (by rwa [hlength])
    · obtain ⟨⟨hsymlt, hne, hlen, -⟩, -⟩ := id hsym
      have hpos := List.length_pos_iff.2 hne
      rw [hlength] at hlen hpos
      have hle : lens.getD sym 0 ≤ 15 := getD_le_of_all_le (s.hlen_le tab) hsymlt
      refine .inl ⟨sym, k, by rwa [s.hlen_length] at hsymlt, hlen.symm, hpos, by omega, by omega, hsym, ?_⟩
      exact exec_hdecode_ok htab (decodeSymbol_of_decodesTo hlim (show _ ≤ 8 * s.inLen.toNat by omega) (by omega) hsym)
    · have hle := hleaves.length_le (s.hlen_le tab)
      rw [hlength] at hle
      exact .inr (.inl ⟨k, hle, hend, hleaves, exec_hdecode_error htab (decodeSymbol_of_leavesCode hlim hend hleaves)⟩)

end Sys2Proof.Machine
end

section
/-! PROOFS. Reading a written-out stream: the cursor before it, the fields and codes at its head, the rest after them
(40_bitreader R120, R121, R124). -/

namespace Sys2Proof.Machine

/-! ### The cursor -/

/-- The state with the cursor `n` bits further. -/
def State.advance (s : State) (n : Nat) : State := s.setBrPos (BitVec.ofNat 32 (s.brPos.toNat + n))

theorem State.advance_brPos {s : State} {n : Nat} (h : s.brPos.toNat + n < 2 ^ 32) :
    (s.advance n).brPos.toNat = s.brPos.toNat + n := by
  rw [State.advance, State.setBrPos_brPos, BitVec.toNat_ofNat, Nat.mod_eq_of_lt h]

@[simp] theorem State.advance_zero (s : State) : s.advance 0 = s := by simp [State.advance, State.setBrPos]

@[simp] theorem State.advance_advance (s : State) (m n : Nat) : (s.advance m).advance n = s.advance (m + n) := by
  refine congrArg s.setBrPos (BitVec.eq_of_toNat_eq ?_)
  simp [State.advance, Nat.add_assoc]

@[simp] theorem State.advance_decodeResult (s : State) (n : Nat) : (s.advance n).decodeResult = s.decodeResult := rfl

@[simp] theorem State.advance_hlen (s : State) (n : Nat) (t : DecodeTable) : (s.advance n).hlen t = s.hlen t :=
  s.hlen_setBrPos _ t

theorem State.setHlen_advance (s : State) (t : DecodeTable) (lens : List Nat) (n : Nat) :
    (s.setHlen t lens).advance n = (s.advance n).setHlen t lens := by
  cases t <;> simp [State.advance, State.setHlen, State.setBrPos, State.setHlen0, State.setHlen1, State.setHlen2]

@[simp] theorem State.advance_streamBits (s : State) (m p n : Nat) :
    (s.advance m).streamBits p n = s.streamBits p n := by
  induction n generalizing p with
  | zero => rfl
  | succ n ih => rw [State.streamBits, State.streamBits, ih]; rfl

/-! ### The bits ahead -/

/-- The bits stand at the cursor and end by the limit, which no input exceeds. -/
structure BitsAhead (lim : Nat) (s : State) (bits : List Bool) : Prop where
  limit : lim ≤ 2 ^ 27
  ends : s.brPos.toNat + bits.length ≤ lim
  stands : s.streamBits s.brPos.toNat bits.length = bits

/-- A stream depends on the bytes of IN alone. -/
theorem State.streamBits_congr {s t : State} (hin : ∀ i, i < 2 ^ 24 → t.inByte i = s.inByte i) {p n : Nat}
    (h : p + n ≤ 2 ^ 27) : t.streamBits p n = s.streamBits p n := by
  induction n generalizing p with
  | zero => rfl
  | succ n ih =>
    rw [State.streamBits, State.streamBits, ih (by omega), State.streamBit, State.streamBit, hin _ (by omega)]

section
variable {lim n : Nat} {s : State} {a b bits : List Bool}

theorem BitsAhead.advance_brPos (h : BitsAhead lim s bits) :
    (s.advance bits.length).brPos.toNat = s.brPos.toNat + bits.length := by
  obtain ⟨hlim, hends, -⟩ := h
  exact State.advance_brPos (by omega)

theorem BitsAhead.left (h : BitsAhead lim s (a ++ b)) : BitsAhead lim s a := by
  obtain ⟨hlim, hends, hstands⟩ := h
  exact ⟨hlim, by rw [List.length_append] at hends; omega, (State.streamBits_split hstands).1⟩

theorem BitsAhead.right (h : BitsAhead lim s (a ++ b)) : BitsAhead lim (s.advance a.length) b := by
  have hpos := h.left.advance_brPos
  obtain ⟨hlim, hends, hstands⟩ := h
  refine ⟨hlim, by rw [List.length_append] at hends; omega, ?_⟩
  rw [hpos, State.advance_streamBits]
  exact (State.streamBits_split hstands).2

/-- The bits ahead stay where the cursor and the bytes of IN do. -/
theorem BitsAhead.congr {t : State} (h : BitsAhead lim s bits) (hpos : t.brPos = s.brPos)
    (hin : ∀ i, i < 2 ^ 24 → t.inByte i = s.inByte i) : BitsAhead lim t bits := by
  obtain ⟨hlim, hends, hstands⟩ := h
  refine ⟨hlim, by rwa [hpos], ?_⟩
  rw [hpos, State.streamBits_congr hin (by omega), hstands]

/-! ### Fields and codes at the head (40_bitreader R121, R124) -/

theorem BitsAhead.readBits {v : Nat} (h : BitsAhead lim s (lowBits v n)) (hv : v < 2 ^ n) :
    readBits lim n s = .ok v (s.advance n) := by
  obtain ⟨-, hends, hstands⟩ := h
  rw [lowBits_length] at hends hstands
  by_cases hn : n = 0
  · subst hn
    obtain rfl : v = 0 := by omega
    simp
  · exact readBits_lowBits hv hn hends hstands

/-- A field at the head is read, and what follows it in the stream is ahead. -/
theorem BitsAhead.bind_readBits {α : Type} {v : Nat} (h : BitsAhead lim s (lowBits v n ++ bits)) (hv : v < 2 ^ n)
    (f : Nat → Cmd α) : (Machine.readBits lim n >>= f) s = f v (s.advance n) :=
  Cmd.bind_ok (h.left.readBits hv)

theorem BitsAhead.afterField {v : Nat} (h : BitsAhead lim s (lowBits v n ++ bits)) :
    BitsAhead lim (s.advance n) bits := by
  simpa using h.right

/-- A field the input ends inside, after the bits before it. -/
theorem BitsAhead.readBits_truncated (h : BitsAhead lim s bits) (hn : n ≠ 0)
    (hcut : lim < s.brPos.toNat + bits.length + n) :
    Machine.readBits lim n (s.advance bits.length) = .error .truncatedInput (s.advance bits.length) :=
  Machine.readBits_truncated (by rwa [h.advance_brPos]) hn

variable {t : DecodeTable} {sym : Nat}

theorem BitsAhead.decodeSymbol (h : BitsAhead lim s (codeBits (s.hlen t) sym)) (hkraft : KraftOk (s.hlen t))
    (hsym : sym < t.capacity) (hne : (s.hlen t).getD sym 0 ≠ 0) :
    decodeSymbol t lim s = .ok sym (s.advance ((s.hlen t).getD sym 0)) := by
  obtain ⟨hlim, hends, hstands⟩ := h
  rw [codeBits_length] at hends hstands
  rw [← s.hlen_length] at hsym
  refine decodeSymbol_of_decodesTo (by omega) hends (getD_le_of_all_le (s.hlen_le t) hsym) ?_
  rw [hstands]
  exact codeBits_decodesTo (s.hlen_le t) hkraft hsym hne

/-- A code at the head is read, and what follows it in the stream is ahead. -/
theorem BitsAhead.bind_decodeSymbol {α : Type} (h : BitsAhead lim s (codeBits (s.hlen t) sym ++ bits))
    (hkraft : KraftOk (s.hlen t)) (hsym : sym < t.capacity) (hne : (s.hlen t).getD sym 0 ≠ 0) (f : Nat → Cmd α) :
    (Machine.decodeSymbol t lim >>= f) s = f sym (s.advance (codeBits (s.hlen t) sym).length) := by
  rw [codeBits_length]
  exact Cmd.bind_ok (h.left.decodeSymbol hkraft hsym hne)

theorem BitsAhead.decodeSymbol_invalid (h : BitsAhead lim s bits) (hleaves : LeavesCode (s.hlen t) bits) :
    Machine.decodeSymbol t lim s = .error .invalidCode (s.advance bits.length) := by
  obtain ⟨hlim, hends, hstands⟩ := h
  exact decodeSymbol_of_leavesCode (by omega) (.inr hends) (by rwa [hstands])

theorem BitsAhead.decodeSymbol_truncated (h : BitsAhead lim s bits) (hinside : StaysInside (s.hlen t) bits)
    (hcut : lim < s.brPos.toNat + bits.length + 1) :
    Machine.decodeSymbol t lim s = .error .truncatedInput (s.advance bits.length) := by
  obtain ⟨hlim, hends, hstands⟩ := h
  exact decodeSymbol_of_staysInside (by omega) (.inr hends) hcut (by rwa [hstands])

end

/-! ### A block's header (41_inflate R151) -/

/-- The state after the header of a block: three bits on, LAST and BTYPE written. -/
def State.blockStart (s : State) (final : Bool) (btype : BitVec 2) : State :=
  { s.advance 3 with status := { s.status with last := final, btype := btype } }

/-- INFBLK after the three bits of its header. -/
theorem inflateBlock_of_header {lim : Nat} {s : State} {final : Bool} {btype : BitVec 2}
    (h : BitsAhead lim s (final :: lowBits btype.toNat 2)) :
    inflateBlock lim s = (blockBody lim btype.toNat >>= fun _ => pure final.toNat) (s.blockStart final btype) := by
  have hsplit : BitsAhead lim s (lowBits final.toNat 1 ++ lowBits btype.toNat 2) := by
    cases final <;> exact h
  have hfinal := hsplit.left.readBits (Bool.toNat_lt final)
  have hbtype := hsplit.right.readBits btype.isLt
  have hlast : decide (final.toNat = 1) = final := by cases final <;> rfl
  have hstart : (s.advance 3).setBlockHeader final.toNat btype.toNat = s.blockStart final btype := by
    rw [State.setBlockHeader, hlast, BitVec.ofNat_toNat, BitVec.setWidth_eq]
    rfl
  rw [inflateBlock, Cmd.bind_ok hfinal, Cmd.bind_ok (by simpa using hbtype), update_bind_apply, hstart]

/-- INFBLK fails as its block does. -/
theorem exec_infblk_error {s u : State} {e : ErrorKind} (h : inflateBlock s.bitLimit s = .error e u) :
    exec .infblk s = .next (failedWith e u) := by
  rw [exec_eq_runCommand]
  refine runCommand_error ?_
  rw [commandBody, infblkBody, observe_bind_apply]
  exact Cmd.bind_error h

/-- INFBLK fails as the body of its block does. -/
theorem exec_infblk_body_error {s u : State} {final : Bool} {btype : BitVec 2} {e : ErrorKind}
    (h : BitsAhead s.bitLimit s (final :: lowBits btype.toNat 2))
    (hbody : blockBody s.bitLimit btype.toNat (s.blockStart final btype) = .error e u) :
    exec .infblk s = .next (failedWith e u) := by
  refine exec_infblk_error ?_
  rw [inflateBlock_of_header h]
  exact Cmd.bind_error hbody

end Sys2Proof.Machine
end

section
/-! PROOFS. The header of a dynamic block: the counts, the code-length code, the lengths it spells and the tables built
from them, up to the symbol loop or to the failure (41_inflate R153 to R157). -/

namespace Sys2Proof.Machine

/-! ### Tables of fewer lengths than symbols (40_bitreader R125) -/

/-- The lengths given, then zeros, `n` in all. -/
def padTo (n : Nat) (lens : List Nat) : List Nat := (List.range n).map fun j => lens.getD j 0

@[simp] theorem padTo_length (n : Nat) (lens : List Nat) : (padTo n lens).length = n := by simp [padTo]

theorem padTo_getD {n j : Nat} (lens : List Nat) (hj : j < n) : (padTo n lens).getD j 0 = lens.getD j 0 := by
  simp [padTo, List.getD_eq_getElem?_getD, hj]

theorem padTo_of_length {n : Nat} {lens : List Nat} (h : lens.length = n) : padTo n lens = lens :=
  List.ext_getElem ((padTo_length _ _).trans h.symm) fun j hj hj' => by simp [padTo, hj']

/-- The zeros add nothing to the Kraft sum. -/
theorem kraftOk_padTo {n : Nat} {lens : List Nat} (h : lens.length ≤ n) : KraftOk (padTo n lens) ↔ KraftOk lens := by
  have hsame : ∀ j, j < n → (padTo n lens).getD j 0 = lens.getD j 0 := fun j => padTo_getD lens
  exact ⟨(kraftSum_le fun j hj => (hsame j (hj.trans_le h)).symm).trans,
    (kraftSum_le fun j hj => hsame j (by rwa [padTo_length] at hj)).trans⟩

theorem getD_le_of_forall {lens : List Nat} {n : Nat} (h : ∀ l ∈ lens, l ≤ n) (j : Nat) : lens.getD j 0 ≤ n := by
  by_cases hj : j < lens.length
  · exact getD_le_of_all_le h hj
  · rw [List.getD_eq_default _ _ (Nat.le_of_not_lt hj)]
    exact Nat.zero_le n

section
variable {t : DecodeTable} {lens : List Nat}

theorem buildTable_ok (hle : ∀ l ∈ lens, l ≤ 15) (hkraft : KraftOk lens) (s : State) :
    buildTable t lens s = .ok () (s.setHlen t lens) := by
  obtain ⟨-, -, h⟩ | ⟨⟨l, hl, hlong⟩ | hover, -⟩ := buildTable_cases t lens s
  · exact h
  · exact absurd (hle l hl) (Nat.not_le.2 hlong)
  · exact absurd hkraft hover

theorem buildTable_invalid (hover : ¬ KraftOk lens) (s : State) :
    buildTable t lens s = .error .invalidCode s := by
  obtain ⟨-, hkraft, -⟩ | ⟨-, h⟩ := buildTable_cases t lens s
  · exact absurd hkraft hover
  · exact h

theorem State.setHlen_hlen (hle : ∀ l ∈ lens, l ≤ 15) (s : State) :
    (s.setHlen t lens).hlen t = padTo t.capacity lens := by
  refine List.ext_getElem (by rw [State.hlen_length, padTo_length]) fun j hj hj' => ?_
  rw [← List.getD_eq_getElem _ 0 hj, ← List.getD_eq_getElem _ 0 hj']
  rw [State.hlen_length] at hj
  rw [padTo_getD lens hj]
  exact s.setHlen_hlen_same t lens j hj (getD_le_of_forall hle j)

end

/-! ### The counts and the code-length code (41_inflate R155, R156) -/

/-- `acc` with the lengths of the symbols listed taken from `cl`. -/
def fillLengths (cl perm acc : List Nat) : List Nat := perm.foldl (fun acc p => acc.set p (cl.getD p 0)) acc

@[simp] theorem fillLengths_length (cl perm acc : List Nat) : (fillLengths cl perm acc).length = acc.length := by
  induction perm generalizing acc with
  | nil => rfl
  | cons p perm ih => rw [fillLengths, List.foldl_cons, ← fillLengths, ih, List.length_set]

theorem fillLengths_getD (cl perm acc : List Nat) {i : Nat} (hi : i < acc.length) :
    (fillLengths cl perm acc).getD i 0 = if i ∈ perm then cl.getD i 0 else acc.getD i 0 := by
  induction perm generalizing acc with
  | nil => simp [fillLengths]
  | cons p perm ih =>
    rw [fillLengths, List.foldl_cons, ← fillLengths, ih _ (by rwa [List.length_set])]
    by_cases hperm : i ∈ perm
    · rw [if_pos hperm, if_pos (List.mem_cons_of_mem p hperm)]
    · rw [if_neg hperm, List.getD_eq_getElem?_getD]
      by_cases hp : i = p
      · subst hp
        rw [if_pos List.mem_cons_self, List.getElem?_set_self hi, Option.getD_some]
      · rw [if_neg (by simp [hp, hperm]), List.getElem?_set_ne (Ne.symm hp), ← List.getD_eq_getElem?_getD]

theorem mem_permRom : ∀ i, i < 19 → i ∈ permRom := by decide

/-- The lengths read, and zeros past them, are the code-length code (41_inflate R156). -/
theorem CountsLegal.fillLengths {hlit hdist hclen : Nat} {cl : List Nat} (h : CountsLegal hlit hdist hclen cl) :
    fillLengths cl (permRom.take (hclen + 4)) (List.replicate 19 0) = cl := by
  obtain ⟨-, -, -, hlen, -, hzero⟩ := h
  refine List.ext_getElem (by simpa using hlen.symm) fun i hi hi' => ?_
  rw [hlen] at hi'
  rw [← List.getD_eq_getElem _ 0 hi, ← List.getD_eq_getElem _ 0 (by omega), fillLengths_getD _ _ _ (by simpa using hi')]
  split
  next => rfl
  next hout =>
    have hmem := mem_permRom i hi'
    rw [← List.take_append_drop (hclen + 4) permRom, List.mem_append] at hmem
    obtain ⟨k, hk, rfl⟩ := List.mem_iff_getElem.1 (hmem.resolve_left hout)
    have hperm : permRom.length = 19 := rfl
    rw [List.length_drop, hperm] at hk
    have hcl := hzero (hclen + 4 + k) (Nat.le_add_right _ _) (by omega)
    rw [List.getD_eq_getElem permRom _ (by omega)] at hcl
    rw [List.getD_eq_getElem (List.replicate 19 0) 0 (by rwa [List.length_replicate]), List.getElem_replicate,
      List.getElem_drop, hcl]

/-- The 3-bit lengths of the symbols listed. -/
def codeLengthBits (cl perm : List Nat) : List Bool := perm.flatMap fun p => lowBits (cl.getD p 0) 3

theorem readCodeLengths_append {lim : Nat} {s : State} {cl perm : List Nat} (hcl : ∀ l ∈ cl, l < 8)
    (h : BitsAhead lim s (codeLengthBits cl perm)) (rest acc : List Nat) :
    readCodeLengths lim (perm ++ rest) acc s =
      readCodeLengths lim rest (fillLengths cl perm acc) (s.advance (codeLengthBits cl perm).length) := by
  induction perm generalizing s acc with
  | nil => simp [fillLengths, codeLengthBits]
  | cons p perm ih =>
    have hsplit : BitsAhead lim s (lowBits (cl.getD p 0) 3 ++ codeLengthBits cl perm) := h
    have hlt : cl.getD p 0 < 8 := Nat.lt_succ_of_le (getD_le_of_forall (fun l hl => Nat.le_of_lt_succ (hcl l hl)) p)
    have hrest := ih hsplit.right (acc.set p (cl.getD p 0))
    rw [lowBits_length, State.advance_advance] at hrest
    rw [List.cons_append, readCodeLengths, Cmd.bind_ok (hsplit.left.readBits hlt), hrest]
    simp [fillLengths, codeLengthBits]

/-- What a dynamic block does once its counts and its code-length code are read (41_inflate R156). -/
def dynamicTables (lim hlit hdist : Nat) (cl : List Nat) : Cmd Unit := do
  buildTable .clen cl
  let a ← readLengths lim (hlit + 257 + (hdist + 1)) (hlit + 257 + (hdist + 1)) []
  buildTable .litlen (a.take (hlit + 257))
  buildTable .dist (a.drop (hlit + 257))
  huffmanBody lim (lim + 1)

section
variable {lim hlit hdist hclen : Nat} {cl : List Nat} {s : State}

theorem countBits_eq (hlit hdist hclen : Nat) (cl : List Nat) : countBits hlit hdist hclen cl =
    lowBits hlit 5 ++ (lowBits hdist 5 ++ (lowBits hclen 4 ++ codeLengthBits cl (permRom.take (hclen + 4)))) := by
  simp [countBits, codeLengthBits]

theorem dynamicBlock_of_counts (hlegal : CountsLegal hlit hdist hclen cl)
    (h : BitsAhead lim s (countBits hlit hdist hclen cl)) :
    dynamicBlock lim s = dynamicTables lim hlit hdist cl (s.advance (countBits hlit hdist hclen cl).length) := by
  obtain ⟨hhlit, hhdist, hhclen, -, hcl, -⟩ := id hlegal
  rw [countBits_eq] at h ⊢
  have hcodes := readCodeLengths_append hcl h.afterField.afterField.afterField [] (List.replicate 19 0)
  rw [List.append_nil, hlegal.fillLengths] at hcodes
  rw [dynamicBlock, h.bind_readBits hhlit, h.afterField.bind_readBits hhdist,
    h.afterField.afterField.bind_readBits hhclen, Cmd.bind_ok (hcodes.trans rfl)]
  simp [dynamicTables, ← Nat.add_assoc]

/-- The counts up to the field listed: HLIT, HDIST, HCLEN, then the lengths of the code-length code. -/
def countPrefix (hlit hdist hclen : Nat) (cl : List Nat) (field : Nat) : List Bool :=
  (countBits hlit hdist hclen cl).take (if field < 3 then 5 * field else 14 + 3 * (field - 3))

/-- The width of that field. -/
def countWidth (field : Nat) : Nat := if field < 2 then 5 else if field = 2 then 4 else 3

theorem countPrefix_zero : countPrefix hlit hdist hclen cl 0 = [] := rfl

theorem countPrefix_one : countPrefix hlit hdist hclen cl 1 = lowBits hlit 5 := by
  rw [countPrefix, countBits_eq, if_pos (by decide), List.take_left' (lowBits_length _ _)]

theorem countPrefix_two : countPrefix hlit hdist hclen cl 2 = lowBits hlit 5 ++ lowBits hdist 5 := by
  rw [countPrefix, countBits_eq, if_pos (by decide), ← List.append_assoc, List.take_left' (by simp)]

theorem codeLengthBits_take (perm : List Nat) (k : Nat) :
    (codeLengthBits cl perm).take (3 * k) = codeLengthBits cl (perm.take k) := by
  induction perm generalizing k with
  | nil => simp [codeLengthBits]
  | cons p perm ih =>
    cases k with
    | zero => simp [codeLengthBits]
    | succ k =>
      have hcons : ∀ perm, codeLengthBits cl (p :: perm) = lowBits (cl.getD p 0) 3 ++ codeLengthBits cl perm :=
        fun _ => rfl
      have hlen : 3 * (k + 1) = (lowBits (cl.getD p 0) 3).length + 3 * k := by rw [lowBits_length]; omega
      rw [List.take_succ_cons, hcons, hcons, ← ih, hlen, List.take_length_add_append]

theorem countPrefix_lengths (k : Nat) : countPrefix hlit hdist hclen cl (k + 3) =
    lowBits hlit 5 ++ (lowBits hdist 5 ++
      (lowBits hclen 4 ++ codeLengthBits cl ((permRom.take (hclen + 4)).take k))) := by
  have hlen : 14 + 3 * (k + 3 - 3) =
      (lowBits hlit 5).length + ((lowBits hdist 5).length + ((lowBits hclen 4).length + 3 * k)) := by
    simp only [lowBits_length]
    omega
  rw [countPrefix, countBits_eq, if_neg (by omega), hlen, List.take_length_add_append, List.take_length_add_append,
    List.take_length_add_append, codeLengthBits_take]

/-- A dynamic block whose input ends inside a count or a length of the code-length code (41_inflate R172). -/
theorem dynamicBlock_truncated {field : Nat} (hlegal : CountsLegal hlit hdist hclen cl)
    (hfield : field < 3 + (hclen + 4))
    (h : BitsAhead lim s (countPrefix hlit hdist hclen cl field))
    (hcut : lim < s.brPos.toNat + (countPrefix hlit hdist hclen cl field).length + countWidth field) :
    dynamicBlock lim s = .error .truncatedInput (s.advance (countPrefix hlit hdist hclen cl field).length) := by
  obtain ⟨hhlit, hhdist, hhclen, -, hcl, -⟩ := id hlegal
  have hstop := h.readBits_truncated (by unfold countWidth; split_ifs <;> decide) hcut
  match field with
  | 0 => exact Cmd.bind_error (by simpa [countPrefix_zero, countWidth] using hstop)
  | 1 =>
    rw [countPrefix_one] at h hstop ⊢
    rw [← List.append_nil (lowBits hlit 5)] at h
    rw [dynamicBlock, h.bind_readBits hhlit]
    rw [lowBits_length, countWidth, if_pos (by decide)] at hstop
    rw [lowBits_length]
    exact Cmd.bind_error hstop
  | 2 =>
    rw [countPrefix_two] at h hstop ⊢
    have h' := h.afterField
    rw [← List.append_nil (lowBits hdist 5)] at h'
    rw [dynamicBlock, h.bind_readBits hhlit, h'.bind_readBits hhdist]
    rw [countWidth, if_neg (by decide), if_pos rfl] at hstop
    simp only [List.length_append, lowBits_length, State.advance_advance] at hstop ⊢
    exact Cmd.bind_error hstop
  | k + 3 =>
    rw [countPrefix_lengths] at h hstop ⊢
    obtain ⟨p, rest, hrest⟩ : ∃ p rest, (permRom.take (hclen + 4)).drop k = p :: rest :=
      List.exists_cons_of_length_pos (by simp [permRom]; omega)
    have hcodes := readCodeLengths_append hcl h.afterField.afterField.afterField (p :: rest) (List.replicate 19 0)
    rw [← hrest, List.take_append_drop, hrest, readCodeLengths] at hcodes
    rw [dynamicBlock, h.bind_readBits hhlit, h.afterField.bind_readBits hhdist,
      h.afterField.afterField.bind_readBits hhclen, Cmd.bind_apply, hcodes]
    rw [countWidth, if_neg (by omega), if_neg (by omega)] at hstop
    simp only [List.length_append, lowBits_length, State.advance_advance, Nat.add_assoc] at hstop ⊢
    rw [Cmd.bind_error hstop]

end

/-! ### The lengths a code-length symbol adds (41_inflate R157) -/

theorem LengthOp.symbol_lt {a : List Nat} {op : LengthOp} (h : op.legal a = true) : op.symbol < 19 := by
  cases op <;> simp only [LengthOp.legal, decide_eq_true_eq, LengthOp.symbol] at h ⊢ <;> omega

theorem LengthOp.length_extend (a : List Nat) (op : LengthOp) : a.length < (op.extend a).length := by
  cases op <;> simp only [LengthOp.extend, List.length_append, List.length_replicate, List.length_singleton] <;> omega

/-- A legal symbol adds lengths of at most 15. -/
theorem LengthOp.extend_le {a : List Nat} {op : LengthOp} (h : op.legal a = true) (ha : ∀ l ∈ a, l ≤ 15) :
    ∀ l ∈ op.extend a, l ≤ 15 := by
  intro l hl
  cases op <;> simp only [LengthOp.extend, List.mem_append, List.mem_singleton, List.mem_replicate] at hl
  case length n =>
    obtain hl | rfl := hl
    · exact ha l hl
    · simpa [LengthOp.legal] using h
  case again r =>
    obtain hl | ⟨-, rfl⟩ := hl
    · exact ha l hl
    · obtain ⟨hne, -⟩ : a ≠ [] ∧ r < 4 := by simpa [LengthOp.legal] using h
      rw [List.getLastD_eq_getLast?, List.getLast?_eq_some_getLast hne, Option.getD_some]
      exact ha _ (List.getLast_mem hne)
  case zeros r => exact hl.elim (ha l) fun hl => hl.2 ▸ Nat.zero_le _
  case manyZeros r => exact hl.elim (ha l) fun hl => hl.2 ▸ Nat.zero_le _

/-- A repeat is read as its value and its count. -/
theorem repeatOf_of_legal {lim : Nat} {s : State} {a : List Nat} {op : LengthOp} (hlegal : op.legal a = true)
    (hrepeat : 16 ≤ op.symbol) (h : BitsAhead lim s op.extraBits) :
    ∃ val r, op.extend a = a ++ List.replicate r val ∧
      repeatOf lim op.symbol a s = .ok (val, r) (s.advance op.extraBits.length) := by
  cases op with
  | length l =>
    simp only [LengthOp.legal, decide_eq_true_eq, LengthOp.symbol] at hlegal hrepeat
    omega
  | again r =>
    obtain ⟨hne, hr⟩ : a ≠ [] ∧ r < 4 := by simpa [LengthOp.legal] using hlegal
    refine ⟨_, _, rfl, ?_⟩
    rw [LengthOp.symbol, repeatOf, if_pos rfl, List.getLastD_eq_getLast?, List.getLast?_eq_some_getLast hne]
    exact Cmd.bind_ok (h.readBits hr)
  | zeros r =>
    have hr : r < 8 := by simpa [LengthOp.legal] using hlegal
    exact ⟨_, _, rfl, Cmd.bind_ok (h.readBits hr)⟩
  | manyZeros r =>
    have hr : r < 128 := by simpa [LengthOp.legal] using hlegal
    exact ⟨_, _, rfl, Cmd.bind_ok (h.readBits hr)⟩

/-- A repeat whose extra bits the input ends inside. -/
theorem repeatOf_truncated {lim : Nat} {s : State} {a : List Nat} {op : LengthOp} (hlegal : op.legal a = true)
    (hextra : op.extraBits ≠ []) (hcut : lim < s.brPos.toNat + op.extraBits.length) :
    repeatOf lim op.symbol a s = .error .truncatedInput s := by
  cases op with
  | length l => exact absurd rfl hextra
  | again r =>
    obtain ⟨hne, -⟩ : a ≠ [] ∧ r < 4 := by simpa [LengthOp.legal] using hlegal
    rw [LengthOp.symbol, repeatOf, if_pos rfl, List.getLast?_eq_some_getLast hne]
    exact Cmd.bind_error (readBits_truncated (by simpa [LengthOp.extraBits] using hcut) (by decide))
  | zeros r => exact Cmd.bind_error (readBits_truncated (by simpa [LengthOp.extraBits] using hcut) (by decide))
  | manyZeros r => exact Cmd.bind_error (readBits_truncated (by simpa [LengthOp.extraBits] using hcut) (by decide))

/-! ### One pass of ReadLengths (41_inflate R157) -/

/-- What one pass of ReadLengths does once its symbol is decoded. -/
def addLengths (lim m : Nat) (a : List Nat) (sym : Nat) : Cmd (List Nat) :=
  if sym ≤ 15 then pure (a ++ [sym])
  else do
    let (val, r) ← repeatOf lim sym a
    raiseIf (decide (m < a.length + r)) .invalidSymbol
    pure (a ++ List.replicate r val)

theorem lengthsPass_eq (lim m : Nat) (a : List Nat) :
    lengthsPass lim m a = decodeSymbol .clen lim >>= addLengths lim m a := rfl

section
variable {lim m : Nat} {s : State} {a cl : List Nat} {op : LengthOp}

theorem addLengths_repeat (hlegal : op.legal a = true) (hrepeat : ¬ op.symbol ≤ 15) (h : BitsAhead lim s op.extraBits) :
    addLengths lim m a op.symbol s = (raiseIf (decide (m < (op.extend a).length)) .invalidSymbol >>= fun _ =>
      pure (op.extend a)) (s.advance op.extraBits.length) := by
  obtain ⟨val, r, hextend, hrun⟩ := repeatOf_of_legal hlegal (by omega) h
  rw [addLengths, if_neg hrepeat, Cmd.bind_ok hrun, hextend, List.length_append, List.length_replicate]

theorem addLengths_ok (hlegal : op.legal a = true) (hm : (op.extend a).length ≤ m) (h : BitsAhead lim s op.extraBits) :
    addLengths lim m a op.symbol s = .ok (op.extend a) (s.advance op.extraBits.length) := by
  by_cases hsym : op.symbol ≤ 15
  · cases op with
    | length l => rw [addLengths, if_pos hsym]; simp [LengthOp.extend, LengthOp.extraBits, LengthOp.symbol]
    | _ => simp [LengthOp.symbol] at hsym
  · rw [addLengths_repeat hlegal hsym h, decide_eq_false (Nat.not_lt.2 hm)]
    rfl

/-- A repeat past HLIT + HDIST raises InvalidSymbol; a single length never runs past them. -/
theorem addLengths_overrun (hlegal : op.legal a = true) (ha : a.length < m) (hm : m < (op.extend a).length)
    (h : BitsAhead lim s op.extraBits) :
    addLengths lim m a op.symbol s = .error .invalidSymbol (s.advance op.extraBits.length) := by
  have hsym : ¬ op.symbol ≤ 15 := by
    cases op with
    | length l =>
      rw [LengthOp.extend, List.length_append, List.length_singleton] at hm
      omega
    | _ => simp [LengthOp.symbol]
  rw [addLengths_repeat hlegal hsym h, decide_eq_true hm]
  rfl

/-- The decoder of the code-length symbols is ready: the table HLEN2 is CL, and CL is no over-subscribed code. -/
def ReadsLengthsBy (cl : List Nat) (s : State) : Prop := s.hlen .clen = cl ∧ KraftOk cl

theorem ReadsLengthsBy.advance (hcl : ReadsLengthsBy cl s) (n : Nat) : ReadsLengthsBy cl (s.advance n) := hcl

/-- A pass of ReadLengths decodes its symbol. -/
theorem lengthsPass_of_code {sym : Nat} {bits : List Bool} (hcl : ReadsLengthsBy cl s) (hsym : sym < 19)
    (hne : cl.getD sym 0 ≠ 0) (h : BitsAhead lim s (codeBits cl sym ++ bits)) :
    lengthsPass lim m a s = addLengths lim m a sym (s.advance (codeBits cl sym).length) := by
  obtain ⟨rfl, hkraft⟩ := hcl
  rw [lengthsPass_eq, h.bind_decodeSymbol hkraft hsym hne]

theorem lengthsPass_ok (hcl : ReadsLengthsBy cl s) (hlegal : op.legal a = true) (hne : cl.getD op.symbol 0 ≠ 0)
    (hm : (op.extend a).length ≤ m) (h : BitsAhead lim s (codeBits cl op.symbol ++ op.extraBits)) :
    lengthsPass lim m a s = .ok (op.extend a) (s.advance (codeBits cl op.symbol ++ op.extraBits).length) := by
  rw [lengthsPass_of_code hcl (LengthOp.symbol_lt hlegal) hne h, addLengths_ok hlegal hm h.right,
    State.advance_advance, List.length_append]

/-! ### The loop of ReadLengths (41_inflate R157) -/

theorem lengthOpsLegal_cons {ops : List LengthOp} : lengthOpsLegal cl a (op :: ops) = true ↔
    op.legal a = true ∧ cl.getD op.symbol 0 ≠ 0 ∧ lengthOpsLegal cl (op.extend a) ops = true := by
  simp [lengthOpsLegal, and_assoc]

theorem lengthOpsLegal_append {ops ops' : List LengthOp} : lengthOpsLegal cl a (ops ++ ops') = true ↔
    lengthOpsLegal cl a ops = true ∧ lengthOpsLegal cl (ops.foldl LengthOp.extend a) ops' = true := by
  induction ops generalizing a with
  | nil => simp [lengthOpsLegal]
  | cons op ops ih => rw [List.cons_append, lengthOpsLegal_cons, lengthOpsLegal_cons, ih, List.foldl_cons]; tauto

theorem foldl_extend_le {ops : List LengthOp} (h : lengthOpsLegal cl a ops = true) (ha : ∀ l ∈ a, l ≤ 15) :
    ∀ l ∈ ops.foldl LengthOp.extend a, l ≤ 15 := by
  induction ops generalizing a with
  | nil => exact ha
  | cons op ops ih =>
    obtain ⟨hop, -, hops⟩ := lengthOpsLegal_cons.1 h
    exact ih hops (LengthOp.extend_le hop ha)

/-- Each symbol adds a length at least. -/
theorem length_foldl_extend (a : List Nat) (ops : List LengthOp) :
    a.length + ops.length ≤ (ops.foldl LengthOp.extend a).length := by
  induction ops generalizing a with
  | nil => exact le_rfl
  | cons op ops ih =>
    have hop := LengthOp.length_extend a op
    have hops := ih (op.extend a)
    rw [List.foldl_cons, List.length_cons]
    omega

theorem opsBits_cons (cl : List Nat) (op : LengthOp) (ops : List LengthOp) :
    opsBits cl (op :: ops) = codeBits cl op.symbol ++ op.extraBits ++ opsBits cl ops := rfl

/-- ReadLengths takes legal symbols one by one. -/
theorem readLengths_run {ops : List LengthOp} (hcl : ReadsLengthsBy cl s) (hlegal : lengthOpsLegal cl a ops = true)
    (hm : (ops.foldl LengthOp.extend a).length ≤ m) (h : BitsAhead lim s (opsBits cl ops)) (fuel : Nat) :
    readLengths lim m (ops.length + fuel) a s =
      readLengths lim m fuel (ops.foldl LengthOp.extend a) (s.advance (opsBits cl ops).length) := by
  induction ops generalizing s a with
  | nil => simp [opsBits]
  | cons op ops ih =>
    obtain ⟨hop, hne, hops⟩ := lengthOpsLegal_cons.1 hlegal
    have hext := LengthOp.length_extend a op
    have hrest := length_foldl_extend (op.extend a) ops
    rw [List.foldl_cons] at hm ⊢
    rw [opsBits_cons] at h ⊢
    rw [List.length_cons, Nat.succ_add, readLengths, if_neg (by omega),
      Cmd.bind_ok (lengthsPass_ok hcl hop hne (by omega) h.left), ih (hcl.advance _) hops hm h.right,
      State.advance_advance, ← List.length_append]

/-- With all lengths there ReadLengths ends. -/
theorem readLengths_done (hm : m ≤ a.length) (fuel : Nat) : readLengths lim m fuel a s = .ok a s := by
  cases fuel with
  | zero => rfl
  | succ fuel => rw [readLengths, if_pos hm]; rfl

/-- ReadLengths from no lengths on, with exactly the lengths wanted. -/
theorem readLengths_ok {ops : List LengthOp} (hcl : ReadsLengthsBy cl s) (hlegal : lengthOpsLegal cl [] ops = true)
    (hm : (ops.foldl LengthOp.extend []).length = m) (h : BitsAhead lim s (opsBits cl ops)) :
    readLengths lim m m [] s = .ok (ops.foldl LengthOp.extend []) (s.advance (opsBits cl ops).length) := by
  obtain ⟨fuel, hfuel⟩ := Nat.exists_eq_add_of_le (length_foldl_extend [] ops)
  rw [hm, List.length_nil, Nat.zero_add] at hfuel
  have hrun := readLengths_run hcl hlegal hm.le h fuel
  rw [← hfuel, readLengths_done hm.ge] at hrun
  exact hrun

/-- ReadLengths fails as the pass after the symbols does. -/
theorem readLengths_error {ops : List LengthOp} {e : ErrorKind} {u : State} (hcl : ReadsLengthsBy cl s)
    (hlegal : lengthOpsLegal cl [] ops = true) (hm : (ops.foldl LengthOp.extend []).length < m)
    (h : BitsAhead lim s (opsBits cl ops))
    (hpass : lengthsPass lim m (ops.foldl LengthOp.extend []) (s.advance (opsBits cl ops).length) = .error e u) :
    readLengths lim m m [] s = .error e u := by
  have hcount := length_foldl_extend [] ops
  obtain ⟨fuel, hfuel⟩ := Nat.exists_eq_add_of_lt (hcount.trans_lt hm)
  rw [List.length_nil, Nat.zero_add, Nat.add_assoc] at hfuel
  have hrun := readLengths_run hcl hlegal hm.le h (fuel + 1)
  rw [← hfuel, readLengths, if_neg (Nat.not_le.2 hm), Cmd.bind_error hpass] at hrun
  exact hrun

end

end Sys2Proof.Machine
end

section
/-! PROOFS. The tables of a Huffman block: built from its header, or the failure of a dynamic header (41_inflate R153,
R154, R156, R157). -/

namespace Sys2Proof.Machine

theorem State.setHlen_brPos (s : State) (t : DecodeTable) (lens : List Nat) : (s.setHlen t lens).brPos = s.brPos := by
  cases t <;> simp only [State.setHlen, State.setHlen0_brPos, State.setHlen1_brPos, State.setHlen2_brPos]

/-- The bits ahead stay where a table is stored. -/
theorem BitsAhead.setHlen {lim : Nat} {s : State} {bits : List Bool} (h : BitsAhead lim s bits) (t : DecodeTable)
    (lens : List Nat) : BitsAhead lim (s.setHlen t lens) bits :=
  h.congr (s.setHlen_brPos t lens) fun _ _ => State.readByte_congr (s.setHlen_mem t lens) _

/-- The two tables of the symbol loop, built from the lengths read, and the loop (41_inflate R156). -/
def buildCodes (lim hlit : Nat) (a : List Nat) : Cmd Unit := do
  buildTable .litlen (a.take (hlit + 257))
  buildTable .dist (a.drop (hlit + 257))
  huffmanBody lim (lim + 1)

section
variable {lim hlit hdist hclen : Nat} {cl : List Nat} {ops : List LengthOp} {s : State}

/-! ### The code-length code (41_inflate R156) -/

theorem CountsLegal.padTo (h : CountsLegal hlit hdist hclen cl) : padTo 19 cl = cl := by
  obtain ⟨-, -, -, hlen, -, -⟩ := h
  exact padTo_of_length hlen

theorem CountsLegal.code_le (h : CountsLegal hlit hdist hclen cl) : ∀ l ∈ cl, l ≤ 15 := by
  obtain ⟨-, -, -, -, hcl, -⟩ := h
  exact fun l hl => by have := hcl l hl; omega

theorem CountsLegal.hlen_clen (h : CountsLegal hlit hdist hclen cl) (s : State) :
    (s.setHlen .clen cl).hlen .clen = cl := by
  rw [State.setHlen_hlen h.code_le, DecodeTable.capacity, h.padTo]

theorem dynamicTables_of_kraft (hlegal : CountsLegal hlit hdist hclen cl) (hkraft : KraftOk cl) :
    dynamicTables lim hlit hdist cl s =
      (readLengths lim (hlit + 257 + (hdist + 1)) (hlit + 257 + (hdist + 1)) [] >>= buildCodes lim hlit)
        (s.setHlen .clen cl) :=
  Cmd.bind_ok (buildTable_ok hlegal.code_le hkraft s)

theorem CountsLegal.readsLengthsBy (hlegal : CountsLegal hlit hdist hclen cl) (hkraft : KraftOk cl) (s : State) :
    ReadsLengthsBy cl (s.setHlen .clen cl) := ⟨hlegal.hlen_clen s, hkraft⟩

/-! ### The literal/length and the distance table (41_inflate R156) -/

theorem lit_eq_padTo (hlit hdist hclen : Nat) (cl : List Nat) (ops : List LengthOp) :
    (BlockTables.dynamic hlit hdist hclen cl ops).lit =
      padTo 288 ((ops.foldl LengthOp.extend []).take (hlit + 257)) := by
  refine List.map_congr_left fun j _ => ?_
  split <;> simp [List.getD_eq_getElem?_getD, *]

theorem dist_eq_padTo (hlen : (ops.foldl LengthOp.extend []).length = hlit + 257 + (hdist + 1)) :
    (BlockTables.dynamic hlit hdist hclen cl ops).dist =
      padTo 32 ((ops.foldl LengthOp.extend []).drop (hlit + 257)) := by
  refine List.map_congr_left fun j _ => ?_
  have hdrop : ((ops.foldl LengthOp.extend []).drop (hlit + 257)).getD j 0 =
      (ops.foldl LengthOp.extend []).getD (hlit + 257 + j) 0 := by simp [List.getD_eq_getElem?_getD]
  rw [hdrop]
  split
  next => rfl
  next hj => rw [List.getD_eq_default _ _ (by omega)]

/-- The lengths are read: as many as HLIT and HDIST ask for, by legal symbols. -/
structure LengthsRead (hlit hdist : Nat) (cl : List Nat) (ops : List LengthOp) : Prop where
  legal : lengthOpsLegal cl [] ops = true
  length : (ops.foldl LengthOp.extend []).length = hlit + 257 + (hdist + 1)

theorem LengthsRead.le (h : LengthsRead hlit hdist cl ops) : ∀ l ∈ ops.foldl LengthOp.extend [], l ≤ 15 :=
  foldl_extend_le h.legal fun _ hl => absurd hl List.not_mem_nil

theorem CountsLegal.kraft_lit (hlegal : CountsLegal hlit hdist hclen cl) :
    KraftOk (BlockTables.dynamic hlit hdist hclen cl ops).lit ↔
      KraftOk ((ops.foldl LengthOp.extend []).take (hlit + 257)) := by
  obtain ⟨hhlit, -⟩ := hlegal
  rw [lit_eq_padTo, kraftOk_padTo]
  rw [List.length_take]
  omega

theorem CountsLegal.kraft_dist (hlegal : CountsLegal hlit hdist hclen cl) (hread : LengthsRead hlit hdist cl ops) :
    KraftOk (BlockTables.dynamic hlit hdist hclen cl ops).dist ↔
      KraftOk ((ops.foldl LengthOp.extend []).drop (hlit + 257)) := by
  obtain ⟨-, hhdist, -⟩ := hlegal
  rw [dist_eq_padTo hread.length, kraftOk_padTo]
  rw [List.length_drop, hread.length]
  omega

/-- The state a dynamic header leaves with the code-length code built and the lengths read. -/
def State.lengthsRead (s : State) (cl : List Nat) (n : Nat) : State := (s.setHlen .clen cl).advance n

/-- The same with the literal/length table built. -/
def State.litBuilt (s : State) (cl : List Nat) (hlit : Nat) (ops : List LengthOp) : State :=
  (s.lengthsRead cl (opsBits cl ops).length).setHlen .litlen ((ops.foldl LengthOp.extend []).take (hlit + 257))

/-- The same with the distance table built. -/
def State.distBuilt (s : State) (cl : List Nat) (hlit : Nat) (ops : List LengthOp) : State :=
  (s.litBuilt cl hlit ops).setHlen .dist ((ops.foldl LengthOp.extend []).drop (hlit + 257))

theorem dynamicTables_of_lengths (hlegal : CountsLegal hlit hdist hclen cl) (hkraft : KraftOk cl)
    (hread : LengthsRead hlit hdist cl ops) (h : BitsAhead lim s (opsBits cl ops)) :
    dynamicTables lim hlit hdist cl s =
      buildCodes lim hlit (ops.foldl LengthOp.extend []) (s.lengthsRead cl (opsBits cl ops).length) := by
  rw [dynamicTables_of_kraft hlegal hkraft]
  exact Cmd.bind_ok (readLengths_ok (hlegal.readsLengthsBy hkraft s) hread.legal hread.length (h.setHlen _ _))

theorem buildCodes_of_lit (hlegal : CountsLegal hlit hdist hclen cl) (hread : LengthsRead hlit hdist cl ops)
    (hkraftLit : KraftOk (BlockTables.dynamic hlit hdist hclen cl ops).lit) :
    buildCodes lim hlit (ops.foldl LengthOp.extend []) (s.lengthsRead cl (opsBits cl ops).length) =
      (buildTable .dist ((ops.foldl LengthOp.extend []).drop (hlit + 257)) >>= fun _ => huffmanBody lim (lim + 1))
        (s.litBuilt cl hlit ops) :=
  Cmd.bind_ok (buildTable_ok (fun l hl => hread.le l (List.mem_of_mem_take hl)) (hlegal.kraft_lit.1 hkraftLit) _)

theorem CountsLegal.lengthsRead_hlen (h : CountsLegal hlit hdist hclen cl) (s : State) (n : Nat) :
    (s.lengthsRead cl n).hlen .clen = cl := by
  rw [State.lengthsRead, State.advance_hlen, h.hlen_clen]

theorem State.lengthsRead_hlen (s : State) {t : DecodeTable} (ht : t ≠ .clen) (cl : List Nat) (n : Nat) :
    (s.lengthsRead cl n).hlen t = s.hlen t := by
  rw [State.lengthsRead, State.advance_hlen, State.setHlen_hlen_ne _ _ ht]

theorem State.litBuilt_hlen (s : State) {t : DecodeTable} (ht : t ≠ .litlen) (cl : List Nat) (hlit : Nat)
    (ops : List LengthOp) : (s.litBuilt cl hlit ops).hlen t = (s.lengthsRead cl (opsBits cl ops).length).hlen t :=
  State.setHlen_hlen_ne _ _ ht

theorem State.litBuilt_hlen_litlen (s : State) (hread : LengthsRead hlit hdist cl ops) :
    (s.litBuilt cl hlit ops).hlen .litlen = (BlockTables.dynamic hlit hdist hclen cl ops).lit := by
  rw [lit_eq_padTo]
  exact State.setHlen_hlen (fun l hl => hread.le l (List.mem_of_mem_take hl)) _

/-! ### A Huffman block up to its symbol loop (41_inflate R154, R156) -/

theorem fixed_kraft : KraftOk fixedLit ∧ KraftOk fixedDist := by unfold KraftOk; decide +kernel

theorem fixed_le : (∀ l ∈ fixedLit, l ≤ 15) ∧ ∀ l ∈ fixedDist, l ≤ 15 := by decide +kernel

theorem fixed_padTo : padTo 288 fixedLit = fixedLit ∧ padTo 32 fixedDist = fixedDist :=
  ⟨padTo_of_length (by simp only [fixedLit, List.length_append, List.length_replicate]),
    padTo_of_length (by simp only [fixedDist, List.length_replicate])⟩

theorem fixedBlock_of_tables (lim : Nat) (s : State) :
    fixedBlock lim s = huffmanBody lim (lim + 1) ((s.setHlen .litlen fixedLit).setHlen .dist fixedDist) :=
  (Cmd.bind_ok (buildTable_ok fixed_le.1 fixed_kraft.1 s)).trans
    (Cmd.bind_ok (buildTable_ok fixed_le.2 fixed_kraft.2 _))

theorem BlockTables.Legal.kraft {h : BlockTables} (hlegal : h.Legal) : KraftOk h.lit ∧ KraftOk h.dist := by
  cases h with
  | fixed => exact fixed_kraft
  | dynamic hlit hdist hclen cl ops =>
    obtain ⟨-, -, -, -, hl, hd⟩ := hlegal
    exact ⟨hl, hd⟩

theorem blockBody_one (lim : Nat) : blockBody lim 1 = fixedBlock lim := by
  rw [blockBody, if_neg (by decide), if_pos rfl]

theorem blockBody_two (lim : Nat) : blockBody lim 2 = dynamicBlock lim := by
  rw [blockBody, if_neg (by decide), if_neg (by decide), if_pos rfl]

/-- `w` is `s` past `n` bits, but for the decode tables. -/
def TablesOnly (s : State) (n : Nat) (w : State) : Prop :=
  w = { s.advance n with hlen0 := w.hlen0, hlen1 := w.hlen1, hlen2 := w.hlen2 }

theorem TablesOnly.refl (s : State) (n : Nat) : TablesOnly s n (s.advance n) := rfl

theorem TablesOnly.setHlen {n : Nat} {w : State} (h : TablesOnly s n w) (t : DecodeTable) (lens : List Nat) :
    TablesOnly s n (w.setHlen t lens) := by
  unfold TablesOnly at *
  rw [h]
  cases t <;> simp [State.setHlen, State.setHlen0, State.setHlen1, State.setHlen2]

theorem State.distBuilt_tablesOnly (s : State) (cl : List Nat) (hlit : Nat) (ops : List LengthOp) :
    TablesOnly s (opsBits cl ops).length (s.distBuilt cl hlit ops) := by
  unfold State.distBuilt State.litBuilt State.lengthsRead
  rw [State.setHlen_advance]
  exact (((TablesOnly.refl s _).setHlen _ _).setHlen _ _).setHlen _ _

/-- A Huffman block is its symbol loop, run with its tables built. -/
theorem blockBody_of_tables {h : BlockTables} (hlegal : h.Legal) (hahead : BitsAhead lim s h.headerBits) :
    ∃ w, blockBody lim h.btype.toNat s = huffmanBody lim (lim + 1) w ∧ TablesOnly s h.headerBits.length w ∧
      w.hlen .litlen = h.lit ∧ w.hlen .dist = h.dist ∧ w.hlen .clen = h.clen (s.hlen .clen) := by
  cases h with
  | fixed =>
    refine ⟨(s.setHlen .litlen fixedLit).setHlen .dist fixedDist, ?_, ?_, ?_, ?_, ?_⟩
    · rw [BlockTables.btype, show (1 : BitVec 2).toNat = 1 from rfl, blockBody_one, fixedBlock_of_tables]
    · rw [BlockTables.headerBits, List.length_nil]
      have hstart := TablesOnly.refl s 0
      rw [State.advance_zero] at hstart
      exact (hstart.setHlen _ _).setHlen _ _
    · rw [State.setHlen_hlen_ne _ _ (by decide), State.setHlen_hlen fixed_le.1]
      exact fixed_padTo.1
    · rw [State.setHlen_hlen fixed_le.2]
      exact fixed_padTo.2
    · rw [State.setHlen_hlen_ne _ _ (by decide), State.setHlen_hlen_ne _ _ (by decide)]
      rfl
  | dynamic hlit hdist hclen cl ops =>
    obtain ⟨hcounts, hkraft, hops, hlen, hkraftLit, hkraftDist⟩ := hlegal
    have hread : LengthsRead hlit hdist cl ops := ⟨hops, hlen⟩
    have hle : ∀ l ∈ (ops.foldl LengthOp.extend []).drop (hlit + 257), l ≤ 15 := fun l hl =>
      hread.le l (List.mem_of_mem_drop hl)
    refine ⟨(s.advance (countBits hlit hdist hclen cl).length).distBuilt cl hlit ops, ?_, ?_, ?_, ?_, ?_⟩
    · rw [BlockTables.btype, show (2 : BitVec 2).toNat = 2 from rfl, blockBody_two,
        dynamicBlock_of_counts hcounts hahead.left, dynamicTables_of_lengths hcounts hkraft hread hahead.right, buildCodes_of_lit hcounts hread hkraftLit]
      exact Cmd.bind_ok (buildTable_ok hle ((hcounts.kraft_dist hread).1 hkraftDist) _)
    · have htables := State.distBuilt_tablesOnly (s.advance (countBits hlit hdist hclen cl).length) cl hlit ops
      rwa [TablesOnly, State.advance_advance, ← List.length_append] at htables
    · rw [State.distBuilt, State.setHlen_hlen_ne _ _ (by decide), State.litBuilt_hlen_litlen _ hread]
    · rw [State.distBuilt, State.setHlen_hlen hle, dist_eq_padTo hlen]
      rfl
    · rw [State.distBuilt, State.setHlen_hlen_ne _ _ (by decide), State.litBuilt_hlen _ (by decide),
        hcounts.lengthsRead_hlen]
      rfl

/-! ### The failures of a dynamic header (41_inflate R156, R157) -/

/-- `u` is `s` past `n` bits, but for HLEN0 and HLEN2. -/
def HeaderTablesOnly (s : State) (n : Nat) (u : State) : Prop :=
  u = { s.advance n with hlen0 := u.hlen0, hlen2 := u.hlen2 }

theorem State.lengthsRead_headerTablesOnly (s : State) (cl : List Nat) (n : Nat) :
    HeaderTablesOnly s n (s.lengthsRead cl n) := by
  unfold HeaderTablesOnly State.lengthsRead
  rw [State.setHlen_advance]
  simp [State.setHlen, State.setHlen2]

theorem State.litBuilt_headerTablesOnly (s : State) (cl : List Nat) (hlit : Nat) (ops : List LengthOp) :
    HeaderTablesOnly s (opsBits cl ops).length (s.litBuilt cl hlit ops) := by
  unfold HeaderTablesOnly State.litBuilt State.lengthsRead
  rw [State.setHlen_advance]
  simp [State.setHlen, State.setHlen0, State.setHlen2]

/-- A dynamic header fails in ReadLengths as the pass after its legal symbols does. -/
theorem dynamicTables_error_of_pass {e : ErrorKind} {bits : List Bool} (hcounts : CountsLegal hlit hdist hclen cl)
    (hkraft : KraftOk cl) (hlegal : lengthOpsLegal cl [] ops = true)
    (hlen : (ops.foldl LengthOp.extend []).length < hlit + 257 + (hdist + 1))
    (h : BitsAhead lim s (opsBits cl ops ++ bits))
    (hpass : ∀ v, ReadsLengthsBy cl v → BitsAhead lim v bits →
      v.brPos.toNat = s.brPos.toNat + (opsBits cl ops).length →
      lengthsPass lim (hlit + 257 + (hdist + 1)) (ops.foldl LengthOp.extend []) v = .error e (v.advance bits.length)) :
    dynamicTables lim hlit hdist cl s = .error e (s.lengthsRead cl (opsBits cl ops ++ bits).length) := by
  have hready := hcounts.readsLengthsBy hkraft s
  have hahead := h.setHlen .clen cl
  have hpos := hahead.left.advance_brPos
  rw [State.setHlen_brPos] at hpos
  have hfail := hpass _ (hready.advance _) hahead.right hpos
  rw [State.advance_advance, ← List.length_append] at hfail
  rw [dynamicTables_of_kraft hcounts hkraft]
  exact Cmd.bind_error (readLengths_error hready hlegal hlen hahead.left hfail)

/-- The table a failure leaves in HLEN2. -/
def HeaderFailure.clen (cl before : List Nat) : HeaderFailure → List Nat
  | .codeLengths => before
  | _ => cl

/-- The table a failure leaves in HLEN0. -/
def HeaderFailure.litlen (lit before : List Nat) : HeaderFailure → List Nat
  | .distTable => lit
  | _ => before

/-- A failure in ReadLengths leaves HLEN2 built and the rest as it was. -/
theorem State.lengthsRead_leaves (hcounts : CountsLegal hlit hdist hclen cl) (s : State) (n : Nat) :
    HeaderTablesOnly s n (s.lengthsRead cl n) ∧ (s.lengthsRead cl n).hlen .clen = cl ∧
      (s.lengthsRead cl n).hlen .litlen = s.hlen .litlen :=
  ⟨s.lengthsRead_headerTablesOnly cl n, hcounts.lengthsRead_hlen s n, s.lengthsRead_hlen (by decide) cl n⟩

/-- A dynamic header fails as its failure says, past its bits. -/
theorem HeaderFailure.dynamicTables_error (f : HeaderFailure) (hcounts : CountsLegal hlit hdist hclen cl)
    (hocc : f.Occurs hlit hdist hclen cl ops) (h : BitsAhead lim s (opsBits cl ops ++ f.bits cl))
    (hcut : f.wants ≠ 0 → lim < s.brPos.toNat + (opsBits cl ops ++ f.bits cl).length + f.wants) :
    ∃ u, dynamicTables lim hlit hdist cl s = .error f.error u ∧
      HeaderTablesOnly s (opsBits cl ops ++ f.bits cl).length u ∧
      u.hlen .clen = f.clen cl (s.hlen .clen) ∧
      u.hlen .litlen = f.litlen (BlockTables.dynamic hlit hdist hclen cl ops).lit (s.hlen .litlen) := by
  rw [List.length_append, ← Nat.add_assoc] at hcut
  cases f with
  | codeLengths =>
    obtain ⟨rfl, hover⟩ := hocc
    exact ⟨s, Cmd.bind_error (buildTable_invalid hover s), s.advance_zero.symm, rfl, rfl⟩
  | firstRepeat =>
    obtain ⟨hkraft, rfl, hne⟩ := hocc
    have hlt : ([] : List Nat).length < hlit + 257 + (hdist + 1) := by rw [List.length_nil]; omega
    refine ⟨_, dynamicTables_error_of_pass (ops := []) hcounts hkraft rfl hlt h fun v hv hbits _ => ?_,
      s.lengthsRead_leaves hcounts _⟩
    rw [HeaderFailure.bits, ← List.append_nil (codeBits cl 16)] at hbits
    rw [lengthsPass_of_code hv (by decide) hne hbits]
    rfl
  | overrun op =>
    obtain ⟨hkraft, hlegal, hlt, hover⟩ := hocc
    obtain ⟨hops, hop⟩ := lengthOpsLegal_append.1 hlegal
    obtain ⟨hop, hne, -⟩ := lengthOpsLegal_cons.1 hop
    refine ⟨_, dynamicTables_error_of_pass hcounts hkraft hops hlt h fun v hv hbits _ => ?_,
      s.lengthsRead_leaves hcounts _⟩
    rw [HeaderFailure.bits, opsBits_cons, List.append_assoc] at hbits
    rw [lengthsPass_of_code hv (LengthOp.symbol_lt hop) hne hbits, addLengths_overrun hop hlt hover hbits.right.left]
    simp [HeaderFailure.bits, opsBits, HeaderFailure.error]
  | noCode p =>
    obtain ⟨hkraft, hops, hlt, hleaves⟩ := hocc
    refine ⟨_, dynamicTables_error_of_pass hcounts hkraft hops hlt h fun v hv hbits _ => ?_,
      s.lengthsRead_leaves hcounts _⟩
    exact Cmd.bind_error (hbits.decodeSymbol_invalid (hv.1.symm ▸ hleaves))
  | cutCode p =>
    obtain ⟨hkraft, hops, hlt, hinside⟩ := hocc
    refine ⟨_, dynamicTables_error_of_pass hcounts hkraft hops hlt h fun v hv hbits hpos => ?_,
      s.lengthsRead_leaves hcounts _⟩
    have hend := hcut Nat.one_ne_zero
    exact Cmd.bind_error (hbits.decodeSymbol_truncated (hv.1.symm ▸ hinside) (by rw [hpos]; exact hend))
  | cutExtra op =>
    obtain ⟨hkraft, hlegal, hlt, hextra⟩ := hocc
    obtain ⟨hops, hop⟩ := lengthOpsLegal_append.1 hlegal
    obtain ⟨hop, hne, -⟩ := lengthOpsLegal_cons.1 hop
    have hend := hcut (by simpa [HeaderFailure.wants] using hextra)
    refine ⟨_, dynamicTables_error_of_pass hcounts hkraft hops hlt h fun v hv hbits hpos => ?_,
      s.lengthsRead_leaves hcounts _⟩
    have hcode := hbits.advance_brPos
    rw [HeaderFailure.bits] at hcode
    rw [HeaderFailure.bits, ← List.append_nil (codeBits cl op.symbol)] at hbits
    rw [lengthsPass_of_code hv (LengthOp.symbol_lt hop) hne hbits, addLengths, if_neg ?_]
    · refine Cmd.bind_error (repeatOf_truncated hop hextra ?_)
      rw [hcode, hpos]
      exact hend
    · cases op <;> simp_all [LengthOp.extraBits, LengthOp.symbol]
  | litTable =>
    obtain ⟨hkraft, hops, hlen, hover⟩ := hocc
    rw [HeaderFailure.bits, List.append_nil] at h ⊢
    refine ⟨_, ?_, s.lengthsRead_leaves hcounts _⟩
    rw [dynamicTables_of_lengths hcounts hkraft ⟨hops, hlen⟩ h]
    exact Cmd.bind_error (buildTable_invalid (mt hcounts.kraft_lit.2 hover) _)
  | distTable =>
    obtain ⟨hkraft, hops, hlen, hkraftLit, hover⟩ := hocc
    have hread : LengthsRead hlit hdist cl ops := ⟨hops, hlen⟩
    rw [HeaderFailure.bits, List.append_nil] at h ⊢
    refine ⟨s.litBuilt cl hlit ops, ?_, s.litBuilt_headerTablesOnly cl hlit ops, ?_,
      s.litBuilt_hlen_litlen (hclen := hclen) hread⟩
    · rw [dynamicTables_of_lengths hcounts hkraft hread h, buildCodes_of_lit hcounts hread hkraftLit]
      exact Cmd.bind_error (buildTable_invalid (mt (hcounts.kraft_dist hread).2 hover) _)
    · rw [s.litBuilt_hlen (by decide), hcounts.lengthsRead_hlen]
      rfl

end

end Sys2Proof.Machine
end

section
/-! PROOFS. What OUT gains: a byte emitted, a copy from the bytes before it, the bytes of a stored block; with room, or
up to the size of OUT (41_inflate R150, R152, R160). -/

namespace Sys2Proof.Machine

/-! ### Growing the output -/

/-- `u` is `s` past `n` bits with `out` in OUT, the bytes of `s` among them; no byte outside OUT[OUT_LEN..) differs. -/
structure Grows (s : State) (n : Nat) (u : State) (out : List Byte) : Prop where
  frame : u = { s.advance n with mem := u.mem, outLen := u.outLen }
  result : u.decodeResult = out
  kept : ∀ a, a < outBase + s.outLen.toNat ∨ outBase + out.length ≤ a → u.readByte a = s.readByte a
  grown : s.outLen.toNat ≤ out.length

@[simp] theorem State.decodeResult_length (s : State) : s.decodeResult.length = s.outLen.toNat := by
  simp [State.decodeResult]

theorem State.decodeResult_getD (s : State) {i : Nat} (h : i < s.outLen.toNat) :
    s.decodeResult.getD i 0 = s.outByte i := by
  simp [State.decodeResult, List.getD_eq_getElem?_getD, h]

section
variable {s u v : State} {m n lim : Nat} {out out' : List Byte}

theorem Grows.outLen (h : Grows s n u out) : u.outLen.toNat = out.length := by
  rw [← h.result, State.decodeResult_length]

theorem Grows.brPos (h : Grows s n u out) : u.brPos = (s.advance n).brPos := by rw [h.frame]

theorem Grows.outSize (h : Grows s n u out) : u.outSize = s.outSize := by rw [h.frame]; rfl

theorem Grows.hlen (h : Grows s n u out) (t : DecodeTable) : u.hlen t = s.hlen t := by
  rw [h.frame]
  cases t <;> rfl

theorem Grows.inByte (h : Grows s n u out) {i : Nat} (hi : i < 2 ^ 24) : u.inByte i = s.inByte i :=
  h.kept _ (.inl (by unfold inBase outBase; omega))

theorem Grows.advance (s : State) (n : Nat) : Grows s n (s.advance n) s.decodeResult where
  frame := rfl
  result := rfl
  kept _ _ := rfl
  grown := s.decodeResult_length.ge

theorem Grows.refl (s : State) : Grows s 0 s s.decodeResult := by simpa using Grows.advance s 0

theorem Grows.trans (h : Grows s m u out) (h' : Grows u n v out') : Grows s (m + n) v out' where
  frame := by
    have hv := h'.frame
    rw [State.advance, h.brPos, h.frame] at hv
    rw [← State.advance_advance, State.advance]
    rw [hv]
    rfl
  result := h'.result
  kept a ha := by
    have hgrown := h'.grown
    rw [h.outLen] at hgrown
    have hle := h.grown
    rw [h'.kept a (by rw [h.outLen]; omega), h.kept a (by omega)]
  grown := by
    have hgrown := h'.grown
    rw [h.outLen] at hgrown
    exact h.grown.trans hgrown

/-- Moving the cursor first. -/
theorem Grows.after_advance (h : Grows (s.advance m) n u out) : Grows s (m + n) u out := (Grows.advance s m).trans h

/-- The bits ahead stay ahead where the output grows. -/
theorem BitsAhead.grows {bits : List Bool} (h : BitsAhead lim (s.advance n) bits) (hu : Grows s n u out) :
    BitsAhead lim u bits := h.congr hu.brPos fun _ hi => hu.inByte hi

/-! ### A byte (41_inflate R150) -/

theorem emit_ok (b : Byte) (h : s.outLen.toNat < s.outSize.toNat) :
    ∃ u, emit b s = .ok () u ∧ Grows s 0 u (s.decodeResult ++ [b]) := by
  obtain ⟨-, hrun⟩ | ⟨hfull, -⟩ := emit_cases b s
  · refine ⟨_, hrun, ?_, ?_, fun a ha => ?_, by simp⟩
    · rw [State.advance_zero]
      rfl
    · rw [State.decodeResult, s.emitted_outLen b h, List.range_succ, List.map_append, List.map_singleton,
        s.emitted_outByte_same]
      congr 1
      refine List.map_congr_left fun i hi => s.emitted_readByte_ne b ?_
      have hlt := List.mem_range.1 hi
      omega
    · refine s.emitted_readByte_ne b ?_
      rw [List.length_append, State.decodeResult_length, List.length_singleton] at ha
      omega
  · omega

theorem emit_overflow (b : Byte) (h : s.outSize.toNat ≤ s.outLen.toNat) : emit b s = .error .outputOverflow s := by
  obtain ⟨hroom, -⟩ | ⟨-, hrun⟩ := emit_cases b s
  · omega
  · exact hrun

/-! ### A copy (41_inflate R160) -/

/-- One byte of a copy from `d` bytes back. -/
def copyByte (d : Nat) (out : List Byte) : List Byte := out ++ [out.getD (out.length - d) 0]

theorem copyByte_iterate_length (d l : Nat) (out : List Byte) : ((copyByte d)^[l] out).length = out.length + l := by
  induction l generalizing out with
  | zero => rfl
  | succ l ih => rw [Function.iterate_succ_apply, ih, copyByte, List.length_append, List.length_singleton]; omega

theorem copyByte_iterate_prefix (d l : Nat) (out : List Byte) : out <+: (copyByte d)^[l] out := by
  induction l generalizing out with
  | zero => exact List.prefix_rfl
  | succ l ih => exact (List.prefix_append out _).trans (ih (copyByte d out))

/-- A copy cut short is the first bytes of the whole copy. -/
theorem copyByte_iterate_take {d k l : Nat} (h : k ≤ l) (out : List Byte) :
    ((copyByte d)^[l] out).take (out.length + k) = (copyByte d)^[k] out := by
  have hprefix := copyByte_iterate_prefix d (l - k) ((copyByte d)^[k] out)
  rw [← Function.iterate_add_apply, Nat.sub_add_cancel h] at hprefix
  rw [← copyByte_iterate_length d k out]
  exact (List.prefix_iff_eq_take.1 hprefix).symm

/-- The bytes of a copy that fit are emitted. -/
theorem copyBytes_run {d : Nat} (k l : Nat) (hd : 1 ≤ d) (hle : d ≤ s.outLen.toNat)
    (hroom : s.outLen.toNat + k ≤ s.outSize.toNat) :
    ∃ u, copyBytes d (k + l) s = copyBytes d l u ∧ Grows s 0 u ((copyByte d)^[k] s.decodeResult) := by
  induction k generalizing s with
  | zero => exact ⟨s, by rw [Nat.zero_add], Grows.refl s⟩
  | succ k ih =>
    obtain ⟨v, hemit, hv⟩ := emit_ok (s := s) (s.outByte (s.outLen.toNat - d)) (by omega)
    have hbyte : s.decodeResult ++ [s.outByte (s.outLen.toNat - d)] = copyByte d s.decodeResult := by
      rw [copyByte, State.decodeResult_length, s.decodeResult_getD (by omega)]
    have hlen := hv.outLen
    rw [List.length_append, State.decodeResult_length, List.length_singleton] at hlen
    obtain ⟨u, hrun, hu⟩ := ih (s := v) (by omega) (by rw [hv.outSize]; omega)
    refine ⟨u, ?_, ?_⟩
    · rw [Nat.succ_add, copyBytes, observe_bind_apply, Cmd.bind_ok hemit, hrun]
    · have hall := hv.trans hu
      rwa [hv.result, hbyte, ← Function.iterate_succ_apply] at hall

theorem copyMatch_of_near {l d : Nat} (hle : d ≤ s.outLen.toNat) : copyMatch l d s = copyBytes d l s := by
  rw [copyMatch, observe_bind_apply, decide_eq_false (Nat.not_lt.2 hle)]
  rfl

theorem copyMatch_ok {l d : Nat} (hd : 1 ≤ d) (hle : d ≤ s.outLen.toNat)
    (hroom : s.outLen.toNat + l ≤ s.outSize.toNat) :
    ∃ u, copyMatch l d s = .ok () u ∧ Grows s 0 u ((copyByte d)^[l] s.decodeResult) := by
  obtain ⟨u, hrun, hu⟩ := copyBytes_run l 0 hd hle hroom
  exact ⟨u, (copyMatch_of_near hle).trans hrun, hu⟩

/-- A copy without room fills OUT to its size. -/
theorem copyMatch_overflow {l d : Nat} (hd : 1 ≤ d) (hle : d ≤ s.outLen.toNat)
    (hfits : s.outLen.toNat ≤ s.outSize.toNat)
    (hfull : s.outSize.toNat < s.outLen.toNat + l) :
    ∃ u, copyMatch l d s = .error .outputOverflow u ∧
      Grows s 0 u (((copyByte d)^[l] s.decodeResult).take s.outSize.toNat) := by
  obtain ⟨k, hk⟩ := Nat.exists_eq_add_of_le hfits
  obtain ⟨rest, rfl⟩ : ∃ rest, l = k + (rest + 1) := ⟨l - k - 1, by omega⟩
  obtain ⟨u, hrun, hu⟩ := copyBytes_run (s := s) k (rest + 1) hd hle hk.ge
  have hlen := hu.outLen
  rw [copyByte_iterate_length, State.decodeResult_length] at hlen
  refine ⟨u, ?_, ?_⟩
  · rw [copyMatch_of_near hle, hrun, copyBytes, observe_bind_apply]
    exact Cmd.bind_error (emit_overflow _ (by rw [hu.outSize]; omega))
  · have htake := copyByte_iterate_take (d := d) (Nat.le_add_right k (rest + 1)) s.decodeResult
    rw [State.decodeResult_length, ← hk] at htake
    rwa [htake]

theorem copyMatch_tooFar {l d : Nat} (hfar : s.outLen.toNat < d) : copyMatch l d s = .error .distanceTooFar s := by
  rw [copyMatch, observe_bind_apply, decide_eq_true hfar]
  rfl

end

/-! ### A stored block (41_inflate R152) -/

section
variable {s : State} {lim q : Nat}

/-- The first bits of a byte, least significant first, are its value. -/
theorem State.bitsValueLsb_byte (s : State) (q : Nat) :
    bitsValueLsb (s.streamBits (8 * q) 8) = (s.inByte q).toNat := by
  refine Nat.eq_of_testBit_eq fun i => ?_
  rw [bitsValueLsb_testBit, List.getD_eq_getElem?_getD]
  by_cases hi : i < 8
  · rw [s.streamBits_getElem? _ _ i hi, Option.getD_some, State.streamBit, show (8 * q + i) / 8 = q by omega,
      show (8 * q + i) % 8 = i by omega]
    rfl
  · rw [List.getElem?_eq_none (by rw [State.streamBits_length]; omega), Option.getD_none]
    have hpow := Nat.pow_le_pow_right two_pos (Nat.le_of_not_lt hi)
    exact (Nat.testBit_lt_two_pow ((s.inByte q).isLt.trans_le hpow)).symm

theorem bitsValueLsb_append (a b : List Bool) :
    bitsValueLsb (a ++ b) = bitsValueLsb a + 2 ^ a.length * bitsValueLsb b := by
  induction a with
  | nil => simp [bitsValueLsb]
  | cons c a ih =>
    rw [List.cons_append, bitsValueLsb, bitsValueLsb, ih, List.length_cons, Nat.pow_succ]
    ring

/-- Two bytes, the first the low one. -/
theorem State.bitsValueLsb_half (s : State) (q : Nat) :
    bitsValueLsb (s.streamBits (8 * q) 16) = (s.inByte q).toNat + 256 * (s.inByte (q + 1)).toNat := by
  rw [show 16 = 8 + 8 from rfl, s.streamBits_add, bitsValueLsb_append, State.streamBits_length, s.bitsValueLsb_byte,
    show 8 * q + 8 = 8 * (q + 1) by omega, s.bitsValueLsb_byte]
  rfl

/-- The bytes of IN from `q` on. -/
def State.inBytes (s : State) (q n : Nat) : List Byte := (List.range n).map fun i => s.inByte (q + i)

theorem State.inBytes_succ (s : State) (q n : Nat) : s.inBytes q (n + 1) = s.inByte q :: s.inBytes (q + 1) n := by
  rw [State.inBytes, List.range_succ_eq_map, List.map_cons, List.map_map, State.inBytes]
  congr 1
  exact List.map_congr_left fun i _ => by simp [Nat.add_assoc, Nat.add_comm 1]

/-- The bytes of a stored block that are there and fit are appended. -/
theorem storedBytes_run (hlim : lim ≤ 2 ^ 27) (n l : Nat) (hpos : s.brPos.toNat = 8 * q) (hend : 8 * (q + n) ≤ lim)
    (hroom : s.outLen.toNat + n ≤ s.outSize.toNat) :
    ∃ u, storedBytes lim (n + l) s = storedBytes lim l u ∧ u.brPos.toNat = 8 * (q + n) ∧
      Grows s (8 * n) u (s.decodeResult ++ s.inBytes q n) := by
  induction n generalizing s q with
  | zero => exact ⟨s, by rw [Nat.zero_add], hpos, by simpa [State.inBytes] using Grows.refl s⟩
  | succ n ih =>
    have hread := readBits_ok (lim := lim) (n := 8) (s := s) (by omega) (by decide)
    rw [hpos, s.bitsValueLsb_byte, ← hpos] at hread
    obtain ⟨v, hemit, hv⟩ := emit_ok (s := s.advance 8) (s.inByte q) (by change s.outLen.toNat < s.outSize.toNat; omega)
    have hv := hv.after_advance
    have hlen := hv.outLen
    have hcursor : v.brPos.toNat = 8 * (q + 1) := by
      rw [hv.brPos, State.advance_brPos (by omega)]
      omega
    rw [List.length_append, State.advance_decodeResult, State.decodeResult_length, List.length_singleton] at hlen
    obtain ⟨u, hrun, hu, hgrows⟩ := ih (s := v) (q := q + 1) hcursor (by omega) (by rw [hv.outSize]; omega)
    refine ⟨u, ?_, by omega, ?_⟩
    · rw [Nat.succ_add, storedBytes, Cmd.bind_ok hread, BitVec.ofNat_toNat, BitVec.setWidth_eq]
      exact (Cmd.bind_ok hemit).trans hrun
    · have hall := hv.trans hgrows
      have hbytes : v.inBytes (q + 1) n = s.inBytes (q + 1) n :=
        List.map_congr_left fun i hi => hv.inByte (by have := List.mem_range.1 hi; omega)
      rw [hv.result, hbytes, List.append_assoc, List.singleton_append, State.advance_decodeResult,
        ← s.inBytes_succ] at hall
      rwa [show 8 * (n + 1) = 8 + 0 + 8 * n by omega]

end

end Sys2Proof.Machine
end

section
/-! PROOFS. The symbol loop: what each token adds to OUT, and the failure after the tokens (41_inflate R160 to R162). -/

namespace Sys2Proof.Machine

/-! ### One pass, part by part (41_inflate R162) -/

/-- What a pass does once its literal/length symbol is decoded. -/
def passSymbol (lim sym : Nat) : Cmd Bool :=
  if sym ≤ 255 then do
    emit (BitVec.ofNat 8 sym)
    pure false
  else if sym = 256 then pure true
  else if sym ≤ 285 then do
    backReference lim sym
    pure false
  else raise .invalidSymbol

theorem huffmanPass_eq (lim : Nat) : huffmanPass lim = decodeSymbol .litlen lim >>= passSymbol lim := rfl

/-- What a back-reference of length `l` does once its distance symbol is decoded. -/
def copySymbol (lim l d : Nat) : Cmd Unit := do
  raiseIf (decide (30 ≤ d)) .invalidSymbol
  let dx ← readBits lim (dextra.getD d 0)
  copyMatch l (dbase.getD d 0 + dx)

theorem backReference_eq (lim c : Nat) : backReference lim (257 + c) =
    readBits lim (lextra.getD c 0) >>= fun lx => decodeSymbol .dist lim >>= copySymbol lim (lbase.getD c 0 + lx) := by
  rw [backReference, Nat.add_sub_cancel_left]
  rfl

/-- The symbol loop is ready: its two tables are HLEN0 and HLEN1, and neither is over-subscribed. -/
structure HasTables (lit dist : List Nat) (s : State) : Prop where
  litlen : s.hlen .litlen = lit
  distance : s.hlen .dist = dist
  kraftLit : KraftOk lit
  kraftDist : KraftOk dist

section
variable {lim : Nat} {s : State} {lit dist : List Nat} {bits : List Bool}

theorem HasTables.advance (h : HasTables lit dist s) (n : Nat) : HasTables lit dist (s.advance n) :=
  ⟨h.litlen, h.distance, h.kraftLit, h.kraftDist⟩

theorem HasTables.grows {n : Nat} {u : State} {out : List Byte} (h : HasTables lit dist s) (hu : Grows s n u out) :
    HasTables lit dist u :=
  ⟨(hu.hlen _).trans h.litlen, (hu.hlen _).trans h.distance, h.kraftLit, h.kraftDist⟩

theorem huffmanPass_of_code {sym : Nat} (h : HasTables lit dist s) (hsym : sym < 288) (hne : lit.getD sym 0 ≠ 0)
    (hahead : BitsAhead lim s (codeBits lit sym ++ bits)) :
    huffmanPass lim s = passSymbol lim sym (s.advance (codeBits lit sym).length) := by
  obtain ⟨rfl, -, hkraft, -⟩ := h
  rw [huffmanPass_eq, hahead.bind_decodeSymbol hkraft hsym hne]

theorem HasTables.bind_decodeSymbol_dist {α : Type} {d : Nat} (h : HasTables lit dist s) (hd : d < 32)
    (hne : dist.getD d 0 ≠ 0) (hahead : BitsAhead lim s (codeBits dist d ++ bits)) (f : Nat → Cmd α) :
    (decodeSymbol .dist lim >>= f) s = f d (s.advance (codeBits dist d).length) := by
  obtain ⟨-, rfl, -, hkraft⟩ := h
  exact hahead.bind_decodeSymbol hkraft hd hne f

/-- A pass at a length symbol is its back-reference. -/
theorem huffmanPass_of_length {c : Nat} (h : HasTables lit dist s) (hc : c < 29) (hne : lit.getD (257 + c) 0 ≠ 0)
    (hahead : BitsAhead lim s (codeBits lit (257 + c) ++ bits)) :
    huffmanPass lim s =
      (backReference lim (257 + c) >>= fun _ => pure false) (s.advance (codeBits lit (257 + c)).length) := by
  rw [huffmanPass_of_code h (by omega) hne hahead, passSymbol, if_neg (by omega), if_neg (by omega), if_pos (by omega)]

/-- The length of a back-reference is read; its distance code is next. -/
theorem huffmanPass_of_lengthLegal {c lx : Nat} (h : HasTables lit dist s) (hlegal : lengthLegal lit c lx)
    (hahead : BitsAhead lim s (codeBits lit (257 + c) ++ lowBits lx (lextra.getD c 0) ++ bits)) :
    huffmanPass lim s = ((decodeSymbol .dist lim >>= copySymbol lim (lbase.getD c 0 + lx)) >>= fun _ => pure false)
      (s.advance (codeBits lit (257 + c) ++ lowBits lx (lextra.getD c 0)).length) := by
  obtain ⟨hc, hlx, hne⟩ := hlegal
  rw [List.append_assoc] at hahead
  rw [huffmanPass_of_length h hc hne hahead, Cmd.bind_apply, backReference_eq, hahead.right.bind_readBits hlx,
    State.advance_advance, List.length_append, lowBits_length, ← Cmd.bind_apply]

/-- The distance code is read; its extra bits and the copy are next. -/
theorem huffmanPass_of_distance {c lx d : Nat} (h : HasTables lit dist s) (hlegal : lengthLegal lit c lx) (hd : d < 32)
    (hne : dist.getD d 0 ≠ 0)
    (hahead : BitsAhead lim s
      (codeBits lit (257 + c) ++ lowBits lx (lextra.getD c 0) ++ codeBits dist d ++ bits)) :
    huffmanPass lim s = (copySymbol lim (lbase.getD c 0 + lx) d >>= fun _ => pure false)
      (s.advance (codeBits lit (257 + c) ++ lowBits lx (lextra.getD c 0) ++ codeBits dist d).length) := by
  rw [List.append_assoc (_ ++ _)] at hahead
  rw [huffmanPass_of_lengthLegal h hlegal hahead, Cmd.bind_apply,
    (h.advance _).bind_decodeSymbol_dist hd hne hahead.right, State.advance_advance, ← List.length_append,
    ← Cmd.bind_apply]

theorem copySymbol_of_legal {l d : Nat} (hd : d < 30) (s : State) : copySymbol lim l d s =
    (readBits lim (dextra.getD d 0) >>= fun dx => copyMatch l (dbase.getD d 0 + dx)) s := by
  rw [copySymbol, decide_eq_false (by omega)]
  rfl

/-- All of a back-reference is read; its copy is next. -/
theorem huffmanPass_of_copy {c lx d dx : Nat} (h : HasTables lit dist s) (hlegal : lengthLegal lit c lx) (hd : d < 30)
    (hdx : dx < 2 ^ dextra.getD d 0) (hne : dist.getD d 0 ≠ 0)
    (hahead : BitsAhead lim s ((Token.copy c lx d dx).bits lit dist)) :
    huffmanPass lim s = (copyMatch (lbase.getD c 0 + lx) (dbase.getD d 0 + dx) >>= fun _ => pure false)
      (s.advance ((Token.copy c lx d dx).bits lit dist).length) := by
  have hextra := hahead.right.readBits hdx
  rw [huffmanPass_of_distance h hlegal (by omega) hne hahead, Cmd.bind_apply, copySymbol_of_legal hd,
    Cmd.bind_ok hextra, State.advance_advance, ← Cmd.bind_apply, Token.bits, List.length_append (bs := lowBits _ _),
    lowBits_length]

/-! ### A token (41_inflate R160, R162) -/

theorem Token.extend_copy (c lx d dx : Nat) (out : List Byte) :
    (Token.copy c lx d dx).extend out = (copyByte (dbase.getD d 0 + dx))^[lbase.getD c 0 + lx] out := by
  change (List.range _).foldl (fun out _ => copyByte _ out) out = _
  rw [List.foldl_const, List.length_range]

theorem Token.length_extend (t : Token) (out : List Byte) : out.length ≤ (t.extend out).length := by
  cases t with
  | literal b => exact (List.prefix_append out [b]).length_le
  | copy c lx d dx => rw [Token.extend_copy, copyByte_iterate_length]; exact Nat.le_add_right _ _

theorem Token.legal_copy {c lx d dx : Nat} {out : List Byte} :
    (Token.copy c lx d dx).legal lit dist out = true ↔ lengthLegal lit c lx ∧ d < 30 ∧ dx < 2 ^ dextra.getD d 0 ∧
      dist.getD d 0 ≠ 0 ∧ dbase.getD d 0 + dx ≤ out.length := by
  simp [Token.legal, lengthLegal, and_assoc]

/-- A legal token begins with a code of a bit at least. -/
theorem Token.bits_pos {t : Token} {out : List Byte} (h : t.legal lit dist out = true) :
    0 < (t.bits lit dist).length := by
  cases t with
  | literal b =>
    rw [Token.bits, codeBits_length]
    exact Nat.pos_of_ne_zero (by simpa [Token.legal] using h)
  | copy c lx d dx =>
    obtain ⟨⟨-, -, hne⟩, -⟩ := Token.legal_copy.1 h
    simp only [Token.bits, List.length_append, codeBits_length]
    omega

theorem dbase_pos : ∀ d, d < 30 → 1 ≤ dbase.getD d 0 := by decide

/-- A literal's pass emits its byte. -/
theorem huffmanPass_of_literal {b : Byte} (h : HasTables lit dist s) (hne : lit.getD b.toNat 0 ≠ 0)
    (hahead : BitsAhead lim s (codeBits lit b.toNat)) :
    huffmanPass lim s = (emit b >>= fun _ => pure false) (s.advance (codeBits lit b.toNat).length) := by
  have hb := b.isLt
  rw [← List.append_nil (codeBits lit b.toNat)] at hahead
  rw [huffmanPass_of_code h (by omega) hne hahead, passSymbol, if_pos (by omega), BitVec.ofNat_toNat,
    BitVec.setWidth_eq]

/-- A legal token with room in OUT is appended. -/
theorem huffmanPass_token {t : Token} (h : HasTables lit dist s) (hlegal : t.legal lit dist s.decodeResult = true)
    (hroom : (t.extend s.decodeResult).length ≤ s.outSize.toNat) (hahead : BitsAhead lim s (t.bits lit dist)) :
    ∃ u, huffmanPass lim s = .ok false u ∧ Grows s (t.bits lit dist).length u (t.extend s.decodeResult) := by
  cases t with
  | literal b =>
    rw [Token.extend, List.length_append, State.decodeResult_length, List.length_singleton] at hroom
    obtain ⟨u, hrun, hu⟩ := emit_ok (s := s.advance (codeBits lit b.toNat).length) b hroom
    refine ⟨u, ?_, hu.after_advance⟩
    rw [huffmanPass_of_literal h (by simpa [Token.legal] using hlegal) hahead]
    exact Cmd.bind_ok hrun
  | copy c lx d dx =>
    obtain ⟨hlength, hd, hdx, hne, hnear⟩ := Token.legal_copy.1 hlegal
    rw [State.decodeResult_length] at hnear
    rw [Token.extend_copy] at hroom ⊢
    rw [copyByte_iterate_length, State.decodeResult_length] at hroom
    have hpos := dbase_pos d hd
    obtain ⟨u, hrun, hu⟩ :=
      copyMatch_ok (s := s.advance ((Token.copy c lx d dx).bits lit dist).length) (by omega) hnear hroom
    refine ⟨u, ?_, hu.after_advance⟩
    rw [huffmanPass_of_copy h hlength hd hdx hne hahead]
    exact Cmd.bind_ok hrun

/-- A legal token without room fills OUT to its size. -/
theorem huffmanPass_token_overflow {t : Token} (h : HasTables lit dist s)
    (hlegal : t.legal lit dist s.decodeResult = true) (hfits : s.outLen.toNat ≤ s.outSize.toNat)
    (hfull : s.outSize.toNat < (t.extend s.decodeResult).length) (hahead : BitsAhead lim s (t.bits lit dist)) :
    ∃ u, huffmanPass lim s = .error .outputOverflow u ∧
      Grows s (t.bits lit dist).length u ((t.extend s.decodeResult).take s.outSize.toNat) := by
  cases t with
  | literal b =>
    rw [Token.extend, List.length_append, State.decodeResult_length, List.length_singleton] at hfull
    have hsize : s.outSize.toNat = s.decodeResult.length := by rw [State.decodeResult_length]; omega
    refine ⟨s.advance (codeBits lit b.toNat).length, ?_, ?_⟩
    · rw [huffmanPass_of_literal h (by simpa [Token.legal] using hlegal) hahead]
      exact Cmd.bind_error (emit_overflow b (Nat.le_of_lt_succ hfull))
    · rw [Token.extend, hsize, List.take_left']
      · exact Grows.advance s _
      · rfl
  | copy c lx d dx =>
    obtain ⟨hlength, hd, hdx, hne, hnear⟩ := Token.legal_copy.1 hlegal
    rw [State.decodeResult_length] at hnear
    rw [Token.extend_copy] at hfull ⊢
    rw [copyByte_iterate_length, State.decodeResult_length] at hfull
    have hpos := dbase_pos d hd
    obtain ⟨u, hrun, hu⟩ :=
      copyMatch_overflow (s := s.advance ((Token.copy c lx d dx).bits lit dist).length) (by omega) hnear hfits hfull
    refine ⟨u, ?_, hu.after_advance⟩
    rw [huffmanPass_of_copy h hlength hd hdx hne hahead]
    exact Cmd.bind_error hrun

/-! ### The tokens before a failure (41_inflate R162) -/

theorem tokensLegal_cons {out : List Byte} {t : Token} {tokens : List Token} :
    tokensLegal lit dist out (t :: tokens) = true ↔
      t.legal lit dist out = true ∧ tokensLegal lit dist (t.extend out) tokens = true := by
  simp [tokensLegal]

theorem length_foldl_tokens (tokens : List Token) (out : List Byte) :
    out.length ≤ (tokens.foldl Token.extend out).length := by
  induction tokens generalizing out with
  | nil => exact le_rfl
  | cons t tokens ih => exact (t.length_extend out).trans (ih (t.extend out))

theorem length_le_length_tokenBits {out : List Byte} {tokens : List Token}
    (h : tokensLegal lit dist out tokens = true) :
    tokens.length ≤ (tokens.flatMap (Token.bits lit dist)).length := by
  induction tokens generalizing out with
  | nil => exact Nat.zero_le _
  | cons t tokens ih =>
    obtain ⟨ht, htokens⟩ := tokensLegal_cons.1 h
    have hpos := Token.bits_pos ht
    have hrest := ih htokens
    rw [List.flatMap_cons, List.length_append, List.length_cons]
    omega

/-- The symbol loop appends legal tokens one by one. -/
theorem huffmanBody_run {tokens : List Token} (h : HasTables lit dist s)
    (hlegal : tokensLegal lit dist s.decodeResult tokens = true)
    (hroom : (tokens.foldl Token.extend s.decodeResult).length ≤ s.outSize.toNat)
    (hahead : BitsAhead lim s (tokens.flatMap (Token.bits lit dist))) (fuel : Nat) :
    ∃ u, huffmanBody lim (tokens.length + fuel) s = huffmanBody lim fuel u ∧
      Grows s (tokens.flatMap (Token.bits lit dist)).length u (tokens.foldl Token.extend s.decodeResult) := by
  induction tokens generalizing s with
  | nil => exact ⟨s, by rw [List.length_nil, Nat.zero_add], Grows.refl s⟩
  | cons t tokens ih =>
    obtain ⟨ht, htokens⟩ := tokensLegal_cons.1 hlegal
    rw [List.foldl_cons] at hroom ⊢
    rw [List.flatMap_cons] at hahead ⊢
    obtain ⟨v, hpass, hv⟩ := huffmanPass_token h ht ((length_foldl_tokens tokens _).trans hroom) hahead.left
    rw [← hv.result] at htokens hroom
    obtain ⟨u, hrun, hu⟩ := ih (h.grows hv) htokens (by rwa [hv.outSize]) (hahead.right.grows hv)
    refine ⟨u, ?_, ?_⟩
    · rw [List.length_cons, Nat.succ_add, huffmanBody, Cmd.bind_ok hpass]
      exact hrun
    · have hall := hv.trans hu
      rwa [hv.result, ← List.length_append] at hall

/-! ### The failures of the symbol loop (41_inflate R162) -/

/-- The pass after the tokens fails as its failure says, past its bits. -/
theorem BodyFailure.huffmanPass_error (f : BodyFailure) (h : HasTables lit dist s)
    (hocc : f.Occurs lit dist s.decodeResult s.outSize.toNat) (hfits : s.outLen.toNat ≤ s.outSize.toNat)
    (hahead : BitsAhead lim s (f.bits lit dist))
    (hcut : f.wants ≠ 0 → lim < s.brPos.toNat + (f.bits lit dist).length + f.wants) :
    ∃ u, huffmanPass lim s = .error f.error u ∧
      Grows s (f.bits lit dist).length u (f.output s.decodeResult s.outSize.toNat) := by
  -- Most failures leave OUT as it was: only the cursor moved.
  have hcursor := Grows.advance s (f.bits lit dist).length
  cases f with
  | badLength sym =>
    obtain ⟨hsym, hne⟩ := hocc
    rw [BodyFailure.bits, ← List.append_nil (codeBits lit sym)] at hahead
    refine ⟨_, ?_, hcursor⟩
    rw [huffmanPass_of_code h (by omega) hne hahead, passSymbol, if_neg (by omega), if_neg (by omega),
      if_neg (by omega)]
    rfl
  | badDistance c lx d =>
    obtain ⟨hlength, hd, hne⟩ := hocc
    rw [BodyFailure.bits, ← List.append_nil (_ ++ codeBits dist d)] at hahead
    refine ⟨_, ?_, hcursor⟩
    rw [huffmanPass_of_distance h hlength (by omega) hne hahead, copySymbol, decide_eq_true (by omega)]
    rfl
  | tooFar c lx d dx =>
    obtain ⟨hlength, hd, hdx, hne, hfar⟩ := hocc
    rw [State.decodeResult_length] at hfar
    refine ⟨_, ?_, hcursor⟩
    rw [huffmanPass_of_copy h hlength hd hdx hne hahead]
    exact Cmd.bind_error (copyMatch_tooFar hfar)
  | noRoom t =>
    obtain ⟨hlegal, hfull⟩ := hocc
    exact huffmanPass_token_overflow h hlegal hfits hfull hahead
  | noLitCode p => exact ⟨_, Cmd.bind_error (hahead.decodeSymbol_invalid (h.litlen.symm ▸ hocc)), hcursor⟩
  | noDistCode c lx p =>
    obtain ⟨hlength, hleaves⟩ := hocc
    refine ⟨_, ?_, hcursor⟩
    have hfail := hahead.right.decodeSymbol_invalid (t := .dist) ((h.advance _).distance.symm ▸ hleaves)
    rw [State.advance_advance, ← List.length_append] at hfail
    rw [huffmanPass_of_lengthLegal h hlength hahead]
    exact Cmd.bind_error (Cmd.bind_error hfail)
  | cutLitCode p =>
    exact ⟨_, Cmd.bind_error (hahead.decodeSymbol_truncated (h.litlen.symm ▸ hocc) (hcut Nat.one_ne_zero)), hcursor⟩
  | cutLengthExtra c =>
    obtain ⟨hc, hne, hextra⟩ := hocc
    have hstop := hahead.readBits_truncated hextra (hcut hextra)
    rw [BodyFailure.bits, ← List.append_nil (codeBits lit (257 + c))] at hahead
    refine ⟨_, ?_, hcursor⟩
    rw [huffmanPass_of_length h hc hne hahead, backReference_eq]
    exact Cmd.bind_error (Cmd.bind_error hstop)
  | cutDistCode c lx p =>
    obtain ⟨hlength, hinside⟩ := hocc
    have hend := hcut Nat.one_ne_zero
    rw [BodyFailure.bits, List.length_append, ← Nat.add_assoc, ← hahead.left.advance_brPos] at hend
    refine ⟨_, ?_, hcursor⟩
    have hfail := hahead.right.decodeSymbol_truncated (t := .dist) ((h.advance _).distance.symm ▸ hinside) hend
    rw [State.advance_advance, ← List.length_append] at hfail
    rw [huffmanPass_of_lengthLegal h hlength hahead]
    exact Cmd.bind_error (Cmd.bind_error hfail)
  | cutDistExtra c lx d =>
    obtain ⟨hlength, hd, hne, hextra⟩ := hocc
    have hstop := hahead.readBits_truncated hextra (hcut hextra)
    rw [BodyFailure.bits, ← List.append_nil (_ ++ codeBits dist d)] at hahead
    refine ⟨_, ?_, hcursor⟩
    rw [huffmanPass_of_distance h hlength (by omega) hne hahead]
    exact Cmd.bind_error ((copySymbol_of_legal hd _).trans (Cmd.bind_error hstop))

/-- The symbol loop appends its tokens and then fails as its failure says. -/
theorem BodyFailure.huffmanBody_error (f : BodyFailure) {tokens : List Token} (h : HasTables lit dist s)
    (hlegal : tokensLegal lit dist s.decodeResult tokens = true)
    (hocc : f.Occurs lit dist (tokens.foldl Token.extend s.decodeResult) s.outSize.toNat)
    (hroom : (tokens.foldl Token.extend s.decodeResult).length ≤ s.outSize.toNat)
    (hahead : BitsAhead lim s (tokens.flatMap (Token.bits lit dist) ++ f.bits lit dist))
    (hcut : f.wants ≠ 0 →
      lim < s.brPos.toNat + (tokens.flatMap (Token.bits lit dist) ++ f.bits lit dist).length + f.wants) :
    ∃ u, huffmanBody lim (lim + 1) s = .error f.error u ∧
      Grows s (tokens.flatMap (Token.bits lit dist) ++ f.bits lit dist).length u
        (f.output (tokens.foldl Token.extend s.decodeResult) s.outSize.toNat) := by
  have hcount := length_le_length_tokenBits hlegal
  have hends := hahead.left.ends
  obtain ⟨fuel, hfuel⟩ := Nat.exists_eq_add_of_le (show tokens.length ≤ lim by omega)
  obtain ⟨v, hrun, hv⟩ := huffmanBody_run h hlegal hroom hahead.left (fuel + 1)
  have hpos : v.brPos.toNat = s.brPos.toNat + (tokens.flatMap (Token.bits lit dist)).length := by
    rw [hv.brPos, hahead.left.advance_brPos]
  rw [List.length_append, ← Nat.add_assoc, ← hpos] at hcut
  obtain ⟨u, hpass, hu⟩ := f.huffmanPass_error (h.grows hv) (by rwa [hv.result, hv.outSize])
    (by rwa [hv.outLen, hv.outSize]) (hahead.right.grows hv) hcut
  refine ⟨u, ?_, ?_⟩
  · rw [show lim + 1 = tokens.length + (fuel + 1) by omega, hrun]
    exact Cmd.bind_error hpass
  · have hall := hv.trans hu
    rwa [hv.result, hv.outSize, ← List.length_append] at hall

end

end Sys2Proof.Machine
end

section
/-! PROOFS. INFBLK where a block fails: in its header, in a stored block, in a dynamic header or in the symbol loop
(41_inflate R150 to R162, 60_exceptions R305). -/

namespace Sys2Proof.Machine

section
variable {s u w : State} {final : Bool} {btype : BitVec 2} {e : ErrorKind} {bits : List Bool}

/-! ### The state at the head of a block (41_inflate R151) -/

theorem State.blockStart_advance (s : State) (final : Bool) (btype : BitVec 2) (n : Nat) :
    (s.blockStart final btype).advance n = { s with
      brPos := BitVec.ofNat 32 (s.brPos.toNat + (n + 3))
      status := { s.status with last := final, btype := btype } } := by
  have hpos : ((s.advance 3).advance n).brPos = (s.advance (n + 3)).brPos := by rw [State.advance_advance, Nat.add_comm]
  simp only [State.blockStart, State.advance, State.setBrPos] at hpos ⊢
  rw [hpos]

theorem BitsAhead.blockStart {lim : Nat} (h : BitsAhead lim s (final :: lowBits btype.toNat 2 ++ bits)) :
    BitsAhead lim (s.blockStart final btype) bits := h.right.congr rfl fun _ _ => rfl

/-- INFBLK of a block whose body fails. -/
theorem exec_infblk_of_blockBody (h : BitsAhead s.bitLimit s (final :: lowBits btype.toNat 2 ++ bits))
    (hbody : BitsAhead s.bitLimit (s.blockStart final btype) bits →
      blockBody s.bitLimit btype.toNat (s.blockStart final btype) = .error e u) :
    exec .infblk s = .next (failedWith e u) :=
  exec_infblk_body_error h.left (hbody h.blockStart)

/-- A stream that stands in IN is ahead. -/
theorem bitsAhead_of_stands (hin : s.inLen.toNat ≤ 2 ^ 24) (hend : s.brPos.toNat + bits.length ≤ 8 * s.inLen.toNat)
    (h : s.streamBits s.brPos.toNat bits.length = bits) : BitsAhead s.bitLimit s bits :=
  ⟨by unfold State.bitLimit; omega, hend, h⟩

/-! ### The header itself (41_inflate R151) -/

theorem State.advance_eq (s : State) (n : Nat) : s.advance n = { s with brPos := s.brPos + BitVec.ofNat 32 n } := by
  rw [State.advance, BitVec.ofNat_add, BitVec.ofNat_toNat, BitVec.setWidth_eq]
  rfl

/-- The input ends before BFINAL, or before BTYPE. -/
theorem exec_infblk_header_truncated (hin : s.inLen.toNat ≤ 2 ^ 24) :
    (8 * s.inLen.toNat < s.brPos.toNat + 1 → exec .infblk s = .next (failedWith .truncatedInput s)) ∧
    (s.brPos.toNat + 1 ≤ 8 * s.inLen.toNat → 8 * s.inLen.toNat < s.brPos.toNat + 3 →
      exec .infblk s = .next (failedWith .truncatedInput (s.advance 1))) := by
  refine ⟨fun hcut => exec_infblk_error ?_, fun hend hcut => exec_infblk_error ?_⟩
  · exact Cmd.bind_error (readBits_truncated hcut (by decide))
  · have hahead : BitsAhead s.bitLimit s [s.streamBit s.brPos.toNat] := bitsAhead_of_stands hin hend rfl
    have hread : readBits s.bitLimit 1 s = .ok _ (s.advance 1) := readBits_ok hend (by decide)
    have hstop := hahead.readBits_truncated (n := 2) (by decide) hcut
    rw [inflateBlock, Cmd.bind_ok hread]
    exact Cmd.bind_error hstop

/-- BTYPE = 3. -/
theorem exec_infblk_invalidBlockType (hin : s.inLen.toNat ≤ 2 ^ 24) (hend : s.brPos.toNat + 3 ≤ 8 * s.inLen.toNat)
    (hfirst : s.streamBit (s.brPos.toNat + 1) = true) (hsecond : s.streamBit (s.brPos.toNat + 2) = true) :
    exec .infblk s = .next (failedWith .invalidBlockType (s.blockStart (s.streamBit s.brPos.toNat) 3)) := by
  have hahead : BitsAhead s.bitLimit s (s.streamBit s.brPos.toNat :: lowBits (3#2).toNat 2 ++ []) := by
    refine bitsAhead_of_stands hin hend ?_
    change [_, s.streamBit (s.brPos.toNat + 1), s.streamBit (s.brPos.toNat + 2)] = _
    rw [hfirst, hsecond]
    rfl
  exact exec_infblk_of_blockBody hahead fun _ => rfl

/-! ### A stored block (41_inflate R152) -/

/-- The state at the LEN of a stored block, the cursor at byte `q`. -/
def State.storedStart (s : State) (final : Bool) (q : Nat) : State :=
  (s.blockStart final 0).setBrPos (BitVec.ofNat 32 (8 * q))

variable {q len n m : Nat}

theorem State.StoredBlockAt.bitsAhead (h : s.StoredBlockAt s.brPos.toNat q len final) (hin : s.inLen.toNat ≤ 2 ^ 24)
    (hend : s.brPos.toNat + 3 ≤ 8 * s.inLen.toNat) :
    BitsAhead s.bitLimit s (final :: lowBits (0#2).toNat 2 ++ []) := by
  refine bitsAhead_of_stands hin hend ?_
  change [s.streamBit s.brPos.toNat, s.streamBit (s.brPos.toNat + 1), s.streamBit (s.brPos.toNat + 2)] = _
  rw [h.bfinal, h.btype0, h.btype1]
  rfl

theorem State.storedStart_brPos (hq : 8 * q < 2 ^ 32) : (s.storedStart final q).brPos.toNat = 8 * q := by
  rw [State.storedStart, State.setBrPos_brPos, BitVec.toNat_ofNat, Nat.mod_eq_of_lt hq]

theorem storedBlock_eq {lim : Nat} (hq : q = (s.brPos.toNat + 3 + 7) / 8) (hpos : s.brPos.toNat + 3 < 2 ^ 32) :
    storedBlock lim (s.blockStart final 0) =
      (readBits lim 16 >>= fun len => readBits lim 16 >>= fun _ => storedBytes lim len) (s.storedStart final q) := by
  have halign : alignedPos (s.blockStart final 0).brPos = BitVec.ofNat 32 (8 * q) := by
    rw [hq, Nat.mul_comm]
    change alignedPos (s.advance 3).brPos = _
    rw [alignedPos, State.advance, State.setBrPos_brPos, BitVec.toNat_ofNat, Nat.mod_eq_of_lt hpos]
  rw [storedBlock, alignToByte, update_bind_apply, halign]
  rfl

/-- LEN is read, and NLEN ignored. -/
theorem storedBlock_of_lengths (h : s.StoredBlockAt s.brPos.toNat q len final) (hin : s.inLen.toNat ≤ 2 ^ 24)
    (hlen : q + 4 ≤ s.inLen.toNat) :
    storedBlock s.bitLimit (s.blockStart final 0) =
      storedBytes s.bitLimit len ((s.storedStart final q).advance 32) := by
  have hq := h.start
  have hpos : (s.storedStart final q).brPos.toNat = 8 * q := State.storedStart_brPos (by omega)
  have hpos' : ((s.storedStart final q).advance 16).brPos.toNat = 8 * q + 16 := by
    rw [State.advance_brPos (by omega), hpos]
  have hread : readBits s.bitLimit 16 (s.storedStart final q) = .ok len ((s.storedStart final q).advance 16) := by
    rw [readBits_ok (by unfold State.bitLimit; omega) (by decide), hpos, State.bitsValueLsb_half, State.advance, hpos]
    exact congrArg (EStateM.Result.ok · _) h.length
  have hskip : readBits s.bitLimit 16 ((s.storedStart final q).advance 16) =
      .ok _ (((s.storedStart final q).advance 16).advance 16) :=
    readBits_ok (by unfold State.bitLimit; omega) (by decide)
  rw [storedBlock_eq hq (by omega), Cmd.bind_ok hread, Cmd.bind_ok hskip, State.advance_advance]

/-- What INFBLK leaves of a stored block that fails with `n` of its bytes copied and the cursor at bit `cursor`. -/
def StoredFailure (s : State) (final : Bool) (q : Nat) (e : ErrorKind) (n cursor : Nat) : Prop :=
  ∃ u : State, exec .infblk s = .next (failedWith e u) ∧
    u = { s with
      mem := u.mem
      brPos := BitVec.ofNat 32 cursor
      outLen := BitVec.ofNat 32 (s.outLen.toNat + n)
      status := { s.status with last := final, btype := 0 } } ∧
    (∀ i, i < n → u.outByte (s.outLen.toNat + i) = s.inByte (q + 4 + i)) ∧
    ∀ a, a < outBase + s.outLen.toNat ∨ outBase + s.outLen.toNat + n ≤ a → u.readByte a = s.readByte a

theorem storedFailure_of_grows {cursor : Nat} (h : s.StoredBlockAt s.brPos.toNat q len final)
    (hin : s.inLen.toNat ≤ 2 ^ 24) (hend : s.brPos.toNat + 3 ≤ 8 * s.inLen.toNat)
    (hrun : storedBlock s.bitLimit (s.blockStart final 0) = .error e u)
    (hu : Grows (s.storedStart final q) m u (s.decodeResult ++ s.inBytes (q + 4) n)) (hcursor : 8 * q + m = cursor) :
    StoredFailure s final q e n cursor := by
  have hq := h.start
  have hlength : (s.decodeResult ++ s.inBytes (q + 4) n).length = s.outLen.toNat + n := by simp [State.inBytes]
  have hout := hu.outLen
  rw [hlength] at hout
  refine ⟨u, exec_infblk_of_blockBody (h.bitsAhead hin hend) fun _ => hrun, ?_, fun i hi => ?_, fun a ha => ?_⟩
  · have hframe := hu.frame
    have houtLen : u.outLen = BitVec.ofNat 32 (s.outLen.toNat + n) := by
      rw [← hout, BitVec.ofNat_toNat, BitVec.setWidth_eq]
    rw [State.advance, State.storedStart_brPos (by omega), hcursor, houtLen] at hframe
    exact hframe
  · rw [← u.decodeResult_getD (by omega), hu.result, List.getD_eq_getElem?_getD,
      List.getElem?_append_right (by simp), State.decodeResult_length, Nat.add_sub_cancel_left]
    simp [State.inBytes, hi]
  · rw [hu.kept a (by rw [hlength, ← Nat.add_assoc]; exact ha)]
    rfl

/-- A stored block whose input ends at LEN or at NLEN. -/
theorem storedFailure_at_lengths (h : s.StoredBlockAt s.brPos.toNat q len final) (hin : s.inLen.toNat ≤ 2 ^ 24)
    (hend : s.brPos.toNat + 3 ≤ 8 * s.inLen.toNat) :
    (s.inLen.toNat < q + 2 → StoredFailure s final q .truncatedInput 0 (8 * q)) ∧
    (q + 2 ≤ s.inLen.toNat → s.inLen.toNat < q + 4 → StoredFailure s final q .truncatedInput 0 (8 * (q + 2))) := by
  have hq := h.start
  have hpos : (s.storedStart final q).brPos.toNat = 8 * q := State.storedStart_brPos (by omega)
  have hpos' : ((s.storedStart final q).advance 16).brPos.toNat = 8 * q + 16 := by
    rw [State.advance_brPos (by omega), hpos]
  have hnone : ∀ m, Grows (s.storedStart final q) m ((s.storedStart final q).advance m)
      (s.decodeResult ++ s.inBytes (q + 4) 0) := fun m => by
    rw [State.inBytes, List.range_zero, List.map_nil, List.append_nil]
    exact Grows.advance (s.storedStart final q) m
  refine ⟨fun hcut => ?_, fun hlen hcut => ?_⟩
  · have hstop : readBits s.bitLimit 16 (s.storedStart final q) = .error .truncatedInput (s.storedStart final q) :=
      readBits_truncated (by rw [hpos, State.bitLimit]; omega) (by decide)
    refine storedFailure_of_grows h hin hend ?_ (by simpa using hnone 0) rfl
    rw [storedBlock_eq hq (by omega)]
    exact Cmd.bind_error hstop
  · have hread : readBits s.bitLimit 16 (s.storedStart final q) = .ok _ ((s.storedStart final q).advance 16) :=
      readBits_ok (by rw [hpos, State.bitLimit]; omega) (by decide)
    have hstop : readBits s.bitLimit 16 ((s.storedStart final q).advance 16) =
        .error .truncatedInput ((s.storedStart final q).advance 16) :=
      readBits_truncated (by rw [hpos', State.bitLimit]; omega) (by decide)
    refine storedFailure_of_grows h hin hend ?_ (hnone 16) (by omega)
    rw [storedBlock_eq hq (by omega), Cmd.bind_ok hread]
    exact Cmd.bind_error hstop

/-- The first bytes of a stored block are copied; the rest is left to do. -/
theorem storedBlock_run {l : Nat} (h : s.StoredBlockAt s.brPos.toNat q (n + l) final) (hin : s.inLen.toNat ≤ 2 ^ 24)
    (hbytes : q + 4 + n ≤ s.inLen.toNat) (hroom : s.outLen.toNat + n ≤ s.outSize.toNat) :
    ∃ u, storedBlock s.bitLimit (s.blockStart final 0) = storedBytes s.bitLimit l u ∧
      u.brPos.toNat = 8 * (q + 4 + n) ∧
      Grows (s.storedStart final q) (32 + 8 * n) u (s.decodeResult ++ s.inBytes (q + 4) n) := by
  have hpos : ((s.storedStart final q).advance 32).brPos.toNat = 8 * (q + 4) := by
    have hstart := State.storedStart_brPos (s := s) (final := final) (show 8 * q < 2 ^ 32 by omega)
    rw [State.advance_brPos (by omega)]
    omega
  obtain ⟨u, hrun, hu, hgrows⟩ := storedBytes_run (s := (s.storedStart final q).advance 32) (lim := s.bitLimit)
    (by unfold State.bitLimit; omega) n l hpos (by unfold State.bitLimit; omega) hroom
  exact ⟨u, (storedBlock_of_lengths h hin (by omega)).trans hrun, hu, hgrows.after_advance⟩

/-- A stored block whose input ends among its data. -/
theorem storedFailure_at_data (h : s.StoredBlockAt s.brPos.toNat q len final) (hin : s.inLen.toNat ≤ 2 ^ 24)
    (hend : s.brPos.toNat + 3 ≤ 8 * s.inLen.toNat) (hbytes : q + 4 + n = s.inLen.toNat) (hlen : n < len)
    (hroom : s.outLen.toNat + n ≤ s.outSize.toNat) :
    StoredFailure s final q .truncatedInput n (8 * s.inLen.toNat) := by
  obtain ⟨l, rfl⟩ : ∃ l, len = n + (l + 1) := ⟨len - n - 1, by omega⟩
  obtain ⟨u, hrun, hpos, hu⟩ := storedBlock_run h hin hbytes.le hroom
  refine storedFailure_of_grows h hin hend (hrun.trans ?_) hu (by omega)
  exact Cmd.bind_error (readBits_truncated (by rw [hpos, State.bitLimit]; omega) (by decide))

/-- A stored block whose data do not fit OUT: the first byte without room is read. -/
theorem storedFailure_without_room (h : s.StoredBlockAt s.brPos.toNat q len final) (hin : s.inLen.toNat ≤ 2 ^ 24)
    (hend : s.brPos.toNat + 3 ≤ 8 * s.inLen.toNat) (hbytes : q + 4 + n < s.inLen.toNat) (hlen : n < len)
    (hroom : s.outLen.toNat + n = s.outSize.toNat) :
    StoredFailure s final q .outputOverflow n (8 * (q + 4 + n + 1)) := by
  obtain ⟨l, rfl⟩ : ∃ l, len = n + (l + 1) := ⟨len - n - 1, by omega⟩
  obtain ⟨u, hrun, hpos, hu⟩ := storedBlock_run h hin hbytes.le hroom.le
  have hread : readBits s.bitLimit 8 u = .ok _ (u.advance 8) :=
    readBits_ok (by rw [hpos, State.bitLimit]; omega) (by decide)
  have hout := hu.outLen
  have hfull : (u.advance 8).outSize.toNat ≤ (u.advance 8).outLen.toNat := by
    change u.outSize.toNat ≤ u.outLen.toNat
    rw [hu.outSize, hout]
    simp only [List.length_append, State.decodeResult_length, State.inBytes, List.length_map, List.length_range]
    exact hroom.ge
  have hlast := hu.trans (Grows.advance u 8)
  rw [hu.result] at hlast
  refine storedFailure_of_grows h hin hend (hrun.trans ?_) hlast (by omega)
  rw [storedBytes, Cmd.bind_ok hread]
  exact Cmd.bind_error (emit_overflow _ hfull)

/-! ### The symbol loop (41_inflate R162) -/

theorem TablesOnly.mem (h : TablesOnly s n w) : w.mem = s.mem := by rw [h]; rfl

theorem TablesOnly.brPos (h : TablesOnly s n w) : w.brPos = (s.advance n).brPos := by rw [h]

theorem TablesOnly.outLen (h : TablesOnly s n w) : w.outLen = s.outLen := by rw [h]; rfl

theorem TablesOnly.outSize (h : TablesOnly s n w) : w.outSize = s.outSize := by rw [h]; rfl

theorem TablesOnly.decodeResult (h : TablesOnly s n w) : w.decodeResult = s.decodeResult := by rw [h]; rfl

theorem BitsAhead.tablesOnly {lim : Nat} (h : BitsAhead lim (s.advance n) bits) (hw : TablesOnly s n w) :
    BitsAhead lim w bits := h.congr hw.brPos fun _ _ => State.readByte_congr hw.mem _

/-- A block that builds its tables and then writes OUT. -/
theorem TablesOnly.frame_of_grows {out : List Byte} (hw : TablesOnly s n w) (hu : Grows w m u out) :
    u = { s.advance (n + m) with
      mem := u.mem, hlen0 := u.hlen0, hlen1 := u.hlen1, hlen2 := u.hlen2, outLen := u.outLen } := by
  have hframe := hu.frame
  have hadvance : w.advance m = { s.advance (n + m) with hlen0 := w.hlen0, hlen1 := w.hlen1, hlen2 := w.hlen2 } := by
    rw [← State.advance_advance, State.advance, hw.brPos]
    conv_lhs => rw [hw]
    rfl
  rw [hadvance] at hframe
  rw [hframe]

/-- The state a block's tables and its symbol loop leave, `n` and `m` bits after the block's head. -/
theorem TablesOnly.blockStart_frame {out : List Byte} (hw : TablesOnly (s.blockStart final btype) n w)
    (hu : Grows w m u out) :
    u = { s with
      mem := u.mem
      hlen0 := u.hlen0
      hlen1 := u.hlen1
      hlen2 := u.hlen2
      brPos := BitVec.ofNat 32 (s.brPos.toNat + (n + m + 3))
      outLen := BitVec.ofNat 32 out.length
      status := { s.status with last := final, btype := btype } } := by
  have hframe := hw.frame_of_grows hu
  have houtLen : u.outLen = BitVec.ofNat 32 out.length := by rw [← hu.outLen, BitVec.ofNat_toNat, BitVec.setWidth_eq]
  rw [State.blockStart_advance, houtLen] at hframe
  exact hframe

theorem HeaderTablesOnly.blockStart_frame (hu : HeaderTablesOnly ((s.blockStart final btype).advance n) m u) :
    u = { s with
      hlen0 := u.hlen0
      hlen2 := u.hlen2
      brPos := BitVec.ofNat 32 (s.brPos.toNat + (n + m + 3))
      status := { s.status with last := final, btype := btype } } := by
  rw [HeaderTablesOnly, State.advance_advance, State.blockStart_advance] at hu
  exact hu

/-! ### The failures, from the head of the block -/

theorem BitsAhead.blockStart_brPos {lim : Nat} (h : BitsAhead lim s (final :: lowBits btype.toNat 2 ++ bits)) :
    (s.blockStart final btype).brPos.toNat = s.brPos.toNat + 3 := h.left.advance_brPos

variable {hlit hdist hclen : Nat} {cl : List Nat}

/-- A dynamic block whose input ends inside its counts. -/
theorem exec_infblk_counts_truncated {field : Nat} (hlegal : CountsLegal hlit hdist hclen cl)
    (hfield : field < 3 + (hclen + 4))
    (h : BitsAhead s.bitLimit s (final :: lowBits (2#2).toNat 2 ++ countPrefix hlit hdist hclen cl field))
    (hcut : s.bitLimit < s.brPos.toNat + ((countPrefix hlit hdist hclen cl field).length + 3) + countWidth field) :
    exec .infblk s = .next (failedWith .truncatedInput
      ((s.blockStart final 2).advance (countPrefix hlit hdist hclen cl field).length)) := by
  refine exec_infblk_of_blockBody h fun hbits => ?_
  have hpos := h.blockStart_brPos
  rw [show (2#2).toNat = 2 from rfl, blockBody_two, dynamicBlock_truncated hlegal hfield hbits (by omega)]
  rfl

/-- A dynamic block whose header fails. -/
theorem HeaderFailure.exec_infblk (f : HeaderFailure) {ops : List LengthOp} (hcounts : CountsLegal hlit hdist hclen cl)
    (hocc : f.Occurs hlit hdist hclen cl ops)
    (h : BitsAhead s.bitLimit s
      (final :: lowBits (2#2).toNat 2 ++ (countBits hlit hdist hclen cl ++ (opsBits cl ops ++ f.bits cl))))
    (hcut : f.wants ≠ 0 → s.bitLimit < s.brPos.toNat +
      ((countBits hlit hdist hclen cl).length + (opsBits cl ops ++ f.bits cl).length + 3) + f.wants) :
    ∃ u, exec .infblk s = .next (failedWith f.error u) ∧
      HeaderTablesOnly ((s.blockStart final 2).advance (countBits hlit hdist hclen cl).length)
        (opsBits cl ops ++ f.bits cl).length u ∧
      u.hlen .clen = f.clen cl (s.hlen .clen) ∧
      u.hlen .litlen = f.litlen (BlockTables.dynamic hlit hdist hclen cl ops).lit (s.hlen .litlen) := by
  have hpos := h.blockStart.left.advance_brPos
  rw [h.blockStart_brPos] at hpos
  obtain ⟨u, hrun, hu⟩ := f.dynamicTables_error hcounts hocc h.blockStart.right fun hwants => by
    have hend := hcut hwants
    rw [hpos]
    omega
  refine ⟨u, exec_infblk_of_blockBody h fun hbits => ?_, hu⟩
  rw [show (2#2).toNat = 2 from rfl, blockBody_two, dynamicBlock_of_counts hcounts hbits.left, hrun]

/-- A Huffman block whose symbol loop fails. -/
theorem BodyFailure.exec_infblk (f : BodyFailure) {h : BlockTables} {tokens : List Token} (hlegal : h.Legal)
    (htokens : tokensLegal h.lit h.dist s.decodeResult tokens = true)
    (hocc : f.Occurs h.lit h.dist (tokens.foldl Token.extend s.decodeResult) s.outSize.toNat)
    (hroom : (tokens.foldl Token.extend s.decodeResult).length ≤ s.outSize.toNat)
    (hahead : BitsAhead s.bitLimit s (final :: lowBits h.btype.toNat 2 ++
      (h.headerBits ++ (tokens.flatMap (Token.bits h.lit h.dist) ++ f.bits h.lit h.dist))))
    (hcut : f.wants ≠ 0 → s.bitLimit < s.brPos.toNat + (h.headerBits.length +
      (tokens.flatMap (Token.bits h.lit h.dist) ++ f.bits h.lit h.dist).length + 3) + f.wants) :
    ∃ w u, exec .infblk s = .next (failedWith f.error u) ∧
      TablesOnly (s.blockStart final h.btype) h.headerBits.length w ∧
      (w.hlen .litlen = h.lit ∧ w.hlen .dist = h.dist ∧ w.hlen .clen = h.clen (s.hlen .clen)) ∧
      Grows w (tokens.flatMap (Token.bits h.lit h.dist) ++ f.bits h.lit h.dist).length u
        (f.output (tokens.foldl Token.extend s.decodeResult) s.outSize.toNat) := by
  obtain ⟨hkraftLit, hkraftDist⟩ := hlegal.kraft
  obtain ⟨w, hbody, hw, hlit, hdist, hclen⟩ := blockBody_of_tables hlegal hahead.blockStart.left
  have hpos : w.brPos.toNat = s.brPos.toNat + 3 + h.headerBits.length := by
    rw [hw.brPos, hahead.blockStart.left.advance_brPos, hahead.blockStart_brPos]
  have hresult : w.decodeResult = s.decodeResult := hw.decodeResult
  have hsize : w.outSize = s.outSize := hw.outSize
  obtain ⟨u, hrun, hu⟩ := f.huffmanBody_error ⟨hlit, hdist, hkraftLit, hkraftDist⟩ (by rwa [hresult])
    (by rwa [hresult, hsize]) (by rwa [hresult, hsize]) (hahead.blockStart.right.tablesOnly hw) fun hwants => by
      have hend := hcut hwants
      rw [hpos]
      omega
  rw [hresult, hsize] at hu
  exact ⟨w, u, exec_infblk_of_blockBody hahead fun _ => hbody.trans hrun, hw, ⟨hlit, hdist, hclen⟩, hu⟩

end

/-- Settles O25: each failure is found where the block's bits end, part by part. -/
theorem infblkHeaderErrors : Obligations.InfblkHeaderErrors := by
  unfold Obligations.InfblkHeaderErrors
  refine ⟨fun s hin => ⟨?_, ?_, fun hend hfirst hsecond => ?_⟩, fun s q len final h hin hend hfits => ?_,
    fun s final hlit hdist hclen cl field => ?_, fun s final hlit hdist hclen cl ops f => ?_,
    fun s final h tokens f => ?_⟩
  · exact (exec_infblk_header_truncated hin).1
  · intro hend hcut
    rw [(exec_infblk_header_truncated hin).2 hend hcut, State.advance_eq]
    rfl
  · rw [exec_infblk_invalidBlockType hin hend hfirst hsecond, State.blockStart, State.advance_eq]
    rfl
  · obtain ⟨hlen, hnlen⟩ := storedFailure_at_lengths h hin hend
    refine ⟨hlen, hnlen, fun hdata hcut hroom => ?_, fun hdata hfull hcut => ?_⟩
    · exact storedFailure_at_data h hin hend (by omega) hcut (by omega)
    · exact storedFailure_without_room h hin hend (by omega) hfull (by omega)
  · intro stream width hlegal hfield hin hend hcut hstands
    have hahead : BitsAhead s.bitLimit s
        (final :: lowBits (2#2).toNat 2 ++ countPrefix hlit hdist hclen cl field) :=
      bitsAhead_of_stands hin hend hstands
    rw [exec_infblk_counts_truncated hlegal hfield hahead hcut, State.blockStart_advance]
    rfl
  · intro h stream hcounts hocc hin hend hcut hstands
    have hstream : stream = final :: lowBits (2#2).toNat 2 ++
        (countBits hlit hdist hclen cl ++ (opsBits cl ops ++ f.bits cl)) := by
      simp only [stream, List.cons_append, List.append_assoc]
      rfl
    have hlength : stream.length =
        (countBits hlit hdist hclen cl).length + (opsBits cl ops ++ f.bits cl).length + 3 := by
      rw [hstream, ← List.length_append]
      rfl
    rw [hlength] at hcut ⊢
    rw [hstream] at hend hstands
    obtain ⟨u, hrun, hu, hclen, hlitlen⟩ := f.exec_infblk hcounts hocc (bitsAhead_of_stands hin hend hstands) hcut
    refine ⟨u, hrun, hu.blockStart_frame, hclen.trans ?_, hlitlen.trans ?_⟩ <;> cases f <;> rfl
  · intro stream before out hlegal htokens hocc hin hroom hend hcut hstands
    have hstream : stream = final :: lowBits h.btype.toNat 2 ++
        (h.headerBits ++ (tokens.flatMap (Token.bits h.lit h.dist) ++ f.bits h.lit h.dist)) := by
      simp only [stream, huffmanTokens, List.append_assoc]
    have hlength : stream.length = h.headerBits.length +
        (tokens.flatMap (Token.bits h.lit h.dist) ++ f.bits h.lit h.dist).length + 3 := by
      rw [hstream, ← List.length_append]
      simp only [List.length_append, List.length_cons, lowBits_length]
      omega
    rw [hlength] at hcut ⊢
    rw [hstream] at hend hstands
    obtain ⟨w, u, hrun, hw, ⟨hlit, hdist, hclen⟩, hu⟩ :=
      f.exec_infblk hlegal htokens hocc hroom (bitsAhead_of_stands hin hend hstands) hcut
    refine ⟨u, hrun, hw.blockStart_frame hu, (hu.hlen _).trans hlit, (hu.hlen _).trans hdist, (hu.hlen _).trans hclen,
      hu.result, fun a ha => ?_⟩
    have hkept := hu.kept a
    rw [hw.outLen, State.readByte_congr hw.mem] at hkept
    exact hkept ha

end Sys2Proof.Machine
end

section
/-! PROOFS. The constant tables of the inflater (41_inflate R153, R161), and the bytes of a copy in closed form
(R160). -/

namespace Sys2Proof.Machine

/-! ### The fixed codes (41_inflate R153) -/

/-- The codes of the fixed literal/length table: four runs of consecutive codes. -/
theorem canonicalCodes_fixedLit : canonicalCodes fixedLit =
    List.range' 0b00110000 144 ++ List.range' 0b110010000 112 ++ List.range' 0b0000000 24 ++
      List.range' 0b11000000 8 := by decide +kernel

theorem fixed_kraftSum : kraftSum fixedLit = 2 ^ 15 ∧ kraftSum fixedDist = 2 ^ 15 := by decide +kernel

theorem fixedLit_length : fixedLit.length = 288 := by
  simp only [fixedLit, List.length_append, List.length_replicate]

theorem fixedDist_length : fixedDist.length = 32 := List.length_replicate

/-- Settles O22: the code lengths are four runs of one length each, and so are their codes. -/
theorem fixedTablesComplete : Obligations.FixedTablesComplete := by
  unfold Obligations.FixedTablesComplete
  obtain ⟨hlit, hdist⟩ := fixed_kraftSum
  refine ⟨fixedLit_length, fixedDist_length, by decide +kernel, by decide +kernel, hlit, hdist, ?_⟩
  rw [canonicalCodes_fixedLit]
  decide +kernel

/-! ### Lengths and distances (41_inflate R161) -/

/-- The range of a length symbol lies in 3..258. -/
theorem length_range_bounds : ∀ c, c < 29 → 3 ≤ lbase.getD c 0 ∧ lbase.getD c 0 + 2 ^ lextra.getD c 0 ≤ 259 := by decide

/-- The range of a distance symbol lies in 1..32768. -/
theorem distance_range_bounds :
    ∀ d, d < 30 → 1 ≤ dbase.getD d 0 ∧ dbase.getD d 0 + 2 ^ dextra.getD d 0 ≤ 32769 := by decide

/-- Settles O23: each range is bounded by its base and its width. -/
theorem lengthAndDistanceRanges : Obligations.LengthAndDistanceRanges := by
  unfold Obligations.LengthAndDistanceRanges
  refine ⟨rfl, rfl, rfl, rfl, rfl, rfl, by decide, by decide, fun c x hc hx => ?_, fun d x hd hx => ?_, by decide,
    by decide, rfl, rfl⟩
  · have := length_range_bounds c hc
    omega
  · have := distance_range_bounds d hd
    omega

/-! ### The bytes of a copy (41_inflate R160) -/

/-- Byte `i` of a copy is the byte `d` before it, with the bytes of the copy before it written. -/
theorem copyByte_iterate_getD {d i l : Nat} (hi : i < l) (out : List Byte) :
    ((copyByte d)^[l] out).getD (out.length + i) 0 = ((copyByte d)^[i] out).getD (out.length + i - d) 0 := by
  have hlen := copyByte_iterate_length d i out
  have htake := copyByte_iterate_take (d := d) (show i + 1 ≤ l from hi) out
  calc ((copyByte d)^[l] out).getD (out.length + i) 0
      = (((copyByte d)^[l] out).take (out.length + (i + 1))).getD (out.length + i) 0 := by
        rw [List.getD_eq_getElem?_getD, List.getD_eq_getElem?_getD, List.getElem?_take_of_lt (by omega)]
    _ = (copyByte d ((copyByte d)^[i] out)).getD (out.length + i) 0 := by
        rw [htake, Function.iterate_succ_apply']
    _ = ((copyByte d)^[i] out).getD (out.length + i - d) 0 := by
        rw [copyByte, ← hlen, List.getD_append_right _ _ _ _ le_rfl, Nat.sub_self, List.getD_cons_zero]

/-- The bytes before a copy stay. -/
theorem copyByte_iterate_getD_before {d i l : Nat} {out : List Byte} (hi : i < out.length) :
    ((copyByte d)^[l] out).getD i 0 = out.getD i 0 := by
  obtain ⟨rest, hrest⟩ := copyByte_iterate_prefix d l out
  rw [← hrest, List.getD_append _ _ _ _ hi]

/-- Byte `i` of a copy is byte `i mod d` of the history. -/
theorem copyByte_iterate_getD_mod {d : Nat} {out : List Byte} (hd : 1 ≤ d) (hle : d ≤ out.length) (i l : Nat)
    (hi : i < l) : ((copyByte d)^[l] out).getD (out.length + i) 0 = out.getD (out.length - d + i % d) 0 := by
  induction i using Nat.strong_induction_on generalizing l with
  | _ i ih =>
    rw [copyByte_iterate_getD hi]
    by_cases hnear : i < d
    · rw [Nat.mod_eq_of_lt hnear, show out.length + i - d = out.length - d + i by omega,
        copyByte_iterate_getD_before (by omega)]
    · rw [show out.length + i - d = out.length + (i - d) by omega, ih (i - d) (by omega) i (by omega),
        ← Nat.mod_eq_sub_mod (by omega)]

theorem Grows.outLen_eq {s u : State} {n : Nat} {out : List Byte} (h : Grows s n u out) :
    u.outLen = BitVec.ofNat 32 out.length := by
  rw [← h.outLen, BitVec.ofNat_toNat, BitVec.setWidth_eq]

/-- What a copy of `k` bytes leaves: only OUT grew, by bytes of the history in turn. -/
theorem Grows.copied {s u : State} {d k : Nat} (h : Grows s 0 u ((copyByte d)^[k] s.decodeResult)) (hd : 1 ≤ d)
    (hle : d ≤ s.outLen.toNat) :
    u = { s with mem := u.mem, outLen := BitVec.ofNat 32 (s.outLen.toNat + k) } ∧
      (∀ i, i < k → u.outByte (s.outLen.toNat + i) = s.outByte (s.outLen.toNat - d + i % d)) ∧
      ∀ a, a < outBase + s.outLen.toNat ∨ outBase + s.outLen.toNat + k ≤ a → u.readByte a = s.readByte a := by
  have hlen := h.outLen
  rw [copyByte_iterate_length, State.decodeResult_length] at hlen
  refine ⟨?_, fun i hi => ?_, fun a ha => h.kept a ?_⟩
  · have hframe := h.frame
    rwa [State.advance_zero, h.outLen_eq, copyByte_iterate_length, State.decodeResult_length] at hframe
  · have hmod := copyByte_iterate_getD_mod (out := s.decodeResult) hd (by rwa [State.decodeResult_length]) i k hi
    have hlt := Nat.mod_lt i hd
    rwa [State.decodeResult_length, ← h.result, u.decodeResult_getD (by omega), s.decodeResult_getD (by omega)] at hmod
  · rwa [copyByte_iterate_length, State.decodeResult_length, ← Nat.add_assoc]

/-- Settles O21: a copy's bytes repeat the history, as many of them as fit. -/
theorem copyRepeatsHistory : Obligations.CopyRepeatsHistory := by
  unfold Obligations.CopyRepeatsHistory
  intro l d s hd hfits
  refine ⟨copyMatch_tooFar, fun hle hroom => ?_, fun hle hfull => ?_⟩
  · obtain ⟨u, hrun, hu⟩ := copyMatch_ok hd hle hroom
    exact ⟨u, hrun, hu.copied hd hle⟩
  · obtain ⟨u, hrun, hu⟩ := copyMatch_overflow hd hle hfits hfull
    obtain ⟨k, hk⟩ := Nat.exists_eq_add_of_le hfits
    have htake := copyByte_iterate_take (d := d) (show k ≤ l by omega) s.decodeResult
    rw [State.decodeResult_length, ← hk] at htake
    rw [htake] at hu
    have hcopied := hu.copied hd hle
    rw [← hk, BitVec.ofNat_toNat, BitVec.setWidth_eq, Nat.add_assoc, ← hk] at hcopied
    refine ⟨u, hrun, ?_⟩
    rwa [hk, Nat.add_sub_cancel_left, ← hk]

end Sys2Proof.Machine
end

section
/-! PROOFS. What every part of the inflater has in common: it moves the cursor forward only and never past the limit, so
its loops end by themselves (41_inflate R164). -/

namespace Sys2Proof.Machine

/-! ### The parts of the inflater -/

/-- A property of command parts that the smallest parts of the inflater have and that passes through a sequence. -/
structure InflaterProperty (lim : Nat) (P : (α : Type) → Cmd α → Prop) : Prop where
  pure : ∀ {α : Type} (a : α), P α (Pure.pure a)
  raise : ∀ {α : Type} e, P α (raise e)
  bind : ∀ {α β : Type} {x : Cmd α} {f : α → Cmd β}, P α x → (∀ a, P β (f a)) → P β (x >>= f)
  readBits : ∀ n, P Nat (readBits lim n)
  lengths : ∀ t, P (List Nat) (observe fun s => s.hlen t)
  history : ∀ d, P Byte (observe fun s => s.outByte (s.outLen.toNat - d))
  tooFar : ∀ d, P Bool (observe fun s => decide (s.outLen.toNat < d))
  emit : ∀ b, P Unit (emit b)
  buildTable : ∀ t lens, P Unit (buildTable t lens)

namespace InflaterProperty

variable {lim : Nat} {P : (α : Type) → Cmd α → Prop}

theorem raiseIf (h : InflaterProperty lim P) (c : Bool) (e : ErrorKind) : P Unit (raiseIf c e) := by
  cases c
  · exact h.pure ()
  · exact h.raise e

theorem decodeLoop (h : InflaterProperty lim P) (tab : List (Nat × Nat)) (fuel k p : Nat) :
    P Nat (decodeLoop tab lim fuel k p) := by
  induction fuel generalizing k p with
  | zero => exact h.raise _
  | succ fuel ih =>
    rw [Machine.decodeLoop]
    cases symbolAt? tab k p with
    | some s => exact h.pure s
    | none =>
      dsimp only
      split
      · exact h.bind (h.readBits 1) fun b => ih _ _
      · exact h.raise _

theorem decodeSymbol (h : InflaterProperty lim P) (t : DecodeTable) : P Nat (decodeSymbol t lim) :=
  h.bind (h.lengths t) fun _ => h.decodeLoop _ _ _ _

theorem copyBytes (h : InflaterProperty lim P) (d l : Nat) : P Unit (copyBytes d l) := by
  induction l with
  | zero => exact h.pure ()
  | succ l ih => exact h.bind (h.history d) fun b => h.bind (h.emit b) fun _ => ih

theorem copyMatch (h : InflaterProperty lim P) (l d : Nat) : P Unit (copyMatch l d) :=
  h.bind (h.tooFar d) fun _ => h.bind (h.raiseIf _ _) fun _ => h.copyBytes d l

theorem storedBytes (h : InflaterProperty lim P) (l : Nat) : P Unit (storedBytes lim l) := by
  induction l with
  | zero => exact h.pure ()
  | succ l ih => exact h.bind (h.readBits 8) fun _ => h.bind (h.emit _) fun _ => ih

theorem backReference (h : InflaterProperty lim P) (sym : Nat) : P Unit (backReference lim sym) :=
  h.bind (h.readBits _) fun _ => h.bind (h.decodeSymbol .dist) fun _ => h.bind (h.raiseIf _ _) fun _ =>
    h.bind (h.readBits _) fun _ => h.copyMatch _ _

theorem passSymbol (h : InflaterProperty lim P) (sym : Nat) : P Bool (passSymbol lim sym) := by
  unfold Machine.passSymbol
  split_ifs
  · exact h.bind (h.emit _) fun _ => h.pure false
  · exact h.pure true
  · exact h.bind (h.backReference sym) fun _ => h.pure false
  · exact h.raise _

theorem huffmanPass (h : InflaterProperty lim P) : P Bool (huffmanPass lim) :=
  h.bind (h.decodeSymbol .litlen) h.passSymbol

theorem huffmanBody (h : InflaterProperty lim P) (fuel : Nat) : P Unit (huffmanBody lim fuel) := by
  induction fuel with
  | zero => exact h.raise _
  | succ fuel ih =>
    refine h.bind h.huffmanPass fun atEnd => ?_
    cases atEnd
    · exact ih
    · exact h.pure ()

theorem fixedBlock (h : InflaterProperty lim P) : P Unit (fixedBlock lim) :=
  h.bind (h.buildTable _ _) fun _ => h.bind (h.buildTable _ _) fun _ => h.huffmanBody _

theorem readCodeLengths (h : InflaterProperty lim P) (perm cl : List Nat) :
    P (List Nat) (readCodeLengths lim perm cl) := by
  induction perm generalizing cl with
  | nil => exact h.pure cl
  | cons p perm ih => exact h.bind (h.readBits 3) fun _ => ih _

theorem repeatOf (h : InflaterProperty lim P) (sym : Nat) (a : List Nat) : P (Nat × Nat) (repeatOf lim sym a) := by
  unfold Machine.repeatOf
  split_ifs
  · cases a.getLast? with
    | none => exact h.raise _
    | some l => exact h.bind (h.readBits 2) fun _ => h.pure _
  · exact h.bind (h.readBits 3) fun _ => h.pure _
  · exact h.bind (h.readBits 7) fun _ => h.pure _

theorem addLengths (h : InflaterProperty lim P) (m : Nat) (a : List Nat) (sym : Nat) :
    P (List Nat) (addLengths lim m a sym) := by
  unfold Machine.addLengths
  split
  · exact h.pure _
  · exact h.bind (h.repeatOf sym a) fun _ => h.bind (h.raiseIf _ _) fun _ => h.pure _

theorem readLengths (h : InflaterProperty lim P) (m fuel : Nat) (a : List Nat) :
    P (List Nat) (readLengths lim m fuel a) := by
  induction fuel generalizing a with
  | zero => exact h.pure a
  | succ fuel ih =>
    unfold Machine.readLengths
    split
    · exact h.pure a
    · exact h.bind (h.bind (h.decodeSymbol .clen) (h.addLengths m a)) ih

theorem dynamicBlock (h : InflaterProperty lim P) : P Unit (dynamicBlock lim) :=
  h.bind (h.readBits 5) fun _ => h.bind (h.readBits 5) fun _ => h.bind (h.readBits 4) fun _ =>
    h.bind (h.readCodeLengths _ _) fun _ => h.bind (h.buildTable _ _) fun _ => h.bind (h.readLengths _ _ _) fun _ =>
      h.bind (h.buildTable _ _) fun _ => h.bind (h.buildTable _ _) fun _ => h.huffmanBody _

/-- The body of a block has the property too, if AlignToByte has it. -/
theorem blockBody (h : InflaterProperty lim P) (halign : P Unit alignToByte) (btype : Nat) :
    P Unit (blockBody lim btype) := by
  unfold Machine.blockBody
  split_ifs
  · exact h.bind halign fun _ => h.bind (h.readBits 16) fun _ => h.bind (h.readBits 16) fun _ => h.storedBytes _
  · exact h.fixedBlock
  · exact h.dynamicBlock
  · exact h.raise _

end InflaterProperty

/-! ### The cursor moves forward, within the limit (40_bitreader R121) -/

/-- `t` is reached from `s` by reading on: no flag of STATUS changed, and the cursor, unless past the limit already,
moved forward and not past it. -/
def ReadsOn (lim : Nat) (s t : State) : Prop :=
  t.status = s.status ∧ (s.brPos.toNat ≤ lim → s.brPos.toNat ≤ t.brPos.toNat ∧ t.brPos.toNat ≤ lim)

section
variable {lim : Nat} {s t u : State}

theorem ReadsOn.of_eq (hstatus : t.status = s.status) (hpos : t.brPos = s.brPos) : ReadsOn lim s t :=
  ⟨hstatus, fun h => by rw [hpos]; exact ⟨le_rfl, h⟩⟩

theorem ReadsOn.refl (s : State) : ReadsOn lim s s := .of_eq rfl rfl

theorem ReadsOn.trans (h : ReadsOn lim s t) (h' : ReadsOn lim t u) : ReadsOn lim s u := by
  refine ⟨h'.1.trans h.1, fun hs => ?_⟩
  obtain ⟨hst, ht⟩ := h.2 hs
  obtain ⟨htu, hu⟩ := h'.2 ht
  exact ⟨hst.trans htu, hu⟩

/-- What a relation says of a part that answers. -/
theorem Cmd.Relates.of_ok {R : State → State → Prop} {α : Type} {c : Cmd α} {a : α} (hc : Cmd.Relates R c)
    (h : c s = .ok a t) : R s t := by
  have hs := hc s
  rwa [Cmd.after, h] at hs

/-- A read that answers moved the cursor over its bits, within the limit. -/
theorem readBits_advances {n v : Nat} (hn : n ≠ 0) (hlim : lim < 2 ^ 32) (h : readBits lim n s = .ok v t) :
    t.brPos.toNat = s.brPos.toNat + n ∧ t.brPos.toNat ≤ lim ∧ t.status = s.status := by
  obtain ⟨hzero, -⟩ | ⟨-, hle, hrun⟩ | ⟨-, -, hrun⟩ := readBits_cases lim n s
  · exact absurd hzero hn
  · rw [hrun] at h
    cases h
    have hpos : (s.advance n).brPos.toNat = s.brPos.toNat + n := State.advance_brPos (by omega)
    exact ⟨hpos, hpos.trans_le hle, rfl⟩
  · rw [hrun] at h
    cases h

theorem readBits_readsOn (hlim : lim < 2 ^ 32) (n : Nat) : Cmd.Relates (ReadsOn lim) (readBits lim n) := by
  intro s
  obtain ⟨-, hrun⟩ | ⟨hn, -, hrun⟩ | ⟨-, -, hrun⟩ := readBits_cases lim n s
  · rw [Cmd.after, hrun]
    exact ReadsOn.refl s
  · obtain ⟨hpos, hle, hstatus⟩ := readBits_advances hn hlim hrun
    rw [Cmd.after, hrun]
    exact ⟨hstatus, fun _ => ⟨(Nat.le_add_right _ n).trans hpos.ge, hle⟩⟩
  · rw [Cmd.after, hrun]
    exact ReadsOn.refl s

theorem emit_readsOn (b : Byte) : Cmd.Relates (ReadsOn lim) (emit b) := by
  intro s
  obtain ⟨-, hrun⟩ | ⟨-, hrun⟩ := emit_cases b s <;> rw [Cmd.after, hrun] <;> exact .of_eq rfl rfl

theorem State.setHlen_status (s : State) (t : DecodeTable) (lens : List Nat) :
    (s.setHlen t lens).status = s.status := by
  cases t <;> simp only [State.setHlen, State.setHlen0_status, State.setHlen1_status, State.setHlen2_status]

theorem buildTable_readsOn (t : DecodeTable) (lens : List Nat) : Cmd.Relates (ReadsOn lim) (buildTable t lens) := by
  intro s
  obtain ⟨-, -, hrun⟩ | ⟨-, hrun⟩ := buildTable_cases t lens s <;> rw [Cmd.after, hrun]
  · exact .of_eq (s.setHlen_status t lens) (s.setHlen_brPos t lens)
  · exact ReadsOn.refl s

/-- The inflater reads on. -/
theorem readsOn_inflaterProperty (hlim : lim < 2 ^ 32) :
    InflaterProperty lim fun _ c => Cmd.Relates (ReadsOn lim) c where
  pure := Cmd.Relates.pure ReadsOn.refl
  raise := Cmd.Relates.raise ReadsOn.refl
  bind hx hf := Cmd.Relates.bind (R := ReadsOn lim) ReadsOn.trans hx hf
  readBits := readBits_readsOn hlim
  lengths _ := Cmd.Relates.observe ReadsOn.refl _
  history _ := Cmd.Relates.observe ReadsOn.refl _
  tooFar _ := Cmd.Relates.observe ReadsOn.refl _
  emit := emit_readsOn
  buildTable := buildTable_readsOn

/-- Decode reads a bit at least before it answers (40_bitreader R124). -/
theorem decodeSymbol_advances {tab : DecodeTable} {sym : Nat} (hlim : lim < 2 ^ 32)
    (h : decodeSymbol tab lim s = .ok sym t) : s.brPos.toNat < t.brPos.toNat ∧ t.brPos.toNat ≤ lim := by
  rw [decodeSymbol, observe_bind_apply, decodeLoop, symbolAt?, if_pos rfl] at h
  dsimp only at h
  split at h
  · obtain ⟨b, u, hread, hloop⟩ := Cmd.bind_eq_ok h
    obtain ⟨hpos, hle, -⟩ := readBits_advances one_ne_zero hlim hread
    obtain ⟨-, hon⟩ := ((readsOn_inflaterProperty hlim).decodeLoop _ _ _ _).of_ok hloop
    have := hon hle
    omega
  · cases h

/-- Every pass of the symbol loop reads a bit at least (41_inflate R164). -/
theorem huffmanPass_advances {atEnd : Bool} (hlim : lim < 2 ^ 32) (h : huffmanPass lim s = .ok atEnd t) :
    s.brPos.toNat < t.brPos.toNat ∧ t.brPos.toNat ≤ lim := by
  rw [huffmanPass_eq] at h
  obtain ⟨sym, u, hdecode, hpass⟩ := Cmd.bind_eq_ok h
  obtain ⟨hlt, hle⟩ := decodeSymbol_advances hlim hdecode
  obtain ⟨-, hon⟩ := ((readsOn_inflaterProperty hlim).passSymbol sym).of_ok hpass
  have := hon hle
  omega

/-! ### The loops end by themselves (41_inflate R164) -/

theorem huffmanBody_add_fuel (hlim : lim < 2 ^ 32) {fuel : Nat} (hpos : 0 < fuel)
    (hfuel : lim < s.brPos.toNat + fuel) (more : Nat) :
    huffmanBody lim (fuel + more) s = huffmanBody lim fuel s := by
  induction fuel generalizing s with
  | zero => exact absurd hpos (lt_irrefl 0)
  | succ fuel ih =>
    rw [Nat.succ_add, huffmanBody, huffmanBody, Cmd.bind_apply, Cmd.bind_apply]
    cases hpass : huffmanPass lim s with
    | error e u => rfl
    | ok atEnd u =>
      obtain ⟨hlt, hle⟩ := huffmanPass_advances hlim hpass
      cases atEnd with
      | false => exact ih (by omega) (by omega)
      | true => rfl

/-- A repeat stands for three lengths at least. -/
theorem repeatOf_count {sym : Nat} {a : List Nat} {r : Nat × Nat} (h : repeatOf lim sym a s = .ok r t) : 3 ≤ r.2 := by
  unfold repeatOf at h
  split_ifs at h
  · cases ha : a.getLast? with
    | none => rw [ha] at h; cases h
    | some l =>
      rw [ha] at h
      obtain ⟨x, u, -, hpure⟩ := Cmd.bind_eq_ok h
      cases hpure
      exact Nat.le_add_right 3 x
  · obtain ⟨x, u, -, hpure⟩ := Cmd.bind_eq_ok h
    cases hpure
    exact Nat.le_add_right 3 x
  · obtain ⟨x, u, -, hpure⟩ := Cmd.bind_eq_ok h
    cases hpure
    exact (show 3 ≤ 11 by decide).trans (Nat.le_add_right 11 x)

/-- Every pass of ReadLengths adds a length at least (41_inflate R157). -/
theorem lengthsPass_adds {m : Nat} {a a' : List Nat} (h : lengthsPass lim m a s = .ok a' t) : a.length < a'.length := by
  rw [lengthsPass_eq] at h
  obtain ⟨sym, u, -, hadd⟩ := Cmd.bind_eq_ok h
  unfold addLengths at hadd
  split at hadd
  · cases hadd
    simp
  · obtain ⟨⟨val, r⟩, v, hrepeat, hrest⟩ := Cmd.bind_eq_ok hadd
    obtain ⟨-, w, -, hpure⟩ := Cmd.bind_eq_ok hrest
    have hcount := repeatOf_count hrepeat
    cases hpure
    rw [List.length_append, List.length_replicate]
    omega

theorem readLengths_add_fuel {m fuel : Nat} {a : List Nat} (hfuel : m ≤ a.length + fuel) (more : Nat) :
    readLengths lim m (fuel + more) a s = readLengths lim m fuel a s := by
  induction fuel generalizing s a with
  | zero => rw [readLengths_done hfuel, readLengths_done hfuel]
  | succ fuel ih =>
    rw [Nat.succ_add, readLengths, readLengths]
    split
    · rfl
    · rw [Cmd.bind_apply, Cmd.bind_apply]
      cases hpass : lengthsPass lim m a s with
      | error e u => rfl
      | ok a' u =>
        have hadds := lengthsPass_adds hpass
        exact ih (by omega)

end

/-- Settles O30: each pass reads a bit, or adds a length, so neither loop uses its passes up. -/
theorem loopsNeedNoFuel : Obligations.LoopsNeedNoFuel := by
  unfold Obligations.LoopsNeedNoFuel
  intro lim more m s hlim
  exact ⟨huffmanBody_add_fuel (by omega) (Nat.succ_pos lim) (by omega) more, readLengths_add_fuel (by simp) more⟩

end Sys2Proof.Machine
end

section
/-! PROOFS. INFLATE is INFBLK repeated, and ZINFLATE is INFLATE without the wrapper: what the inflater neither reads nor
writes passes through it (41_inflate R164, R168, R170, R171). -/

namespace Sys2Proof.Machine

/-! ### The fields the inflater works on -/

/-- `t` with the fields an inflate command reads or writes taken from `s`. The limit is handed to the inflater, so
IN_LEN is none of them. -/
def State.over (t s : State) : State :=
  { t with
    brPos := s.brPos, outLen := s.outLen, outSize := s.outSize, mem := s.mem
    hlen0 := s.hlen0, hlen1 := s.hlen1, hlen2 := s.hlen2
    status := { t.status with last := s.status.last, btype := s.status.btype } }

/-- A run with the state it leaves taken over into `t`. -/
def overResult {α : Type} (t : State) : EStateM.Result ErrorKind State α → EStateM.Result ErrorKind State α
  | .ok a s => .ok a (t.over s)
  | .error e s => .error e (t.over s)

/-- The part reads and writes those fields alone: whatever the others hold, its run is the same. -/
def Cmd.Confined {α : Type} (c : Cmd α) : Prop := ∀ t s, c (t.over s) = overResult t (c s)

section
variable {lim : Nat} (s t : State)

theorem State.over_hlen (tab : DecodeTable) : (t.over s).hlen tab = s.hlen tab := by cases tab <;> rfl

theorem State.over_setHlen (tab : DecodeTable) (lens : List Nat) :
    (t.over s).setHlen tab lens = t.over (s.setHlen tab lens) := by cases tab <;> rfl

theorem State.over_streamBits (p n : Nat) : (t.over s).streamBits p n = s.streamBits p n := by
  induction n generalizing p with
  | zero => rfl
  | succ n ih => rw [State.streamBits, State.streamBits, ih]; rfl

end

theorem Cmd.Confined.bind {α β : Type} {x : Cmd α} {f : α → Cmd β} (hx : Cmd.Confined x)
    (hf : ∀ a, Cmd.Confined (f a)) : Cmd.Confined (x >>= f) := by
  intro t s
  rw [Cmd.bind_apply, Cmd.bind_apply, hx t s]
  cases x s with
  | ok a u => exact hf a t u
  | error e u => rfl

theorem readBits_confined (lim n : Nat) : Cmd.Confined (readBits lim n) := by
  intro t s
  obtain ⟨rfl, -⟩ | ⟨hn, hle, hrun⟩ | ⟨hn, hcut, hrun⟩ := readBits_cases lim n s
  · rw [readBits_zero, readBits_zero]
    rfl
  · rw [hrun, readBits_ok (s := t.over s) hle hn, State.over_streamBits]
    rfl
  · rw [hrun, readBits_truncated (s := t.over s) hcut hn]
    rfl

theorem raiseIf_confined (c : Bool) (e : ErrorKind) : Cmd.Confined (raiseIf c e) := by
  cases c <;> exact fun _ _ => rfl

theorem emit_confined (b : Byte) : Cmd.Confined (emit b) :=
  Cmd.Confined.bind (fun _ _ => rfl) fun full => (raiseIf_confined full _).bind fun _ _ _ => rfl

theorem buildTable_confined (tab : DecodeTable) (lens : List Nat) : Cmd.Confined (buildTable tab lens) :=
  (raiseIf_confined _ _).bind fun _ => (raiseIf_confined _ _).bind fun _ t s => by
    rw [update_apply, update_apply, State.over_setHlen]
    rfl

/-- The inflater works on its own fields. -/
theorem confined_inflaterProperty (lim : Nat) : InflaterProperty lim fun _ => Cmd.Confined where
  pure _ _ _ := rfl
  raise _ _ _ := rfl
  bind := Cmd.Confined.bind
  readBits := readBits_confined lim
  lengths tab t s := by rw [observe_apply, observe_apply, State.over_hlen]; rfl
  history _ _ _ := rfl
  tooFar _ _ _ := rfl
  emit := emit_confined
  buildTable := buildTable_confined

theorem inflateBlock_confined (lim : Nat) : Cmd.Confined (inflateBlock lim) :=
  (readBits_confined lim 1).bind fun _ => (readBits_confined lim 2).bind fun btype =>
    Cmd.Confined.bind (fun _ _ => rfl) fun _ =>
      ((confined_inflaterProperty lim).blockBody (fun _ _ => rfl) btype).bind fun _ _ _ => rfl

theorem inflateBlocks_confined (lim fuel : Nat) : Cmd.Confined (inflateBlocks lim fuel) := by
  induction fuel with
  | zero => exact fun _ _ => rfl
  | succ fuel ih =>
    refine (inflateBlock_confined lim).bind fun f => ?_
    split
    · exact fun _ _ => rfl
    · exact ih

/-! ### A block that answers (41_inflate R151, R164) -/

section
variable {lim : Nat} {s u : State}

theorem alignToByte_readsOn (hlim : lim < 2 ^ 32) (halign : 8 ∣ lim) : Cmd.Relates (ReadsOn lim) alignToByte := by
  intro s
  change ReadsOn lim s (s.setBrPos (alignedPos s.brPos))
  refine ⟨rfl, fun hle => ?_⟩
  rw [State.setBrPos_brPos, alignedPos, BitVec.toNat_ofNat, Nat.mod_eq_of_lt (by omega)]
  omega

/-- A block reads its header at least, within the limit, and LAST shows its BFINAL. -/
theorem inflateBlock_advances {f : Nat} (hlim : lim < 2 ^ 32) (halign : 8 ∣ lim) (h : inflateBlock lim s = .ok f u) :
    s.brPos.toNat < u.brPos.toNat ∧ u.brPos.toNat ≤ lim ∧ u.status.last = decide (f = 1) := by
  obtain ⟨bfinal, v, hfinal, hrest⟩ := Cmd.bind_eq_ok h
  obtain ⟨btype, w, hbtype, hbody⟩ := Cmd.bind_eq_ok hrest
  rw [update_bind_apply] at hbody
  obtain ⟨_, x, hblock, hpure⟩ := Cmd.bind_eq_ok hbody
  cases hpure
  obtain ⟨hv, -, -⟩ := readBits_advances one_ne_zero hlim hfinal
  obtain ⟨hw, hle, -⟩ := readBits_advances two_ne_zero hlim hbtype
  obtain ⟨hstatus, hon⟩ :=
    ((readsOn_inflaterProperty hlim).blockBody (alignToByte_readsOn hlim halign) btype).of_ok hblock
  obtain ⟨hmono, hend⟩ := hon hle
  refine ⟨?_, hend, by rw [hstatus]; rfl⟩
  change w.brPos.toNat ≤ _ at hmono
  omega

theorem exec_infblk_ok {f : Nat} (h : inflateBlock s.bitLimit s = .ok f u) : exec .infblk s = .next (completed u) := by
  rw [exec_eq_runCommand]
  refine runCommand_ok ?_
  rw [commandBody, infblkBody, observe_bind_apply, Cmd.bind_ok h]
  rfl

theorem exec_inflate (s : State) :
    exec .inflate s = runCommand (inflateBlocks s.bitLimit (s.bitLimit + 1)) (s.setOutLen 0) := by
  rw [exec_eq_runCommand, commandBody, runCommand, inflateBody, observe_bind_apply, update_bind_apply]
  rfl

theorem exec_zinflate (h : 6 ≤ s.inLen.toNat) :
    exec .zinflate s =
      runCommand (inflateBlocks (8 * (s.inLen.toNat - 4)) (8 * (s.inLen.toNat - 4) + 1))
        ((s.setBrPos 16).setOutLen 0) := by
  rw [exec_eq_runCommand, commandBody, runCommand, zinflateBody, observe_bind_apply,
    decide_eq_false (Nat.not_lt.2 h), raiseIf_false, pure_bind_apply, update_bind_apply]
  rfl

/-! ### INFLATE is INFBLK repeated (41_inflate R164, R170) -/

theorem blocksFrom_stop {t : State} (h : exec .infblk s = .next t) (hstop : (t.status.err || t.status.last) = true)
    (n : Nat) : blocksFrom (n + 1) s = some t := by
  rw [blocksFrom, h]
  exact if_pos hstop

theorem blocksFrom_next {t : State} (h : exec .infblk s = .next t) (hnext : (t.status.err || t.status.last) = false)
    (n : Nat) : blocksFrom (n + 1) s = blocksFrom n t := by
  rw [blocksFrom, h]
  exact if_neg (Bool.eq_false_iff.1 hnext)

/-- A part that works on the inflater's fields runs the same with the others taken from `t`. -/
theorem Cmd.Confined.runCommand_cases {c : Cmd Unit} (hc : Cmd.Confined c) (hframe : Cmd.Relates InflateOnly c)
    (s t : State) : ∃ u, InflateOnly s u ∧
      (runCommand c s = .next (completed u) ∧ runCommand c (t.over s) = .next (completed (t.over u)) ∨
        ∃ e, runCommand c s = .next (failedWith e u) ∧ runCommand c (t.over s) = .next (failedWith e (t.over u))) := by
  have hover := hc t s
  have hs := hframe s
  obtain ⟨u, hrun, hcommand⟩ | ⟨e, u, hrun, hcommand⟩ := Machine.runCommand_cases c s <;>
    rw [hrun] at hover <;> rw [Cmd.after, hrun] at hs
  · exact ⟨u, hs, .inl ⟨hcommand, runCommand_ok hover⟩⟩
  · exact ⟨u, hs, .inr ⟨e, hcommand, runCommand_error hover⟩⟩

/-- Completing a command first changes nothing in what the next one leaves. -/
theorem runCommand_completed {c : Cmd Unit} (hc : Cmd.Confined c) (hframe : Cmd.Relates InflateOnly c) (s : State) :
    runCommand c (completed s) = runCommand c s := by
  obtain ⟨u, hu, ⟨hrun, hover⟩ | ⟨e, hrun, hover⟩⟩ := hc.runCommand_cases hframe s (completed s)
  · exact hover.trans (by rw [hrun, hu]; rfl)
  · exact hover.trans (by rw [hrun, hu]; rfl)

theorem InflateOnly.err (h : InflateOnly s u) : u.status.err = s.status.err := by rw [h]

theorem InflateOnly.inLen (h : InflateOnly s u) : u.inLen = s.inLen := by rw [h]

/-- With passes for every bit left, repeating INFBLK and the block loop leave the same. -/
theorem blocksFrom_eq_inflateBlocks {fuel : Nat} (hin : s.inLen.toNat ≤ 2 ^ 24) (herr : s.status.err = false)
    (hpos : 0 < fuel) (hfuel : s.bitLimit < s.brPos.toNat + fuel) :
    ∃ u, blocksFrom fuel s = some u ∧ runCommand (inflateBlocks s.bitLimit fuel) s = .next u := by
  induction fuel generalizing s with
  | zero => exact absurd hpos (lt_irrefl 0)
  | succ fuel ih =>
    cases hblock : inflateBlock s.bitLimit s with
    | error e v =>
      exact ⟨_, blocksFrom_stop (exec_infblk_error hblock) rfl fuel, runCommand_error (Cmd.bind_error hblock)⟩
    | ok f v =>
      have hlim : s.bitLimit < 2 ^ 32 := by unfold State.bitLimit; omega
      obtain ⟨hlt, hle, hlast⟩ := inflateBlock_advances hlim (Nat.dvd_mul_right 8 _) hblock
      have honly : InflateOnly s v := (inflateBlock_inflateOnly _).of_ok hblock
      have hexec := exec_infblk_ok hblock
      have hflags : ((completed v).status.err || (completed v).status.last) = decide (f = 1) := by
        change (v.status.err || v.status.last) = _
        rw [honly.err, herr, hlast, Bool.false_or]
      by_cases hf : f = 1
      · refine ⟨_, blocksFrom_stop hexec (hflags.trans (decide_eq_true hf)) fuel, runCommand_ok ?_⟩
        rw [inflateBlocks, Cmd.bind_ok hblock, if_pos hf]
        rfl
      · have hlimit : (completed v).bitLimit = s.bitLimit := congrArg (8 * ·.toNat) honly.inLen
        have hcursor : (completed v).brPos = v.brPos := rfl
        obtain ⟨u, hu, hrun⟩ := ih (s := completed v) (by change v.inLen.toNat ≤ _; rwa [honly.inLen])
          (honly.err.trans herr) (by omega) (by rw [hlimit, hcursor]; omega)
        rw [hlimit, runCommand_completed (inflateBlocks_confined _ _) (inflateBlocks_inflateOnly _ _)] at hrun
        refine ⟨u, (blocksFrom_next hexec (hflags.trans (decide_eq_false hf)) fuel).trans hu, ?_⟩
        rw [runCommand, inflateBlocks, Cmd.bind_ok hblock, if_neg hf]
        exact hrun

/-- Settles O26: the block loop and INFBLK repeated take the same blocks, and each block reads its header at least. -/
theorem inflateRepeatsInfblk : Obligations.InflateRepeatsInfblk := by
  unfold Obligations.InflateRepeatsInfblk
  intro s hin herr
  exact blocksFrom_eq_inflateBlocks (s := s.setOutLen 0) hin herr (Nat.succ_pos _)
    (Nat.lt_of_lt_of_le (Nat.lt_succ_self _) (Nat.le_add_left _ _))

/-! ### ZINFLATE is INFLATE of the bytes between (41_inflate R171) -/

/-- IN_LEN passes through a part that leaves it alone and does not read it. -/
theorem runCommand_setInLen {c : Cmd Unit} (hc : Cmd.Confined c) (hframe : Cmd.Relates InflateOnly c) {s t : State}
    {v : Word} (h : runCommand c (s.setInLen v) = .next t) : runCommand c s = .next (t.setInLen s.inLen) := by
  obtain ⟨u, hu, ⟨hrun, hover⟩ | ⟨e, hrun, hover⟩⟩ := hc.runCommand_cases hframe s (s.setInLen v)
  · obtain rfl := Host.Outcome.next.inj (h.symm.trans hover)
    rw [hrun, hu]
    rfl
  · obtain rfl := Host.Outcome.next.inj (h.symm.trans hover)
    rw [hrun, hu]
    rfl

/-- The state whose INFLATE is the ZINFLATE of `s`: IN_LEN four less, the cursor after the two bytes of the header. -/
def State.withoutWrapper (s : State) : State := (s.setInLen (BitVec.ofNat 32 (s.inLen.toNat - 4))).setBrPos 16

theorem State.withoutWrapper_inLen (s : State) : s.withoutWrapper.inLen.toNat = s.inLen.toNat - 4 := by
  change (BitVec.ofNat 32 _).toNat = _
  rw [BitVec.toNat_ofNat, Nat.mod_eq_of_lt (by omega)]

theorem exec_zinflate_of_inflate {t : State} (h : 6 ≤ s.inLen.toNat) (hrun : exec .inflate s.withoutWrapper = .next t) :
    exec .zinflate s = .next (t.setInLen s.inLen) := by
  rw [exec_inflate, State.bitLimit, s.withoutWrapper_inLen] at hrun
  rw [exec_zinflate h]
  exact runCommand_setInLen (inflateBlocks_confined _ _) (inflateBlocks_inflateOnly _ _) hrun

/-- Settles O28: ZINFLATE runs the block loop of INFLATE, which does not read IN_LEN. -/
theorem zinflateStripsWrapper : Obligations.ZinflateStripsWrapper := by
  unfold Obligations.ZinflateStripsWrapper
  refine ⟨rfl, fun w hopc hw => ?_, fun s t => ⟨fun hshort => ?_, exec_zinflate_of_inflate⟩⟩
  · exact Laws.legalWord_of_operandless (r := ⟨"ZINFLATE", 0x0A#8, 0#32, fun _ => .zinflate⟩)
      (by simp [opcodeRows, decodeSideRows]) rfl hopc hw
  · rw [exec_eq_runCommand]
    refine runCommand_error ?_
    rw [commandBody, zinflateBody, observe_bind_apply, decide_eq_true hshort]
    rfl

end

end Sys2Proof.Machine
end

section
/-! PROOFS. Blocks that inflate: a stored block, and a Huffman block of literals and back-references, under INFBLK,
INFLATE and ZINFLATE (41_inflate R151 to R162, R168 to R171). -/

namespace Sys2Proof.Machine

/-! ### A block whose body answers -/

section
variable {lim : Nat} {s u : State} {final : Bool} {btype : BitVec 2} {bits : List Bool}

theorem inflateBlock_of_blockBody (h : BitsAhead lim s (final :: lowBits btype.toNat 2 ++ bits))
    (hbody : blockBody lim btype.toNat (s.blockStart final btype) = .ok () u) :
    inflateBlock lim s = .ok final.toNat u := by
  rw [inflateBlock_of_header h.left, Cmd.bind_ok hbody]
  rfl

/-- INFLATE of a last block. -/
theorem exec_inflate_of_last (h : inflateBlock s.bitLimit (s.setOutLen 0) = .ok 1 u) :
    exec .inflate s = .next (completed u) := by
  rw [exec_inflate]
  refine runCommand_ok ?_
  rw [inflateBlocks, Cmd.bind_ok h, if_pos rfl]
  rfl

/-! ### A stored block (41_inflate R152) -/

variable {q len : Nat}

/-- `u` is `s` after a stored block whose `len` data bytes begin at byte `q + 4`: they are in OUT, the cursor is just
after them, LAST and BTYPE show the header, and nothing else differs. -/
def StoredCopied (s : State) (q len : Nat) (final : Bool) (u : State) : Prop :=
  u = { s with
    mem := u.mem
    brPos := BitVec.ofNat 32 (8 * (q + 4 + len))
    outLen := BitVec.ofNat 32 (s.outLen.toNat + len)
    status := { s.status with last := final, btype := 0 } } ∧
  (∀ i, i < len → u.outByte (s.outLen.toNat + i) = s.inByte (q + 4 + i)) ∧
  ∀ a, a < outBase + s.outLen.toNat ∨ outBase + s.outLen.toNat + len ≤ a → u.readByte a = s.readByte a

theorem StoredCopied.of_grows (hq : 8 * q < 2 ^ 32)
    (h : Grows (s.storedStart final q) (32 + 8 * len) u (s.decodeResult ++ s.inBytes (q + 4) len)) :
    StoredCopied s q len final u := by
  have hlength : (s.decodeResult ++ s.inBytes (q + 4) len).length = s.outLen.toNat + len := by simp [State.inBytes]
  have hout := h.outLen
  rw [hlength] at hout
  refine ⟨?_, fun i hi => ?_, fun a ha => ?_⟩
  · have hframe := h.frame
    rw [State.advance, State.storedStart_brPos hq, h.outLen_eq, hlength,
      show 8 * q + (32 + 8 * len) = 8 * (q + 4 + len) by omega] at hframe
    exact hframe
  · rw [← u.decodeResult_getD (by omega), h.result, List.getD_append_right _ _ _ _ (by simp),
      State.decodeResult_length, Nat.add_sub_cancel_left]
    simp [State.inBytes, List.getD_eq_getElem?_getD, hi]
  · exact h.kept a (by rwa [hlength, ← Nat.add_assoc])

theorem inflateBlock_stored (h : s.StoredBlockAt s.brPos.toNat q len final) (hin : s.inLen.toNat ≤ 2 ^ 24)
    (hbytes : q + 4 + len ≤ s.inLen.toNat) (hroom : s.outLen.toNat + len ≤ s.outSize.toNat) :
    ∃ u, inflateBlock s.bitLimit s = .ok final.toNat u ∧ StoredCopied s q len final u := by
  have hq := h.start
  obtain ⟨u, hrun, -, hu⟩ := storedBlock_run (l := 0) h hin hbytes hroom
  exact ⟨u, inflateBlock_of_blockBody (h.bitsAhead hin (by omega)) hrun, .of_grows (by omega) hu⟩

end

/-- Settles O24: the data of a stored block are copied byte by byte. -/
theorem infblkCopiesStoredBlock : Obligations.InfblkCopiesStoredBlock := by
  unfold Obligations.InfblkCopiesStoredBlock
  intro s q len final h hin hbytes hroom
  obtain ⟨u, hrun, hu⟩ := inflateBlock_stored h hin hbytes hroom
  exact ⟨u, exec_infblk_ok hrun, hu⟩

/-- Settles O29: without its wrapper the stream is one last stored block for INFLATE. -/
theorem zinflateCopiesStoredBlock : Obligations.ZinflateCopiesStoredBlock := by
  unfold Obligations.ZinflateCopiesStoredBlock
  intro s len h hin hbytes hroom
  have hlimit := s.withoutWrapper_inLen
  have hblock : (s.withoutWrapper.setOutLen 0).StoredBlockAt 16 3 len true :=
    ⟨h.bfinal, h.btype0, h.btype1, h.start, h.length⟩
  have hempty : (s.withoutWrapper.setOutLen 0).outLen.toNat = 0 := rfl
  obtain ⟨u, hrun, hframe, hdata, hkept⟩ := inflateBlock_stored (s := s.withoutWrapper.setOutLen 0) hblock
    (by rw [State.setOutLen_inLen]; omega) (by rw [State.setOutLen_inLen]; omega) (by rwa [hempty, Nat.zero_add])
  rw [hempty, Nat.zero_add] at hframe
  have hexec := exec_zinflate_of_inflate (by omega) (exec_inflate_of_last hrun)
  refine ⟨u.setInLen s.inLen, hexec, ?_, fun i hi => ?_, hkept⟩
  · rw [hframe]
    rfl
  · have hbyte := hdata i hi
    rw [hempty, Nat.zero_add] at hbyte
    exact hbyte

/-! ### A Huffman block (41_inflate R154 to R162) -/

section
variable {lim : Nat} {s : State} {final : Bool} {lit dist : List Nat} {h : BlockTables} {tokens : List Token}

/-- The pass at symbol 256 ends the loop. -/
theorem huffmanBody_end (ht : HasTables lit dist s) (hne : lit.getD 256 0 ≠ 0)
    (hahead : BitsAhead lim s (codeBits lit 256)) (fuel : Nat) :
    huffmanBody lim (fuel + 1) s = .ok () (s.advance (codeBits lit 256).length) := by
  rw [← List.append_nil (codeBits lit 256)] at hahead
  have hpass : huffmanPass lim s = .ok true (s.advance (codeBits lit 256).length) :=
    huffmanPass_of_code ht (by decide) hne hahead
  rw [huffmanBody, Cmd.bind_ok hpass]
  rfl

/-- The symbol loop appends its tokens and ends at symbol 256. -/
theorem huffmanBody_ok (ht : HasTables lit dist s) (hne : lit.getD 256 0 ≠ 0)
    (hlegal : tokensLegal lit dist s.decodeResult tokens = true)
    (hroom : (tokens.foldl Token.extend s.decodeResult).length ≤ s.outSize.toNat)
    (hahead : BitsAhead lim s (tokens.flatMap (Token.bits lit dist) ++ codeBits lit 256)) :
    ∃ u, huffmanBody lim (lim + 1) s = .ok () u ∧
      Grows s (tokens.flatMap (Token.bits lit dist) ++ codeBits lit 256).length u
        (tokens.foldl Token.extend s.decodeResult) := by
  have hcount := length_le_length_tokenBits hlegal
  have hends := hahead.left.ends
  obtain ⟨fuel, hfuel⟩ := Nat.exists_eq_add_of_le (show tokens.length ≤ lim by omega)
  obtain ⟨v, hrun, hv⟩ := huffmanBody_run ht hlegal hroom hahead.left (fuel + 1)
  refine ⟨v.advance (codeBits lit 256).length, ?_, ?_⟩
  · rw [show lim + 1 = tokens.length + (fuel + 1) by omega, hrun]
    exact huffmanBody_end (ht.grows hv) hne (hahead.right.grows hv) fuel
  · have hall := hv.trans (Grows.advance v (codeBits lit 256).length)
    rwa [hv.result, ← List.length_append] at hall

/-- `u` is `s` after a Huffman block of `n` bits that leaves `out` in OUT: the tables built, the cursor `n` bits on, LAST
and BTYPE as in the header, and nothing else changed. -/
structure HuffmanInflated (s : State) (final : Bool) (h : BlockTables) (n : Nat) (out : List Byte) (u : State) :
    Prop where
  frame : u = { s with
    mem := u.mem
    hlen0 := u.hlen0
    hlen1 := u.hlen1
    hlen2 := u.hlen2
    brPos := BitVec.ofNat 32 (s.brPos.toNat + n)
    outLen := BitVec.ofNat 32 out.length
    status := { s.status with last := final, btype := h.btype } }
  lit : u.hlen .litlen = h.lit
  dist : u.hlen .dist = h.dist
  clen : u.hlen .clen = h.clen (s.hlen .clen)
  result : u.decodeResult = out
  kept : ∀ a, a < outBase + s.outLen.toNat ∨ outBase + out.length ≤ a → u.readByte a = s.readByte a

theorem huffmanBlock_eq (final : Bool) (h : BlockTables) (tokens : List Token) :
    huffmanBlock final h tokens = final :: lowBits h.btype.toNat 2 ++
      (h.headerBits ++ (tokens.flatMap (Token.bits h.lit h.dist) ++ codeBits h.lit 256)) := by
  simp only [huffmanBlock, huffmanTokens, List.append_assoc]

theorem huffmanBlock_length (final : Bool) (h : BlockTables) (tokens : List Token) :
    (huffmanBlock final h tokens).length =
      h.headerBits.length + (tokens.flatMap (Token.bits h.lit h.dist) ++ codeBits h.lit 256).length + 3 := by
  rw [huffmanBlock_eq, ← List.length_append]
  simp only [List.length_append, List.length_cons, lowBits_length]
  omega

/-- A block of legal tokens inflates to what the tokens stand for. -/
theorem inflateBlock_huffman (hlegal : h.Legal) (hne : h.lit.getD 256 0 ≠ 0)
    (htokens : tokensLegal h.lit h.dist s.decodeResult tokens = true)
    (hroom : (tokens.foldl Token.extend s.decodeResult).length ≤ s.outSize.toNat)
    (hahead : BitsAhead lim s (huffmanBlock final h tokens)) :
    ∃ u, inflateBlock lim s = .ok final.toNat u ∧
      HuffmanInflated s final h (huffmanBlock final h tokens).length
        (tokens.foldl Token.extend s.decodeResult) u := by
  rw [huffmanBlock_length]
  rw [huffmanBlock_eq] at hahead
  obtain ⟨hkraftLit, hkraftDist⟩ := hlegal.kraft
  obtain ⟨w, hbody, hw, hlit, hdist, hclen⟩ := blockBody_of_tables hlegal hahead.blockStart.left
  have hresult : w.decodeResult = s.decodeResult := hw.decodeResult
  have hsize : w.outSize = s.outSize := hw.outSize
  obtain ⟨u, hrun, hu⟩ := huffmanBody_ok (tokens := tokens) ⟨hlit, hdist, hkraftLit, hkraftDist⟩ hne
    (by rwa [hresult]) (by rwa [hresult, hsize]) (hahead.blockStart.right.tablesOnly hw)
  rw [hresult] at hu
  refine ⟨u, inflateBlock_of_blockBody hahead (hbody.trans hrun), hw.blockStart_frame hu, (hu.hlen _).trans hlit,
    (hu.hlen _).trans hdist, (hu.hlen _).trans hclen, hu.result, fun a ha => ?_⟩
  have hkept := hu.kept a
  rw [hw.outLen, State.readByte_congr hw.mem] at hkept
  exact hkept ha

/-! ### A fixed block of literals (41_inflate R153) -/

/-- The length and the code of a literal in the fixed table. -/
theorem fixedLit_literal : ∀ n, n < 256 →
    fixedLit.getD n 0 = (if n < 144 then 8 else 9) ∧
    (canonicalCodes fixedLit).getD n 0 = if n < 144 then 0x30 + n else 0x190 + (n - 144) := by
  rw [canonicalCodes_fixedLit]
  decide +kernel

theorem codeBits_fixedLit (b : Byte) : codeBits fixedLit b.toNat = fixedLiteralBits b := by
  obtain ⟨hlen, hcode⟩ := fixedLit_literal b.toNat b.isLt
  rw [codeBits, hlen, hcode, fixedLiteralBits]
  split <;> rfl

theorem codeBits_fixedLit_end : codeBits fixedLit 256 = List.replicate 7 false := by
  rw [codeBits, canonicalCodes_fixedLit]
  decide +kernel

theorem huffmanBlock_literals (data : List Byte) :
    huffmanBlock true .fixed (data.map .literal) = fixedLiteralStream data := by
  have hbits : Token.bits fixedLit fixedDist ∘ Token.literal = fixedLiteralBits := funext codeBits_fixedLit
  rw [huffmanBlock, huffmanTokens, BlockTables.lit, BlockTables.dist, codeBits_fixedLit_end, List.flatMap_map]
  change _ ++ data.flatMap (Token.bits fixedLit fixedDist ∘ Token.literal) ++ _ = _
  rw [hbits]
  rfl

theorem tokensLegal_literals (data out : List Byte) :
    tokensLegal fixedLit fixedDist out (data.map .literal) = true := by
  induction data generalizing out with
  | nil => rfl
  | cons b data ih =>
    obtain ⟨hlen, -⟩ := fixedLit_literal b.toNat b.isLt
    refine tokensLegal_cons.2 ⟨decide_eq_true ?_, ih _⟩
    rw [hlen]
    split <;> decide

theorem foldl_literals (data out : List Byte) : (data.map Token.literal).foldl Token.extend out = out ++ data := by
  induction data generalizing out with
  | nil => exact (List.append_nil out).symm
  | cons b data ih => rw [List.map_cons, List.foldl_cons, ih, Token.extend, List.append_assoc, List.singleton_append]

/-- The lengths of HLEN2 as numbers determine it. -/
theorem State.hlen2_eq {t : State} (h : t.hlen .clen = s.hlen .clen) : t.hlen2 = s.hlen2 :=
  Vector.toList_inj.1 (List.map_injective_iff.2 (fun _ _ => BitVec.eq_of_toNat_eq) h)

/-- The stream of a final fixed block of literals inflates to them. -/
theorem exec_inflate_fixedLiterals {data : List Byte} (hin : s.inLen.toNat ≤ 2 ^ 24)
    (hroom : data.length ≤ s.outSize.toNat)
    (hend : s.brPos.toNat + (fixedLiteralStream data).length ≤ 8 * s.inLen.toNat)
    (hstands : s.streamBits s.brPos.toNat (fixedLiteralStream data).length = fixedLiteralStream data) :
    ∃ u, exec .inflate s = .next (completed u) ∧
      HuffmanInflated (s.setOutLen 0) true .fixed (fixedLiteralStream data).length data u := by
  have hahead : BitsAhead s.bitLimit (s.setOutLen 0) (fixedLiteralStream data) :=
    (bitsAhead_of_stands hin hend hstands).congr rfl fun _ _ => rfl
  have hout : (data.map Token.literal).foldl Token.extend (s.setOutLen 0).decodeResult = data :=
    (foldl_literals data _).trans rfl
  rw [← huffmanBlock_literals] at hahead
  obtain ⟨u, hrun, hu⟩ := inflateBlock_huffman (h := .fixed) (tokens := data.map .literal) trivial (by decide)
    (tokensLegal_literals data _) (by rwa [hout]) hahead
  rw [hout, huffmanBlock_literals] at hu
  exact ⟨u, exec_inflate_of_last hrun, hu⟩

end

/-- Settles O27: a block's tables are built from its header, and its tokens are appended one by one. -/
theorem inflateOfFixedLiterals : Obligations.InflateOfFixedLiterals := by
  unfold Obligations.InflateOfFixedLiterals
  refine ⟨fun s data hin hroom hend hstands => ?_, rfl, fun s final h tokens => ?_⟩
  · obtain ⟨u, hrun, hframe, hlit, hdist, hclen, hresult, hkept⟩ :=
      exec_inflate_fixedLiterals hin hroom hend hstands
    refine ⟨u, hrun, ?_, hlit, hdist, hresult, hkept⟩
    have hhlen2 : u.hlen2 = s.hlen2 := State.hlen2_eq (hclen.trans rfl)
    rw [hhlen2] at hframe
    exact hframe
  · intro stream out hlegal hne htokens hin hroom hend hstands
    obtain ⟨u, hrun, hframe, hlit, hdist, hclen, hresult, hkept⟩ :=
      inflateBlock_huffman hlegal hne htokens hroom (bitsAhead_of_stands hin hend hstands)
    exact ⟨u, exec_infblk_ok hrun, hframe, hlit, hdist, hclen, hresult, hkept⟩

end Sys2Proof.Machine
end

section
/-! PROOFS. The quantization tables: QBUILD scales the base tables by the quality, QLOOKUP reads one entry (42_quant
R190 to R193). -/

namespace Sys2Proof.Machine

open Sys2Proof.Laws

/-! ### The reserved bits of a command word (30_encoding R105) -/

/-- A word with a 1 in a field that its row reserves is illegal. -/
theorem legalWord_of_reserved_field {w : Word} {r : OpcodeRow} {lo n : Nat} (hr : r ∈ opcodeRows)
    (hfield : r.reserved.extractLsb' lo n = BitVec.allOnes n) (hopc : opcodeOf w = r.opc)
    (hw : w.extractLsb' lo n ≠ 0) : legalWord w = false := by
  refine Bool.eq_false_iff.2 fun hlegal => hw ?_
  obtain ⟨r', hr', hopc', hreserved, -⟩ := legalWord_iff.1 hlegal
  obtain rfl : r = r' := Option.some.inj
    ((find?_opc_eq_some_iff.2 ⟨hr, hopc⟩).symm.trans (find?_opc_eq_some_iff.2 ⟨hr', hopc'⟩))
  calc w.extractLsb' lo n
      = w.extractLsb' lo n &&& r.reserved.extractLsb' lo n := by rw [hfield, BitVec.and_allOnes]
    _ = (w &&& r.reserved).extractLsb' lo n := BitVec.extractLsb'_and.symm
    _ = 0 := by rw [hreserved]; simp

/-! ### The entries of a scaled table (42_quant R190) -/

theorem qEntry_lt (s scale : Nat) : qEntry s scale < 256 := by
  unfold qEntry clampNat
  omega

/-- An entry is a byte, so a table holds it as it is. -/
theorem toNat_getD_ofFn_qEntry (base : Nat → Nat) (scale : Nat) {i : Nat} (hi : i < 64) :
    ((Vector.ofFn fun j : Fin 64 => BitVec.ofNat 8 (qEntry (base j) scale)).getD i 0).toNat =
      qEntry (base i) scale := by
  simpa [Vector.getD, hi] using qEntry_lt (base i) scale

theorem getD_ne_zero_of_all {v : QTable} (h : v.toList.all (fun b => decide (b ≠ 0)) = true) {i : Nat} (hi : i < 64) :
    v.getD i 0 ≠ 0 := by
  have hget : v.getD i 0 = v[i] := by simp [Vector.getD, hi]
  rw [hget]
  exact of_decide_eq_true (List.all_eq_true.1 h _ (Vector.mem_toList_iff.2 (Vector.getElem_mem hi)))

theorem toNat_qTableY (q : Nat) {i : Nat} (hi : i < 64) :
    ((qTableY q).getD i 0).toNat = qEntry (qstdY i) (qScale (clipQuality q)) :=
  toNat_getD_ofFn_qEntry qstdY _ hi

theorem toNat_qTableC (q : Nat) {i : Nat} (hi : i < 64) :
    ((qTableC q).getD i 0).toNat = qEntry (qstdC i) (qScale (clipQuality q)) :=
  toNat_getD_ofFn_qEntry qstdC _ hi

theorem State.setQt0_setQt1 (s : State) (y c : QTable) : (s.setQt0 y).setQt1 c = { s with qt0 := y, qt1 := c } := rfl

theorem exec_qbuild (q : BitVec 8) (s : State) :
    exec (.qbuild q) s = .next (completed ((s.setQt0 (qTableY q.toNat)).setQt1 (qTableC q.toNat))) := by
  rw [exec_eq_runCommand]
  exact runCommand_ok rfl

/-- Settles O31: QBUILD stores the two scaled tables, and an entry stands in them as `qEntry` gives it. -/
theorem qbuildScalesTables : Obligations.QbuildScalesTables := by
  unfold Obligations.QbuildScalesTables
  refine ⟨fun w => ?_, fun q s => ⟨rfl, ?_⟩⟩
  · exact legalWord_of_reserved_field
      (r := ⟨"QBUILD", 0x10#8, 0x0000FF00#32, fun w => .qbuild (w.extractLsb' 8 8)⟩)
      (by simp [opcodeRows, encodeSideRows]) (by decide)
  · intro quality scale
    have hscale : qScale (clipQuality q.toNat) = scale := rfl
    refine ⟨qTableY q.toNat, qTableC q.toNat, ?_, fun i hi => ?_⟩
    · rw [exec_qbuild, State.setQt0_setQt1]
    · rw [toNat_qTableY _ hi, toNat_qTableC _ hi, hscale]
      exact ⟨rfl, rfl⟩

/-! ### The scale and its consequences (42_quant R193) -/

/-- Scale 100 leaves a byte of at least 1 as it is. -/
theorem qEntry_scale_hundred {s : Nat} (h1 : 1 ≤ s) (h255 : s ≤ 255) : qEntry s 100 = s := by
  unfold qEntry clampNat
  omega

theorem qEntry_scale_zero (s : Nat) : qEntry s 0 = 1 := by simp [qEntry, clampNat]

/-- Scale 5000 multiplies by 50, past the upper clamp from 6 on. -/
theorem qEntry_scale_fiveThousand {s : Nat} (h : 6 ≤ s) : qEntry s 5000 = 255 := by
  unfold qEntry clampNat
  omega

theorem qEntry_mono (s : Nat) : Monotone (qEntry s) := fun _ _ h =>
  min_le_min_right _ (max_le_max_right _ (Nat.div_le_div_right (Nat.add_le_add_right (Nat.mul_le_mul_left s h) _)))

/-- The scale does not grow with the quality; below 50 it is at least 100, from 50 on at most 100. -/
theorem qScale_le_of_le {q q' : Nat} (hq : 1 ≤ q) (h : q ≤ q') : qScale q' ≤ qScale q := by
  unfold qScale
  split_ifs with hq' hlow hlow
  · exact Nat.div_le_div_left h hq
  · omega
  · have hscale : 100 ≤ 5000 / q := (Nat.le_div_iff_mul_le hq).2 (by omega)
    omega
  · omega

theorem qScale_clipQuality_antitone : Antitone fun q => qScale (clipQuality q) := fun q q' h =>
  qScale_le_of_le (by unfold clipQuality; omega) (by unfold clipQuality; omega)

theorem qstd_bounds : ∀ i, i < 64 → (6 ≤ qstdY i ∧ qstdY i ≤ 255) ∧ 6 ≤ qstdC i ∧ qstdC i ≤ 255 := by decide

/-- Settles O32: the scales of qualities 50, 100 and 1 are 100, 0 and 5000, and an entry grows with the scale. -/
theorem quantTableConsequences : Obligations.QuantTableConsequences := by
  unfold Obligations.QuantTableConsequences
  refine ⟨fun i hi => ?_, fun i hi => ?_, fun i hi => ?_, fun q i hi => ?_, fun q q' i hq hi => ?_⟩
  · obtain ⟨⟨hy, hy'⟩, hc, hc'⟩ := qstd_bounds i hi
    rw [toNat_qTableY _ hi, toNat_qTableC _ hi]
    exact ⟨qEntry_scale_hundred (by omega) hy', qEntry_scale_hundred (by omega) hc'⟩
  · exact ⟨BitVec.eq_of_toNat_eq ((toNat_qTableY _ hi).trans (qEntry_scale_zero _)),
      BitVec.eq_of_toNat_eq ((toNat_qTableC _ hi).trans (qEntry_scale_zero _))⟩
  · obtain ⟨⟨hy, -⟩, hc, -⟩ := qstd_bounds i hi
    exact ⟨BitVec.eq_of_toNat_eq ((toNat_qTableY _ hi).trans (qEntry_scale_fiveThousand hy)),
      BitVec.eq_of_toNat_eq ((toNat_qTableC _ hi).trans (qEntry_scale_fiveThousand hc))⟩
  · exact ⟨getD_ne_zero_of_all (qTableY_nonzero q) hi, getD_ne_zero_of_all (qTableC_nonzero q) hi⟩
  · rw [toNat_qTableY _ hi, toNat_qTableY _ hi, toNat_qTableC _ hi, toNat_qTableC _ hi]
    exact ⟨qEntry_mono _ (qScale_clipQuality_antitone hq), qEntry_mono _ (qScale_clipQuality_antitone hq)⟩

/-! ### QLOOKUP (42_quant R192) -/

theorem zz_lt : ∀ k, k < 64 → zz k < 64 := by decide

theorem lookupIndex_lt (i : BitVec 6) (z : BitVec 1) : lookupIndex i z < 64 := by
  unfold lookupIndex
  split
  · exact zz_lt _ i.isLt
  · exact i.isLt

theorem State.qtEntry_eq (s : State) (t : BitVec 1) (n : Nat) :
    s.qtEntry t n = if t = 1 then s.qt1.getD n 0 else s.qt0.getD n 0 := by
  obtain rfl | rfl : t = 0 ∨ t = 1 := by revert t; decide
  · rfl
  · rfl

theorem State.Inv.qtEntry_ne_zero {s : State} (h : s.Inv) (t : BitVec 1) {n : Nat} (hn : n < 64) :
    s.qtEntry t n ≠ 0 := by
  rw [State.qtEntry_eq]
  split
  · exact getD_ne_zero_of_all h.qt1 hn
  · exact getD_ne_zero_of_all h.qt0 hn

theorem exec_qlookup (t : BitVec 1) (i : BitVec 6) (z : BitVec 1) (s : State) :
    exec (.qlookup t i z) s =
      .next (completed (s.setResult ((s.qtEntry t (lookupIndex i z)).setWidth 32))) := by
  rw [exec_eq_runCommand, ← BitVec.ofNat_toNat]
  exact runCommand_ok rfl

/-- Settles O33: QLOOKUP answers one entry of the table it names, at an index below 64. -/
theorem qlookupReadsEntry : Obligations.QlookupReadsEntry := by
  unfold Obligations.QlookupReadsEntry
  refine ⟨fun w hopc hw => ?_, rfl, rfl, fun t i z s => ⟨rfl, lookupIndex_lt i z, ?_, ?_⟩⟩
  · have hrow : (⟨"QLOOKUP", 0x11#8, 0x003F0300#32,
        fun w => .qlookup (w.extractLsb' 8 1) (w.extractLsb' 16 6) (w.extractLsb' 9 1)⟩ : OpcodeRow) ∈ opcodeRows := by
      simp [opcodeRows, encodeSideRows]
    obtain hhigh | hlow := hw
    · exact legalWord_of_reserved_field hrow (by decide) hopc hhigh
    · exact legalWord_of_reserved_field hrow (by decide) hopc hlow
  · rw [exec_qlookup, State.qtEntry_eq]
    rfl
  · intro hinv
    have hne := hinv.qtEntry_ne_zero t (lookupIndex_lt i z)
    rwa [State.qtEntry_eq] at hne

end Sys2Proof.Machine
end

section
/-! PROOFS. The codes HuffBuild emits, in closed form: a code is the space the codes before it take at its length, so
the codes count up, run out where the Kraft sum exceeds 1, and begin no other (43_huffman_tables R210, R212). -/

namespace Sys2Proof.Machine

/-! ### The space of the codes before a code -/

/-- How many words of `l` bits begin with one of the first `k` codes: `2 ^ (l - m)` for each code of length `m ≤ l`. -/
def codeSpace (lens : List Nat) (l k : Nat) : Nat := ((lens.take k).map fun m => 2 ^ (l - m)).sum

/-- The code emitted `j`-th when `code` is the next of length `cur` (43_huffman_tables R210). -/
def nextCode (lens : List Nat) (cur code j : Nat) : Nat :=
  code * 2 ^ (lens.getD j 0 - cur) + codeSpace lens (lens.getD j 0) j

section
variable {lens : List Nat} {len cur code l m j k : Nat}

theorem codeSpace_cons_succ (len : Nat) (lens : List Nat) (l k : Nat) :
    codeSpace (len :: lens) l (k + 1) = 2 ^ (l - len) + codeSpace lens l k := by
  simp [codeSpace]

theorem codeSpace_succ (hk : k < lens.length) :
    codeSpace lens l (k + 1) = codeSpace lens l k + 2 ^ (l - lens.getD k 0) := by
  rw [codeSpace, List.map_take, List.sum_take_succ _ _ (by simpa using hk), ← List.map_take, List.getElem_map,
    List.getD_eq_getElem _ _ hk, codeSpace]

theorem codeSpace_mono (lens : List Nat) (l : Nat) : Monotone (codeSpace lens l) := fun _ _ h =>
  ((List.take_sublist_take_left h).map _).sum_le_sum fun _ _ => Nat.zero_le _

/-- Longer words: every word of `m` bits goes on to `2 ^ (l - m)` of `l` bits. -/
theorem codeSpace_mul (hle : ∀ x ∈ lens.take k, x ≤ m) (h : m ≤ l) :
    codeSpace lens l k = codeSpace lens m k * 2 ^ (l - m) := by
  rw [codeSpace, codeSpace, ← List.sum_map_mul_right]
  refine congrArg List.sum (List.map_congr_left fun x hx => ?_)
  have hx := hle x hx
  rw [← Nat.pow_add]
  congr 1
  omega

theorem codeSpace_eq_range (hk : k ≤ lens.length) :
    codeSpace lens l k = ((List.range k).map fun i => 2 ^ (l - lens.getD i 0)).sum := by
  induction k with
  | zero => simp [codeSpace]
  | succ k ih => rw [codeSpace_succ hk, ih (by omega), List.sum_range_succ]

theorem nextCode_start (lens : List Nat) (j : Nat) : nextCode lens 1 0 j = codeSpace lens (lens.getD j 0) j := by
  simp [nextCode]

theorem nextCode_zero (lens : List Nat) : nextCode (len :: lens) cur code 0 = code * 2 ^ (len - cur) := by
  simp [nextCode, codeSpace]

/-- After its first code the rest is emitted from the code that follows it. -/
theorem nextCode_succ (hcur : cur ≤ len) (hlen : len ≤ lens.getD j 0) :
    nextCode (len :: lens) cur code (j + 1) = nextCode lens len (code * 2 ^ (len - cur) + 1) j := by
  have hpow : lens.getD j 0 - cur = (len - cur) + (lens.getD j 0 - len) := by omega
  rw [nextCode, List.getD_cons_succ, codeSpace_cons_succ, hpow, Nat.pow_add, nextCode]
  ring

/-! ### The codes that are emitted -/

theorem getD_mem (hj : j < lens.length) : lens.getD j 0 ∈ lens := by
  rw [List.getD_eq_getElem _ _ hj]
  exact List.getElem_mem hj

theorem emitCodes_cons (len : Nat) (lens : List Nat) (cur code : Nat) :
    emitCodes (len :: lens) cur code = if 2 ^ len ≤ code * 2 ^ (len - cur) then none
      else (emitCodes lens len (code * 2 ^ (len - cur) + 1)).map (code * 2 ^ (len - cur) :: ·) := rfl

/-- In rising order of lengths the codes count up, and each is emitted. -/
theorem emitCodes_getD {codes : List Nat} (hsorted : (cur :: lens).Pairwise (· ≤ ·))
    (h : emitCodes lens cur code = some codes) :
    codes.length = lens.length ∧ ∀ j, j < lens.length → codes.getD j 0 = nextCode lens cur code j := by
  induction lens generalizing cur code codes with
  | nil =>
    obtain rfl : [] = codes := Option.some.inj h
    simp
  | cons len lens ih =>
    obtain ⟨hcur, htail⟩ := List.pairwise_cons.1 hsorted
    have hlen := (List.pairwise_cons.1 htail).1
    rw [emitCodes_cons] at h
    split at h
    · cases h
    · obtain ⟨rest, hrest, rfl⟩ := Option.map_eq_some_iff.1 h
      obtain ⟨hlength, hcodes⟩ := ih htail hrest
      refine ⟨congrArg (· + 1) hlength, fun j hj => ?_⟩
      cases j with
      | zero => exact (nextCode_zero lens).symm
      | succ j =>
        have hj := Nat.lt_of_succ_lt_succ hj
        rw [List.getD_cons_succ, hcodes j hj, nextCode_succ (hcur _ (List.mem_cons_self)) (hlen _ (getD_mem hj))]

/-- The codes run out exactly when one of them does not fit its length. -/
theorem emitCodes_eq_none_iff (hsorted : (cur :: lens).Pairwise (· ≤ ·)) :
    emitCodes lens cur code = none ↔ ∃ j, j < lens.length ∧ 2 ^ lens.getD j 0 ≤ nextCode lens cur code j := by
  induction lens generalizing cur code with
  | nil => simp [emitCodes]
  | cons len lens ih =>
    obtain ⟨hcur, htail⟩ := List.pairwise_cons.1 hsorted
    have hlen := (List.pairwise_cons.1 htail).1
    have hrest : (∃ j, j < lens.length ∧ 2 ^ lens.getD j 0 ≤ nextCode (len :: lens) cur code (j + 1)) ↔
        emitCodes lens len (code * 2 ^ (len - cur) + 1) = none := by
      rw [ih htail]
      refine exists_congr fun j => and_congr_right fun hj => ?_
      rw [nextCode_succ (hcur _ List.mem_cons_self) (hlen _ (getD_mem hj))]
    rw [emitCodes_cons, ← Nat.or_exists_add_one]
    simp only [nextCode_zero, List.length_cons, Nat.add_lt_add_iff_right, List.getD_cons_zero, List.getD_cons_succ,
      hrest]
    split
    next hfull => simp [hfull]
    next hfits => simp [hfits]

end

/-! ### The lengths of the codes -/

theorem codeLengths_sorted (counts : List Nat) (len : Nat) : (codeLengths counts len).Pairwise (· ≤ ·) := by
  induction counts generalizing len with
  | nil => exact .nil
  | cons n counts ih =>
    refine List.pairwise_append.2 ⟨List.pairwise_replicate.2 (.inr le_rfl), ih (len + 1), fun a ha b hb => ?_⟩
    have hbound := (codeLengths_bounds hb).1
    rw [List.eq_of_mem_replicate ha]
    omega

theorem codeLengths_start_sorted (counts : List Nat) : (1 :: codeLengths counts 1).Pairwise (· ≤ ·) :=
  List.pairwise_cons.2 ⟨fun _ h => (codeLengths_bounds h).1, codeLengths_sorted counts 1⟩

theorem codeLengths_length (counts : List Nat) (len : Nat) : (codeLengths counts len).length = counts.sum := by
  induction counts generalizing len with
  | nil => rfl
  | cons n counts ih => rw [codeLengths, List.length_append, List.length_replicate, ih, List.sum_cons]

theorem codeLengths_eq_flatMap (counts : List Nat) (len : Nat) :
    codeLengths counts len =
      (List.range counts.length).flatMap fun l => List.replicate (counts.getD l 0) (l + len) := by
  induction counts generalizing len with
  | nil => rfl
  | cons n counts ih =>
    simp [codeLengths, ih, List.range_succ_eq_map, List.flatMap_map, Nat.add_right_comm, ← Nat.add_assoc]

theorem codeLengths_append (counts counts' : List Nat) (len : Nat) :
    codeLengths (counts ++ counts') len = codeLengths counts len ++ codeLengths counts' (len + counts.length) := by
  induction counts generalizing len with
  | nil => rfl
  | cons n counts ih =>
    rw [List.cons_append, codeLengths, codeLengths, ih, List.append_assoc, List.length_cons, Nat.add_assoc,
      Nat.add_comm 1]

/-! ### Two codes (43_huffman_tables R212) -/

section
variable {lens : List Nat} {i j : Nat}

theorem getD_le_of_sorted (hsorted : lens.Pairwise (· ≤ ·)) (h : i ≤ j) (hj : j < lens.length) :
    lens.getD i 0 ≤ lens.getD j 0 := by
  rw [List.getD_eq_getElem _ _ hj, List.getD_eq_getElem _ _ (by omega)]
  obtain rfl | hlt := h.eq_or_lt
  · exact le_rfl
  · exact List.pairwise_iff_getElem.1 hsorted i j _ _ hlt

theorem le_of_mem_take (hsorted : lens.Pairwise (· ≤ ·)) (hj : j < lens.length) :
    ∀ x ∈ lens.take j, x ≤ lens.getD j 0 := by
  intro x hx
  obtain ⟨i, hi, rfl⟩ := List.mem_take_iff_getElem.1 hx
  rw [← List.getD_eq_getElem _ 0 (by omega)]
  exact getD_le_of_sorted hsorted (by omega) hj

/-- A later code lies past every word that an earlier one begins. -/
theorem codeSpace_after (hsorted : lens.Pairwise (· ≤ ·)) (h : i < j) (hj : j < lens.length) :
    (codeSpace lens (lens.getD i 0) i + 1) * 2 ^ (lens.getD j 0 - lens.getD i 0) ≤
      codeSpace lens (lens.getD j 0) j := by
  have hi : i < lens.length := h.trans hj
  calc (codeSpace lens (lens.getD i 0) i + 1) * 2 ^ (lens.getD j 0 - lens.getD i 0)
      = codeSpace lens (lens.getD j 0) (i + 1) := by
        rw [codeSpace_succ hi, codeSpace_mul (le_of_mem_take hsorted hi) (getD_le_of_sorted hsorted h.le hj),
          Nat.add_mul, Nat.one_mul]
    _ ≤ codeSpace lens (lens.getD j 0) j := codeSpace_mono _ _ h

/-- No code begins another. -/
theorem codeSpace_prefixFree (hsorted : lens.Pairwise (· ≤ ·)) (hi : i < lens.length) (hj : j < lens.length)
    (hne : i ≠ j) (hle : lens.getD i 0 ≤ lens.getD j 0) :
    codeSpace lens (lens.getD j 0) j / 2 ^ (lens.getD j 0 - lens.getD i 0) ≠ codeSpace lens (lens.getD i 0) i := by
  obtain hlt | hlt := Nat.lt_or_gt_of_ne hne
  · have hafter := (Nat.le_div_iff_mul_le (Nat.two_pow_pos _)).2 (codeSpace_after hsorted hlt hj)
    omega
  · have heq := hle.antisymm (getD_le_of_sorted hsorted hlt.le hi)
    have hafter := codeSpace_after hsorted hlt hi
    rw [heq, Nat.sub_self, Nat.pow_zero, Nat.mul_one] at hafter
    rw [heq, Nat.sub_self, Nat.pow_zero, Nat.div_one]
    omega

end

/-! ### The Kraft sum of the counts (43_huffman_tables R212) -/

section
variable {counts : List Nat} {l : Nat}

theorem codeLengths_take_append_drop (counts : List Nat) (l : Nat) : codeLengths counts 1 =
    codeLengths (counts.take l) 1 ++ codeLengths (counts.drop l) (1 + (counts.take l).length) := by
  rw [← codeLengths_append, List.take_append_drop]

/-- The codes of length up to `l` are the first ones, as many as their counts sum to. -/
theorem codeLengths_getD_le_iff {j : Nat} (hl : l ≤ counts.length) (hj : j < (codeLengths counts 1).length) :
    (codeLengths counts 1).getD j 0 ≤ l ↔ j < (counts.take l).sum := by
  have htake : (counts.take l).length = l := List.length_take_of_le hl
  rw [codeLengths_take_append_drop counts l, List.length_append, codeLengths_length, codeLengths_length] at hj
  rw [codeLengths_take_append_drop counts l]
  obtain hlt | hge := Nat.lt_or_ge j (counts.take l).sum
  · rw [List.getD_append _ _ _ _ (by rwa [codeLengths_length])]
    have hbound := codeLengths_bounds (getD_mem (lens := codeLengths (counts.take l) 1) (j := j)
      (by rwa [codeLengths_length]))
    exact iff_of_true (by omega) hlt
  · rw [List.getD_append_right _ _ _ _ (by rwa [codeLengths_length])]
    have hbound := codeLengths_bounds (getD_mem (lens := codeLengths (counts.drop l) (1 + (counts.take l).length))
      (j := j - (codeLengths (counts.take l) 1).length) (by rw [codeLengths_length, codeLengths_length]; omega))
    exact iff_of_false (by omega) (by omega)

theorem codeSpace_take_sum (hl : l ≤ counts.length) : codeSpace (codeLengths counts 1) l (counts.take l).sum =
    ((List.range l).map fun i => counts.getD i 0 * 2 ^ (l - (i + 1))).sum := by
  have htake : (counts.take l).length = l := List.length_take_of_le hl
  rw [codeSpace, codeLengths_take_append_drop counts l, List.take_left' (codeLengths_length _ _),
    codeLengths_eq_flatMap, htake, List.map_flatMap, List.flatMap_def, List.sum_flatten, List.map_map]
  refine congrArg List.sum (List.map_congr_left fun i hi => ?_)
  have hi := List.mem_range.1 hi
  simp [hi, List.getD_eq_getElem?_getD]

/-- A code that does not fit its length: the Kraft sum of the counts up to that length is above 1. -/
theorem kraft_of_codeSpace_full {lens : List Nat} (hlens : lens = codeLengths counts 1) {j : Nat} (hj : j < lens.length)
    (hfull : 2 ^ lens.getD j 0 ≤ codeSpace lens (lens.getD j 0) j) : ∃ l, 1 ≤ l ∧ l ≤ counts.length ∧
      2 ^ l < ((List.range l).map fun i => counts.getD i 0 * 2 ^ (l - (i + 1))).sum := by
  subst hlens
  obtain ⟨hlo, hhi⟩ := codeLengths_bounds (getD_mem hj)
  have hle := Nat.le_of_lt_succ (Nat.add_comm 1 _ ▸ hhi)
  refine ⟨_, hlo, hle, ?_⟩
  rw [← codeSpace_take_sum hle]
  refine Nat.lt_of_lt_of_le ?_ (codeSpace_mono _ _ ((codeLengths_getD_le_iff hle hj).1 le_rfl))
  rw [codeSpace_succ hj, Nat.sub_self, Nat.pow_zero]
  omega

/-- A Kraft sum above 1 up to length `l`: the last code of length at most `l` does not fit its length. -/
theorem codeSpace_full_of_kraft {lens : List Nat} (hlens : lens = codeLengths counts 1) (hl : l ≤ counts.length)
    (hover : 2 ^ l < ((List.range l).map fun i => counts.getD i 0 * 2 ^ (l - (i + 1))).sum) :
    ∃ j, j < lens.length ∧ 2 ^ lens.getD j 0 ≤ codeSpace lens (lens.getD j 0) j := by
  rw [← codeSpace_take_sum hl, ← hlens] at hover
  cases hlast : (counts.take l).sum with
  | zero => simp [hlast, codeSpace] at hover
  | succ j =>
    have hsum : (counts.take l).sum ≤ counts.sum := (List.take_sublist l counts).sum_le_sum fun _ _ => Nat.zero_le _
    have hj : j < lens.length := by
      rw [hlens, codeLengths_length]
      omega
    have hle : lens.getD j 0 ≤ l := by
      subst hlens
      exact (codeLengths_getD_le_iff hl hj).2 (by omega)
    have hsorted : lens.Pairwise (· ≤ ·) := hlens ▸ codeLengths_sorted counts 1
    have hpow : 2 ^ l = 2 ^ lens.getD j 0 * 2 ^ (l - lens.getD j 0) := by
      rw [← Nat.pow_add, Nat.add_sub_cancel' hle]
    rw [hlast, codeSpace_succ hj, codeSpace_mul (le_of_mem_take hsorted hj) hle, ← Nat.succ_mul, hpow] at hover
    exact ⟨j, hj, Nat.le_of_lt_succ (Nat.lt_of_mul_lt_mul_right hover)⟩

/-- The codes run out exactly where the Kraft sum of the counts exceeds 1. -/
theorem emitCodes_codeLengths_eq_none_iff (counts : List Nat) :
    emitCodes (codeLengths counts 1) 1 0 = none ↔ ∃ l, 1 ≤ l ∧ l ≤ counts.length ∧
      2 ^ l < ((List.range l).map fun i => counts.getD i 0 * 2 ^ (l - (i + 1))).sum := by
  rw [emitCodes_eq_none_iff (codeLengths_start_sorted counts)]
  simp only [nextCode_start]
  exact ⟨fun ⟨_, hj, hfull⟩ => kraft_of_codeSpace_full rfl hj hfull,
    fun ⟨_, _, hl, hover⟩ => codeSpace_full_of_kraft rfl hl hover⟩

end

end Sys2Proof.Machine
end

section
/-! PROOFS. HuffBuild and EHBUILD: when a specification is refused, and the table it builds otherwise
(43_huffman_tables R210 to R212). -/

namespace Sys2Proof.Machine

/-! ### What HuffBuild reads (10_state R43) -/

theorem vector_getD_eq_getElem {α : Type} {n i : Nat} (v : Vector α n) (d : α) (h : i < n) : v.getD i d = v[i] := by
  simp [Vector.getD, h]

section
variable (h : HSpec)

theorem HSpec.counts_length : h.counts.length = 16 := by simp [HSpec.counts]

theorem HSpec.counts_getD (l : Nat) : h.counts.getD l 0 = (h.bits.getD l 0).toNat := by
  by_cases hl : l < 16 <;> simp [HSpec.counts, Vector.getD, List.getD_eq_getElem?_getD, hl]

theorem HSpec.total_eq : h.total = ((List.range 16).map fun l => (h.bits.getD l 0).toNat).sum := by
  rw [HSpec.total]
  refine congrArg List.sum (List.ext_getElem (by simp [HSpec.counts]) fun l hl _ => ?_)
  rw [← List.getD_eq_getElem _ 0 hl, h.counts_getD]
  simp

theorem HSpec.symbols_eq {h : HSpec} (htotal : h.total ≤ 256) :
    h.symbols = (List.range h.total).map fun j => h.vals.getD j 0 := by
  refine List.ext_getElem (by simp [HSpec.symbols, htotal]) fun j hj hj' => ?_
  have hlt : j < 256 := by simp [HSpec.symbols] at hj; omega
  simp [HSpec.symbols, vector_getD_eq_getElem _ _ hlt]

/-- The lengths of the codes in the order they are emitted. -/
def HSpec.lens : List Nat := codeLengths h.counts 1

theorem HSpec.lens_length : h.lens.length = h.total := codeLengths_length h.counts 1

theorem HSpec.lens_sorted : h.lens.Pairwise (· ≤ ·) := codeLengths_sorted h.counts 1

theorem HSpec.lens_start_sorted : (1 :: h.lens).Pairwise (· ≤ ·) := codeLengths_start_sorted h.counts

theorem HSpec.lens_eq : h.lens = (List.range 16).flatMap fun l => List.replicate (h.bits.getD l 0).toNat (l + 1) := by
  rw [HSpec.lens, codeLengths_eq_flatMap, h.counts_length]
  simp only [h.counts_getD]

end

/-! ### The four refusals (43_huffman_tables R210) -/

theorem noRepeats_iff (l : List Byte) : noRepeats l = true ↔ l.Nodup := by
  induction l with
  | nil => simp [noRepeats]
  | cons b l ih => simp [noRepeats, ih]

theorem huffBuild_eq_none_iff_lists (t : Fin 4) (h : HSpec) : huffBuild t h = none ↔
    256 < h.total ∨ (t.val ≤ 1 ∧ ∃ sym ∈ h.symbols, 11 < sym.toNat) ∨ ¬ h.symbols.Nodup ∨
      emitCodes h.lens 1 0 = none := by
  have hany : (h.symbols.any fun s => decide (11 < s.toNat)) = true ↔ ∃ sym ∈ h.symbols, 11 < sym.toNat := by simp
  rw [← hany, ← noRepeats_iff, Bool.not_eq_true, HSpec.lens]
  unfold huffBuild
  split_ifs with htotal hdc hrepeat
  · simp [htotal]
  · simp [hdc]
  · simp [hrepeat]
  · rw [or_iff_right htotal, or_iff_right hdc, or_iff_right hrepeat]
    dsimp only
    split
    next hnone => simp [hnone]
    next codes hsome => simp [hsome]

/-- HuffSpec in exactly the four cases, with the fourth as a Kraft sum (43_huffman_tables R210, R212). -/
theorem huffBuild_eq_none_iff (t : Fin 4) (h : HSpec) : huffBuild t h = none ↔
    256 < h.total ∨
    (t.val ≤ 1 ∧ ∃ j, j < h.total ∧ 11 < (h.vals.getD j 0).toNat) ∨
    (∃ j k, j < k ∧ k < h.total ∧ h.vals.getD j 0 = h.vals.getD k 0) ∨
    ∃ l, 1 ≤ l ∧ l ≤ 16 ∧ 2 ^ l < ((List.range l).map fun i => (h.bits.getD i 0).toNat * 2 ^ (l - (i + 1))).sum := by
  have hcodes := emitCodes_codeLengths_eq_none_iff h.counts
  simp only [h.counts_length, h.counts_getD] at hcodes
  rw [huffBuild_eq_none_iff_lists, HSpec.lens, hcodes]
  refine or_congr_right' fun htotal => ?_
  rw [HSpec.symbols_eq (Nat.le_of_not_lt htotal)]
  refine or_congr ?_ (or_congr_left ?_)
  · simp
  · rw [List.Nodup, List.pairwise_map, List.pairwise_iff_getElem]
    simp only [List.length_range, List.getElem_range]
    push Not
    exact ⟨fun ⟨j, k, _, hk, hjk, heq⟩ => ⟨j, k, hjk, hk, heq⟩,
      fun ⟨j, k, hjk, hk, heq⟩ => ⟨j, k, hjk.trans hk, hk, hjk, heq⟩⟩

/-! ### EHBUILD (43_huffman_tables R211) -/

theorem exec_ehbuild_refused {t : BitVec 2} {s : State} (h : huffBuild t.toFin s.hspec[t.toFin] = none) :
    exec (.ehbuild t) s = .next (failedWith .huffSpec s) := by
  rw [exec_eq_runCommand]
  obtain ⟨table, hbuild, -⟩ | ⟨-, hrun⟩ := ehbuildBody_cases t s
  · exact absurd (hbuild.symm.trans h) (Option.some_ne_none table)
  · exact runCommand_error hrun

theorem exec_ehbuild_built {t : BitVec 2} {s : State} {table : EHufTable}
    (h : huffBuild t.toFin s.hspec[t.toFin] = some table) :
    exec (.ehbuild t) s = .next (completed (s.setEhuf (s.ehuf.set t.toFin table))) := by
  rw [exec_eq_runCommand]
  obtain ⟨table', hbuild, hrun⟩ | ⟨hnone, -⟩ := ehbuildBody_cases t s
  · obtain rfl := Option.some.inj (hbuild.symm.trans h)
    exact runCommand_ok hrun
  · exact absurd (hnone.symm.trans h).symm (Option.some_ne_none table)

/-- Settles O38: `huffBuild` answers none in the four cases, and EHBUILD raises exactly then. -/
theorem ehbuildBuildsOrRefuses : Obligations.EhbuildBuildsOrRefuses := by
  unfold Obligations.EhbuildBuildsOrRefuses
  refine ⟨fun w => ?_, fun t s => ⟨rfl, ?_⟩⟩
  · exact legalWord_of_reserved_field
      (r := ⟨"EHBUILD", 0x18#8, 0x00000300#32, fun w => .ehbuild (w.extractLsb' 8 2)⟩)
      (by simp [opcodeRows, encodeSideRows]) (by decide)
  · intro h count total refused
    have hrefused : huffBuild t.toFin h = none ↔ refused := by
      rw [huffBuild_eq_none_iff, h.total_eq]
      exact Iff.rfl
    refine ⟨fun href => exec_ehbuild_refused (hrefused.2 href), fun href => ?_⟩
    obtain ⟨table, hbuild⟩ := Option.ne_none_iff_exists'.1 fun hnone => href (hrefused.1 hnone)
    exact ⟨table, hbuild, exec_ehbuild_built hbuild⟩

end Sys2Proof.Machine
end

section
/-! PROOFS. A built table: the entry of each symbol in closed form, and no code begins another (43_huffman_tables R210,
R212, R214). -/

namespace Sys2Proof.Machine

/-! ### The rows of a table (43_huffman_tables R210) -/

/-- Where no symbol has two rows, a row gives its symbol the entry. -/
theorem entryOf_of_mem {rows : List (Byte × Nat × Nat)} (hnodup : (rows.map Prod.fst).Nodup) {sym : Byte}
    {len code : Nat} (hmem : (sym, len, code) ∈ rows) :
    entryOf rows sym = ⟨BitVec.ofNat 16 code, BitVec.ofNat 5 len⟩ := by
  unfold entryOf
  split
  next sym' len' code' hfind =>
    have hsym : sym' = sym := by simpa using List.find?_some hfind
    have hrow := List.inj_on_of_nodup_map hnodup (List.mem_of_find?_eq_some hfind) hmem hsym
    rw [Prod.mk.injEq, Prod.mk.injEq] at hrow
    rw [hrow.2.1, hrow.2.2]
  next hfind =>
    have hne := List.find?_eq_none.1 hfind _ hmem
    simp at hne

theorem getD_ofFn_entryOf (rows : List (Byte × Nat × Nat)) {sym : Nat} (hsym : sym < 256) :
    (Vector.ofFn fun s : Fin 256 => entryOf rows (BitVec.ofNat 8 s)).getD sym .absent =
      entryOf rows (BitVec.ofNat 8 sym) := by
  rw [vector_getD_eq_getElem _ _ hsym, Vector.getElem_ofFn]

/-! ### The entries of a built table -/

section
variable {t : Fin 4} {h : HSpec} {table : EHufTable}

theorem HSpec.lens_bounds (h : HSpec) {j : Nat} (hj : j < h.total) : 1 ≤ h.lens.getD j 0 ∧ h.lens.getD j 0 ≤ 16 := by
  obtain ⟨hlo, hhi⟩ := codeLengths_bounds (getD_mem (h.lens_length.symm ▸ hj))
  rw [h.counts_length] at hhi
  exact ⟨hlo, Nat.le_of_lt_succ hhi⟩

theorem total_le_of_built (hbuild : huffBuild t h = some table) : h.total ≤ 256 :=
  Nat.le_of_not_lt fun hlt =>
    Option.some_ne_none table (hbuild.symm.trans ((huffBuild_eq_none_iff_lists t h).2 (.inl hlt)))

theorem nodup_of_built (hbuild : huffBuild t h = some table) : h.symbols.Nodup := by
  by_contra hrepeat
  exact Option.some_ne_none table
    (hbuild.symm.trans ((huffBuild_eq_none_iff_lists t h).2 (.inr (.inr (.inl hrepeat)))))

/-- A listed symbol's row: its length, and as its code the space of the codes before it, which fits the length. -/
theorem built_row (hbuild : huffBuild t h = some table) {j : Nat} (hj : j < h.total) :
    table.getD (h.vals.getD j 0).toNat .absent =
        ⟨BitVec.ofNat 16 (codeSpace h.lens (h.lens.getD j 0) j), BitVec.ofNat 5 (h.lens.getD j 0)⟩ ∧
      codeSpace h.lens (h.lens.getD j 0) j < 2 ^ h.lens.getD j 0 := by
  obtain ⟨codes, hcodes, -, rfl⟩ := huffBuild_rows hbuild
  rw [← HSpec.lens] at hcodes
  obtain ⟨hlength, hcode⟩ := emitCodes_getD h.lens_start_sorted hcodes
  have hsymbols := HSpec.symbols_eq (total_le_of_built hbuild)
  have hjlens : j < h.lens.length := h.lens_length.symm ▸ hj
  have hjcodes : j < codes.length := hlength.symm ▸ hjlens
  have hkeys : ((h.symbols.zip (h.lens.zip codes)).map Prod.fst).Nodup := by
    rw [List.map_fst_zip (by simp [hsymbols, hlength, h.lens_length])]
    exact nodup_of_built hbuild
  have hmem : (h.vals.getD j 0, h.lens.getD j 0, codes.getD j 0) ∈ h.symbols.zip (h.lens.zip codes) := by
    refine List.mem_iff_getElem.2 ⟨j, by simp [hsymbols, hj, hjlens, hjcodes], ?_⟩
    rw [List.getD_eq_getElem _ _ hjlens, List.getD_eq_getElem _ _ hjcodes]
    simp [hsymbols]
  have hspace : codes.getD j 0 = codeSpace h.lens (h.lens.getD j 0) j := (hcode j hjlens).trans (nextCode_start _ j)
  rw [hspace] at hmem
  rw [getD_ofFn_entryOf _ (BitVec.isLt _), BitVec.ofNat_toNat, BitVec.setWidth_eq]
  exact ⟨entryOf_of_mem hkeys hmem, emitCodes_lt hcodes _ (List.of_mem_zip hmem).2⟩

theorem built_size (hbuild : huffBuild t h = some table) {j : Nat} (hj : j < h.total) :
    (table.getD (h.vals.getD j 0).toNat .absent).size.toNat = h.lens.getD j 0 := by
  have hle := (h.lens_bounds hj).2
  rw [(built_row hbuild hj).1, BitVec.toNat_ofNat, Nat.mod_eq_of_lt (by omega)]

theorem built_code (hbuild : huffBuild t h = some table) {j : Nat} (hj : j < h.total) :
    (table.getD (h.vals.getD j 0).toNat .absent).code.toNat = codeSpace h.lens (h.lens.getD j 0) j := by
  obtain ⟨hrow, hfit⟩ := built_row hbuild hj
  have hpow : 2 ^ h.lens.getD j 0 ≤ 2 ^ 16 := Nat.pow_le_pow_right (by omega) (h.lens_bounds hj).2
  rw [hrow, BitVec.toNat_ofNat, Nat.mod_eq_of_lt (hfit.trans_le hpow)]

theorem built_entry_absent (hbuild : huffBuild t h = some table) {sym : Nat} (hsym : sym < 256)
    (hnot : ∀ j, j < h.total → (h.vals.getD j 0).toNat ≠ sym) : table.getD sym .absent = .absent := by
  obtain ⟨codes, -, -, rfl⟩ := huffBuild_rows hbuild
  rw [getD_ofFn_entryOf _ hsym]
  refine entryOf_absent ?_
  rintro ⟨b, len, code⟩ hr rfl
  have hb := (List.of_mem_zip hr).1
  rw [HSpec.symbols_eq (total_le_of_built hbuild)] at hb
  obtain ⟨j, hj, hval⟩ := List.mem_map.1 hb
  refine hnot j (List.mem_range.1 hj) ?_
  rw [hval, BitVec.toNat_ofNat, Nat.mod_eq_of_lt hsym]

theorem listed_of_size_ne_zero (hbuild : huffBuild t h = some table) {sym : Nat} (hsym : sym < 256)
    (hne : (table.getD sym .absent).size ≠ 0) : ∃ j, j < h.total ∧ (h.vals.getD j 0).toNat = sym := by
  by_contra hnot
  push Not at hnot
  exact hne (congrArg EHufEntry.size (built_entry_absent hbuild hsym hnot))

/-- The symbols with a code are those listed. -/
theorem built_size_ne_zero_iff (hbuild : huffBuild t h = some table) {sym : Nat} (hsym : sym < 256) :
    (table.getD sym .absent).size ≠ 0 ↔ ∃ j, j < h.total ∧ (h.vals.getD j 0).toNat = sym := by
  refine ⟨listed_of_size_ne_zero hbuild hsym, ?_⟩
  rintro ⟨j, hj, rfl⟩ hzero
  have hsize := built_size hbuild hj
  have hpos := (h.lens_bounds hj).1
  rw [hzero, BitVec.ofNat_eq_ofNat, BitVec.toNat_zero] at hsize
  omega

theorem built_dc_absent (hbuild : huffBuild t h = some table) (ht : t.val ≤ 1) {sym : Nat} (hlo : 12 ≤ sym)
    (hsym : sym < 256) : table.getD sym .absent = .absent := by
  obtain ⟨-, -, hdc, -⟩ := huffBuild_rows hbuild
  refine built_entry_absent hbuild hsym fun j hj heq => ?_
  have hmem : h.vals.getD j 0 ∈ h.symbols := by
    rw [HSpec.symbols_eq (total_le_of_built hbuild)]
    exact List.mem_map.2 ⟨j, List.mem_range.2 hj, rfl⟩
  have hle := hdc ht _ hmem
  omega

/-! ### The codes of a table (43_huffman_tables R212) -/

/-- The codes of a table fit their lengths, and none begins another symbol's. -/
structure PrefixCode (table : EHufTable) : Prop where
  fits : ∀ sym, sym < 256 → (table.getD sym .absent).code.toNat < 2 ^ (table.getD sym .absent).size.toNat
  prefixFree : ∀ a b, a < 256 → b < 256 → a ≠ b → (table.getD a .absent).size ≠ 0 →
    (table.getD a .absent).size.toNat ≤ (table.getD b .absent).size.toNat →
    (table.getD b .absent).code.toNat / 2 ^ ((table.getD b .absent).size.toNat - (table.getD a .absent).size.toNat) ≠
      (table.getD a .absent).code.toNat

theorem prefixCode_of_built (hbuild : huffBuild t h = some table) : PrefixCode table where
  fits sym hsym := by
    have hall := (Bool.and_eq_true_iff.1 (huffBuild_ok hbuild)).1
    have hok := List.all_eq_true.1 hall table[sym] (Vector.mem_toList_iff.2 (Vector.getElem_mem hsym))
    rw [vector_getD_eq_getElem _ _ hsym]
    exact (of_decide_eq_true hok).2
  prefixFree a b ha hb hne hcode hle := by
    have hcode' : (table.getD b .absent).size ≠ 0 := fun hzero =>
      hcode (BitVec.eq_of_toNat_eq (Nat.eq_zero_of_le_zero (hle.trans_eq (congrArg BitVec.toNat hzero))))
    obtain ⟨i, hi, rfl⟩ := listed_of_size_ne_zero hbuild ha hcode
    obtain ⟨j, hj, rfl⟩ := listed_of_size_ne_zero hbuild hb hcode'
    rw [built_size hbuild hi, built_size hbuild hj] at hle
    rw [built_size hbuild hi, built_code hbuild hi, built_size hbuild hj, built_code hbuild hj]
    rw [← h.lens_length] at hi hj
    exact codeSpace_prefixFree h.lens_sorted hi hj (fun hij => hne (by rw [hij])) hle

end

/-- Settles O39: the entries of a built table, from the closed form of the emitted codes. -/
theorem builtCodesPrefixFree : Obligations.BuiltCodesPrefixFree := by
  unfold Obligations.BuiltCodesPrefixFree
  intro t h table hbuild
  dsimp only
  rw [← h.lens_eq]
  refine ⟨h.lens_length, fun j hj => ?_, fun sym hsym hnot => built_entry_absent hbuild hsym hnot,
    fun ht sym hlo hsym => built_dc_absent hbuild ht hlo hsym, (prefixCode_of_built hbuild).fits,
    (prefixCode_of_built hbuild).prefixFree⟩
  obtain ⟨hpos, hle⟩ := h.lens_bounds hj
  exact ⟨built_size hbuild hj, hpos, hle,
    (built_code hbuild hj).trans (codeSpace_eq_range (h.lens_length.symm ▸ hj.le))⟩

/-! ### The tables after reset (43_huffman_tables R214) -/

theorem ehufRom_built (t : Fin 4) : huffBuild t (hspecRom t) = some (ehufRom t) := by
  have hsome : ∀ t : Fin 4, (huffBuild t (hspecRom t)).isSome = true := by decide +kernel
  obtain ⟨table, htable⟩ := Option.isSome_iff_exists.1 (hsome t)
  rw [ehufRom, htable, Option.getD_some]

theorem hspecRom_total : ∀ t : Fin 4, (hspecRom t).total = (hspecRomVals t).length := by decide +kernel

theorem hspecRomVals_lt : ∀ t : Fin 4, ∀ sym ∈ hspecRomVals t, sym < 256 := by decide +kernel

theorem hspecRom_vals (t : Fin 4) {j : Nat} (hj : j < (hspecRomVals t).length) :
    ((hspecRom t).vals.getD j 0).toNat = (hspecRomVals t).getD j 0 := by
  have hlt : j < 256 := hj.trans_le (hspecRom_total t ▸ total_le_of_built (ehufRom_built t))
  rw [vector_getD_eq_getElem _ _ hlt, hspecRom, Vector.getElem_ofFn, BitVec.toNat_ofNat,
    Nat.mod_eq_of_lt (hspecRomVals_lt t _ (getD_mem hj))]

/-- After reset the symbols with a code are those of HSPEC_ROM. -/
theorem ehufRom_size_ne_zero_iff (t : Fin 4) {sym : Nat} (hsym : sym < 256) :
    ((ehufRom t).getD sym .absent).size ≠ 0 ↔ sym ∈ hspecRomVals t := by
  rw [built_size_ne_zero_iff (ehufRom_built t) hsym, hspecRom_total]
  constructor
  · rintro ⟨j, hj, rfl⟩
    exact hspecRom_vals t hj ▸ getD_mem hj
  · intro hmem
    obtain ⟨j, hj, rfl⟩ := List.mem_iff_getElem.1 hmem
    exact ⟨j, hj, (hspecRom_vals t hj).trans (List.getD_eq_getElem _ _ hj)⟩

theorem mem_acRomVals_iff : ∀ sym, sym < 256 → ∀ t : Fin 4, 2 ≤ t.val →
    (sym ∈ hspecRomVals t ↔ (1 ≤ sym % 16 ∧ sym % 16 ≤ 10) ∨ sym = 0x00 ∨ sym = 0xF0) := by decide +kernel

/-- The entry HSPEC_ROM t gives a symbol it lists, from the place of the symbol in the list. -/
def romEntry (t : Fin 4) (sym : Nat) : EHufEntry :=
  let len := (hspecRom t).lens.getD ((hspecRomVals t).idxOf sym) 0
  ⟨BitVec.ofNat 16 (codeSpace (hspecRom t).lens len ((hspecRomVals t).idxOf sym)), BitVec.ofNat 5 len⟩

theorem ehufRom_word {t : Fin 4} {sym : Nat} {w : Word}
    (h : sym ∈ hspecRomVals t ∧ (romEntry t sym).toWord = w) : ((ehufRom t).getD sym .absent).toWord = w := by
  obtain ⟨hmem, hw⟩ := h
  have hj := List.idxOf_lt_length_of_mem hmem
  have hrow := (built_row (ehufRom_built t) (hspecRom_total t ▸ hj)).1
  rw [hspecRom_vals t hj, List.getD_eq_getElem _ _ hj, List.getElem_idxOf] at hrow
  rw [hrow, ← hw]
  rfl

/-- Settles O40: HSPEC_ROM builds, each sample word is its symbol's row, and a symbol has a code where HSPEC_ROM lists
it. -/
theorem encoderTablesAfterReset : Obligations.EncoderTablesAfterReset := by
  unfold Obligations.EncoderTablesAfterReset
  refine ⟨ehufRom_built, ?_, fun sym hsym t ht =>
    (ehufRom_size_ne_zero_iff t hsym).trans (mem_acRomVals_iff sym hsym t ht)⟩
  and_intros <;> exact ehufRom_word (by decide +kernel)

end Sys2Proof.Machine
end

section
/-! PROOFS. The coding of a block loses nothing: its bits are read back symbol by symbol, and the symbols with their
value bits give the coefficients (45_entropy R262, R263, 43_huffman_tables R212). -/

namespace Sys2Proof.Machine

/-! ### Symbols and the bits after them -/

/-- A symbol and the value bits that follow its code. -/
structure CodedSymbol where
  sym : Nat
  value : List Bool

/-- The bits of a symbol's code. -/
def symbolBits (table : EHufTable) (sym : Nat) : List Bool :=
  fieldBits (table.getD sym .absent).code.toNat (table.getD sym .absent).size.toNat

def CodedSymbol.bits (table : EHufTable) (c : CodedSymbol) : List Bool := symbolBits table c.sym ++ c.value

/-- The symbol has a code, and its low four bits give the number of its value bits (45_entropy R263). -/
structure CodedSymbol.Legal (table : EHufTable) (c : CodedSymbol) : Prop where
  lt : c.sym < 256
  coded : (table.getD c.sym .absent).size ≠ 0
  length : c.value.length = c.sym % 16

section
variable {table : EHufTable} {a b : Nat} {x y : List Bool}

theorem symbolBits_take (hle : (table.getD a .absent).size.toNat ≤ (table.getD b .absent).size.toNat)
    (heq : symbolBits table a ++ x = symbolBits table b ++ y) :
    symbolBits table a = (symbolBits table b).take (table.getD a .absent).size.toNat := by
  have htake := congrArg (List.take (table.getD a .absent).size.toNat) heq
  rwa [List.take_left' (by simp [symbolBits]), List.take_append_of_le_length (by simpa [symbolBits] using hle)] at htake

/-- No code begins another: the shorter of two codes that begin the same bits is the other. -/
theorem PrefixCode.sym_eq_of_le (h : PrefixCode table) (ha : a < 256) (hb : b < 256)
    (hcode : (table.getD a .absent).size ≠ 0)
    (hle : (table.getD a .absent).size.toNat ≤ (table.getD b .absent).size.toNat)
    (heq : symbolBits table a ++ x = symbolBits table b ++ y) : a = b := by
  by_contra hne
  have hvalue := congrArg bitsValue (symbolBits_take hle heq)
  have hhigh : (table.getD b .absent).code.toNat /
      2 ^ ((table.getD b .absent).size.toNat - (table.getD a .absent).size.toNat) <
      2 ^ (table.getD a .absent).size.toNat := by
    rw [Nat.div_lt_iff_lt_mul (Nat.two_pow_pos _), ← Nat.pow_add, Nat.add_sub_cancel' hle]
    exact h.fits b hb
  rw [symbolBits, symbolBits, fieldBits_take _ hle, bitsValue_fieldBits, bitsValue_fieldBits,
    Nat.mod_eq_of_lt (h.fits a ha), Nat.mod_eq_of_lt hhigh] at hvalue
  exact h.prefixFree a b ha hb hne hcode hle hvalue.symm

theorem PrefixCode.sym_eq (h : PrefixCode table) (ha : a < 256) (hb : b < 256)
    (hcodea : (table.getD a .absent).size ≠ 0) (hcodeb : (table.getD b .absent).size ≠ 0)
    (heq : symbolBits table a ++ x = symbolBits table b ++ y) : a = b := by
  obtain hle | hle := Nat.le_total (table.getD a .absent).size.toNat (table.getD b .absent).size.toNat
  · exact h.sym_eq_of_le ha hb hcodea hle heq
  · exact (h.sym_eq_of_le hb ha hcodeb hle heq.symm).symm

/-- The bits give the first symbol, its value bits and the bits after them. -/
theorem PrefixCode.head_eq (h : PrefixCode table) {c d : CodedSymbol} (hc : c.Legal table) (hd : d.Legal table)
    (heq : c.bits table ++ x = d.bits table ++ y) : c = d ∧ x = y := by
  obtain ⟨sym, value⟩ := c
  obtain ⟨sym', value'⟩ := d
  rw [CodedSymbol.bits, CodedSymbol.bits, List.append_assoc, List.append_assoc] at heq
  obtain rfl : sym = sym' := h.sym_eq hc.lt hd.lt hc.coded hd.coded heq
  obtain ⟨rfl, hrest⟩ := List.append_inj (List.append_cancel_left heq) (hc.length.trans hd.length.symm)
  exact ⟨rfl, hrest⟩

theorem CodedSymbol.Legal.bits_ne_nil {c : CodedSymbol} (h : c.Legal table) : c.bits table ≠ [] := by
  intro hnil
  have hlength := congrArg List.length (List.append_eq_nil_iff.1 hnil).1
  rw [symbolBits, fieldBits_length, List.length_nil] at hlength
  exact h.coded (BitVec.eq_of_toNat_eq hlength)

/-- The bits give all the symbols. -/
theorem PrefixCode.symbols_eq (h : PrefixCode table) {cs ds : List CodedSymbol} (hcs : ∀ c ∈ cs, c.Legal table)
    (hds : ∀ d ∈ ds, d.Legal table)
    (heq : cs.flatMap (CodedSymbol.bits table) = ds.flatMap (CodedSymbol.bits table)) : cs = ds := by
  induction cs generalizing ds with
  | nil =>
    cases ds with
    | nil => rfl
    | cons d ds =>
      exact absurd (List.append_eq_nil_iff.1 heq.symm).1 (hds d List.mem_cons_self).bits_ne_nil
  | cons c cs ih =>
    cases ds with
    | nil => exact absurd (List.append_eq_nil_iff.1 heq).1 (hcs c List.mem_cons_self).bits_ne_nil
    | cons d ds =>
      obtain ⟨hc, hcs⟩ := List.forall_mem_cons.1 hcs
      obtain ⟨hd, hds'⟩ := List.forall_mem_cons.1 hds
      obtain ⟨rfl, hrest⟩ := h.head_eq hc hd heq
      exact congrArg (c :: ·) (ih hcs hds' hrest)

end

/-! ### The value bits (45_entropy R262) -/

theorem bitlen_bounds {m : Nat} (h : m ≠ 0) : 2 ^ bitlen m ≤ 2 * m ∧ m < 2 ^ bitlen m := by
  rw [bitlen, if_neg h, Nat.pow_succ']
  exact ⟨Nat.mul_le_mul_left 2 (Nat.log2_self_le h), Nat.pow_succ' ▸ Nat.lt_log2_self⟩

theorem valueBits_of_nonneg {v : Int} (h : 0 ≤ v) (n : Nat) : valueBits v n = v.natAbs := by
  rw [valueBits, if_pos h]
  omega

theorem valueBits_of_neg {v : Int} {n : Nat} (h : v < 0) (hn : v.natAbs < 2 ^ n) :
    valueBits v n = 2 ^ n - 1 - v.natAbs := by
  have hpow : (2 : Int) ^ n = (2 ^ n : Nat) := (Nat.cast_pow 2 n).symm
  rw [valueBits, if_neg (by omega), hpow]
  generalize 2 ^ n = p at hn
  have hmod : (v - 1) % p = v - 1 + p := by
    rw [← Int.add_emod_right, Int.emod_eq_of_lt (by omega) (by omega)]
  omega

/-- The integer that value bits stand for. -/
def valueOf (bits : List Bool) : Int :=
  if 2 ^ bits.length ≤ 2 * bitsValue bits then bitsValue bits else bitsValue bits + 1 - (2 ^ bits.length : Nat)

theorem valueOf_valueBits (v : Int) :
    valueOf (fieldBits (valueBits v (bitlen v.natAbs)) (bitlen v.natAbs)) = v := by
  obtain rfl | hne := eq_or_ne v 0
  · decide
  · obtain ⟨hlo, hhi⟩ := bitlen_bounds (Int.natAbs_ne_zero.2 hne)
    rw [valueOf, fieldBits_length, bitsValue_fieldBits]
    obtain hpos | hneg := le_or_gt 0 v
    · rw [valueBits_of_nonneg hpos, Nat.mod_eq_of_lt hhi, if_pos hlo]
      omega
    · rw [valueBits_of_neg hneg hhi]
      generalize 2 ^ bitlen v.natAbs = p at hlo hhi
      rw [Nat.mod_eq_of_lt (by omega), if_neg (by omega)]
      omega

/-! ### The symbols of a block (45_entropy R263) -/

/-- The coefficients an AC symbol stands for: its run of zeros, then the value. So ZRL is 15 zeros and the value 0, and
EOB one zero. -/
def CodedSymbol.coefs (c : CodedSymbol) : List Int := List.replicate (c.sym / 16) 0 ++ [valueOf c.value]

/-- The fields are the bits of the symbols `cs`, each with a code. -/
structure CodesSymbols (table : EHufTable) (fields : List Field) (cs : List CodedSymbol) : Prop where
  legal : ∀ c ∈ cs, c.Legal table
  bits : bitsOfFields fields = cs.flatMap (CodedSymbol.bits table)

section
variable {table dc ac : EHufTable} {fields more : List Field} {cs ds : List CodedSymbol} {sym run : Nat} {code : Field}

theorem CodesSymbols.nil : CodesSymbols table [] [] := ⟨by simp, rfl⟩

theorem CodesSymbols.append (h : CodesSymbols table fields cs) (h' : CodesSymbols table more ds) :
    CodesSymbols table (fields ++ more) (cs ++ ds) where
  legal c hc := (List.mem_append.1 hc).elim (h.legal c) (h'.legal c)
  bits := by
    rw [bitsOfFields, List.flatMap_append, List.flatMap_append]
    exact congrArg₂ _ h.bits h'.bits

theorem CodesSymbols.replicate {c : CodedSymbol} (h : CodesSymbols table [code] [c]) (n : Nat) :
    CodesSymbols table (List.replicate n code) (List.replicate n c) := by
  induction n with
  | zero => exact .nil
  | succ n ih => exact h.append ih

theorem codeField_eq_some_iff : codeField table sym = some code ↔ (table.getD sym .absent).size ≠ 0 ∧
    code = ((table.getD sym .absent).code.toNat, (table.getD sym .absent).size.toNat) := by
  simp [codeField, eq_comm]

/-- A code and the value bits after it. -/
theorem codesSymbols_value (hcode : codeField table sym = some code) (hsym : sym < 256) (v : Nat) {n : Nat}
    (hn : n = sym % 16) : CodesSymbols table [code, (v, n)] [⟨sym, fieldBits v n⟩] := by
  obtain ⟨hcoded, rfl⟩ := codeField_eq_some_iff.1 hcode
  exact ⟨by simpa using ⟨hsym, hcoded, by simpa using hn⟩, by simp [bitsOfFields, CodedSymbol.bits, symbolBits]⟩

/-- A code alone. -/
theorem codesSymbols_code (hcode : codeField table sym = some code) (hsym : sym < 256) (hzero : sym % 16 = 0) :
    CodesSymbols table [code] [⟨sym, []⟩] := by
  obtain ⟨hlegal, hbits⟩ := codesSymbols_value hcode hsym 0 hzero.symm
  exact ⟨hlegal, by simpa [bitsOfFields, fieldBits] using hbits⟩

theorem flatMap_coefs_zrl (n : Nat) :
    (List.replicate n (⟨0xF0, []⟩ : CodedSymbol)).flatMap CodedSymbol.coefs = List.replicate (16 * n) 0 := by
  induction n with
  | zero => rfl
  | succ n ih =>
    rw [List.replicate_succ, List.flatMap_cons, ih, Nat.mul_succ, Nat.add_comm, List.replicate_add]
    rfl

theorem zrlFields_symbols (h : zrlFields table run = some fields) :
    CodesSymbols table fields (List.replicate (run / 16) ⟨0xF0, []⟩) := by
  unfold zrlFields at h
  split at h
  next hrun =>
    obtain rfl : [] = fields := Option.some.inj h
    rw [Nat.div_eq_of_lt hrun]
    exact .nil
  next =>
    obtain ⟨zrl, hzrl, rfl⟩ := Option.map_eq_some_iff.1 h
    exact (codesSymbols_code hzrl (by omega) (by omega)).replicate _

/-- The fields of a nonzero coefficient: ZRL for each 16 zeros, then the rest of the run with the value. -/
theorem acCoefFields_symbols {v : Int} (h : acCoefFields table run v = some fields) :
    ∃ cs, CodesSymbols table fields cs ∧ cs.flatMap CodedSymbol.coefs = List.replicate run 0 ++ [v] := by
  obtain ⟨zrl, hzrl, h⟩ := Option.bind_eq_some_iff.1 h
  dsimp only at h
  split at h
  · cases h
  next hsize =>
    obtain ⟨code, hcode, h⟩ := Option.bind_eq_some_iff.1 h
    obtain rfl := Option.some.inj h
    refine ⟨_, (zrlFields_symbols hzrl).append (codesSymbols_value hcode (by omega) _ (by omega)), ?_⟩
    have hrun : (run % 16 * 16 + bitlen v.natAbs) / 16 = run % 16 := by omega
    rw [List.flatMap_append, flatMap_coefs_zrl, List.flatMap_singleton, CodedSymbol.coefs, valueOf_valueBits, hrun,
      ← List.append_assoc, ← List.replicate_add, Nat.div_add_mod]

/-- The fields of the AC coefficients stand for them, but for the zeros after an EOB. -/
theorem acFields_symbols {vs : List Int} (h : acFields table run vs = some fields) :
    ∃ cs k, CodesSymbols table fields cs ∧
      List.replicate run 0 ++ vs = cs.flatMap CodedSymbol.coefs ++ List.replicate k 0 := by
  induction vs generalizing run fields with
  | nil =>
    rw [acFields] at h
    split at h
    next hrun =>
      obtain rfl : [] = fields := Option.some.inj h
      exact ⟨[], 0, .nil, by rw [hrun]; rfl⟩
    next hrun =>
      obtain ⟨eob, heob, rfl⟩ := Option.map_eq_some_iff.1 h
      obtain ⟨k, rfl⟩ := Nat.exists_eq_succ_of_ne_zero hrun
      exact ⟨_, k, codesSymbols_code heob (by omega) (by omega), List.append_nil _⟩
  | cons v vs ih =>
    rw [acFields] at h
    split at h
    next hv =>
      obtain ⟨cs, k, hcs, hvs⟩ := ih h
      refine ⟨cs, k, hcs, ?_⟩
      rw [hv, ← hvs, List.replicate_succ', List.append_assoc, List.singleton_append]
    next =>
      obtain ⟨first, hfirst, h⟩ := Option.bind_eq_some_iff.1 h
      obtain ⟨rest, hrest, h⟩ := Option.bind_eq_some_iff.1 h
      obtain rfl := Option.some.inj h
      obtain ⟨cs, hcs, hv⟩ := acCoefFields_symbols hfirst
      obtain ⟨ds, k, hds, hvs⟩ := ih hrest
      refine ⟨cs ++ ds, k, hcs.append hds, ?_⟩
      rw [List.flatMap_append, hv, List.append_assoc, ← hvs, List.append_assoc]
      rfl

/-- The fields of the DC difference: its size as the symbol, then the value. -/
theorem dcFields_symbols {diff : Int} (h : dcFields table diff = some fields) :
    ∃ c, CodesSymbols table fields [c] ∧ valueOf c.value = diff := by
  unfold dcFields at h
  dsimp only at h
  split at h
  · cases h
  next hsize =>
    obtain ⟨code, hcode, h⟩ := Option.bind_eq_some_iff.1 h
    obtain rfl := Option.some.inj h
    have hvalue := codesSymbols_value hcode (by omega) (valueBits diff (bitlen diff.natAbs))
      (n := bitlen diff.natAbs) (by omega)
    refine ⟨⟨bitlen diff.natAbs, _⟩, ?_, valueOf_valueBits diff⟩
    split
    · exact hvalue
    next hzero =>
      refine ⟨hvalue.legal, Eq.trans ?_ hvalue.bits⟩
      rw [Nat.eq_zero_of_not_pos hzero]
      simp [bitsOfFields, fieldBits]

/-- The fields of a block are a symbol for the DC difference and symbols for the AC coefficients. -/
theorem blockFields_symbols {pred : Int} {vs : List Int} (h : blockFields dc ac pred vs = some fields) :
    ∃ (c : CodedSymbol) (cs : List CodedSymbol) (k : Nat), c.Legal dc ∧ (∀ c ∈ cs, c.Legal ac) ∧
      bitsOfFields fields = c.bits dc ++ cs.flatMap (CodedSymbol.bits ac) ∧
      vs = (valueOf c.value + pred) :: (cs.flatMap CodedSymbol.coefs ++ List.replicate k 0) := by
  cases vs with
  | nil => cases h
  | cons v vs =>
    obtain ⟨first, hfirst, h⟩ := Option.bind_eq_some_iff.1 h
    obtain ⟨rest, hrest, h⟩ := Option.bind_eq_some_iff.1 h
    obtain rfl := Option.some.inj h
    obtain ⟨c, hc, hdiff⟩ := dcFields_symbols hfirst
    obtain ⟨cs, k, hcs, hvs⟩ := acFields_symbols hrest
    refine ⟨c, cs, k, hc.legal c List.mem_cons_self, hcs.legal, ?_, ?_⟩
    · rw [← hcs.bits, ← List.flatMap_singleton (CodedSymbol.bits dc) c, ← hc.bits]
      exact List.flatMap_append
    · rw [← hvs, hdiff, sub_add_cancel]
      rfl

/-- Coefficients of one number with the same bits are the same. -/
theorem blockFields_injective (hdc : PrefixCode dc) (hac : PrefixCode ac) {pred : Int} {vs us : List Int}
    (hlength : vs.length = us.length) (hvs : blockFields dc ac pred vs = some fields)
    (hus : blockFields dc ac pred us = some more) (hbits : bitsOfFields fields = bitsOfFields more) : vs = us := by
  obtain ⟨c, cs, k, hc, hcs, hfields, rfl⟩ := blockFields_symbols hvs
  obtain ⟨d, ds, m, hd, hds, hmore, rfl⟩ := blockFields_symbols hus
  rw [hfields, hmore] at hbits
  obtain ⟨rfl, hrest⟩ := hdc.head_eq hc hd hbits
  obtain rfl := hac.symbols_eq hcs hds hrest
  obtain rfl : k = m := by simpa using hlength
  rfl

end

theorem State.coefs_injective {s u : State} (h : u.coefs = s.coefs) : u.coef = s.coef :=
  Vector.toList_inj.1 (List.map_injective_iff.2 (fun _ _ => BitVec.eq_of_toInt_eq) h)

/-- Settles O45: the bits give the symbols, as no code of a built table begins another, and the symbols give the
coefficients. -/
theorem blockCodingIsLossless : Obligations.BlockCodingIsLossless := by
  unfold Obligations.BlockCodingIsLossless
  intro s u c f g hbuilt hehuf hpred hf hg hbits
  have hprefix : ∀ t : Fin 4, PrefixCode s.ehuf[t] := fun t => prefixCode_of_built (hbuilt t).choose_spec
  rw [State.blockBits, hehuf, hpred] at hg
  exact State.coefs_injective (blockFields_injective (hprefix c.dcTable) (hprefix c.acTable)
    (by simp [State.coefs]) hg hf hbits.symm)

end Sys2Proof.Machine
end

section
/-! PROOFS. The forward DCT and the quantization: FDCT transforms every row and then every column, small integers pass
through it exactly, and QUANT rounds one quotient per coefficient (44_fdct R230 to R236). -/

namespace Sys2Proof.Machine

open Sys2Proof.Laws

/-! ### The two passes, element by element (44_fdct R233) -/

theorem blockAt_rowPass (w : Vector F32 64) (y x : Fin 8) :
    blockAt (rowPass w) y x = (dct8 (Vector.ofFn fun i => blockAt w y i))[x] := by
  have hdiv : (8 * y.val + x.val) / 8 = y := by omega
  have hmod : (8 * y.val + x.val) % 8 = x := by omega
  simp [blockAt, rowPass, hdiv, hmod]

theorem blockAt_columnPass (w : Vector F32 64) (y x : Fin 8) :
    blockAt (columnPass w) y x = (dct8 (Vector.ofFn fun j => blockAt w j x))[y] := by
  have hdiv : (8 * y.val + x.val) / 8 = y := by omega
  have hmod : (8 * y.val + x.val) % 8 = x := by omega
  simp [blockAt, columnPass, hdiv, hmod]

theorem blockAt_samplesF32 (blk : Vector Byte 64) (y x : Fin 8) :
    blockAt (samplesF32 blk) y x = f32OfInt (blk.getD (8 * y.val + x.val) 0).toInt := by
  rw [vector_getD_eq_getElem blk 0 (by omega)]
  simp [blockAt, samplesF32]

/-- Element `n` stands in row `n / 8`, column `n % 8`. -/
theorem getElem_eq_blockAt (w : Vector F32 64) {n : Nat} (hn : n < 64) :
    w[n] = blockAt w ⟨n / 8, by omega⟩ ⟨n % 8, by omega⟩ := by
  simp only [blockAt, Nat.div_add_mod]

theorem exec_fdct (s : State) : exec .fdct s = .next (completed { s with dctbuf := fdct2d s.blk }) := by
  rw [exec_eq_runCommand]
  exact runCommand_ok rfl

/-- Settles O34: DCT8 is the flowgraph as it stands, and an element of a pass is one output of its DCT8. -/
theorem fdctFollowsFlowgraph : Obligations.FdctFollowsFlowgraph := by
  unfold Obligations.FdctFollowsFlowgraph
  refine ⟨fun d0 d1 d2 d3 d4 d5 d6 d7 => rfl, fun s => ?_⟩
  intro sample row col
  have hblock : fdct2d s.blk = Vector.ofFn fun n => (col (n.val % 8)).getD (n.val / 8) 0 := by
    refine Vector.ext fun n hn => ?_
    rw [getElem_eq_blockAt _ hn, fdct2d, blockAt_columnPass, Vector.getElem_ofFn,
      vector_getD_eq_getElem _ 0 (by omega)]
    simp only [blockAt_rowPass, blockAt_samplesF32]
    have hrow : ∀ j : Fin 8, (dct8 (Vector.ofFn fun i : Fin 8 => sample (8 * j.val + i.val)))[n % 8] =
        (row j).getD (n % 8) 0 := fun j => (vector_getD_eq_getElem _ 0 (by omega)).symm
    exact congrArg (fun w : Fin 8 → F32 => (dct8 (Vector.ofFn w))[n / 8]) (funext hrow)
  rw [exec_fdct, hblock]

/-! ### Small integers are exact (44_fdct R230) -/

theorem roundHalfEven_of_dvd {num den : Nat} (hden : 0 < den) (h : den ∣ num) :
    roundHalfEven num den = num / den := by
  simp [roundHalfEven, Nat.mod_eq_zero_of_dvd h, hden.ne]

/-- An integer of at most 24 bits is a finite magnitude, which rounding leaves as it is. -/
theorem roundMagnitude_exact {n : Nat} (h : n < 2 ^ 24) :
    roundMagnitude (n * 2 ^ 149) 1 < f32InfMagnitude ∧
    binary32Units (roundMagnitude (n * 2 ^ 149) 1) = n * 2 ^ 149 := by
  obtain ⟨hq, hplace⟩ := div_lastPlace_bounds (n * 2 ^ 149)
  unfold roundMagnitude
  rw [Nat.div_one]
  set k := bitlen (n * 2 ^ 149) - 24
  have hk : k ≤ 149 := by
    obtain hk | hk := hplace
    · omega
    · have hpow : 2 ^ (23 + k) < 2 ^ (23 + 150) := by
        rw [Nat.le_div_iff_mul_le (Nat.two_pow_pos k), ← Nat.pow_add] at hk
        omega
      have hlt := (Nat.pow_lt_pow_iff_right one_lt_two).1 hpow
      omega
  have hdvd : 2 ^ k ∣ n * 2 ^ 149 := Dvd.dvd.mul_left (Nat.pow_dvd_pow 2 hk) n
  have hfin : k * 2 ^ 23 + n * 2 ^ 149 / 2 ^ k < f32InfMagnitude := by
    unfold f32InfMagnitude
    omega
  dsimp only
  rw [Nat.one_mul, roundHalfEven_of_dvd (Nat.two_pow_pos k) hdvd, Nat.min_eq_left hfin.le]
  exact ⟨hfin, (binary32Units_place hq.le hplace).trans (Nat.div_mul_cancel hdvd)⟩

section
variable {v w : Int}

theorem f32Sign_ofInt (v : Int) : f32Sign (f32OfInt v) = decide (v < 0) := f32Sign_pack _ (Nat.min_le_right _ _)

theorem f32Magnitude_ofInt (v : Int) : f32Magnitude (f32OfInt v) = roundMagnitude (v.natAbs * 2 ^ 149) 1 :=
  f32Magnitude_pack _ (Nat.min_le_right _ _)

theorem f32Magnitude_ofInt_lt (h : v.natAbs < 2 ^ 24) : f32Magnitude (f32OfInt v) < f32InfMagnitude :=
  (f32Magnitude_ofInt v).trans_lt (roundMagnitude_exact h).1

theorem f32Scaled_ofInt (h : v.natAbs < 2 ^ 24) : f32Scaled (f32OfInt v) = v * 2 ^ 149 := by
  unfold f32Scaled
  rw [f32Units_eq, f32Magnitude_ofInt, (roundMagnitude_exact h).2, f32Sign_ofInt]
  push_cast
  split
  next hneg =>
    rw [abs_of_neg (of_decide_eq_true hneg)]
    ring
  next hpos =>
    rw [abs_of_nonneg (by simpa using hpos)]

/-- The sum of finite operands, a zero sum included. -/
theorem f32Add_of_finite {x y : F32} (hx : f32Magnitude x < f32InfMagnitude) (hy : f32Magnitude y < f32InfMagnitude) :
    f32Add x y =
      if f32Scaled x + f32Scaled y = 0 then f32Pack (f32Sign x && f32Sign y) 0
      else f32Pack (decide (f32Scaled x + f32Scaled y < 0)) (roundMagnitude (f32Scaled x + f32Scaled y).natAbs 1) := by
  simp [f32Add, f32IsNaN_of_le hx.le, f32IsNaN_of_le hy.le, f32IsInf_of_lt hx, f32IsInf_of_lt hy]

theorem f32OfInt_zero : f32OfInt 0 = 0 := by decide

theorem f32Add_ofInt (hv : v.natAbs < 2 ^ 24) (hw : w.natAbs < 2 ^ 24) :
    f32Add (f32OfInt v) (f32OfInt w) = f32OfInt (v + w) := by
  rw [f32Add_of_finite (f32Magnitude_ofInt_lt hv) (f32Magnitude_ofInt_lt hw), f32Scaled_ofInt hv, f32Scaled_ofInt hw,
    f32Sign_ofInt, f32Sign_ofInt, ← Int.add_mul]
  obtain hzero | hne := eq_or_ne (v + w) 0
  · have hsign : (decide (v < 0) && decide (w < 0)) = false := by
      rw [← Bool.decide_and]
      exact decide_eq_false (by omega)
    rw [hzero, hsign, f32OfInt_zero]
    rfl
  · have hneg : decide ((v + w) * 2 ^ 149 < 0) = decide (v + w < 0) := decide_eq_decide.2 (by omega)
    rw [if_neg (by omega), hneg, Int.natAbs_mul]
    rfl

theorem f32Add_ofInt_self (hv : v.natAbs < 2 ^ 24) : f32Add (f32OfInt v) (f32OfInt v) = f32OfInt (2 * v) := by
  rw [f32Add_ofInt hv hv, ← Int.two_mul]

/-- The difference of equal finite values is +0. -/
theorem f32Sub_self {x : F32} (hx : f32Magnitude x < f32InfMagnitude) : f32Sub x x = 0 := by
  rw [f32Sub, f32Add_of_finite hx (by rwa [f32Magnitude_neg]), f32Scaled_neg, if_pos (add_neg_cancel _), f32Sign_neg,
    Bool.and_not_self]
  rfl

/-! ### FDCT of a constant block (44_fdct R234) -/

theorem dctOdd_zero : dctOdd 0 0 0 0 = (0, 0, 0, 0) := by decide +kernel

theorem dctEven_ofInt (h : v.natAbs ≤ 2 ^ 21) :
    dctEven (f32OfInt v) (f32OfInt v) (f32OfInt v) (f32OfInt v) = (f32OfInt (4 * v), 0, 0, 0) := by
  have hadd := f32Add_ofInt_self (v := v) (by omega)
  have hadd' := f32Add_ofInt_self (v := 2 * v) (by omega)
  have htwice : 2 * (2 * v) = 4 * v := by omega
  have hzero : f32Add 0 0 = 0 ∧ f32Mul 0 dctC4 = 0 ∧ f32Sub 0 0 = 0 := by decide +kernel
  simp only [dctEven, hadd, hadd', htwice, hzero, f32Sub_self (f32Magnitude_ofInt_lt (v := v) (by omega)),
    f32Sub_self (f32Magnitude_ofInt_lt (v := 2 * v) (by omega))]

/-- DCT8 of eight equal values: every difference is +0, so the even part gives the only nonzero output. -/
theorem dct8_const {x sum out : F32} (hadd : f32Add x x = sum) (hsub : f32Sub x x = 0)
    (heven : dctEven sum sum sum sum = (out, 0, 0, 0)) (i : Fin 8) :
    (dct8 (Vector.ofFn fun _ => x))[i] = if i = 0 then out else 0 := by
  simp only [dct8, Vector.getElem_ofFn, hadd, hsub, heven, dctOdd_zero]
  fin_cases i <;> rfl

/-- DCT8 of eight equal integers: 8 times the integer, and +0 at every other output. -/
theorem dct8_ofInt (h : v.natAbs ≤ 2 ^ 20) (i : Fin 8) :
    (dct8 (Vector.ofFn fun _ => f32OfInt v))[i] = if i = 0 then f32OfInt (8 * v) else 0 := by
  have heven := dctEven_ofInt (v := 2 * v) (by omega)
  rw [← Int.mul_assoc] at heven
  exact dct8_const (f32Add_ofInt_self (by omega)) (f32Sub_self (f32Magnitude_ofInt_lt (by omega))) heven i

end

/-- The row pass leaves 8 times the sample in column 0, which the column pass multiplies by 8 again. -/
theorem blockAt_fdct2d_constant {blk : Vector Byte 64} {v : Byte} (h : ∀ n, n < 64 → blk.getD n 0 = v) (y x : Fin 8) :
    blockAt (fdct2d blk) y x = if y = 0 ∧ x = 0 then f32OfInt (64 * v.toInt) else 0 := by
  have hv : v.toInt.natAbs ≤ 128 := by
    have hlt := v.toInt_lt
    have hle := v.le_toInt
    omega
  have hrow : ∀ j i : Fin 8, blockAt (rowPass (samplesF32 blk)) j i = f32OfInt (if i = 0 then 8 * v.toInt else 0) := by
    intro j i
    have hsample : ∀ k : Fin 8, blockAt (samplesF32 blk) j k = f32OfInt v.toInt := fun k => by
      rw [blockAt_samplesF32, h _ (by omega)]
    rw [blockAt_rowPass, funext hsample, dct8_ofInt (by omega), apply_ite f32OfInt, f32OfInt_zero]
  rw [fdct2d, blockAt_columnPass, funext fun j => hrow j x, dct8_ofInt (by split <;> omega)]
  by_cases hx : x = 0
  · have hsum : 8 * (8 * v.toInt) = 64 * v.toInt := by omega
    simp only [hx, if_true, and_true, hsum]
  · simp [hx, f32OfInt_zero]

/-- Settles O35: a row of equal samples has its sum first and +0 after it, and so do the columns of those. -/
theorem fdctOfConstantBlock : Obligations.FdctOfConstantBlock := by
  unfold Obligations.FdctOfConstantBlock
  refine fun s v h => ⟨fdct2d s.blk, exec_fdct s, ?_, fun n hpos hn => ?_⟩
  · exact (vector_getD_eq_getElem _ 0 (by decide)).trans (blockAt_fdct2d_constant h 0 0)
  · rw [vector_getD_eq_getElem _ 0 hn, getElem_eq_blockAt _ hn, blockAt_fdct2d_constant h, if_neg]
    simp only [Fin.ext_iff]
    omega

/-! ### RoundSat16 (44_fdct R236) -/

/-- The nearest integer, the larger one of two as near. -/
theorem roundHalfUpUnits_bounds (n : Nat) :
    2 * 2 ^ 149 * roundHalfUpUnits n ≤ 2 * n + 2 ^ 149 ∧ 2 * n < 2 * 2 ^ 149 * roundHalfUpUnits n + 2 ^ 149 := by
  unfold roundHalfUpUnits
  omega

theorem toInt_roundSat16 {x : F32} (h : f32IsNaN x = false) (hinf : f32IsInf x = false) :
    (roundSat16 x).toInt =
      if f32Sign x then -min (roundHalfUpUnits (f32Units x) : Int) 32768
      else min (roundHalfUpUnits (f32Units x) : Int) 32767 := by
  simp only [roundSat16, h, hinf, Bool.false_eq_true, if_false]
  split
  · rw [BitVec.toInt_ofInt_eq_self (by decide) (by omega) (by omega)]
    simp
  · rw [BitVec.toInt_ofNat', Int.bmod_eq_of_le (by omega) (by omega)]
    omega

theorem exec_quant (t : BitVec 1) (s : State) :
    exec (.quant t) s =
      .next (completed { s with coef := Vector.ofFn fun k => quantized s.dctbuf (s.qt t) k }) := by
  rw [exec_eq_runCommand]
  exact runCommand_ok rfl

/-- Settles O37: QUANT stores `quantized`, and RoundSat16 is the nearest integer to the magnitude, ties up, with its
sign put back and clamped at both ends. -/
theorem quantRoundsQuotient : Obligations.QuantRoundsQuotient := by
  unfold Obligations.QuantRoundsQuotient
  refine ⟨fun w => ?_, fun t s => ⟨rfl, ?_⟩, fun x h => ?_, fun x h => ?_, fun x hnan hinf => ?_⟩
  · exact legalWord_of_reserved_field (r := ⟨"QUANT", 0x13#8, 0x00000100#32, fun w => .quant (w.extractLsb' 8 1)⟩)
      (by simp [opcodeRows, encodeSideRows]) (by decide)
  · intro entry quotient
    have hentry : ∀ n, (s.qt t).getD n 0 = entry n := s.qtEntry_eq t
    simp only [exec_quant, quantized, hentry, quotient]
  · simp [roundSat16, h]
  · have hnan : f32IsNaN x = false := f32IsNaN_of_le (of_decide_eq_true h).le
    simp only [roundSat16, h, hnan, Bool.false_eq_true, if_false, if_true]
    split <;> rfl
  · intro v one r
    have hbounds := roundHalfUpUnits_bounds (f32Units x)
    simp only [v, one, r, f32Scaled, toInt_roundSat16 hnan hinf]
    split_ifs <;> omega

end Sys2Proof.Machine
end

section
/-! PROOFS. The entropy-coded segment: a segment is stuffed exactly where it is some bytes with their stuff bytes put
in, PutBits appends such bytes, and no command leaves the segment unstuffed (45_entropy R260, R261, R264, R268). -/

namespace Sys2Proof.Machine

/-! ### Stuffing (45_entropy R261, R268) -/

/-- A byte with its stuff byte. -/
def stuffByte (b : Byte) : List Byte := if b = 0xFF then [0xFF, 0x00] else [b]

/-- Bytes with their stuff bytes. -/
def stuff (data : List Byte) : List Byte := data.flatMap stuffByte

theorem stuffByte_length (b : Byte) : (stuffByte b).length = emittedBytes b.toNat := by
  have h : b = 0xFF ↔ b.toNat = 255 := BitVec.toNat_inj.symm
  unfold stuffByte emittedBytes
  simp only [h]
  split <;> rfl

theorem stuff_append (x y : List Byte) : stuff (x ++ y) = stuff x ++ stuff y := List.flatMap_append

theorem stuff_cons (b : Byte) (data : List Byte) : stuff (b :: data) = stuffByte b ++ stuff data := rfl

theorem stuff_singleton (b : Byte) : stuff [b] = stuffByte b := List.flatMap_singleton _ _

theorem stuffedBytes_cons_iff (b : Byte) (l : List Byte) :
    stuffedBytes (b :: l) ↔ (b = 0xFF → l.head? = some 0x00) ∧ stuffedBytes l := by
  have hhead : l.head? = some 0x00 ↔ 0 + 1 < (b :: l).length ∧ (b :: l).getD (0 + 1) 0xFF = 0x00 := by
    cases l <;> simp
  constructor
  · exact fun h => ⟨fun hb => hhead.2 (h 0 (Nat.succ_pos _) hb), fun i hi hff => by
      simpa using h (i + 1) (Nat.succ_lt_succ hi) hff⟩
  · rintro ⟨hb, hl⟩ (_ | i) hi hff
    · exact hhead.1 (hb hff)
    · simpa using hl i (Nat.lt_of_succ_lt_succ hi) hff

theorem stuffedBytes_stuff (data : List Byte) : stuffedBytes (stuff data) := by
  induction data with
  | nil => exact fun i hi => absurd hi (Nat.not_lt_zero i)
  | cons b data ih =>
    rw [stuff_cons, stuffByte]
    split
    · simpa [stuffedBytes_cons_iff] using ih
    next hb => exact (stuffedBytes_cons_iff b _).2 ⟨fun hff => absurd hff hb, ih⟩

theorem destuff_cons_of_ne {b : Byte} (hb : b ≠ 0xFF) (l : List Byte) : destuff (b :: l) = b :: destuff l := by
  cases l with
  | nil => rfl
  | cons c l => rw [destuff, if_neg fun h => hb h.1]

theorem destuff_stuff (data : List Byte) : destuff (stuff data) = data := by
  induction data with
  | nil => rfl
  | cons b data ih =>
    rw [stuff_cons, stuffByte]
    split
    next hb => simp [destuff, ih, hb]
    next hb => rw [List.singleton_append, destuff_cons_of_ne hb, ih]

theorem stuff_destuff {l : List Byte} (h : stuffedBytes l) : stuff (destuff l) = l := by
  induction l using destuff.induct with
  | case1 => rfl
  | case2 b =>
    have hb : b ≠ 0xFF := fun hb => by simpa using ((stuffedBytes_cons_iff b []).1 h).1 hb
    rw [destuff, stuff_singleton, stuffByte, if_neg hb]
  | case3 b b' rest hstuff ih =>
    obtain ⟨rfl, rfl⟩ := hstuff
    simp only [stuffedBytes_cons_iff] at h
    rw [destuff, if_pos ⟨rfl, rfl⟩, stuff_cons, ih h.2.2]
    rfl
  | case4 b b' rest hplain ih =>
    obtain ⟨hhead, hrest⟩ := (stuffedBytes_cons_iff _ _).1 h
    have hb : b ≠ 0xFF := fun hb => hplain ⟨hb, Option.some.inj (hhead hb)⟩
    rw [destuff_cons_of_ne hb, stuff_cons, stuffByte, if_neg hb, ih hrest]
    rfl

/-- The bits in bytes, most significant first. -/
def bitsOfBytes (data : List Byte) : List Bool := data.flatMap fun b => fieldBits b.toNat 8

theorem bitsOfStuffed_stuff (data : List Byte) : bitsOfStuffed (stuff data) = bitsOfBytes data := by
  rw [bitsOfStuffed, destuff_stuff]
  rfl

/-- Bytes stuffed one by one add their bits to a stuffed segment. -/
theorem bitsOfStuffed_append_stuff {l : List Byte} (h : stuffedBytes l) (data : List Byte) :
    bitsOfStuffed (l ++ stuff data) = bitsOfStuffed l ++ bitsOfBytes data := by
  rw [← stuff_destuff h, ← stuff_append, bitsOfStuffed_stuff, bitsOfStuffed_stuff]
  exact List.flatMap_append

theorem stuffedBytes_append_stuff {l : List Byte} (h : stuffedBytes l) (data : List Byte) :
    stuffedBytes (l ++ stuff data) := by
  rw [← stuff_destuff h, ← stuff_append]
  exact stuffedBytes_stuff _

/-! ### The segment (10_state R30) -/

theorem State.encodeResult_length (s : State) : s.encodeResult.length = s.ecsLen.toNat := by
  simp [State.encodeResult]

theorem State.encodeResult_getElem (s : State) {i : Nat} (hi : i < s.encodeResult.length) :
    s.encodeResult[i] = s.ecsByte i := by
  simp [State.encodeResult]

theorem State.ecsFrom_eq_drop (s : State) (n : Nat) : s.ecsFrom n = s.encodeResult.drop n := by
  refine List.ext_getElem (by simp [State.ecsFrom, s.encodeResult_length]) fun i _ _ => ?_
  simp [State.ecsFrom, s.encodeResult_getElem]

theorem State.encodeResult_congr {s t : State} (hmem : t.mem = s.mem) (hlen : t.ecsLen = s.ecsLen) :
    t.encodeResult = s.encodeResult := by
  rw [State.encodeResult, hlen]
  exact List.map_congr_left fun i _ => State.readByte_congr hmem _

theorem State.stuffed_iff (s : State) : s.Stuffed ↔ stuffedBytes s.encodeResult := by
  have hbyte : ∀ {i} (d : Byte), i < s.ecsLen.toNat → s.encodeResult.getD i d = s.ecsByte i := fun {i} d hi => by
    rw [List.getD_eq_getElem _ d (by rwa [s.encodeResult_length]), s.encodeResult_getElem]
  unfold State.Stuffed stuffedBytes
  rw [s.encodeResult_length]
  refine forall₂_congr fun i hi => ?_
  rw [hbyte 0 hi]
  exact imp_congr_right fun _ => and_congr_right fun hi' => by rw [hbyte 0xFF hi']

/-! ### Appending to the segment (45_entropy R260, R261) -/

/-- `u` is `s` with `bytes` appended to the segment and other pending bits. -/
structure Emits (s u : State) (bytes : List Byte) : Prop where
  packOnly : PackOnly s u
  segment : u.encodeResult = s.encodeResult ++ bytes
  kept : ∀ a, a < ecsBase + s.ecsLen.toNat ∨ ecsBase + s.ecsLen.toNat + bytes.length ≤ a → u.readByte a = s.readByte a

section
variable {s t u : State} {bytes more : List Byte}

theorem Emits.ecsLen (h : Emits s u bytes) : u.ecsLen.toNat = s.ecsLen.toNat + bytes.length := by
  rw [← u.encodeResult_length, h.segment, List.length_append, s.encodeResult_length]

theorem Emits.eq (h : Emits s u bytes) :
    u = { s with mem := u.mem, ecsLen := BitVec.ofNat 32 (s.ecsLen.toNat + bytes.length), pbits := u.pbits } := by
  rw [← h.ecsLen, BitVec.ofNat_toNat, BitVec.setWidth_eq]
  exact h.packOnly

theorem Emits.ecsFrom (h : Emits s u bytes) : u.ecsFrom s.ecsLen.toNat = bytes := by
  rw [State.ecsFrom_eq_drop, h.segment, List.drop_left' s.encodeResult_length]

theorem Emits.ecsByte (h : Emits s u bytes) {i : Nat} (hi : i < bytes.length) :
    u.ecsByte (s.ecsLen.toNat + i) = bytes[i] := by
  have hlen : s.ecsLen.toNat + i < u.encodeResult.length := by
    rw [u.encodeResult_length, h.ecsLen]
    omega
  rw [← u.encodeResult_getElem hlen, List.getElem_of_eq h.segment,
    List.getElem_append_right (by simp [s.encodeResult_length])]
  simp [s.encodeResult_length]

theorem Emits.setPbits (s : State) (p : List Bool) : Emits s (s.setPbits p) [] :=
  ⟨rfl, (List.append_nil _).symm, fun _ _ => rfl⟩

theorem Emits.trans (h : Emits s t bytes) (h' : Emits t u more) : Emits s u (bytes ++ more) where
  packOnly := h.packOnly.trans h'.packOnly
  segment := by rw [h'.segment, h.segment, List.append_assoc]
  kept a ha := by
    have hlen := h.ecsLen
    rw [List.length_append] at ha
    exact (h'.kept a (by omega)).trans (h.kept a (by omega))

theorem State.appendEcs_emits (s : State) (b : Byte) (h : s.ecsLen.toNat + 1 < 2 ^ 32) :
    Emits s (s.appendEcs b) [b] where
  packOnly := s.appendEcs_packOnly b
  segment := by
    have hlen : (s.appendEcs b).ecsLen.toNat = s.ecsLen.toNat + 1 := Nat.mod_eq_of_lt h
    rw [State.encodeResult, hlen, List.range_succ, List.map_append]
    refine congrArg₂ _ (List.map_congr_left fun i hi => ?_) (congrArg (fun x => [x]) (s.readByte_writeByte_same _ b))
    have hlt := List.mem_range.1 hi
    exact s.readByte_writeByte_ne b (by omega)
  kept a ha := s.readByte_writeByte_ne b (by simp only [List.length_singleton] at ha; omega)

theorem State.emitByte_emits (s : State) (b : Byte) (h : s.ecsLen.toNat + emittedBytes b.toNat < 2 ^ 32) :
    Emits s (s.emitByte b) (stuffByte b) := by
  rw [← stuffByte_length] at h
  unfold State.emitByte stuffByte at *
  split
  next hb =>
    rw [if_pos hb, List.length_cons, List.length_singleton] at h
    subst hb
    have hfirst := s.appendEcs_emits 0xFF (by omega)
    exact hfirst.trans (State.appendEcs_emits _ 0x00 (by rw [hfirst.ecsLen]; exact h))
  next hb =>
    rw [if_neg hb] at h
    exact s.appendEcs_emits b h

theorem fieldBits_bitsValue (bits : List Bool) : fieldBits (bitsValue bits) bits.length = bits := by
  induction bits using List.reverseRecOn with
  | nil => rfl
  | append_singleton bits b ih =>
    have hb := b.toNat_le
    have hhalf : (2 * bitsValue bits + b.toNat) / 2 = bitsValue bits := by omega
    have hlow : (2 * bitsValue bits + b.toNat).testBit 0 = b := by
      cases b <;> simp [Nat.testBit_zero]
    rw [List.length_append, List.length_singleton, fieldBits_succ_append, bitsValue_append_bit, hhalf, ih, hlow]

/-- The byte that 8 pending bits make. -/
def byteOfBits (bits : List Bool) : Byte := BitVec.ofNat 8 (bitsValue bits)

theorem byteOfBits_toNat {bits : List Bool} (h : bits.length = 8) : (byteOfBits bits).toNat = bitsValue bits := by
  have hlt := bitsValue_lt bits
  rw [h] at hlt
  exact Nat.mod_eq_of_lt hlt

theorem fieldBits_byteOfBits {bits : List Bool} (h : bits.length = 8) :
    fieldBits (byteOfBits bits).toNat 8 = bits := by
  rw [byteOfBits_toNat h, ← h, fieldBits_bitsValue]

theorem State.putBit_of_full {b : Bool} (h : (s.pbits ++ [b]).length = 8) :
    s.putBit b = (s.emitByte (byteOfBits (s.pbits ++ [b]))).setPbits [] :=
  if_pos h

theorem State.putBit_of_room {b : Bool} (h : (s.pbits ++ [b]).length ≠ 8) :
    s.putBit b = s.setPbits (s.pbits ++ [b]) :=
  if_neg h

/-- PutBits appends stuffed bytes that hold, with the bits it leaves pending, the bits that were pending and its own. -/
theorem State.putBits_emits (bits : List Bool) (h : s.ecsLen.toNat + outBytes s.pbits bits < 2 ^ 32) :
    ∃ data, Emits s (s.putBits bits) (stuff data) ∧ (stuff data).length = outBytes s.pbits bits ∧
      bitsOfBytes data ++ (s.putBits bits).pbits = s.pbits ++ bits := by
  induction bits generalizing s with
  | nil => exact ⟨[], Emits.setPbits s s.pbits, rfl, (List.append_nil _).symm⟩
  | cons b bits ih =>
    rw [outBytes] at h ⊢
    rw [State.putBits_cons, List.append_cons s.pbits b bits]
    by_cases hfull : (s.pbits ++ [b]).length = 8
    · rw [if_pos hfull] at h ⊢
      rw [State.putBit_of_full hfull]
      set byte := byteOfBits (s.pbits ++ [b]) with hbyte
      have hlen : emittedBytes (bitsValue (s.pbits ++ [b])) = (stuffByte byte).length := by
        rw [stuffByte_length, byteOfBits_toNat hfull]
      rw [hlen] at h ⊢
      have hemit : Emits s ((s.emitByte byte).setPbits []) (stuffByte byte) := by
        simpa using (s.emitByte_emits byte (by rw [← stuffByte_length]; omega)).trans (Emits.setPbits _ [])
      obtain ⟨data, hdata, hlength, hbits⟩ := ih (s := (s.emitByte byte).setPbits []) (by
        rw [hemit.ecsLen, State.setPbits_pbits]
        omega)
      refine ⟨byte :: data, hemit.trans hdata, by simp [stuff_cons, hlength], ?_⟩
      rw [State.setPbits_pbits, List.nil_append] at hbits
      rw [bitsOfBytes, List.flatMap_cons, fieldBits_byteOfBits hfull, List.append_assoc]
      exact congrArg _ hbits
    · rw [if_neg hfull] at h ⊢
      rw [State.putBit_of_room hfull]
      obtain ⟨data, hdata, hrest⟩ := ih (s := s.setPbits (s.pbits ++ [b])) h
      exact ⟨data, (Emits.setPbits s _).trans hdata, hrest⟩

end

/-- Settles O41: PutBits appends the stuffed form of whole bytes. -/
theorem putBitsAppendsBits : Obligations.PutBitsAppendsBits := by
  unfold Obligations.PutBitsAppendsBits
  intro s bits hpending hroom
  obtain ⟨data, hemits, hlength, hbits⟩ := State.putBits_emits bits hroom
  rw [← hlength]
  refine ⟨hemits.eq, s.putBits_pbits_length bits hpending, ?_, ?_, fun hstuffed => ⟨?_, ?_⟩, hemits.kept⟩
  · rw [hemits.ecsFrom]
    exact stuffedBytes_stuff data
  · rw [hemits.ecsFrom, bitsOfStuffed_stuff, hbits]
  · rw [State.stuffed_iff, hemits.segment]
    exact stuffedBytes_append_stuff (s.stuffed_iff.1 hstuffed) data
  · rw [State.codedBits, hemits.segment, bitsOfStuffed_append_stuff (s.stuffed_iff.1 hstuffed), List.append_assoc,
      hbits, ← List.append_assoc]
    rfl

/-! ### What a command leaves of the segment (45_entropy R268) -/

/-- Within the invariant, which it keeps, the segment stays as it is. -/
def KeepsSegment (s t : State) : Prop := s.Inv → t.Inv ∧ t.encodeResult = s.encodeResult

theorem KeepsSegment.of_eq {s t : State} (hinv : KeepsInv s t) (hmem : t.mem = s.mem) (hlen : t.ecsLen = s.ecsLen) :
    KeepsSegment s t :=
  fun h => ⟨hinv h, State.encodeResult_congr hmem hlen⟩

@[simp] theorem State.setHlen_ecsLen (s : State) (t : DecodeTable) (lens : List Nat) :
    (s.setHlen t lens).ecsLen = s.ecsLen := by
  cases t <;> simp only [State.setHlen, State.setHlen0_ecsLen, State.setHlen1_ecsLen, State.setHlen2_ecsLen]

/-- The window of OUT ends where ECS begins, at the latest (20_memory R72). -/
theorem State.emitted_encodeResult {s : State} (hsize : s.outSize.toNat ≤ 2 ^ 24)
    (hroom : s.outLen.toNat < s.outSize.toNat) (b : Byte) : (s.emitted b).encodeResult = s.encodeResult := by
  have hne : ∀ i, ecsBase + i ≠ outBase + s.outLen.toNat := fun i => by
    unfold ecsBase outBase
    omega
  exact List.map_congr_left fun i _ => s.emitted_readByte_ne b (hne i)

theorem keepsSegment_inflateClosed : InflateClosed KeepsSegment where
  refl _ h := ⟨h, rfl⟩
  trans h h' hs := by
    obtain ⟨ht, hseg⟩ := h hs
    obtain ⟨hu, hseg'⟩ := h' ht
    exact ⟨hu, hseg'.trans hseg⟩
  cursor h := .of_eq (keepsInv_inflateClosed.cursor h) (by rw [h, State.setBrPos_mem])
    (by rw [h, State.setBrPos_ecsLen])
  emit b s hs := by
    refine ⟨keepsInv_inflateClosed.emit b s hs, ?_⟩
    obtain ⟨-, hsize, -⟩ := hs.size_le
    obtain ⟨hroom, h⟩ | ⟨-, h⟩ := emit_cases b s <;> rw [Cmd.after, h]
    exact State.emitted_encodeResult hsize hroom b
  buildTable t lens s hs := by
    refine ⟨keepsInv_inflateClosed.buildTable t lens s hs, ?_⟩
    obtain ⟨-, -, h⟩ | ⟨-, h⟩ := buildTable_cases t lens s <;> rw [Cmd.after, h]
    exact State.encodeResult_congr (s.setHlen_mem t lens) (s.setHlen_ecsLen t lens)
  blockHeader s bfinal btype := .of_eq (keepsInv_inflateClosed.blockHeader s bfinal btype) rfl rfl
  restart s := .of_eq (keepsInv_inflateClosed.restart s) rfl rfl

/-- The segment stays as it is, or stuffed bytes are appended to it. -/
def AppendsStuffed (s t : State) : Prop := ∃ data, t.encodeResult = s.encodeResult ++ stuff data

theorem AppendsStuffed.of_kept {s t : State} (h : t.encodeResult = s.encodeResult) : AppendsStuffed s t :=
  ⟨[], h.trans (List.append_nil _).symm⟩

theorem encblkBody_appendsStuffed (c : BitVec 2) : Cmd.Relates AppendsStuffed (encblkBody c) := by
  intro s
  obtain ⟨comp, fields, hroom, h⟩ | h := encblkBody_after c s <;> rw [h]
  · obtain ⟨data, hemits, -⟩ := State.putBits_emits (bitsOfFields fields) (hroom.trans_lt s.ecsSize.isLt)
    exact ⟨data, hemits.segment⟩
  · exact .of_kept rfl

theorem eflushBody_appendsStuffed {s : State} (hpending : s.pbits.length ≤ 7) :
    AppendsStuffed s (eflushBody.after s) := by
  obtain ⟨-, h⟩ | ⟨-, hroom, h⟩ | ⟨-, -, h⟩ := eflushBody_cases s <;> rw [Cmd.after, h]
  · exact .of_kept rfl
  · have hbyte : (BitVec.ofNat 8 (flushByte s.pbits)).toNat = flushByte s.pbits :=
      Nat.mod_eq_of_lt (flushByte_lt hpending)
    have hemits := s.emitByte_emits (BitVec.ofNat 8 (flushByte s.pbits)) (by
      rw [hbyte]
      exact hroom.trans_lt s.ecsSize.isLt)
    exact ⟨[BitVec.ofNat 8 (flushByte s.pbits)], by rw [stuff_singleton]; exact hemits.segment⟩
  · exact .of_kept rfl

/-- A command leaves the segment as it is, appends stuffed bytes to it, or, as ERESET, empties it. -/
theorem commandBody_segment (i : Instr) {s : State} (h : s.Inv) :
    AppendsStuffed s ((commandBody i).after s) ∨ ((commandBody i).after s).encodeResult = [] := by
  have hframe := commandBody_frame i s
  cases i
  case infblk | inflate | zinflate =>
    exact .inl (.of_kept (keepsSegment_inflateClosed.commandBody (by simp [inflates]) s h).2)
  case encblk c => exact .inl (encblkBody_appendsStuffed c s)
  case eflush => exact .inl (eflushBody_appendsStuffed h.pbits)
  case ereset => exact .inr (List.eq_nil_of_length_eq_zero (State.encodeResult_length _))
  case hbuild t n =>
    obtain he | ⟨tab, lens, -, he⟩ := hframe <;> rw [he]
    · exact .inl (.of_kept rfl)
    · exact .inl (.of_kept (State.encodeResult_congr (s.setHlen_mem tab lens) (s.setHlen_ecsLen tab lens)))
  case ehbuild t =>
    obtain he | ⟨table, he⟩ := hframe <;> rw [he] <;> exact .inl (.of_kept (State.encodeResult_congr rfl rfl))
  all_goals
    rw [hframe]
    exact .inl (.of_kept (State.encodeResult_congr rfl rfl))

/-- Settles O49: a command's own bytes stand in the segment in stuffed form. -/
theorem segmentStaysStuffed : Obligations.SegmentStaysStuffed := by
  unfold Obligations.SegmentStaysStuffed
  intro i s t hinv hstuffed ht
  have hsegment : t.encodeResult = ((commandBody i).after s).encodeResult := by
    obtain rfl | ⟨e, rfl⟩ := exec_cases ht <;> rfl
  rw [State.stuffed_iff] at hstuffed ⊢
  rw [hsegment]
  obtain ⟨data, h⟩ | h := commandBody_segment i hinv <;> rw [h]
  · exact stuffedBytes_append_stuff hstuffed data
  · exact stuffedBytes_stuff []

end Sys2Proof.Machine
end

section
/-! PROOFS. The fields of a block: the value bits, the DC part, the runs of the AC part, and, with the reset tables, when
there are none (45_entropy R262, R263). -/

namespace Sys2Proof.Machine

/-! ### The value bits (45_entropy R262) -/

theorem bitlen_eq_zero_iff {m : Nat} : bitlen m = 0 ↔ m = 0 := by
  unfold bitlen
  split <;> simp [*]

/-- Settles O42: a size category holds the magnitudes from half its power of two on. -/
theorem valueBitsOfSizeCategory : Obligations.ValueBitsOfSizeCategory := by
  unfold Obligations.ValueBitsOfSizeCategory
  refine ⟨fun v hv => ?_, by decide⟩
  intro size
  have hpos : 1 ≤ size := Nat.pos_of_ne_zero (mt bitlen_eq_zero_iff.1 (Int.natAbs_ne_zero.2 hv))
  obtain ⟨hlo, hhi⟩ : 2 ^ size ≤ 2 * v.natAbs ∧ v.natAbs < 2 ^ size := bitlen_bounds (Int.natAbs_ne_zero.2 hv)
  have hhalf : 2 ^ size = 2 * 2 ^ (size - 1) := by rw [← Nat.pow_succ', Nat.succ_eq_add_one, Nat.sub_add_cancel hpos]
  have hcast : (2 : Int) ^ size = (2 ^ size : Nat) := (Nat.cast_pow 2 size).symm
  rw [hcast]
  refine ⟨hpos, ?_⟩
  obtain hneg | hpos := lt_or_gt_of_ne hv
  · rw [valueBits_of_neg hneg hhi]
    omega
  · rw [valueBits_of_nonneg hpos.le]
    omega

/-! ### The fields of a block (45_entropy R263) -/

theorem codeField_eq_none_iff {table : EHufTable} {sym : Nat} :
    codeField table sym = none ↔ (table.getD sym .absent).size = 0 := by
  simp [codeField]

theorem State.coefs_eq (s : State) :
    s.coefs = (s.coef.getD 0 0).toInt :: (List.range 63).map fun k => (s.coef.getD (k + 1) 0).toInt := by
  refine List.ext_getElem (by simp [State.coefs]) fun i hi _ => ?_
  have hlt : i < 64 := by simpa [State.coefs] using hi
  have hget : s.coefs[i] = (s.coef.getD i 0).toInt := by
    rw [vector_getD_eq_getElem _ _ hlt]
    simp [State.coefs]
  rw [hget]
  cases i with
  | zero => rfl
  | succ i => rw [List.getElem_cons_succ, List.getElem_map, List.getElem_range]

/-- BlockBits from the coefficients one by one. -/
theorem State.blockBits_eq (s : State) (c : Component) : s.blockBits c = (do
    let dc ← dcFields s.ehuf[c.dcTable] ((s.coef.getD 0 0).toInt - s.predOf c)
    let ac ← acFields s.ehuf[c.acTable] 0 ((List.range 63).map fun k => (s.coef.getD (k + 1) 0).toInt)
    some (dc ++ ac)) := by
  rw [State.blockBits, s.coefs_eq]
  rfl

/-- Fields in two parts are missing where a part is. -/
theorem appendFields_eq_none_iff (x y : Option (List Field)) :
    (do let first ← x
        let rest ← y
        some (first ++ rest)) = none ↔ x = none ∨ y = none := by
  cases x <;> cases y <;> simp

section
variable {table : EHufTable} {diff : Int}

theorem dcFields_of_code {code : Field} (hsize : bitlen diff.natAbs ≤ 11)
    (hcode : codeField table (bitlen diff.natAbs) = some code) :
    dcFields table diff =
      some (if diff = 0 then [code] else [code, (valueBits diff (bitlen diff.natAbs), bitlen diff.natAbs)]) := by
  have hzero : 0 < bitlen diff.natAbs ↔ ¬ diff = 0 := by
    rw [Nat.pos_iff_ne_zero, Ne, bitlen_eq_zero_iff, Int.natAbs_eq_zero]
  simp only [dcFields, Nat.not_lt.2 hsize, hcode, hzero, ite_not, if_false, Option.bind_eq_bind, Option.bind_some]

theorem dcFields_eq_none_iff :
    dcFields table diff = none ↔ 11 < bitlen diff.natAbs ∨ codeField table (bitlen diff.natAbs) = none := by
  by_cases hsize : 11 < bitlen diff.natAbs
  · simp [dcFields, hsize]
  · rw [or_iff_right hsize]
    cases hcode : codeField table (bitlen diff.natAbs) with
    | none => simp [dcFields, hsize, hcode]
    | some code => simp [dcFields_of_code (Nat.le_of_not_lt hsize) hcode]

/-- Zeros lengthen the run. -/
theorem acFields_replicate_zero (run n : Nat) (vs : List Int) :
    acFields table run (List.replicate n 0 ++ vs) = acFields table (run + n) vs := by
  induction n generalizing run with
  | zero => rfl
  | succ n ih =>
    rw [List.replicate_succ, List.cons_append, acFields, if_pos rfl, ih, Nat.add_right_comm, Nat.add_assoc]

/-- The zeros before a nonzero coefficient are its run. -/
theorem acFields_run {n : Nat} {v : Int} (hv : v ≠ 0) (rest : List Int) :
    acFields table 0 (List.replicate n 0 ++ v :: rest) =
      if 10 < bitlen v.natAbs then none
      else (do
        let zrl ← zrlFields table n
        let code ← codeField table (n % 16 * 16 + bitlen v.natAbs)
        let more ← acFields table 0 rest
        some (zrl ++ [code, (valueBits v (bitlen v.natAbs), bitlen v.natAbs)] ++ more)) := by
  rw [acFields_replicate_zero, Nat.zero_add, acFields, if_neg hv, acCoefFields]
  split
  next hsize => simp [hsize]
  next hsize => simp [hsize, Option.bind_assoc]

theorem acFields_zeros {n : Nat} (hn : 0 < n) :
    acFields table 0 (List.replicate n 0) = (codeField table 0x00).map fun eob => [eob] := by
  have h := acFields_replicate_zero (table := table) 0 n []
  rw [List.append_nil, Nat.zero_add] at h
  rw [h, acFields, if_neg hn.ne']

end

/-- Settles O43: the runs of zeros are counted down to the coefficient they precede. -/
theorem acRunLengthFields : Obligations.AcRunLengthFields := by
  unfold Obligations.AcRunLengthFields
  refine ⟨fun s c => ?_, fun table sym _ => ?_, fun table diff size hsize => ?_, fun table n v rest hv => ?_,
    fun table n hn => acFields_zeros hn, fun table => rfl⟩
  · rw [s.blockBits_eq]
    cases c <;> rfl
  · have hzero : (table.getD sym .absent).size.toNat = 0 ↔ (table.getD sym .absent).size = 0 :=
      BitVec.toNat_inj (y := 0#5)
    simp only [codeField, hzero]
  · subst hsize
    exact ⟨fun hlarge => dcFields_eq_none_iff.2 (.inl hlarge), fun _ hnone => dcFields_eq_none_iff.2 (.inr hnone),
      fun code hsize hcode => dcFields_of_code hsize hcode⟩
  · rw [acFields_run hv, zrlFields]
    split_ifs <;> rfl

/-! ### The reset tables (45_entropy R263, 43_huffman_tables R214) -/

theorem dcRomVals_complete : ∀ t : Fin 4, t.val ≤ 1 → ∀ size, size ≤ 11 → size ∈ hspecRomVals t := by decide +kernel

theorem codeField_ehufRom_eq_none_iff (t : Fin 4) {sym : Nat} (hsym : sym < 256) :
    codeField (ehufRom t) sym = none ↔ sym ∉ hspecRomVals t := by
  rw [codeField_eq_none_iff, ← ehufRom_size_ne_zero_iff t hsym, not_not]

theorem dcFields_ehufRom_eq_none_iff {t : Fin 4} (ht : t.val ≤ 1) (diff : Int) :
    dcFields (ehufRom t) diff = none ↔ 11 < bitlen diff.natAbs := by
  rw [dcFields_eq_none_iff, or_iff_left_of_imp]
  intro hnone
  by_contra hsize
  exact (codeField_ehufRom_eq_none_iff t (by omega)).1 hnone (dcRomVals_complete t ht _ (Nat.le_of_not_lt hsize))

/-- An AC table with the code of every run with every size, of ZRL and of EOB. -/
def AcComplete (table : EHufTable) : Prop :=
  ∀ sym, sym < 256 → (1 ≤ sym % 16 ∧ sym % 16 ≤ 10) ∨ sym = 0x00 ∨ sym = 0xF0 → (codeField table sym).isSome

theorem acComplete_ehufRom {t : Fin 4} (ht : 2 ≤ t.val) : AcComplete (ehufRom t) := by
  intro sym hsym hac
  rw [Option.isSome_iff_ne_none, Ne, codeField_ehufRom_eq_none_iff t hsym, not_not]
  exact (mem_acRomVals_iff sym hsym t ht).2 hac

section
variable {table : EHufTable} (h : AcComplete table)
include h

theorem AcComplete.zrlFields (run : Nat) : (zrlFields table run).isSome := by
  unfold Machine.zrlFields
  split
  · rfl
  · rw [Option.isSome_map]
    exact h 0xF0 (by omega) (by omega)

theorem AcComplete.acCoefFields_eq_none_iff {run : Nat} {v : Int} (hv : v ≠ 0) :
    acCoefFields table run v = none ↔ 10 < bitlen v.natAbs := by
  obtain ⟨zrl, hzrl⟩ := Option.isSome_iff_exists.1 (h.zrlFields run)
  have hpos : bitlen v.natAbs ≠ 0 := mt bitlen_eq_zero_iff.1 (Int.natAbs_ne_zero.2 hv)
  by_cases hsize : 10 < bitlen v.natAbs
  · simp [acCoefFields, hzrl, hsize]
  · obtain ⟨code, hcode⟩ := Option.isSome_iff_exists.1
      (h (run % 16 * 16 + bitlen v.natAbs) (by omega) (.inl (by omega)))
    simp [acCoefFields, hzrl, hsize, hcode]

theorem AcComplete.acFields_eq_none_iff (run : Nat) (vs : List Int) :
    acFields table run vs = none ↔ ∃ v ∈ vs, 10 < bitlen v.natAbs := by
  induction vs generalizing run with
  | nil =>
    obtain ⟨eob, heob⟩ := Option.isSome_iff_exists.1 (h 0x00 (by omega) (by omega))
    rw [acFields]
    split <;> simp [heob]
  | cons v vs ih =>
    rw [acFields, List.exists_mem_cons_iff]
    split
    next hv => simp [ih, hv, bitlen]
    next hv =>
      rw [← ih 0, ← h.acCoefFields_eq_none_iff hv (run := run)]
      exact appendFields_eq_none_iff _ _

end

/-- Settles O44: the reset tables have every code a coefficient within the sizes asks for. -/
theorem encodeRangeOnlyFromSizes : Obligations.EncodeRangeOnlyFromSizes := by
  unfold Obligations.EncodeRangeOnlyFromSizes
  intro s c htables
  have hdc : c.dcTable.val ≤ 1 := by cases c <;> decide
  have hac : 2 ≤ c.acTable.val := by cases c <;> decide
  have hrange : (∃ v ∈ (List.range 63).map fun k => (s.coef.getD (k + 1) 0).toInt, 10 < bitlen v.natAbs) ↔
      ∃ k, 1 ≤ k ∧ k < 64 ∧ 10 < bitlen (s.coef.getD k 0).toInt.natAbs := by
    simp only [List.mem_map, List.mem_range, exists_exists_and_eq_and]
    exact ⟨fun ⟨k, hk, hsize⟩ => ⟨k + 1, Nat.succ_pos k, Nat.succ_lt_succ hk, hsize⟩,
      fun ⟨k, hpos, hk, hsize⟩ => ⟨k - 1, by omega, by rwa [Nat.sub_add_cancel hpos]⟩⟩
  rw [s.blockBits_eq, htables, htables, ← dcFields_ehufRom_eq_none_iff hdc, ← hrange,
    ← (acComplete_ehufRom hac).acFields_eq_none_iff 0]
  exact appendFields_eq_none_iff _ _

end Sys2Proof.Machine
end

section
/-! PROOFS. The entropy encoder's commands: ENCBLK appends a block, EFLUSH a padded byte, ERESET starts an image
(45_entropy R265 to R267). -/

namespace Sys2Proof.Machine

open Sys2Proof.Laws

theorem PackOnly.pred {s t : State} (h : PackOnly s t) : t.pred = s.pred := by
  rw [h]

theorem PackOnly.coef {s t : State} (h : PackOnly s t) : t.coef = s.coef := by
  rw [h]

/-! ### ENCBLK (45_entropy R265) -/

section
variable {c : BitVec 2} {comp : Component} {s : State} {fields : List Field}

theorem exec_encblk_illegal (s : State) : exec (.encblk 3) s = .next (failedWith .illegalCommand s) := by
  rw [exec_eq_runCommand]
  exact runCommand_error rfl

theorem exec_encblk_range (hc : componentOf c = some comp) (h : s.blockBits comp = none) :
    exec (.encblk c) s = .next (failedWith .encodeRange s) := by
  rw [exec_eq_runCommand]
  refine runCommand_error ?_
  rw [commandBody, encblkBody, hc, legalOperand_some, pure_bind_apply, observe_bind_apply, h]
  rfl

/-- A block that has its codes: the check for room, then the writes. -/
theorem encblkBody_of_fields (hc : componentOf c = some comp) (h : s.blockBits comp = some fields) :
    encblkBody c s =
      if s.ecsSize.toNat < s.ecsLen.toNat + outBytes s.pbits (bitsOfFields fields) then .error .encodeOverflow s
      else .ok () ((s.putBits (bitsOfFields fields)).setPred (s.pred.set comp.index s.coef[0])) := by
  have hpack := s.putBits_packOnly (bitsOfFields fields)
  rw [← hpack.pred, ← hpack.coef, encblkBody, hc, legalOperand_some, pure_bind_apply, observe_bind_apply, h, orRaise,
    pure_bind_apply, observe_bind_apply]
  split
  next hroom =>
    rw [decide_eq_true hroom]
    rfl
  next hroom =>
    rw [decide_eq_false hroom]
    rfl

theorem exec_encblk_overflow (hc : componentOf c = some comp) (h : s.blockBits comp = some fields)
    (hroom : s.ecsSize.toNat < s.ecsLen.toNat + outBytes s.pbits (bitsOfFields fields)) :
    exec (.encblk c) s = .next (failedWith .encodeOverflow s) := by
  rw [exec_eq_runCommand]
  exact runCommand_error ((encblkBody_of_fields hc h).trans (if_pos hroom))

theorem exec_encblk_appends (hc : componentOf c = some comp) (h : s.blockBits comp = some fields)
    (hroom : s.ecsLen.toNat + outBytes s.pbits (bitsOfFields fields) ≤ s.ecsSize.toNat) :
    exec (.encblk c) s =
      .next (completed ((s.putBits (bitsOfFields fields)).setPred (s.pred.set comp.index s.coef[0]))) := by
  rw [exec_eq_runCommand]
  exact runCommand_ok ((encblkBody_of_fields hc h).trans (if_neg (Nat.not_lt.2 hroom)))

end

/-- Settles O46: the block's fields are put as PutBits puts any bits, and then the predictor is written. -/
theorem encblkAppendsBlock : Obligations.EncblkAppendsBlock := by
  unfold Obligations.EncblkAppendsBlock
  refine ⟨fun w => ?_, fun c s hpending => ⟨rfl, ?_, fun comp hc => ⟨exec_encblk_range hc, fun f hf => ?_⟩⟩⟩
  · exact legalWord_of_reserved_field
      (r := ⟨"ENCBLK", 0x19#8, 0x00000300#32, fun w => .encblk (w.extractLsb' 8 2)⟩)
      (by simp [opcodeRows, encodeSideRows]) (by decide)
  · rintro rfl
    exact exec_encblk_illegal s
  · refine ⟨exec_encblk_overflow hc hf, fun hroom => ?_⟩
    obtain ⟨hframe, hlength, hstuffed, hbits, hcoded, hkept⟩ :=
      putBitsAppendsBits s (bitsOfFields f) hpending (hroom.trans_lt s.ecsSize.isLt)
    refine ⟨_, exec_encblk_appends hc hf hroom, ?_, hlength, hstuffed, hbits, fun h => (hcoded h).2, hkept⟩
    exact congrArg (·.setPred (s.pred.set comp.index s.coef[0])) hframe

/-! ### EFLUSH (45_entropy R266) -/

section
variable {s : State}

theorem exec_eflush_nothing (h : s.pbits = []) : exec .eflush s = .next (completed s) := by
  rw [exec_eq_runCommand]
  obtain ⟨-, hrun⟩ | ⟨hne, -⟩ | ⟨hne, -⟩ := eflushBody_cases s
  · exact runCommand_ok hrun
  · exact absurd h hne
  · exact absurd h hne

theorem exec_eflush_overflow (hne : s.pbits ≠ [])
    (hroom : s.ecsSize.toNat < s.ecsLen.toNat + emittedBytes (flushByte s.pbits)) :
    exec .eflush s = .next (failedWith .encodeOverflow s) := by
  rw [exec_eq_runCommand]
  obtain ⟨hnil, -⟩ | ⟨-, hfits, -⟩ | ⟨-, -, hrun⟩ := eflushBody_cases s
  · exact absurd hnil hne
  · exact absurd hroom (Nat.not_lt.2 hfits)
  · exact runCommand_error hrun

theorem exec_eflush_emits (hne : s.pbits ≠ [])
    (hroom : s.ecsLen.toNat + emittedBytes (flushByte s.pbits) ≤ s.ecsSize.toNat) :
    exec .eflush s = .next (completed ((s.emitByte (BitVec.ofNat 8 (flushByte s.pbits))).setPbits [])) := by
  rw [exec_eq_runCommand]
  obtain ⟨hnil, -⟩ | ⟨-, -, hrun⟩ | ⟨-, hover, -⟩ := eflushBody_cases s
  · exact absurd hnil hne
  · exact runCommand_ok hrun
  · exact absurd hover (Nat.not_lt.2 hroom)

end

theorem bitsValue_append_ones (p : List Bool) (n : Nat) :
    bitsValue (p ++ List.replicate n true) = bitsValue p * 2 ^ n + (2 ^ n - 1) := by
  induction n with
  | zero => simp
  | succ n ih =>
    have hpos := Nat.two_pow_pos n
    rw [List.replicate_succ', ← List.append_assoc, bitsValue_append_bit, ih, Nat.pow_succ', Nat.mul_left_comm]
    simp only [Bool.toNat_true]
    omega

/-- The byte of EFLUSH is the pending bits and 1-bits after them. -/
theorem fieldBits_flushByte {p : List Bool} (hp : p.length ≤ 7) :
    fieldBits (flushByte p) 8 = p ++ List.replicate (8 - p.length) true := by
  have hlength : (p ++ List.replicate (8 - p.length) true).length = 8 := by
    simp
    omega
  rw [flushByte, ← bitsValue_append_ones]
  nth_rw 2 [← hlength]
  exact fieldBits_bitsValue _

/-- Settles O47: the padded byte is emitted as any byte is. -/
theorem eflushPadsWithOnes : Obligations.EflushPadsWithOnes := by
  unfold Obligations.EflushPadsWithOnes
  refine ⟨rfl, fun w => ?_, fun s hpending => ⟨exec_eflush_nothing, fun hne => ?_⟩⟩
  · exact legalWord_of_operandless (r := ⟨"EFLUSH", 0x1A#8, 0#32, fun _ => .eflush⟩)
      (by simp [opcodeRows, encodeSideRows]) rfl
  · intro n b m
    refine ⟨fieldBits_flushByte hpending, exec_eflush_overflow hne, fun hroom => ?_⟩
    have hbyte : (BitVec.ofNat 8 b).toNat = b := Nat.mod_eq_of_lt (flushByte_lt hpending)
    have hemits := s.emitByte_emits (BitVec.ofNat 8 b) (by rw [hbyte]; exact hroom.trans_lt s.ecsSize.isLt)
    have hlength : (stuffByte (BitVec.ofNat 8 b)).length = m := by
      rw [stuffByte_length, hbyte]
      rfl
    refine ⟨_, exec_eflush_emits hne hroom, ?_, s.emitByte_first _, fun hff => ?_, ?_⟩
    · rw [← hlength]
      exact congrArg (·.setPbits []) hemits.eq
    · have hbytes : stuffByte (BitVec.ofNat 8 b) = [0xFF, 0x00] := by
        rw [hff]
        rfl
      rw [hbytes] at hemits
      exact hemits.ecsByte (i := 1) (by decide)
    · rw [← hlength]
      exact hemits.kept

/-! ### ERESET (45_entropy R267) -/

/-- Settles O48: ERESET is one update of three registers. -/
theorem eresetStartsImage : Obligations.EresetStartsImage := by
  unfold Obligations.EresetStartsImage
  refine ⟨rfl, fun w => ?_, fun s => ?_⟩
  · exact legalWord_of_operandless (r := ⟨"ERESET", 0x1B#8, 0#32, fun _ => .ereset⟩)
      (by simp [opcodeRows, encodeSideRows]) rfl
  · rw [exec_eq_runCommand]
    exact runCommand_ok rfl

end Sys2Proof.Machine
end

section
/-! PROOFS. How a command ends (60_exceptions R300 to R305, R337): which errors each part of a command can raise, and
what its end writes to the error record. -/

namespace Sys2Proof.Machine

/-! ### Which errors a part of a command can raise -/

/-- Every error the part raises is one of `E`. -/
def Cmd.RaisesOnly {α : Type} (E : List ErrorKind) (c : Cmd α) : Prop := ∀ s e t, c s = .error e t → e ∈ E

section
variable {α β : Type} {E : List ErrorKind}

theorem Cmd.RaisesOnly.bind {x : Cmd α} {f : α → Cmd β} (hx : Cmd.RaisesOnly E x) (hf : ∀ a, Cmd.RaisesOnly E (f a)) :
    Cmd.RaisesOnly E (x >>= f) := by
  intro s e u h
  obtain hfirst | ⟨a, t, -, hsecond⟩ := Cmd.bind_eq_error h
  · exact hx s e u hfirst
  · exact hf a t e u hsecond

theorem Cmd.RaisesOnly.mono {E' : List ErrorKind} {c : Cmd α} (h : Cmd.RaisesOnly E c) (hE : E ⊆ E') :
    Cmd.RaisesOnly E' c :=
  fun s e t hrun => hE (h s e t hrun)

theorem Cmd.RaisesOnly.pure (a : α) : Cmd.RaisesOnly E (Pure.pure a) := by
  intro s e t h
  cases (Cmd.pure_apply a s).symm.trans h

theorem Cmd.RaisesOnly.update (f : State → State) : Cmd.RaisesOnly E (Machine.update f) := by
  intro s e t h
  cases (update_apply f s).symm.trans h

theorem Cmd.RaisesOnly.observe_bind (g : State → α) {f : α → Cmd β} (hf : ∀ a, Cmd.RaisesOnly E (f a)) :
    Cmd.RaisesOnly E (observe g >>= f) :=
  fun s => hf (g s) s

theorem Cmd.RaisesOnly.raise {e : ErrorKind} (he : e ∈ E := by decide) :
    Cmd.RaisesOnly E (Machine.raise e : Cmd α) := by
  rintro s _ _ ⟨⟩
  exact he

theorem Cmd.RaisesOnly.raiseIf (c : Bool) {e : ErrorKind} (he : e ∈ E := by decide) :
    Cmd.RaisesOnly E (Machine.raiseIf c e) := by
  cases c
  · exact .pure ()
  · exact .raise he

theorem Cmd.RaisesOnly.orRaise (o : Option α) {e : ErrorKind} (he : e ∈ E := by decide) :
    Cmd.RaisesOnly E (Machine.orRaise e o) := by
  cases o with
  | none => exact .raise he
  | some a => exact .pure a

theorem Cmd.RaisesOnly.legalOperand (o : Option α) (he : .illegalCommand ∈ E := by decide) :
    Cmd.RaisesOnly E (Machine.legalOperand o) := by
  cases o with
  | none => exact .raise he
  | some a => exact .pure a

end

/-! ### The bit reader and the decoder (40_bitreader R121, R124, R125) -/

section
variable {E : List ErrorKind}

theorem readBits_raisesOnly (lim n : Nat) (he : .truncatedInput ∈ E := by decide) :
    Cmd.RaisesOnly E (readBits lim n) := by
  intro s e t h
  obtain ⟨-, hrun⟩ | ⟨-, -, hrun⟩ | ⟨-, -, hrun⟩ := readBits_cases lim n s <;> cases hrun.symm.trans h
  exact he

theorem decodeLoop_raisesOnly (tab : List (Nat × Nat)) (lim fuel k p : Nat) (hcut : .truncatedInput ∈ E := by decide)
    (hcode : .invalidCode ∈ E := by decide) : Cmd.RaisesOnly E (decodeLoop tab lim fuel k p) := by
  induction fuel generalizing k p with
  | zero => exact .raise hcode
  | succ fuel ih =>
    unfold decodeLoop
    split
    · exact .pure _
    · split
      · exact (readBits_raisesOnly lim 1 hcut).bind fun _ => ih _ _
      · exact .raise hcode

theorem decodeSymbol_raisesOnly (t : DecodeTable) (lim : Nat) (hcut : .truncatedInput ∈ E := by decide)
    (hcode : .invalidCode ∈ E := by decide) : Cmd.RaisesOnly E (decodeSymbol t lim) :=
  .observe_bind _ fun _ => decodeLoop_raisesOnly _ lim 16 0 0 hcut hcode

theorem buildTable_raisesOnly (t : DecodeTable) (lens : List Nat) (he : .invalidCode ∈ E := by decide) :
    Cmd.RaisesOnly E (buildTable t lens) :=
  (Cmd.RaisesOnly.raiseIf _ he).bind fun _ => (Cmd.RaisesOnly.raiseIf _ he).bind fun _ => .update _

end

/-! ### The inflater: each of its parts raises only the errors the inflate commands share (60_exceptions R302) -/

theorem emit_raisesOnly (b : Byte) : Cmd.RaisesOnly errorsOf.inflateErrors (emit b) :=
  .observe_bind _ fun _ => (Cmd.RaisesOnly.raiseIf _).bind fun _ => .update _

theorem copyBytes_raisesOnly (d l : Nat) : Cmd.RaisesOnly errorsOf.inflateErrors (copyBytes d l) := by
  induction l with
  | zero => exact .pure ()
  | succ l ih => exact .observe_bind _ fun b => (emit_raisesOnly b).bind fun _ => ih

theorem copyMatch_raisesOnly (l d : Nat) : Cmd.RaisesOnly errorsOf.inflateErrors (copyMatch l d) :=
  .observe_bind _ fun _ => (Cmd.RaisesOnly.raiseIf _).bind fun _ => copyBytes_raisesOnly d l

theorem storedBytes_raisesOnly (lim l : Nat) : Cmd.RaisesOnly errorsOf.inflateErrors (storedBytes lim l) := by
  induction l with
  | zero => exact .pure ()
  | succ l ih => exact (readBits_raisesOnly lim 8).bind fun _ => (emit_raisesOnly _).bind fun _ => ih

theorem storedBlock_raisesOnly (lim : Nat) : Cmd.RaisesOnly errorsOf.inflateErrors (storedBlock lim) :=
  (Cmd.RaisesOnly.update _).bind fun _ => (readBits_raisesOnly lim 16).bind fun _ =>
    (readBits_raisesOnly lim 16).bind fun _ => storedBytes_raisesOnly lim _

theorem backReference_raisesOnly (lim sym : Nat) : Cmd.RaisesOnly errorsOf.inflateErrors (backReference lim sym) :=
  (readBits_raisesOnly lim _).bind fun _ => (decodeSymbol_raisesOnly .dist lim).bind fun _ =>
    (Cmd.RaisesOnly.raiseIf _).bind fun _ => (readBits_raisesOnly lim _).bind fun _ => copyMatch_raisesOnly _ _

theorem huffmanPass_raisesOnly (lim : Nat) : Cmd.RaisesOnly errorsOf.inflateErrors (huffmanPass lim) := by
  refine (decodeSymbol_raisesOnly .litlen lim).bind fun sym => ?_
  split_ifs
  · exact (emit_raisesOnly _).bind fun _ => .pure _
  · exact .pure _
  · exact (backReference_raisesOnly lim sym).bind fun _ => .pure _
  · exact .raise

theorem huffmanBody_raisesOnly (lim fuel : Nat) : Cmd.RaisesOnly errorsOf.inflateErrors (huffmanBody lim fuel) := by
  induction fuel with
  | zero => exact .raise
  | succ fuel ih =>
    refine (huffmanPass_raisesOnly lim).bind fun atEnd => ?_
    cases atEnd
    · exact ih
    · exact .pure ()

theorem fixedBlock_raisesOnly (lim : Nat) : Cmd.RaisesOnly errorsOf.inflateErrors (fixedBlock lim) :=
  (buildTable_raisesOnly _ _).bind fun _ => (buildTable_raisesOnly _ _).bind fun _ => huffmanBody_raisesOnly lim _

theorem readCodeLengths_raisesOnly (lim : Nat) (perm cl : List Nat) :
    Cmd.RaisesOnly errorsOf.inflateErrors (readCodeLengths lim perm cl) := by
  induction perm generalizing cl with
  | nil => exact .pure cl
  | cons p perm ih => exact (readBits_raisesOnly lim 3).bind fun _ => ih _

theorem repeatOf_raisesOnly (lim sym : Nat) (a : List Nat) :
    Cmd.RaisesOnly errorsOf.inflateErrors (repeatOf lim sym a) := by
  unfold repeatOf
  split_ifs
  · cases a.getLast? with
    | none => exact .raise
    | some l => exact (readBits_raisesOnly lim 2).bind fun _ => .pure _
  · exact (readBits_raisesOnly lim 3).bind fun _ => .pure _
  · exact (readBits_raisesOnly lim 7).bind fun _ => .pure _

theorem lengthsPass_raisesOnly (lim m : Nat) (a : List Nat) :
    Cmd.RaisesOnly errorsOf.inflateErrors (lengthsPass lim m a) := by
  refine (decodeSymbol_raisesOnly .clen lim).bind fun sym => ?_
  split
  · exact .pure _
  · exact (repeatOf_raisesOnly lim sym a).bind fun _ => (Cmd.RaisesOnly.raiseIf _).bind fun _ => .pure _

theorem readLengths_raisesOnly (lim m fuel : Nat) (a : List Nat) :
    Cmd.RaisesOnly errorsOf.inflateErrors (readLengths lim m fuel a) := by
  induction fuel generalizing a with
  | zero => exact .pure a
  | succ fuel ih =>
    unfold readLengths
    split
    · exact .pure a
    · exact (lengthsPass_raisesOnly lim m a).bind ih

theorem dynamicBlock_raisesOnly (lim : Nat) : Cmd.RaisesOnly errorsOf.inflateErrors (dynamicBlock lim) :=
  (readBits_raisesOnly lim 5).bind fun _ => (readBits_raisesOnly lim 5).bind fun _ =>
    (readBits_raisesOnly lim 4).bind fun _ => (readCodeLengths_raisesOnly lim _ _).bind fun _ =>
      (buildTable_raisesOnly _ _).bind fun _ => (readLengths_raisesOnly lim _ _ _).bind fun _ =>
        (buildTable_raisesOnly _ _).bind fun _ => (buildTable_raisesOnly _ _).bind fun _ =>
          huffmanBody_raisesOnly lim _

theorem blockBody_raisesOnly (lim btype : Nat) : Cmd.RaisesOnly errorsOf.inflateErrors (blockBody lim btype) := by
  unfold blockBody
  split_ifs
  · exact storedBlock_raisesOnly lim
  · exact fixedBlock_raisesOnly lim
  · exact dynamicBlock_raisesOnly lim
  · exact .raise

theorem inflateBlock_raisesOnly (lim : Nat) : Cmd.RaisesOnly errorsOf.inflateErrors (inflateBlock lim) :=
  (readBits_raisesOnly lim 1).bind fun _ => (readBits_raisesOnly lim 2).bind fun btype =>
    (Cmd.RaisesOnly.update _).bind fun _ => (blockBody_raisesOnly lim btype).bind fun _ => .pure _

theorem inflateBlocks_raisesOnly (lim fuel : Nat) : Cmd.RaisesOnly errorsOf.inflateErrors (inflateBlocks lim fuel) := by
  induction fuel with
  | zero => exact .raise
  | succ fuel ih =>
    refine (inflateBlock_raisesOnly lim).bind fun f => ?_
    split
    · exact .pure ()
    · exact ih

/-! ### The commands (60_exceptions R302) -/

theorem rdbitsBody_raisesOnly (n : BitVec 5) :
    Cmd.RaisesOnly [.illegalCommand, .truncatedInput] (rdbitsBody n) :=
  (Cmd.RaisesOnly.legalOperand _).bind fun _ => .observe_bind _ fun lim =>
    (readBits_raisesOnly lim _).bind fun _ => .update _

theorem hbuildBody_raisesOnly (t : BitVec 2) (n : BitVec 9) :
    Cmd.RaisesOnly [.illegalCommand, .invalidCode] (hbuildBody t n) :=
  (Cmd.RaisesOnly.legalOperand _).bind fun _ => .observe_bind _ fun _ => buildTable_raisesOnly _ _

theorem hdecodeBody_raisesOnly (t : BitVec 2) :
    Cmd.RaisesOnly [.illegalCommand, .invalidCode, .truncatedInput] (hdecodeBody t) :=
  (Cmd.RaisesOnly.legalOperand _).bind fun tab => .observe_bind _ fun lim =>
    (decodeSymbol_raisesOnly tab lim).bind fun _ => .update _

theorem infblkBody_raisesOnly : Cmd.RaisesOnly errorsOf.inflateErrors infblkBody :=
  .observe_bind _ fun lim => (inflateBlock_raisesOnly lim).bind fun _ => .pure ()

theorem inflateBody_raisesOnly : Cmd.RaisesOnly errorsOf.inflateErrors inflateBody :=
  .observe_bind _ fun lim => (Cmd.RaisesOnly.update _).bind fun _ => inflateBlocks_raisesOnly lim _

theorem zinflateBody_raisesOnly : Cmd.RaisesOnly (.malformedIDAT :: errorsOf.inflateErrors) zinflateBody :=
  .observe_bind _ fun _ => (Cmd.RaisesOnly.raiseIf _).bind fun _ => (Cmd.RaisesOnly.update _).bind fun _ =>
    (inflateBlocks_raisesOnly _ _).mono (List.subset_cons_self _ _)

theorem ehbuildBody_raisesOnly (t : BitVec 2) : Cmd.RaisesOnly [.huffSpec] (ehbuildBody t) := by
  refine .observe_bind _ fun built => ?_
  cases built with
  | some table => exact .update _
  | none => exact .raise

theorem encblkBody_raisesOnly (c : BitVec 2) :
    Cmd.RaisesOnly [.illegalCommand, .encodeRange, .encodeOverflow] (encblkBody c) :=
  (Cmd.RaisesOnly.legalOperand _).bind fun _ => .observe_bind _ fun _ => (Cmd.RaisesOnly.orRaise _).bind fun _ =>
    .observe_bind _ fun _ => (Cmd.RaisesOnly.raiseIf _).bind fun _ => (Cmd.RaisesOnly.update _).bind fun _ => .update _

theorem eflushBody_raisesOnly : Cmd.RaisesOnly [.encodeOverflow] eflushBody := by
  refine .observe_bind _ fun p => ?_
  split
  · exact .pure ()
  · exact .observe_bind _ fun _ => (Cmd.RaisesOnly.raiseIf _).bind fun _ => .update _

/-- Each command raises only its own errors; IllegalCommand is in every list, as the decoder may raise it (R303). -/
theorem commandBody_raisesOnly (i : Instr) : Cmd.RaisesOnly (errorsOf i) (commandBody i) := by
  cases i with
  | rdbits n => exact rdbitsBody_raisesOnly n
  | hbuild t n => exact hbuildBody_raisesOnly t n
  | hdecode t => exact hdecodeBody_raisesOnly t
  | infblk => exact infblkBody_raisesOnly.mono (List.subset_cons_self _ _)
  | inflate => exact inflateBody_raisesOnly.mono (List.subset_cons_self _ _)
  | zinflate => exact zinflateBody_raisesOnly.mono (List.subset_cons_self _ _)
  | ehbuild t => exact (ehbuildBody_raisesOnly t).mono (List.subset_cons_self _ _)
  | encblk c => exact encblkBody_raisesOnly c
  | eflush => exact eflushBody_raisesOnly.mono (List.subset_cons_self _ _)
  | qlookup t i z => exact .observe_bind _ fun _ => .update _
  | align | qbuild q | fdct | quant t | ereset => exact .update _

/-! ### The error record (60_exceptions R304, R305) -/

/-- `t` has the pending word and the error record of `s`. -/
structure SameRecord (s t : State) : Prop where
  pending : t.pending = s.pending
  err : t.status.err = s.status.err
  errCode : t.status.errCode = s.status.errCode
  errCmd : t.errCmd = s.errCmd
  errPos : t.errPos = s.errPos

/-- The record is written at the end of a command alone. -/
theorem commandBody_sameRecord (i : Instr) (s : State) : SameRecord s ((commandBody i).after s) := by
  have hframe := commandBody_frame i s
  generalize (commandBody i).after s = u at hframe
  cases i <;> rw [commandFrame] at hframe
  case hbuild =>
    obtain rfl | ⟨tab, lens, -, rfl⟩ := hframe
    · exact ⟨rfl, rfl, rfl, rfl, rfl⟩
    · cases tab <;> constructor <;> simp [State.setHlen]
  case ehbuild =>
    obtain rfl | ⟨table, rfl⟩ := hframe <;> exact ⟨rfl, rfl, rfl, rfl, rfl⟩
  all_goals
    rw [hframe]
    exact ⟨rfl, rfl, rfl, rfl, rfl⟩

/-- How a command ends: completed, or failed with one of its errors, from a state with the record as it was. -/
theorem exec_ends (i : Instr) (s : State) :
    ∃ u, SameRecord s u ∧
      (exec i s = .next (completed u) ∨ ∃ e ∈ errorsOf i, exec i s = .next (failedWith e u)) := by
  have hrecord := commandBody_sameRecord i s
  rw [exec_eq_runCommand]
  obtain ⟨u, hu, hrun⟩ | ⟨e, u, hu, hrun⟩ := runCommand_cases (commandBody i) s <;> rw [Cmd.after, hu] at hrecord
  · exact ⟨u, hrecord, .inl hrun⟩
  · exact ⟨u, hrecord, .inr ⟨e, commandBody_raisesOnly i s e u hu, hrun⟩⟩

/-- Settles O7: a completed command leaves ERR as it was, and a failed one shows the code of an error of its own. -/
theorem completesWithItsOwnErrors : Obligations.CompletesWithItsOwnErrors := by
  unfold Obligations.CompletesWithItsOwnErrors
  intro i s
  obtain ⟨u, hrecord, hrun | ⟨e, he, hrun⟩⟩ := exec_ends i s
  · refine ⟨_, hrun, rfl, rfl, hrecord.pending, fun hclear herr => ?_⟩
    exact absurd (hrecord.err.symm.trans herr) (Bool.eq_false_iff.1 hclear)
  · exact ⟨_, hrun, rfl, rfl, hrecord.pending, fun _ _ => ⟨e, he, rfl⟩⟩

/-- Settles O8: a completed command leaves the record alone, and a failed one writes all of it. -/
theorem errorRecordPrecise : Obligations.ErrorRecordPrecise := by
  unfold Obligations.ErrorRecordPrecise
  intro i s t hclear ht
  obtain ⟨u, hrecord, hrun | ⟨e, -, hrun⟩⟩ := exec_ends i s <;>
    obtain rfl := Host.Outcome.next.inj (ht.symm.trans hrun)
  · have hstill : (completed u).status.err = false := hrecord.err.trans hclear
    exact ⟨fun herr => absurd herr (Bool.eq_false_iff.1 hstill),
      fun _ => ⟨hrecord.errCmd, hrecord.errPos, hrecord.errCode⟩⟩
  · exact ⟨fun _ => ⟨hrecord.pending, rfl, e.code_bounds.1⟩, nofun⟩

/-! ### Idling (60_exceptions R337) -/

/-- Settles O13: an idle engine's step is no step, and with no access of the host the block's step is the engine's. -/
theorem idlingChangesNothing : Obligations.IdlingChangesNothing := by
  unfold Obligations.IdlingChangesNothing
  intro s hidle
  exact ⟨engineStep_of_idle hidle, fun hbus => (nextEvent_nil hbus).trans (engineStep_of_idle hidle)⟩

end Sys2Proof.Machine
end

section
/-! PROOFS. No command reads IN at or past its limit: a byte of IN outside what is left to read passes through every
command (70_reset R356, 40_bitreader R120, 41_inflate R171). -/

namespace Sys2Proof.Machine

/-! ### The block loop as a part of the inflater -/

namespace InflaterProperty

variable {lim : Nat} {P : (α : Type) → Cmd α → Prop}

/-- A block has a property of the inflater's parts, if AlignToByte and the write of the header flags have it. -/
theorem inflateBlock (h : InflaterProperty lim P) (halign : P Unit alignToByte)
    (hheader : ∀ bfinal btype, P Unit (update fun s => s.setBlockHeader bfinal btype)) : P Nat (inflateBlock lim) :=
  h.bind (h.readBits 1) fun bfinal => h.bind (h.readBits 2) fun btype => h.bind (hheader bfinal btype) fun _ =>
    h.bind (h.blockBody halign btype) fun _ => h.pure bfinal

theorem inflateBlocks (h : InflaterProperty lim P) (hblock : P Nat (Machine.inflateBlock lim)) (fuel : Nat) :
    P Unit (inflateBlocks lim fuel) := by
  induction fuel with
  | zero => exact h.raise _
  | succ fuel ih =>
    refine h.bind hblock fun f => ?_
    split
    · exact h.pure ()
    · exact ih

end InflaterProperty

/-! ### Two writes of different bytes -/

theorem memStore_comm (m : Memory) {a b : Nat} (h : a ≠ b) (v w : Byte) :
    memStore (memStore m a v) b w = memStore (memStore m b w) a v := by
  induction m with
  | nil => grind [memStore]
  | cons c m ih => grind [memStore]

theorem State.writeByte_comm (s : State) {a b : Nat} (h : a ≠ b) (v w : Byte) :
    (s.writeByte a v).writeByte b w = (s.writeByte b w).writeByte a v :=
  congrArg s.setMem (memStore_comm s.mem h v w)

/-! ### A byte of IN that is not left to read -/

/-- Byte `j` of IN lies at or past the limit, or before the cursor, which stays within the limit without wrapping. -/
def Unread (lim j : Nat) (s : State) : Prop :=
  lim ≤ 8 * j ∨ (lim < 2 ^ 32 ∧ 8 ∣ lim ∧ 8 * (j + 1) ≤ s.brPos.toNat ∧ s.brPos.toNat ≤ lim)

/-- A run with its state changed by `f` afterwards. -/
def mapState {α : Type} (f : State → State) : EStateM.Result ErrorKind State α → EStateM.Result ErrorKind State α
  | .ok a s => .ok a (f s)
  | .error e s => .error e (f s)

/-- The run from `s` is the same with `v` stored at byte `j` of IN, and differs in that byte alone. -/
def Cmd.SameWith {α : Type} (j : Nat) (v : Byte) (c : Cmd α) (s : State) : Prop :=
  c (s.writeByte (inBase + j) v) = mapState (·.writeByte (inBase + j) v) (c s)

/-- While byte `j` of IN is not left to read the part keeps it so, and runs the same with `v` stored there. -/
structure Cmd.Ignores {α : Type} (lim j : Nat) (v : Byte) (c : Cmd α) : Prop where
  keeps : Cmd.Relates (fun s t => Unread lim j s → Unread lim j t) c
  same : ∀ s, Unread lim j s → c.SameWith j v s

/-- A byte past the limit stays past it; a byte before the cursor stays there while the cursor moves on. -/
theorem Unread.of_readsOn {lim j : Nat} {s t : State} (hread : lim < 2 ^ 32 → 8 ∣ lim → ReadsOn lim s t)
    (h : Unread lim j s) : Unread lim j t := by
  obtain hpast | ⟨hlim, halign, hbefore, hle⟩ := h
  · exact .inl hpast
  · obtain ⟨-, hon⟩ := hread hlim halign
    obtain ⟨hmono, hend⟩ := hon hle
    exact .inr ⟨hlim, halign, hbefore.trans hmono, hend⟩

theorem Unread.of_brPos_eq {lim j : Nat} {s t : State} (hcursor : t.brPos = s.brPos) (h : Unread lim j s) :
    Unread lim j t := by
  unfold Unread
  rwa [hcursor]

theorem State.streamBits_writeByte_ne (s : State) {j p n : Nat} (h : ∀ i, p ≤ i → i < p + n → i / 8 ≠ j)
    (v : Byte) : (s.writeByte (inBase + j) v).streamBits p n = s.streamBits p n := by
  induction n generalizing p with
  | zero => rfl
  | succ n ih =>
    have hbit : (s.writeByte (inBase + j) v).inByte (p / 8) = s.inByte (p / 8) :=
      s.readByte_writeByte_ne v (fun heq => h p le_rfl (by omega) (Nat.add_left_cancel heq))
    rw [State.streamBits, State.streamBits, ih fun i hlo hhi => h i (by omega) (by omega), State.streamBit,
      State.streamBit, hbit]

/-- ReadBits reads no bit of the byte. -/
theorem Unread.bit_ne {lim j n : Nat} {s : State} (h : Unread lim j s) (hle : s.brPos.toNat + n ≤ lim) :
    ∀ i, s.brPos.toNat ≤ i → i < s.brPos.toNat + n → i / 8 ≠ j := by
  intro i hlo hhi
  obtain hpast | ⟨-, -, hbefore, -⟩ := h <;> omega

/-! ### The parts of the commands -/

section
variable {lim j : Nat} {v : Byte} {α β : Type}

theorem Cmd.Ignores.bind {x : Cmd α} {f : α → Cmd β} (hx : Cmd.Ignores lim j v x)
    (hf : ∀ a, Cmd.Ignores lim j v (f a)) : Cmd.Ignores lim j v (x >>= f) where
  keeps := Cmd.Relates.bind (R := fun s t => Unread lim j s → Unread lim j t) (fun h h' => h' ∘ h) hx.keeps
    fun a => (hf a).keeps
  same s h := by
    have hafter := hx.keeps s h
    rw [Cmd.SameWith, Cmd.bind_apply, Cmd.bind_apply, hx.same s h]
    cases hrun : x s with
    | ok a t =>
      rw [Cmd.after, hrun] at hafter
      exact (hf a).same t hafter
    | error e t => rfl

theorem Cmd.Ignores.pure (a : α) : Cmd.Ignores lim j v (Pure.pure a : Cmd α) := ⟨fun _ => id, fun _ _ => rfl⟩

theorem Cmd.Ignores.raise (e : ErrorKind) : Cmd.Ignores lim j v (Machine.raise e : Cmd α) :=
  ⟨fun _ => id, fun _ _ => rfl⟩

theorem Cmd.Ignores.raiseIf (c : Bool) (e : ErrorKind) : Cmd.Ignores lim j v (Machine.raiseIf c e) := by
  cases c
  · exact .pure ()
  · exact .raise e

theorem Cmd.Ignores.orRaise (e : ErrorKind) (o : Option α) : Cmd.Ignores lim j v (Machine.orRaise e o) := by
  cases o with
  | none => exact .raise e
  | some a => exact .pure a

theorem Cmd.Ignores.legalOperand (o : Option α) : Cmd.Ignores lim j v (Machine.legalOperand o) := by
  cases o with
  | none => exact .raise _
  | some a => exact .pure a

/-- What is observed does not depend on the byte. -/
theorem Cmd.Ignores.observe {g : State → α} (h : ∀ s : State, g (s.writeByte (inBase + j) v) = g s) :
    Cmd.Ignores lim j v (Machine.observe g) :=
  ⟨fun _ => id, fun s _ => by rw [Cmd.SameWith, observe_apply, observe_apply, h]; rfl⟩

/-- An update that leaves the cursor alone and commutes with storing the byte. -/
theorem Cmd.Ignores.update {f : State → State} (hcursor : ∀ s, (f s).brPos = s.brPos)
    (h : ∀ s : State, f (s.writeByte (inBase + j) v) = (f s).writeByte (inBase + j) v) :
    Cmd.Ignores lim j v (Machine.update f) where
  keeps s := Unread.of_brPos_eq (hcursor s)
  same s _ := by rw [Cmd.SameWith, update_apply, update_apply, h]; rfl

theorem Cmd.Ignores.writeResult (x : Nat) : Cmd.Ignores lim j v (Machine.writeResult x) :=
  .update (fun _ => rfl) fun _ => rfl

theorem readBits_ignores (n : Nat) : Cmd.Ignores lim j v (readBits lim n) where
  keeps s := Unread.of_readsOn fun hlim _ => readBits_readsOn hlim n s
  same s h := by
    obtain ⟨rfl, -⟩ | ⟨hn, hle, hrun⟩ | ⟨hn, hcut, hrun⟩ := readBits_cases lim n s
    · rw [Cmd.SameWith, readBits_zero, readBits_zero]
      rfl
    · rw [Cmd.SameWith, hrun, readBits_ok (s := s.writeByte (inBase + j) v) hle hn]
      exact congrArg (fun bits => EStateM.Result.ok (bitsValueLsb bits) _)
        (s.streamBits_writeByte_ne (h.bit_ne hle) v)
    · rw [Cmd.SameWith, hrun, readBits_truncated (s := s.writeByte (inBase + j) v) hcut hn]
      rfl

theorem alignToByte_ignores : Cmd.Ignores lim j v alignToByte where
  keeps s := Unread.of_readsOn fun hlim halign => alignToByte_readsOn hlim halign s
  same _ _ := rfl

theorem State.setHlen_writeByte (s : State) (a : Nat) (b : Byte) (t : DecodeTable) (lens : List Nat) :
    (s.writeByte a b).setHlen t lens = (s.setHlen t lens).writeByte a b := by
  cases t <;> simp only [State.setHlen, State.setHlen0, State.setHlen1, State.setHlen2, State.writeByte, State.setMem]

theorem buildTable_ignores (t : DecodeTable) (lens : List Nat) : Cmd.Ignores lim j v (buildTable t lens) :=
  (Cmd.Ignores.raiseIf _ _).bind fun _ => (Cmd.Ignores.raiseIf _ _).bind fun _ =>
    .update (fun s => s.setHlen_brPos t lens) fun s => s.setHlen_writeByte _ v t lens

section
variable (hj : j < 2 ^ 24)
include hj

theorem inAddress_ne_outAddress (k : Nat) : inBase + j ≠ outBase + k := by
  unfold inBase outBase
  omega

theorem State.outByte_writeInput (s : State) (k : Nat) :
    (s.writeByte (inBase + j) v).outByte k = s.outByte k :=
  s.readByte_writeByte_ne v (inAddress_ne_outAddress hj k).symm

theorem emit_ignores (b : Byte) : Cmd.Ignores lim j v (emit b) :=
  (Cmd.Ignores.observe fun _ => rfl).bind fun _ => (Cmd.Ignores.raiseIf _ _).bind fun _ =>
    .update (fun _ => rfl) fun s => congrArg (·.setOutLen (BitVec.ofNat 32 (s.outLen.toNat + 1)))
      (s.writeByte_comm (inAddress_ne_outAddress hj _) v b)

theorem ignores_inflaterProperty : InflaterProperty lim fun _ => Cmd.Ignores lim j v where
  pure := .pure
  raise := .raise
  bind := .bind
  readBits := readBits_ignores
  lengths t := .observe fun s => by cases t <;> rfl
  history d := .observe fun s => by rw [State.outByte_writeInput hj]; rfl
  tooFar d := .observe fun _ => rfl
  emit := emit_ignores hj
  buildTable := buildTable_ignores

theorem inflateBlock_ignores : Cmd.Ignores lim j v (inflateBlock lim) :=
  (ignores_inflaterProperty hj).inflateBlock alignToByte_ignores fun _ _ => .update (fun _ => rfl) fun _ => rfl

theorem inflateBlocks_ignores (fuel : Nat) : Cmd.Ignores lim j v (inflateBlocks lim fuel) :=
  (ignores_inflaterProperty hj).inflateBlocks (inflateBlock_ignores hj) fuel

end

/-! ### The entropy encoder (45_entropy R260, R261) -/

theorem PackOnly.brPos {s t : State} (h : PackOnly s t) : t.brPos = s.brPos := by
  rw [h]

section
variable (hj : j < 2 ^ 24) (s : State)
include hj

theorem State.appendEcs_writeInput (b : Byte) :
    (s.writeByte (inBase + j) v).appendEcs b = (s.appendEcs b).writeByte (inBase + j) v :=
  congrArg (·.setEcsLen (BitVec.ofNat 32 (s.ecsLen.toNat + 1)))
    (s.writeByte_comm (by unfold inBase ecsBase; omega) v b)

theorem State.emitByte_writeInput (b : Byte) :
    (s.writeByte (inBase + j) v).emitByte b = (s.emitByte b).writeByte (inBase + j) v := by
  unfold State.emitByte
  split
  · rw [State.appendEcs_writeInput hj, State.appendEcs_writeInput hj]
  · exact State.appendEcs_writeInput hj s b

theorem State.putBits_writeInput (bits : List Bool) :
    (s.writeByte (inBase + j) v).putBits bits = (s.putBits bits).writeByte (inBase + j) v := by
  induction bits generalizing s with
  | nil => rfl
  | cons b bits ih =>
    have hbit : (s.writeByte (inBase + j) v).putBit b = (s.putBit b).writeByte (inBase + j) v := by
      by_cases hfull : (s.pbits ++ [b]).length = 8
      · rw [State.putBit_of_full hfull, State.putBit_of_full (s := s.writeByte _ v) hfull]
        exact congrArg (·.setPbits []) (State.emitByte_writeInput hj s _)
      · rw [State.putBit_of_room hfull, State.putBit_of_room (s := s.writeByte _ v) hfull]
        rfl
    rw [State.putBits_cons, State.putBits_cons, hbit, ih]

end

theorem encblkBody_ignores (hj : j < 2 ^ 24) (c : BitVec 2) : Cmd.Ignores lim j v (encblkBody c) :=
  (Cmd.Ignores.legalOperand _).bind fun _ => (Cmd.Ignores.observe fun _ => rfl).bind fun _ =>
    (Cmd.Ignores.orRaise _ _).bind fun _ => (Cmd.Ignores.observe fun _ => rfl).bind fun _ =>
      (Cmd.Ignores.raiseIf _ _).bind fun _ =>
        (Cmd.Ignores.update (fun s => (s.putBits_packOnly _).brPos)
          fun s => s.putBits_writeInput hj _).bind fun _ => .update (fun _ => rfl) fun _ => rfl

theorem eflushBody_ignores (hj : j < 2 ^ 24) : Cmd.Ignores lim j v eflushBody := by
  refine (Cmd.Ignores.observe fun _ => rfl).bind fun p => ?_
  split
  · exact .pure ()
  · exact (Cmd.Ignores.observe fun _ => rfl).bind fun _ => (Cmd.Ignores.raiseIf _ _).bind fun _ =>
      .update (fun s => (s.emitByte_packOnly _).brPos) fun s =>
        congrArg (·.setPbits []) (s.emitByte_writeInput hj _)

theorem ehbuildBody_ignores (t : BitVec 2) : Cmd.Ignores lim j v (ehbuildBody t) := by
  refine (Cmd.Ignores.observe fun _ => rfl).bind fun built => ?_
  cases built with
  | some table => exact .update (fun _ => rfl) fun _ => rfl
  | none => exact .raise _

theorem qbuildBody_ignores (q : BitVec 8) : Cmd.Ignores lim j v (qbuildBody q) :=
  .update (fun _ => by simp) fun s => by simp only [State.setQt0, State.setQt1, State.writeByte, State.setMem]

theorem fdctBody_ignores : Cmd.Ignores lim j v fdctBody :=
  .update (fun _ => State.setDctbuf_brPos _ _) fun s => by simp only [State.setDctbuf, State.writeByte, State.setMem]

theorem quantBody_ignores (t : BitVec 1) : Cmd.Ignores lim j v (quantBody t) :=
  .update (fun _ => State.setCoef_brPos _ _) fun s => by
    simp only [State.setCoef, State.writeByte, State.setMem, State.qt]

theorem hbuildBody_ignores (t : BitVec 2) (n : BitVec 9) : Cmd.Ignores lim j v (hbuildBody t n) :=
  (Cmd.Ignores.legalOperand _).bind fun _ => (Cmd.Ignores.observe fun _ => rfl).bind fun _ => buildTable_ignores _ _

end

/-! ### The commands -/

section
variable {j : Nat} {v : Byte} {s : State}

/-- A command whose limit is that of IN_LEN reads no byte at or past it. -/
theorem observe_bitLimit_sameWith {f : Nat → Cmd Unit} (hf : ∀ lim, Cmd.Ignores lim j v (f lim))
    (h : s.inLen.toNat ≤ j) : (observe State.bitLimit >>= f).SameWith j v s :=
  (hf s.bitLimit).same s (.inl (Nat.mul_le_mul_left 8 h))

theorem rdbitsBody_sameWith (n : BitVec 5) (h : s.inLen.toNat ≤ j) : (rdbitsBody n).SameWith j v s := by
  unfold rdbitsBody
  cases bitCountOf n with
  | none => rfl
  | some count => exact observe_bitLimit_sameWith (fun _ => (readBits_ignores count).bind fun x => .writeResult x) h

theorem hdecodeBody_sameWith (t : BitVec 2) (hj : j < 2 ^ 24) (h : s.inLen.toNat ≤ j) :
    (hdecodeBody t).SameWith j v s := by
  unfold hdecodeBody
  cases decodeTableOf t with
  | none => rfl
  | some tab =>
    exact observe_bitLimit_sameWith
      (fun _ => ((ignores_inflaterProperty hj).decodeSymbol tab).bind fun sym => .writeResult sym) h

/-- ZINFLATE starts past the header and its limit is that of the trailer (41_inflate R171). -/
theorem zinflateBody_sameWith (hj : j < 2 ^ 24)
    (h : s.inLen.toNat ≤ j + 4 ∨ s.inLen.toNat ≤ 2 ^ 24 ∧ j < 2) : Cmd.SameWith j v zinflateBody s := by
  by_cases hshort : s.inLen.toNat < 6
  · rw [Cmd.SameWith, zinflateBody, observe_bind_apply, observe_bind_apply, State.writeByte, State.setMem_inLen,
      decide_eq_true hshort]
    rfl
  · have hstart : Unread (8 * (s.inLen.toNat - 4)) j ((s.setBrPos 16).setOutLen 0) := by
      obtain htrailer | ⟨hin, hheader⟩ := h
      · exact .inl (by omega)
      · have hcursor : ((s.setBrPos 16).setOutLen 0).brPos.toNat = 16 := rfl
        exact .inr ⟨by omega, Nat.dvd_mul_right 8 _, by omega, by omega⟩
    rw [Cmd.SameWith, zinflateBody, observe_bind_apply, observe_bind_apply, State.writeByte, State.setMem_inLen,
      decide_eq_false hshort]
    exact (inflateBlocks_ignores hj _).same _ hstart

/-- No command reads a byte at or past its limit. -/
theorem commandBody_sameWith (i : Instr) (hj : j < 2 ^ 24) (h : s.inLen.toNat ≤ j) :
    (commandBody i).SameWith j v s := by
  have hany : Unread 0 j s := .inl (Nat.zero_le _)
  cases i with
  | rdbits n => exact rdbitsBody_sameWith n h
  | hdecode t => exact hdecodeBody_sameWith t hj h
  | infblk => exact observe_bitLimit_sameWith (fun _ => (inflateBlock_ignores hj).bind fun _ => .pure ()) h
  | inflate =>
    exact observe_bitLimit_sameWith (fun _ =>
      (Cmd.Ignores.update (f := (·.setOutLen 0)) (fun _ => rfl) fun _ => rfl).bind fun _ =>
        inflateBlocks_ignores hj _) h
  | zinflate => exact zinflateBody_sameWith hj (.inl (by omega))
  | align => exact alignToByte_ignores.same s hany
  | hbuild t n => exact (hbuildBody_ignores t n).same s hany
  | ehbuild t => exact (ehbuildBody_ignores t).same s hany
  | encblk c => exact (encblkBody_ignores hj c).same s hany
  | eflush => exact (eflushBody_ignores hj).same s hany
  | qlookup t i z =>
    exact (Cmd.Ignores.bind (.observe fun _ => rfl) fun b : Byte => .writeResult b.toNat).same s hany
  | qbuild q => exact (qbuildBody_ignores q).same s hany
  | fdct => exact fdctBody_ignores.same s hany
  | quant t => exact (quantBody_ignores t).same s hany
  | ereset => rfl

theorem exec_writeInput {i : Instr} {t : State} (h : (commandBody i).SameWith j v s) (ht : exec i s = .next t) :
    exec i (s.writeByte (inBase + j) v) = .next (t.writeByte (inBase + j) v) := by
  rw [Cmd.SameWith] at h
  rw [exec_eq_runCommand, runCommand, Host.Outcome.next.injEq] at ht ⊢
  rw [h, ← ht]
  cases commandBody i s <;> rfl

end

/-- Settles O12: what a command reads of IN lies between its cursor and its limit. -/
theorem bytesPastTheLimitDoNotMatter : Obligations.BytesPastTheLimitDoNotMatter := by
  unfold Obligations.BytesPastTheLimitDoNotMatter
  refine ⟨fun i s t j v _ hj hpast => exec_writeInput (commandBody_sameWith i hj hpast),
    fun s t j v _ hin hj hwrapper => exec_writeInput (zinflateBody_sameWith hj ?_)⟩
  exact hwrapper.symm.imp_right fun hheader => ⟨hin, hheader⟩

end Sys2Proof.Machine
end

section
/-! PROOFS. The memory a command writes: OUT below the OUT_LEN it leaves, or ECS between the old ECS_LEN and the new one
(70_reset R356, 41_inflate R150, 45_entropy R261). -/

namespace Sys2Proof.Machine

/-! ### The inflate commands -/

/-- OUT_LEN does not fall, and every byte that changed lies in OUT between the old OUT_LEN and the new one. -/
def WritesOut (s t : State) : Prop :=
  s.outLen.toNat ≤ t.outLen.toNat ∧
    ∀ a, t.readByte a ≠ s.readByte a → outBase + s.outLen.toNat ≤ a ∧ a < outBase + t.outLen.toNat

theorem WritesOut.of_eq {s t : State} (hmem : t.mem = s.mem) (hlen : t.outLen = s.outLen) : WritesOut s t :=
  ⟨(congrArg BitVec.toNat hlen).ge, fun a hne => absurd (State.readByte_congr hmem a) hne⟩

theorem WritesOut.refl (s : State) : WritesOut s s := .of_eq rfl rfl

theorem WritesOut.trans {s t u : State} (h : WritesOut s t) (h' : WritesOut t u) : WritesOut s u := by
  obtain ⟨hst, hfirst⟩ := h
  obtain ⟨htu, hsecond⟩ := h'
  refine ⟨hst.trans htu, fun a hne => ?_⟩
  by_cases hmid : t.readByte a = s.readByte a
  · have := hsecond a (hmid ▸ hne)
    omega
  · have := hfirst a hmid
    omega

theorem CursorOnly.writesOut {s t : State} (h : CursorOnly s t) : WritesOut s t :=
  .of_eq (by rw [h, State.setBrPos_mem]) (by rw [h, State.setBrPos_outLen])

theorem emit_writesOut (b : Byte) : Cmd.Relates WritesOut (emit b) := by
  intro s
  obtain ⟨hroom, h⟩ | ⟨-, h⟩ := emit_cases b s <;> rw [Cmd.after, h]
  · have hlen := s.emitted_outLen b hroom
    change WritesOut s (s.emitted b)
    refine ⟨hlen ▸ Nat.le_succ _, fun a hne => ?_⟩
    have ha : a = outBase + s.outLen.toNat := by
      by_contra hother
      exact hne (s.emitted_readByte_ne b hother)
    omega
  · exact WritesOut.refl s

theorem State.setHlen_outLen (s : State) (t : DecodeTable) (lens : List Nat) :
    (s.setHlen t lens).outLen = s.outLen := by
  cases t <;> simp only [State.setHlen, State.setHlen0_outLen, State.setHlen1_outLen, State.setHlen2_outLen]

theorem buildTable_writesOut (t : DecodeTable) (lens : List Nat) : Cmd.Relates WritesOut (buildTable t lens) := by
  intro s
  obtain ⟨-, -, h⟩ | ⟨-, h⟩ := buildTable_cases t lens s <;> rw [Cmd.after, h]
  · exact .of_eq (s.setHlen_mem t lens) (s.setHlen_outLen t lens)
  · exact WritesOut.refl s

theorem writesOut_inflaterProperty (lim : Nat) : InflaterProperty lim fun _ c => Cmd.Relates WritesOut c where
  pure := Cmd.Relates.pure WritesOut.refl
  raise := Cmd.Relates.raise WritesOut.refl
  bind hx hf := Cmd.Relates.bind (R := WritesOut) WritesOut.trans hx hf
  readBits n s := (readBits_cursorOnly lim n s).writesOut
  lengths _ := Cmd.Relates.observe WritesOut.refl _
  history _ := Cmd.Relates.observe WritesOut.refl _
  tooFar _ := Cmd.Relates.observe WritesOut.refl _
  emit := emit_writesOut
  buildTable := buildTable_writesOut

theorem inflateBlock_writesOut (lim : Nat) : Cmd.Relates WritesOut (inflateBlock lim) :=
  (writesOut_inflaterProperty lim).inflateBlock (fun s => (alignToByte_cursorOnly s).writesOut) fun _ _ _ =>
    .of_eq rfl rfl

theorem inflateBlocks_writesOut (lim fuel : Nat) : Cmd.Relates WritesOut (inflateBlocks lim fuel) :=
  (writesOut_inflaterProperty lim).inflateBlocks (inflateBlock_writesOut lim) fuel

/-- An inflate command writes from the OUT_LEN it starts with: its own for INFBLK, 0 for INFLATE and ZINFLATE. -/
theorem commandBody_writesOut {i : Instr} (hi : inflates i) (s : State) :
    ∃ u, u.mem = s.mem ∧ WritesOut u ((commandBody i).after s) := by
  obtain rfl | rfl | rfl := hi
  · rw [commandBody, infblkBody, Cmd.after, observe_bind_apply]
    exact ⟨s, rfl, Cmd.Relates.bind (R := WritesOut) WritesOut.trans (inflateBlock_writesOut s.bitLimit)
      (fun _ => Cmd.Relates.pure WritesOut.refl ()) s⟩
  · rw [commandBody, inflateBody, Cmd.after, observe_bind_apply, update_bind_apply]
    exact ⟨s.setOutLen 0, rfl, inflateBlocks_writesOut s.bitLimit _ _⟩
  · rw [commandBody, zinflateBody, Cmd.after, observe_bind_apply]
    by_cases hshort : s.inLen.toNat < 6
    · rw [decide_eq_true hshort]
      exact ⟨s, rfl, WritesOut.refl s⟩
    · rw [decide_eq_false hshort, raiseIf_false, pure_bind_apply, update_bind_apply]
      exact ⟨(s.setBrPos 16).setOutLen 0, rfl, inflateBlocks_writesOut _ _ _⟩

/-! ### The entropy encoder -/

/-- Every byte that changed lies in ECS between the old ECS_LEN and the new one. -/
def WritesEcs (s t : State) : Prop :=
  ∀ a, t.readByte a ≠ s.readByte a → ecsBase + s.ecsLen.toNat ≤ a ∧ a < ecsBase + t.ecsLen.toNat

theorem WritesEcs.refl (s : State) : WritesEcs s s := fun _ hne => absurd rfl hne

theorem Emits.writesEcs {s t : State} {bytes : List Byte} (h : Emits s t bytes) : WritesEcs s t := by
  intro a hne
  have hlen := h.ecsLen
  by_contra hout
  exact hne (h.kept a (by omega))

theorem encblkBody_writesEcs (c : BitVec 2) : Cmd.Relates WritesEcs (encblkBody c) := by
  intro s
  obtain ⟨comp, fields, hroom, h⟩ | h := encblkBody_after c s <;> rw [h]
  · obtain ⟨data, hemits, -⟩ := State.putBits_emits (bitsOfFields fields) (hroom.trans_lt s.ecsSize.isLt)
    exact hemits.writesEcs
  · exact WritesEcs.refl s

theorem eflushBody_writesEcs {s : State} (hpending : s.pbits.length ≤ 7) : WritesEcs s (eflushBody.after s) := by
  obtain ⟨-, h⟩ | ⟨-, hroom, h⟩ | ⟨-, -, h⟩ := eflushBody_cases s <;> rw [Cmd.after, h]
  · exact WritesEcs.refl s
  · have hbyte : (BitVec.ofNat 8 (flushByte s.pbits)).toNat = flushByte s.pbits :=
      Nat.mod_eq_of_lt (flushByte_lt hpending)
    exact (s.emitByte_emits _ (by rw [hbyte]; exact hroom.trans_lt s.ecsSize.isLt)).writesEcs
  · exact WritesEcs.refl s

/-! ### The other commands -/

/-- Only the inflate commands, ENCBLK and EFLUSH write memory. -/
theorem commandBody_mem {i : Instr} (hi : ¬ inflates i) (hencblk : ∀ c, i ≠ .encblk c) (heflush : i ≠ .eflush)
    (s : State) : ((commandBody i).after s).mem = s.mem := by
  have hframe := commandBody_frame i s
  cases i
  case infblk | inflate | zinflate => simp [inflates] at hi
  case encblk c => exact absurd rfl (hencblk c)
  case eflush => exact absurd rfl heflush
  case align | ereset => rfl
  case hbuild t n =>
    obtain h | ⟨tab, lens, -, h⟩ := hframe <;> rw [h]
    exact s.setHlen_mem tab lens
  case ehbuild t =>
    obtain h | ⟨table, h⟩ := hframe <;> rw [h]
    exact State.setEhuf_mem _ _
  all_goals rw [hframe]

/-- Settles O11: OUT_LEN and ECS_LEN grow with the bytes written, and the invariant keeps them within their sizes. -/
theorem memoryWrittenOnlyBy : Obligations.MemoryWrittenOnlyBy := by
  unfold Obligations.MemoryWrittenOnlyBy
  intro i s t a hinv ht hne
  have htinv := exec_keepsInv hinv ht
  obtain ⟨busy, done, err, code, cmd, pos, rfl⟩ := exec_writes_record ht
  by_cases hi : inflates i
  · obtain ⟨u, hmem, -, hwrites⟩ := commandBody_writesOut hi s
    obtain ⟨hlo, hhi⟩ := hwrites a (State.readByte_congr hmem a ▸ hne)
    exact .inl ⟨hi, (Nat.le_add_right _ _).trans hlo, hhi, htinv.outLen⟩
  · have henc : (∃ c, i = .encblk c) ∨ i = .eflush := by
      by_contra hother
      rw [not_or, not_exists] at hother
      exact hne (State.readByte_congr (commandBody_mem hi hother.1 hother.2 s) a)
    have hwrites : WritesEcs s ((commandBody i).after s) := by
      obtain ⟨c, rfl⟩ | rfl := henc
      · exact encblkBody_writesEcs c s
      · exact eflushBody_writesEcs hinv.pbits
    obtain ⟨hlo, hhi⟩ := hwrites a hne
    exact .inr ⟨henc, hlo, hhi, htinv.ecsLen⟩

end Sys2Proof.Machine
end

section
/-! PROOFS. Reset: the power-on values, the soft reset and its race with a pending command (70_reset). -/

namespace Sys2Proof.Machine

/-! ### Soft reset (70_reset R342, R343) -/

theorem State.hostWrite_sreset (s : State) {v : Word} (hv : v.getLsbD 0 = true) :
    s.hostWrite 0x00000004#32 .word v = s.softReset :=
  (s.hostWrite_register v (by decide) (by decide)).trans <| (s.writeRegister_ctrl v).trans (if_pos hv)

/-- A write of CTRL.SRESET that comes next resets the block. -/
theorem step_sreset {s : State} {rest : List BusEvent} {v : Word} (hv : v.getLsbD 0 = true)
    (hbus : s.bus = .write 0x00000004#32 .word v :: rest) : step s = .next (s.setBus rest).softReset :=
  (nextEvent_cons hbus).trans (congrArg Host.Outcome.next (State.hostWrite_sreset _ hv))

/-- The engine's step leaves the host's accesses to come alone. -/
theorem engineExecute_bus {w : Word} {s t : State} (h : engineExecute w s = .next t) : t.bus = s.bus := by
  cases hdecode : decode w with
  | ok i =>
    rw [engineExecute_of_decode hdecode] at h
    obtain ⟨⟨-, -, -, -, -, -, -, -, -, -, hbus, -⟩, -⟩ := stateWrittenOnlyBy i s t h
    exact hbus
  | error e =>
    rw [engineExecute, hdecode] at h
    cases h
    rfl

/-- Settles O57: the write is a soft reset, and the engine's step before it leaves it to come. -/
theorem softResetAndItsRace : Obligations.SoftResetAndItsRace := by
  unfold Obligations.SoftResetAndItsRace
  intro s t v hv
  refine ⟨?_, step_sreset hv, fun hbusy hbus ht => ?_⟩
  · rw [s.hostWrite_sreset hv]
    exact ⟨rfl, rfl, rfl⟩
  · have hengine : engineExecute s.pending (s.setBus [.write 0x00000004#32 .word v]) = .next t :=
      ((nextEvent_cons hbus).trans (engineStep_of_busy hbusy)).symm.trans ht
    exact ⟨step_sreset hv (engineExecute_bus hengine), hengine, rfl, rfl⟩

/-! ### Power-on reset (70_reset R340, R345) -/

section
variable (p : Params)

theorem State.resetAt_hlen_getD (t : DecodeTable) (j : Nat) : ((State.resetAt p).hlen t).getD j 0 = 0 := by
  have hzero : ∀ l ∈ (State.resetAt p).hlen t, l = 0 := by cases t <;> simp [State.hlen, State.resetAt]
  obtain hj | hj := Nat.lt_or_ge j ((State.resetAt p).hlen t).length
  · exact hzero _ (getD_mem hj)
  · exact List.getD_eq_default _ _ hj

/-- Quality 50 leaves the standard tables as they are (42_quant R190). -/
theorem qTables_fifty {i : Nat} (hi : i < 64) :
    ((qTableY 50).getD i 0).toNat = qstdY i ∧ ((qTableC 50).getD i 0).toNat = qstdC i := by
  obtain ⟨⟨hy, hy'⟩, hc, hc'⟩ := qstd_bounds i hi
  have hscale : qScale (clipQuality 50) = 100 := rfl
  rw [toNat_qTableY _ hi, toNat_qTableC _ hi, hscale]
  exact ⟨qEntry_scale_hundred (by omega) hy', qEntry_scale_hundred (by omega) hc'⟩

theorem State.resetAt_huffBuild (t : Fin 4) :
    huffBuild t (State.resetAt p).hspec[t] = some (State.resetAt p).ehuf[t] := by
  simpa [State.resetAt] using ehufRom_built t

theorem State.resetAt_hspec (t : Fin 4) : (State.resetAt p).hspec[t] = hspecRom t := by
  simp [State.resetAt]

theorem State.resetAt_encodeReady : (State.resetAt p).EncodeReady 50 :=
  ⟨⟨rfl, rfl⟩, rfl, rfl, State.resetAt_huffBuild p, fun c => by cases c <;> rfl, rfl, rfl⟩

end

/-- Settles O58: the registers and flags are read off, and each table has its lemma above. -/
theorem powerOnValues : Obligations.PowerOnValues := by
  unfold Obligations.PowerOnValues
  intro p s
  refine ⟨rfl, rfl, rfl, rfl, rfl, rfl, rfl, rfl, rfl, rfl, rfl, rfl, rfl, rfl, rfl, rfl, rfl,
    State.resetAt_hlen_getD p, fun _ => qTables_fifty, fun t => ?_, ⟨rfl, rfl⟩, ⟨rfl, rfl, rfl⟩,
    State.resetAt_encodeReady p⟩
  have hspec := State.resetAt_hspec p t
  exact ⟨hspec, hspec ▸ State.resetAt_huffBuild p t⟩

/-- Settles O60: every value R340 gives meets its part of the invariant. -/
theorem invariantAfterReset : Obligations.InvariantAfterReset := by
  unfold Obligations.InvariantAfterReset
  exact ⟨fun p => resetAt_inv, resetAt_inv (p := Config.params) (by decide)⟩

end Sys2Proof.Machine
end
